-- ==== Sys2Proof/Word.lean ====
section
/-! DEFINITION. The word types of the VHC core: bytes, Symbols (00_scope.md R6) and node indices (R7). -/

namespace Sys2Proof

/-- One byte of a byte buffer (20_memory.md R70). -/
abbrev Byte := BitVec 8

/-- A Symbol, "a signed 32-bit integer" (00_scope.md R6, SYM_W), held as its two's-complement bits
(93_implementation_defined.md G1). -/
abbrev Sym := BitVec 32

/-- An index into the node arena NODE (00_scope.md R7, IDX_W = 17). -/
abbrev NodeIdx := BitVec 17

end Sys2Proof
end

