-- ==== Sys2Proof/Config.lean ====
section
/-! DEFINITION. The open parameters (00_scope.md R7, 92_eei_decisions.md section 4), the element formats of the
internal arrays (10_state.md R36 to R41), and the free values the spec leaves as "any value"
(93_implementation_defined.md U1, U2, U3, U5). -/

namespace Sys2Proof

/-- The parameters the spec leaves OPEN (00_scope.md R7). A capacity `none` is unbounded, which
92_eei_decisions.md section 4 allows. They are arguments of the model (10_state.md R47), held as constant data
in State and changed by no step (DESIGN CHOICE, log 1). -/
structure Params where
  /-- N_MAX, 1 to 65535. -/
  nMax : Nat
  /-- SYM_IN_CAP, in 32-bit words. -/
  symInCap : Option Nat
  /-- BYTE_OUT_CAP, in bytes. -/
  byteOutCap : Option Nat
  /-- BYTE_IN_CAP, in bytes. -/
  byteInCap : Option Nat
  /-- SYM_OUT_CAP, in 32-bit words. -/
  symOutCap : Option Nat
  deriving DecidableEq, Repr

/-- The default N_MAX of 00_scope.md R7; capacities, for which the spec gives no default, unbounded (log 1). -/
def Params.default : Params :=
  { nMax := 65535, symInCap := none, byteOutCap := none, byteInCap := none, symOutCap := none }

/-- The range of N_MAX (00_scope.md R7). -/
abbrev Params.Legal (p : Params) : Prop := 1 ≤ p.nMax ∧ p.nMax ≤ 65535

/-- An entry of the frequency table FT (10_state.md R36). -/
structure FtEntry where
  sym : Sym
  cnt : BitVec 32
  deriving DecidableEq, Repr, Inhabited

/-- An entry of the node arena NODE (10_state.md R37). -/
structure Node where
  leaf : Bool
  sym : Sym
  freq : BitVec 32
  left : NodeIdx
  right : NodeIdx
  deriving DecidableEq, Repr, Inhabited

/-- An entry of the code generator's STACK (10_state.md R39). -/
structure StackEntry where
  node : NodeIdx
  pat : BitVec 32
  len : BitVec 6
  deriving DecidableEq, Repr, Inhabited

/-- An entry of the code store CODE: the pair (len, pat) of 00_scope.md section 6 (10_state.md R40). -/
structure CodeEntry where
  len : BitVec 6
  pat : BitVec 32
  deriving DecidableEq, Repr, Inhabited

/-- An entry of the decode table DTAB (10_state.md R41). -/
structure DtEntry where
  len : BitVec 6
  pat : BitVec 32
  sym : Sym
  deriving DecidableEq, Repr, Inhabited

/-- Free value: what element `index` of a buffer holds when nothing has written it since the buffer's contents
became unspecified (93_implementation_defined.md U2, U3). `epoch` tells apart two such events (log 4). -/
opaque Config.anyElement (w epoch index : Nat) : BitVec w

/-- Free value: what a host read returns that 93_implementation_defined.md U5 calls `any value` (log 4). -/
opaque Config.anyRead (n : Nat) : BitVec 38

/-- Free value: an entry of NODE that nothing has written since START (93_implementation_defined.md U1, log 4). -/
opaque Config.anyNode (k : NodeIdx) : Node

/-- Free value: an entry of CODE that nothing has written since START (93_implementation_defined.md U1, log 4). -/
opaque Config.anyCode (i : Nat) : CodeEntry

/-- Free value: entry `i` of FT after a command has ended (93_implementation_defined.md U1). `epoch` tells apart two
commands' ends; the same of the four constants below (log 18). -/
opaque Config.anyFtEntry (epoch i : Nat) : FtEntry

/-- Free value: entry `k` of NODE after a command has ended (93_implementation_defined.md U1, log 18). -/
opaque Config.anyNodeEntry (epoch k : Nat) : Node

/-- Free value: element `i` of PQ after a command has ended (93_implementation_defined.md U1, log 18). -/
opaque Config.anyPqEntry (epoch i : Nat) : NodeIdx

/-- Free value: entry `i` of CODE after a command has ended (93_implementation_defined.md U1, log 18). -/
opaque Config.anyCodeEntry (epoch i : Nat) : CodeEntry

/-- Free value: entry `i` of DTAB after a command has ended (93_implementation_defined.md U1, log 18). -/
opaque Config.anyDtEntry (epoch i : Nat) : DtEntry

/-- Free value: "the single element of PQ" of a queue that is empty, which 41_tree_builder.md R136 never meets
(log 4). -/
opaque Config.anyRoot : NodeIdx

end Sys2Proof
end

