-- ==== Sys2Proof/Syntax.lean ====
section
/-! DEFINITION. The five rows of the opcode table (30_encoding.md R101): the two commands and the three records of
the file format. -/

namespace Sys2Proof

/-- The four formats of the opcode table (30_encoding.md R90, R92, R94, R96). A reader tells the three record
formats apart by position only (R91). -/
inductive Format where
  | cmd
  | hdr
  | ent
  | pay
  deriving DecidableEq, Repr

/-- The instructions: one constructor per row of the opcode table. -/
inductive Instr where
  /-- Command ENCODE, OP = 0 (47_commands.md R215). -/
  | encode
  /-- Command DECODE, OP = 1 (47_commands.md R216). -/
  | decode
  /-- Record HDR: the table size (30_encoding.md R92). -/
  | hdr (tableSize : BitVec 16)
  /-- Record ENT: one table entry (30_encoding.md R94). -/
  | ent (symbolValue : Sym) (codeLength : BitVec 8) (codePattern : BitVec 32)
  /-- Record PAY: one payload byte (30_encoding.md R96). -/
  | pay (payload : Byte)
  deriving DecidableEq, Repr

/-- The format an instruction is encoded in. -/
def Instr.format : Instr → Format
  | .encode => .cmd
  | .decode => .cmd
  | .hdr _ => .hdr
  | .ent _ _ _ => .ent
  | .pay _ => .pay

end Sys2Proof
end

