-- ==== Sys2Proof/Machine/State.lean ====
section
/-! DEFINITION. The state of the VHC core as plain data (10_state.md), its stops, and the state after reset
(70_reset_and_hazards.md R270). -/

namespace Sys2Proof.Machine

/-- A buffer (20_memory.md R60): the elements written so far, by rising index. An element not listed holds any
value (93_implementation_defined.md U2); `epoch` names the event since which that is so (log 4). -/
structure Memory (w : Nat) where
  epoch : Nat
  cells : List (Nat × BitVec w)
  deriving DecidableEq, Repr

/-- The values STATUS.PHASE takes (10_state.md R23); codes 8 to 15 are never taken. -/
inductive Phase where
  | idle | fa | tb | cg | ts | en | td | de
  deriving DecidableEq, Repr

/-- The command in progress, register cur_op (10_state.md R35): 0 ENCODE, 1 DECODE. -/
inductive Op where
  | encode | decode
  deriving DecidableEq, Repr

/-- The six error kinds (60_exceptions.md R240). Raising one is a next state (R245), not a stop of the model. -/
inductive ErrKind where
  | ioError | unknownSymbolInTable | codeTooLong | malformedTable | ambiguousTrailingBits | tableTooLarge
  deriving DecidableEq, Repr

/-- The four buffers (20_memory.md R60). -/
inductive BufId where
  | symIn | byteOut | byteIn | symOut
  deriving DecidableEq, Repr

/-- What the host can do between two steps of the core (00_scope.md R8, 30_encoding.md R100), and the two ways it
lets the core run. -/
inductive HostMove where
  /-- Write host register `k` with value `v` (10_state.md R20); register 0 is CMD. -/
  | writeReg (k v : Nat)
  /-- Read host register `k` (10_state.md R20). -/
  | readReg (k : Nat)
  /-- Write a word of SYM_IN or SYM_OUT, or a byte of BYTE_IN or BYTE_OUT (20_memory.md R72); a byte buffer takes
  the low 8 bits. -/
  | writeBuf (b : BufId) (i : Nat) (v : BitVec 32)
  /-- Read an element of a buffer (20_memory.md R72). -/
  | readBuf (b : BufId) (i : Nat)
  /-- Drive the `port_ok` pins (10_state.md R34). -/
  | pins (v : BitVec 4)
  /-- Assert `rst` (70_reset_and_hazards.md R270, R271). -/
  | reset
  /-- Copy the file just encoded to BYTE_IN and set BYTE_IN_LEN and DEC_BITS (30_encoding.md R100, FEED). -/
  | feed
  /-- Let the core take one step. -/
  | core
  /-- Let the core step until STATUS.DONE = 1 (30_encoding.md R100, ENCODE and DECODE lines). -/
  | waitDone
  deriving DecidableEq, Repr

/-- The working registers of the datapath (10_state.md R35) and the internal arrays (R36 to R41). Of an array only
its valid elements are held, so the count registers ft_n, node_n, pq_n, sp and dtab_n are the lengths of the lists
(log 6). -/
structure Work where
  curOp : Op
  lenEn : Bool
  inIdx : BitVec 32
  root : NodeIdx
  tsI : BitVec 16
  wrPtr : BitVec 35
  pkByte : BitVec 8
  pkCnt : BitVec 3
  bitTotal : BitVec 37
  rdPtr : BitVec 35
  tdM : BitVec 16
  tdI : BitVec 16
  bitsLeft : BitVec 38
  bitPos : BitVec 3
  accPat : BitVec 32
  accLen : BitVec 6
  outIdx : BitVec 38
  /-- FT, entries 0 .. ft_n - 1 (R36). -/
  ft : List FtEntry
  /-- NODE, entries 0 .. node_n - 1 (R37). -/
  node : List Node
  /-- PQ, the queued node indices in ascending order of index (R38). -/
  pq : List NodeIdx
  /-- STACK, entries 0 .. sp - 1, the top entry first (R39). -/
  stack : List StackEntry
  /-- CODE, the entries written since START by rising leaf index (R40). -/
  code : List (Nat × CodeEntry)
  /-- DTAB, entries 0 .. dtab_n - 1 (R41). -/
  dtab : List DtEntry
  deriving DecidableEq, Repr

/-- The START values of the working registers (10_state.md R35, R48). -/
def Work.start (op : Op) (lenEn : Bool) : Work :=
  { curOp := op, lenEn := lenEn, inIdx := 0, root := 0, tsI := 0, wrPtr := 0, pkByte := 0, pkCnt := 0,
    bitTotal := 0, rdPtr := 0, tdM := 0, tdI := 0, bitsLeft := 0, bitPos := 0, accPat := 0, accLen := 0,
    outIdx := 0, ft := [], node := [], pq := [], stack := [], code := [], dtab := [] }

/-- The state of the machine: host registers (10_state.md R20 to R33), working registers and arrays (R35 to R41),
buffers (20_memory.md R60), the `port_ok` pins (R34); and the model's own fields: the parameters (log 1), the
host's pending moves and last read (log 2), and the counter free values are taken from (log 4). -/
structure State where
  /-- STATUS.BUSY -/
  busy : Bool
  /-- STATUS.DONE -/
  done : Bool
  /-- STATUS.ERR -/
  err : Bool
  /-- STATUS.TRAIL -/
  trail : Bool
  /-- STATUS.PHASE -/
  phase : Phase
  /-- ERR_CODE -/
  errCode : BitVec 3
  /-- CFG, bit LEN_EN -/
  cfg : BitVec 1
  /-- IN_LEN -/
  inLen : BitVec 32
  /-- BYTE_OUT_LEN -/
  byteOutLen : BitVec 35
  /-- ENC_BITS -/
  encBits : BitVec 37
  /-- ENC_TAB_N -/
  encTabN : BitVec 16
  /-- BYTE_IN_LEN -/
  byteInLen : BitVec 35
  /-- DEC_BITS -/
  decBits : BitVec 38
  /-- SYM_OUT_LEN -/
  symOutLen : BitVec 38
  /-- DEC_TAB_N -/
  decTabN : BitVec 16
  /-- RESID_LEN -/
  residLen : BitVec 6
  work : Work
  /-- SYM_IN -/
  symIn : Memory 32
  /-- BYTE_OUT -/
  byteOut : Memory 8
  /-- BYTE_IN -/
  byteIn : Memory 8
  /-- SYM_OUT -/
  symOut : Memory 32
  /-- The level of the `port_ok` pins. -/
  portOk : BitVec 4
  params : Params
  script : List HostMove
  hostData : BitVec 38
  fresh : Nat
  deriving DecidableEq, Repr

/-- Why the machine stops with a fault. -/
inductive Fault where
  /-- Raised by a host move (readBuf, writeBuf) that names an element at or past the buffer's capacity: the element
  does not exist (20_memory.md R60). The core never raises it. Safe: the model stops where the spec says nothing
  (log 5). -/
  | noSuchElement (b : BufId) (i : Nat)
  deriving DecidableEq, Repr

/-- Why the machine refuses to go on. -/
inductive Refusal where
  /-- Raised by exec for an instruction without a meaning; no arm uses it. Safe. -/
  | notModelled (mnemonic : String)
  /-- Raised by a host move that writes a buffer while STATUS.BUSY = 1: "refuse: the model has no such host move"
  (93_implementation_defined.md U4, 70_reset_and_hazards.md R273). The spec says this assumption on the host errs
  toward proving: unsafe if the host breaks it (log 5). -/
  | hostBufferWriteWhileBusy (b : BufId)
  /-- Raised by the meaning of a record (HDR, ENT, PAY) in a state whose reader does not stand at a record of that
  format: a reader tells records apart by position only (30_encoding.md R91). No step reaches it. Safe (log 7). -/
  | recordOutOfPlace (f : Format)
  deriving DecidableEq, Repr

/-- The state after reset (70_reset_and_hazards.md R270) of a core with parameters `p`: every register 0, PHASE
IDLE, no array element valid, every buffer element any value. -/
def State.powerOn (p : Params) : State :=
  { busy := false, done := false, err := false, trail := false, phase := .idle, errCode := 0, cfg := 0,
    inLen := 0, byteOutLen := 0, encBits := 0, encTabN := 0, byteInLen := 0, decBits := 0, symOutLen := 0,
    decTabN := 0, residLen := 0, work := Work.start .encode false,
    symIn := { epoch := 0, cells := [] }, byteOut := { epoch := 1, cells := [] },
    byteIn := { epoch := 2, cells := [] }, symOut := { epoch := 3, cells := [] },
    portOk := 0b1111#4, params := p, script := [], hostData := 0, fresh := 4 }

/-- The machine right after reset, with the default parameters (log 1). -/
def State.reset : State := State.powerOn Params.default

end Sys2Proof.Machine
end

