-- ==== Sys2Proof/Machine/Flags.lean ====
section
/-! DEFINITION. STATUS, ERR_CODE and what sets and clears the flags (10_state.md R23, R24, R46; 60_exceptions.md
R240). There are no arithmetic condition codes (R46). -/

namespace Sys2Proof.Machine

/-- PHASE codes (10_state.md R23). -/
def Phase.code : Phase → BitVec 4
  | .idle => 0
  | .fa => 1
  | .tb => 2
  | .cg => 3
  | .ts => 4
  | .en => 5
  | .td => 6
  | .de => 7

/-- ERR_CODE values (60_exceptions.md R240). -/
def ErrKind.code : ErrKind → BitVec 3
  | .ioError => 1
  | .unknownSymbolInTable => 2
  | .codeTooLong => 3
  | .malformedTable => 4
  | .ambiguousTrailingBits => 5
  | .tableTooLarge => 6

/-- Register STATUS as one word: PHASE in bits 7:4, TRAIL 3, ERR 2, DONE 1, BUSY 0 (10_state.md R23). -/
def State.statusWord (s : State) : BitVec 8 :=
  s.phase.code ++ BitVec.ofBool s.trail ++ BitVec.ofBool s.err ++ BitVec.ofBool s.done ++ BitVec.ofBool s.busy

/-- Output pin `busy`: a copy of STATUS.BUSY (10_state.md R34). -/
def State.busyPin (s : State) : Bool := s.busy

/-- Output pin `done`: a copy of STATUS.DONE (10_state.md R34, 60_exceptions.md R250). -/
def State.donePin (s : State) : Bool := s.done

/-- The flags and ERR_CODE as START sets them (47_commands.md R217). -/
def State.flagsStart (s : State) : State :=
  { s with busy := true, done := false, err := false, trail := false, errCode := 0 }

/-- The flags and PHASE as a command that ends without error leaves them (47_commands.md R218). -/
def State.flagsComplete (s : State) : State :=
  { s with busy := false, done := true, phase := .idle }

/-- The flags, ERR_CODE and PHASE as an error leaves them (60_exceptions.md R245). -/
def State.flagsError (s : State) (e : ErrKind) : State :=
  { s with errCode := e.code, err := true, done := true, busy := false, trail := false, phase := .idle }

end Sys2Proof.Machine
end

