-- ==== Sys2Proof/Machine/Ops.lean ====
section
/-! DEFINITION. Shared operations: buffers and arrays (20_memory.md), the count registers (10_state.md R35),
START, `raise` and reset (47_commands.md R217, 60_exceptions.md R245, 70_reset_and_hazards.md R270). -/

namespace Sys2Proof.Machine

/-- The element listed at index `a`, if any. -/
def cellsFind {α : Type} (a : Nat) : List (Nat × α) → Option α
  | [] => none
  | (b, v) :: t => if a = b then some v else cellsFind a t

/-- List element `v` at index `a`, keeping the indices rising. -/
def cellsSet {α : Type} (a : Nat) (v : α) : List (Nat × α) → List (Nat × α)
  | [] => [(a, v)]
  | (b, u) :: t =>
    if a < b then (a, v) :: (b, u) :: t
    else if a = b then (a, v) :: t
    else (b, u) :: cellsSet a v t

/-- The canonical form of a list of elements: indices strictly rising. An element not listed has no value of its
own (it reads as a free value), so no entry can equal what an unlisted index reads as (log 4). -/
abbrev CellsWf {α : Type} (l : List (Nat × α)) : Prop := (l.map Prod.fst).Pairwise (· < ·)

/-- A buffer is in canonical form. -/
abbrev Memory.wf {w : Nat} (m : Memory w) : Prop := CellsWf m.cells

/-- Element `i` of a buffer; any value if nothing has written it (93_implementation_defined.md U2). -/
def Memory.read {w : Nat} (m : Memory w) (i : Nat) : BitVec w :=
  match cellsFind i m.cells with
  | some v => v
  | none => Config.anyElement w m.epoch i

/-- Write element `i`; "writing stores the value and nothing more" (20_memory.md R70). -/
def Memory.write {w : Nat} (m : Memory w) (i : Nat) (v : BitVec w) : Memory w :=
  { m with cells := cellsSet i v m.cells }

/-- Write consecutive elements from index `a` on, in ascending order (20_memory.md R70). -/
def Memory.writeList {w : Nat} (m : Memory w) (a : Nat) : List (BitVec w) → Memory w
  | [] => m
  | v :: vs => (m.write a v).writeList (a + 1) vs

/-- The `n` elements from index `a` on. -/
def Memory.readList {w : Nat} (m : Memory w) (a : Nat) : Nat → List (BitVec w)
  | 0 => []
  | n + 1 => m.read a :: m.readList (a + 1) n

/-- Every element holds any value from now on (93_implementation_defined.md U2, U3). -/
def Memory.forget {w : Nat} (_m : Memory w) (epoch : Nat) : Memory w :=
  { epoch := epoch, cells := [] }

/-- `n` elements fit a capacity. -/
def fits (cap : Option Nat) (n : Nat) : Bool :=
  match cap with
  | none => true
  | some c => n ≤ c

/-- `MemRead(S, a, k)` (20_memory.md R66). -/
def memRead {w : Nat} (cap : Option Nat) (m : Memory w) (a k : Nat) : Except ErrKind (List (BitVec w)) :=
  if fits cap (a + k) then .ok (m.readList a k) else .error .ioError

/-- `MemRead(S, a, 1)`, one element (20_memory.md R66). -/
def memReadOne {w : Nat} (cap : Option Nat) (m : Memory w) (a : Nat) : Except ErrKind (BitVec w) :=
  if fits cap (a + 1) then .ok (m.read a) else .error .ioError

/-- `MemWrite(S, a, k, v)`: IOError before anything of this write is stored (20_memory.md R66). -/
def memWrite {w : Nat} (cap : Option Nat) (m : Memory w) (a : Nat) (vs : List (BitVec w)) :
    Except ErrKind (Memory w) :=
  if fits cap (a + vs.length) then .ok (m.writeList a vs) else .error .ioError

/-- Register ft_n (10_state.md R35, R36). -/
def Work.ftN (w : Work) : BitVec 16 := BitVec.ofNat 16 w.ft.length

/-- Register node_n (10_state.md R35, R37). -/
def Work.nodeN (w : Work) : BitVec 17 := BitVec.ofNat 17 w.node.length

/-- Register pq_n (10_state.md R35, R38). -/
def Work.pqN (w : Work) : BitVec 16 := BitVec.ofNat 16 w.pq.length

/-- Register sp (10_state.md R35, R39). -/
def Work.sp (w : Work) : BitVec 6 := BitVec.ofNat 6 w.stack.length

/-- Register dtab_n (10_state.md R35, R41). -/
def Work.dtabN (w : Work) : BitVec 16 := BitVec.ofNat 16 w.dtab.length

/-- NODE[k]; any value if nothing has written it (93_implementation_defined.md U1). -/
def Work.nodeAt (w : Work) (k : NodeIdx) : Node :=
  match w.node[k.toNat]? with
  | some n => n
  | none => Config.anyNode k

/-- CODE[i]; any value if nothing has written it (93_implementation_defined.md U1). -/
def Work.codeAt (w : Work) (i : Nat) : CodeEntry :=
  match cellsFind i w.code with
  | some c => c
  | none => Config.anyCode i

/-- Zero the three result registers of a command (47_commands.md R217, 60_exceptions.md R245). -/
def State.clearResults (s : State) : Op → State
  | .encode => { s with byteOutLen := 0, encBits := 0, encTabN := 0 }
  | .decode => { s with symOutLen := 0, decTabN := 0, residLen := 0 }

/-- Every element of a command's output buffer holds any value (60_exceptions.md R245,
93_implementation_defined.md U3). -/
def State.forgetOutput (s : State) : Op → State
  | .encode => { s with byteOut := s.byteOut.forget s.fresh, fresh := s.fresh + 1 }
  | .decode => { s with symOut := s.symOut.forget s.fresh, fresh := s.fresh + 1 }

/-- The working registers take their START values, cur_op and len_en staying as START latched them: "the state
after an error is the state at START with the changes listed here" (60_exceptions.md R245; DEDUCED, log 8). -/
def State.dropWork (s : State) : State :=
  { s with work := Work.start s.work.curOp s.work.lenEn }

/-- `raise E` (60_exceptions.md R245): the one operation every error takes. -/
def State.raise (s : State) (e : ErrKind) : State :=
  ((s.dropWork.flagsError e).clearResults s.work.curOp).forgetOutput s.work.curOp

/-- `n` elements of an array whose contents are any value. -/
def anyEntries {α : Type} (any : Nat → α) (n : Nat) : List α := (List.range n).map any

/-- The contents of the internal arrays are any value from now on; their counts stay (93_implementation_defined.md U1:
"after a command has ended"). STACK is empty then (42_code_generator.md R156). The free values are numbered by `epoch`
(log 18). -/
def Work.forgetArrays (w : Work) (epoch : Nat) : Work :=
  { w with
    ft := anyEntries (Config.anyFtEntry epoch) w.ft.length,
    node := anyEntries (Config.anyNodeEntry epoch) w.node.length,
    pq := anyEntries (Config.anyPqEntry epoch) w.pq.length,
    code := w.code.map fun c => (c.1, Config.anyCodeEntry epoch c.1),
    dtab := anyEntries (Config.anyDtEntry epoch) w.dtab.length }

/-- `complete` (47_commands.md R218): the flags and PHASE, and the internal arrays hold any value once the command has
ended (93_implementation_defined.md U1, log 18). -/
def State.complete (s : State) : State :=
  { s.flagsComplete with work := s.work.forgetArrays s.fresh, fresh := s.fresh + 1 }

/-- START with its checks passed or not, before PHASE is set: the flags, the working registers, the command's
result registers (47_commands.md R217). -/
def State.startClear (s : State) (op : Op) : State :=
  ({ s.flagsStart with work := Work.start op (op = .decode && s.cfg = 1) } : State).clearResults op

/-- The buffers a command opens are available: `port_ok` bits 0 and 1 for ENCODE, 2 and 3 for DECODE
(47_commands.md R217, 60_exceptions.md R241). -/
def State.portsOk (s : State) : Op → Bool
  | .encode => s.portOk.getLsbD 0 && s.portOk.getLsbD 1
  | .decode => s.portOk.getLsbD 2 && s.portOk.getLsbD 3

/-- The declared input fits its buffer (47_commands.md R217). -/
def State.inputFits (s : State) : Op → Bool
  | .encode => fits s.params.symInCap s.inLen.toNat
  | .decode => fits s.params.byteInCap s.byteInLen.toNat

/-- The first phase of a command (10_state.md R45). -/
def Op.firstPhase : Op → Phase
  | .encode => .fa
  | .decode => .td

/-- START(op) (47_commands.md R217): `port_ok` is checked before the length (60_exceptions.md R248). -/
def State.start (s : State) (op : Op) : State :=
  if s.portsOk op = false then (s.startClear op).raise .ioError
  else if s.inputFits op = false then (s.startClear op).raise .ioError
  else { s.startClear op with phase := op.firstPhase }

/-- The host's write of CMD (10_state.md R21): START when idle, ignored when busy (47_commands.md R219). -/
def State.command (s : State) (op : Op) : State :=
  if s.busy then s else s.start op

/-- Reset (70_reset_and_hazards.md R270, R271): every register and count as at power-on; the contents of all four
buffers any value. The pins, the parameters and what the host still plans are not the core's. -/
def State.rst (s : State) : State :=
  { State.powerOn s.params with
    symIn := s.symIn.forget s.fresh, byteOut := s.byteOut.forget (s.fresh + 1),
    byteIn := s.byteIn.forget (s.fresh + 2), symOut := s.symOut.forget (s.fresh + 3),
    fresh := s.fresh + 4, portOk := s.portOk, script := s.script, hostData := s.hostData }

/-- The successor of a phase that ends without error is taken up (10_state.md R45). -/
def State.toPhase (s : State) (p : Phase) : State := { s with phase := p }

end Sys2Proof.Machine
end

