-- ==== Sys2Proof/Machine/Analyzer.lean ====
section
/-! DEFINITION. Unit FA, the frequency analyzer (40_frequency_analyzer.md). -/

namespace Sys2Proof.Machine

/-- The least j with j = ft_n or not (FT[j].sym <s sym) (40_frequency_analyzer.md R121). -/
def ftPosition (sym : Sym) : List FtEntry → Nat
  | [] => 0
  | e :: es => if e.sym.slt sym then ftPosition sym es + 1 else 0

/-- Insert a new key at position `j`, or TableTooLarge if FT holds N_MAX entries (40_frequency_analyzer.md R121,
R123). -/
def faInsert (nMax : Nat) (sym : Sym) (w : Work) (j : Nat) : Except ErrKind Work :=
  if w.ft.length = nMax then .error .tableTooLarge
  else .ok { w with ft := w.ft.insertIdx j { sym := sym, cnt := 1 } }

/-- `FA.COUNT(sym)` (40_frequency_analyzer.md R121). -/
def faCount (nMax : Nat) (sym : Sym) (w : Work) : Except ErrKind Work :=
  match w.ft[ftPosition sym w.ft]? with
  | some e =>
    if e.sym = sym then
      .ok { w with ft := w.ft.set (ftPosition sym w.ft) { e with cnt := e.cnt + 1 } }
    else faInsert nMax sym w (ftPosition sym w.ft)
  | none => faInsert nMax sym w (ftPosition sym w.ft)

/-- The loop of `FA.RUN` (40_frequency_analyzer.md R120), at most `n` more symbols. -/
def faLoop (p : Params) (symIn : Memory 32) (inLen : BitVec 32) : Nat → Work → Except ErrKind Work
  | 0, w => .ok w
  | n + 1, w =>
    if w.inIdx < inLen then
      match memReadOne p.symInCap symIn w.inIdx.toNat with
      | .error e => .error e
      | .ok sym =>
        match faCount p.nMax sym w with
        | .error e => .error e
        | .ok w' => faLoop p symIn inLen n { w' with inIdx := w'.inIdx + 1 }
    else .ok w

/-- `FA.RUN` on the working registers: every symbol from in_idx to IN_LEN - 1 (40_frequency_analyzer.md R120). -/
def faRun (p : Params) (symIn : Memory 32) (inLen : BitVec 32) (w : Work) : Except ErrKind Work :=
  faLoop p symIn inLen (inLen.toNat - w.inIdx.toNat) w

/-- Phase FA: `FA.RUN`, then phase TS if FT is empty, else phase TB (40_frequency_analyzer.md R120). -/
def State.phaseFA (s : State) : State :=
  match faRun s.params s.symIn s.inLen s.work with
  | .error e => s.raise e
  | .ok w => ({ s with work := w } : State).toPhase (if w.ft.length = 0 then .ts else .tb)

end Sys2Proof.Machine
end

