-- ==== Sys2Proof/Machine/CodeGenerator.lean ====
section
/-! DEFINITION. Unit CG, the prefix-code generator (42_code_generator.md). -/

namespace Sys2Proof.Machine

/-- `CG.SINGLE` (42_code_generator.md R151): the one-bit code "0". -/
def cgSingle (w : Work) : Work := { w with code := cellsSet 0 { len := 1, pat := 0 } w.code }

/-- Append one bit to the code of a stack entry (42_code_generator.md R152): (l, p) becomes (l + 1, 2p + c). -/
def childEntry (k : NodeIdx) (e : StackEntry) (c : Bool) : StackEntry :=
  { node := k, pat := (e.pat <<< 1) ||| (BitVec.ofBool c).setWidth 32, len := e.len + 1 }

/-- One turn of the loop of `CG.WALK` (42_code_generator.md R152): pop an entry; a leaf records its code, an
internal node pushes its right and then its left child, or raises CodeTooLong at depth 32 (R154). -/
def cgTurn (w : Work) : Except ErrKind Work :=
  match w.stack with
  | [] => .ok w
  | e :: rest =>
    if (w.nodeAt e.node).leaf then
      .ok { w with stack := rest, code := cellsSet e.node.toNat { len := e.len, pat := e.pat } w.code }
    else if e.len = 32 then .error .codeTooLong
    else
      .ok { w with stack :=
              childEntry (w.nodeAt e.node).left e false :: childEntry (w.nodeAt e.node).right e true :: rest }

/-- The loop of `CG.WALK`, at most `n` turns. -/
def cgLoop : Nat → Work → Except ErrKind Work
  | 0, w => .ok w
  | n + 1, w =>
    if w.stack.length = 0 then .ok w
    else
      match cgTurn w with
      | .error e => .error e
      | .ok w' => cgLoop n w'

/-- A bound on the turns of `CG.WALK` for any contents of NODE: the walk visits at most the nodes of a full binary
tree of depth 32. -/
def cgTurns : Nat := 2 ^ 33

/-- `CG.WALK` (42_code_generator.md R152). -/
def cgWalk (w : Work) : Except ErrKind Work :=
  cgLoop cgTurns { w with stack := [{ node := w.root, pat := 0, len := 0 }] }

/-- `CG.RUN` on the working registers (42_code_generator.md R150). -/
def cgRun (w : Work) : Except ErrKind Work :=
  if (w.nodeAt w.root).leaf then .ok (cgSingle w) else cgWalk w

/-- Phase CG (42_code_generator.md R150). -/
def State.phaseCG (s : State) : State :=
  match cgRun s.work with
  | .error e => s.raise e
  | .ok w => ({ s with work := w } : State).toPhase .ts

end Sys2Proof.Machine
end

