-- ==== Sys2Proof/Machine/Commands.lean ====
section
/-! DEFINITION. The meanings of the command words ENCODE and DECODE (47_commands.md). A command word is the host's
write of CMD (30_encoding.md R90): its step is START (R217), and the phases of R215 and R216 are the steps after
it (00_scope.md R10; Machine/Run.lean). -/

namespace Sys2Proof.Machine

/-- Meaning of ENCODE: START(0) when idle, nothing when busy (47_commands.md R215, R217, R219). -/
def execEncode (s : State) : Host.Outcome State Fault Refusal := .next (s.command .encode)

/-- Meaning of DECODE: START(1) when idle, nothing when busy (47_commands.md R216, R217, R219). -/
def execDecode (s : State) : Host.Outcome State Fault Refusal := .next (s.command .decode)

end Sys2Proof.Machine
end

