-- ==== Sys2Proof/WellFormed.lean ====
section
/-! DEFINITION. Which instructions hold only legal field values (30_encoding.md R92, R94, R95, R96, R97). An
ill-formed ENT is still an encoding the reader meets: its meaning raises MalformedTable
(45_table_deserializer.md R189). -/

namespace Sys2Proof

/-- A legal code length: 1 to 32 (30_encoding.md R94). -/
def lengthLegal (codeLength : BitVec 8) : Bool :=
  1 ≤ codeLength.toNat && codeLength.toNat ≤ 32

/-- "bits 31 : l are 0" (30_encoding.md R94); with l = 32 there are no upper bits (R95). -/
def upperBitsZero (codeLength : BitVec 8) (codePattern : BitVec 32) : Bool :=
  codePattern.toNat < 2 ^ codeLength.toNat

/-- Every field holds a value the format calls legal. A table size and a payload byte have no illegal value
(30_encoding.md R92, 93_implementation_defined.md I14). -/
def Instr.wellFormed : Instr → Bool
  | .encode => true
  | .decode => true
  | .hdr _ => true
  | .ent _ l p => lengthLegal l && upperBitsZero l p
  | .pay _ => true

end Sys2Proof
end

