-- ==== Sys2Proof/Decode.lean ====
section
/-! DEFINITION. Reading an instruction from bytes and writing it as bytes (30_encoding.md R90 to R96). -/

namespace Sys2Proof

/-- Little-endian assembly of 16 bits (30_encoding.md R93). -/
def le16 (b0 b1 : Byte) : BitVec 16 := b1 ++ b0

/-- Little-endian assembly of 32 bits (30_encoding.md R93). -/
def le32 (b0 b1 b2 b3 : Byte) : BitVec 32 := b3 ++ b2 ++ b1 ++ b0

/-- Byte `k` of a field is bits 8k + 7 : 8k of its value (30_encoding.md R93). -/
def fieldByte {w : Nat} (v : BitVec w) (k : Nat) : Byte := v.extractLsb' (8 * k) 8

/-- The two bytes of a 16-bit field, least significant first (30_encoding.md R93). -/
def bytesLe16 (v : BitVec 16) : List Byte := [fieldByte v 0, fieldByte v 1]

/-- The four bytes of a 32-bit field, least significant first (30_encoding.md R93). -/
def bytesLe32 (v : BitVec 32) : List Byte := [fieldByte v 0, fieldByte v 1, fieldByte v 2, fieldByte v 3]

/-- Bytes an instruction of the format occupies (30_encoding.md R92, R94, R96). The command word is one bit of
the value written to CMD (R90), carried here in a byte whose bits above bit 0 are ignored (10_state.md R20). -/
def Format.size : Format → Nat
  | .cmd => 1
  | .hdr => 2
  | .ent => 9
  | .pay => 1

/-- Why no instruction is read: fewer bytes than the format needs. -/
inductive DecodeError where
  | tooShort (f : Format)
  deriving DecidableEq, Repr

/-- The command word (30_encoding.md R90): OP = 0 is ENCODE, OP = 1 is DECODE. -/
def decodeCommand (op : BitVec 1) : Instr := if op = 0 then .encode else .decode

/-- Read one instruction of format `f` from the front of a byte string. A reader knows the format by position
(30_encoding.md R91). -/
def decode : Format → List Byte → Except DecodeError (Instr × List Byte)
  | .cmd, b :: rest => .ok (decodeCommand (b.setWidth 1), rest)
  | .hdr, b0 :: b1 :: rest => .ok (.hdr (le16 b0 b1), rest)
  | .ent, s0 :: s1 :: s2 :: s3 :: c :: q0 :: q1 :: q2 :: q3 :: rest =>
      .ok (.ent (le32 s0 s1 s2 s3) c (le32 q0 q1 q2 q3), rest)
  | .pay, b :: rest => .ok (.pay b, rest)
  | f, _ => .error (.tooShort f)

/-- Write one instruction as bytes (30_encoding.md R90, R92, R94, R96). -/
def encode : Instr → List Byte
  | .encode => [0#8]
  | .decode => [1#8]
  | .hdr n => bytesLe16 n
  | .ent s l p => bytesLe32 s ++ [l] ++ bytesLe32 p
  | .pay b => [b]

/-- The format of a word of the opcode table, by its number of bits. Rows CMD (1 bit, one whole byte) and PAY
share 8 bits; the spec tells them apart by position only (30_encoding.md R91), so the values 0 and 1 are read as
the command word and every other value as a payload byte (DESIGN CHOICE, log 10). -/
def tableFormat (nbits w : Nat) : Option Format :=
  if nbits = 1 then some .cmd
  else if nbits = 8 then (if w < 2 then some .cmd else some .pay)
  else if nbits = 16 then some .hdr
  else if nbits = 72 then some .ent
  else none

/-- The low `n` bytes of `w`, least significant first. Which number a record's pattern string is: the opcode table shows
HDR and ENT as strings, first byte first, and gives no number, so that the first byte is bits 7:0 of the table word is
the model's choice (DESIGN CHOICE, log 19). -/
def wordBytes : Nat → Nat → List Byte
  | 0, _ => []
  | n + 1, w => BitVec.ofNat 8 w :: wordBytes n (w / 256)

/-- The instruction read from an opcode-table word of `nbits` bits. -/
def decodeTableWord (nbits w : Nat) : Option Instr :=
  match tableFormat nbits w with
  | none => none
  | some f =>
    match decode f (wordBytes f.size w) with
    | .ok (i, _) => some i
    | .error _ => none

end Sys2Proof
end

