-- ==== Sys2Proof/Machine/Operands.lean ====
section
/-! DEFINITION. Operand access: host registers by number (10_state.md R20, 30_encoding.md R98), buffer elements by
index (20_memory.md R60, R72), and the record at the decoder's read pointer (30_encoding.md R91). -/

namespace Sys2Proof.Machine

/-- What a host read of register `k` returns (10_state.md R20 to R33); CMD and the numbers 13 and above read 0
(R21, 30_encoding.md R98). -/
def State.readReg (s : State) : Nat → BitVec 38
  | 1 => s.cfg.setWidth 38
  | 2 => s.statusWord.setWidth 38
  | 3 => s.errCode.setWidth 38
  | 4 => s.inLen.setWidth 38
  | 5 => s.byteOutLen.setWidth 38
  | 6 => s.encBits.setWidth 38
  | 7 => s.encTabN.setWidth 38
  | 8 => s.byteInLen.setWidth 38
  | 9 => s.decBits
  | 10 => s.symOutLen
  | 11 => s.decTabN.setWidth 38
  | 12 => s.residLen.setWidth 38
  | _ => 0

/-- The result registers, whose value is unspecified while BUSY = 1 (93_implementation_defined.md U5). -/
def isResultReg (k : Nat) : Bool := (5 ≤ k && k ≤ 7) || (10 ≤ k && k ≤ 12)

/-- The stated width of register `k`, in bits (10_state.md R20); numbers 13 and above do not exist. -/
def regWidth : Nat → Nat
  | 0 => 1
  | 1 => 1
  | 2 => 8
  | 3 => 3
  | 4 => 32
  | 5 => 35
  | 6 => 37
  | 7 => 16
  | 8 => 35
  | 9 => 38
  | 10 => 38
  | 11 => 16
  | 12 => 6
  | _ => 0

/-- The width of an element of a buffer (20_memory.md R60). -/
def BufId.width : BufId → Nat
  | .symIn => 32
  | .byteOut => 8
  | .byteIn => 8
  | .symOut => 32

/-- A host write to a register other than CMD: RW registers take the bits of their width, RO registers and numbers
13 and above ignore it, and so does every register while BUSY = 1 (10_state.md R20, 30_encoding.md R98). -/
def State.writeReg (s : State) (k v : Nat) : State :=
  if s.busy then s
  else match k with
    | 1 => { s with cfg := BitVec.ofNat 1 v }
    | 4 => { s with inLen := BitVec.ofNat 32 v }
    | 8 => { s with byteInLen := BitVec.ofNat 35 v }
    | 9 => { s with decBits := BitVec.ofNat 38 v }
    | _ => s

/-- The capacity of a buffer (20_memory.md R60). -/
def State.capOf (s : State) : BufId → Option Nat
  | .symIn => s.params.symInCap
  | .byteOut => s.params.byteOutCap
  | .byteIn => s.params.byteInCap
  | .symOut => s.params.symOutCap

/-- Element `i` of a buffer as the host reads it (20_memory.md R72). -/
def State.readBuf (s : State) (b : BufId) (i : Nat) : BitVec 38 :=
  match b with
  | .symIn => (s.symIn.read i).setWidth 38
  | .byteOut => (s.byteOut.read i).setWidth 38
  | .byteIn => (s.byteIn.read i).setWidth 38
  | .symOut => (s.symOut.read i).setWidth 38

/-- The host writes element `i` of a buffer (20_memory.md R72). -/
def State.writeBuf (s : State) (b : BufId) (i : Nat) (v : BitVec 32) : State :=
  match b with
  | .symIn => { s with symIn := s.symIn.write i v }
  | .byteOut => { s with byteOut := s.byteOut.write i (v.setWidth 8) }
  | .byteIn => { s with byteIn := s.byteIn.write i (v.setWidth 8) }
  | .symOut => { s with symOut := s.symOut.write i v }

/-- A host read that returns `any value` (93_implementation_defined.md U5) of a register or element of `w` bits: a free
value (log 4). Bits above the width read 0 all the same (10_state.md R20, 30_encoding.md R98; DEDUCED, log 20). -/
def State.readAny (s : State) (w : Nat) : State :=
  { s with hostData := ((Config.anyRead s.fresh).setWidth w).setWidth 38, fresh := s.fresh + 1 }

/-- FEED's copy of `n` bytes from index `a` on (30_encoding.md R100). Elements BYTE_IN does not have are not
written (DESIGN CHOICE, log 9). -/
def copyBytes (cap : Option Nat) (src dst : Memory 8) (a : Nat) : Nat → Memory 8
  | 0 => dst
  | n + 1 =>
    copyBytes cap src (if fits cap (a + 1) then dst.write a (src.read a) else dst) (a + 1) n

/-- FEED (30_encoding.md R100). -/
def State.feed (s : State) : State :=
  { s with
    byteIn := copyBytes s.params.byteInCap s.byteOut s.byteIn 0 s.byteOutLen.toNat,
    byteInLen := s.byteOutLen, decBits := s.encBits.setWidth 38 }

/-- The format of the record the decoder reads next, by position (30_encoding.md R91): in phase TD the header
first, then entries while td_i < td_m (45_table_deserializer.md R185); in phase DE payload bytes while bits are
left (46_decoder.md R200; bits_left is 0 until the phase has set it). `none`: no record is read next. -/
def State.nextFormat (s : State) : Option Format :=
  match s.phase with
  | .td => if s.work.rdPtr = 0 then some .hdr else if s.work.tdI < s.work.tdM then some .ent else none
  | .de => if s.work.bitsLeft = 0 then none else some .pay
  | _ => none

/-- The bytes of a record at the read pointer (20_memory.md R63, R66). -/
def State.recordBytes (s : State) (f : Format) : Except ErrKind (List Byte) :=
  memRead s.params.byteInCap s.byteIn s.work.rdPtr.toNat f.size

end Sys2Proof.Machine
end

