-- ==== Sys2Proof/Machine/Deserializer.lean ====
section
/-! DEFINITION. Unit TD, the table deserializer (45_table_deserializer.md), and the meanings of the records HDR and
ENT, which it reads. -/

namespace Sys2Proof.Machine

/-- `dmatch(l, p)`: the valid entry of DTAB with length l and pattern p, or none; keys are unique, so the entry
stands for its index (10_state.md R41). -/
def dmatch (dtab : List DtEntry) (l : Nat) (p : BitVec 32) : Option DtEntry :=
  dtab.find? (fun e => e.len.toNat = l && e.pat = p)

/-- `TD.SIZECHECK`: the size against the file length, then against N_MAX (45_table_deserializer.md R187). -/
def tdSizeCheck (nMax : Nat) (byteInLen : BitVec 35) (m : BitVec 16) : Option ErrKind :=
  if 2 + 9 * m.toNat > byteInLen.toNat then some .malformedTable
  else if m.toNat > nMax then some .tableTooLarge
  else none

/-- `TD.CHECK(l, p)`: the length, the upper bits, the duplicate key (45_table_deserializer.md R189). -/
def tdCheck (dtab : List DtEntry) (l : BitVec 8) (p : BitVec 32) : Option ErrKind :=
  if l.toNat = 0 ∨ 32 < l.toNat then some .malformedTable
  else if l.toNat < 32 ∧ p >>> l.toNat ≠ 0 then some .malformedTable
  else if (dmatch dtab l.toNat p).isSome then some .malformedTable
  else none

/-- `TD.HEADER` with the table size read (45_table_deserializer.md R186). -/
def tdHeader (m : BitVec 16) (w : Work) : Work := { w with tdM := m, rdPtr := 2 }

/-- `TD.ENTRY` with the entry read and checked (45_table_deserializer.md R188), and the step of td_i (R185). -/
def tdEntry (sym : Sym) (l : BitVec 8) (p : BitVec 32) (w : Work) : Work :=
  { w with dtab := w.dtab ++ [{ len := l.setWidth 6, pat := p, sym := sym }],
           rdPtr := w.rdPtr + 9, tdI := w.tdI + 1 }

/-- Meaning of HDR: `TD.HEADER` and `TD.SIZECHECK` on the table size the record holds (45_table_deserializer.md
R186, R187). A file of 0 or 1 bytes holds no HDR record; State.tdRecord raises MalformedTable for it. -/
def execHdr (m : BitVec 16) (s : State) : Host.Outcome State Fault Refusal :=
  if s.nextFormat = some .hdr then
    match tdSizeCheck s.params.nMax s.byteInLen m with
    | some e => .next (s.raise e)
    | none => .next { s with work := tdHeader m s.work }
  else .refused (.recordOutOfPlace .hdr)

/-- Meaning of ENT: `TD.ENTRY` with `TD.CHECK` on the fields the record holds (45_table_deserializer.md R188,
R189). -/
def execEnt (sym : Sym) (l : BitVec 8) (p : BitVec 32) (s : State) : Host.Outcome State Fault Refusal :=
  if s.nextFormat = some .ent then
    match tdCheck s.work.dtab l p with
    | some e => .next (s.raise e)
    | none => .next { s with work := tdEntry sym l p s.work }
  else .refused (.recordOutOfPlace .ent)

end Sys2Proof.Machine
end

