-- ==== Sys2Proof/Machine/Decoder.lean ====
section
/-! DEFINITION. Unit DE, the bit-unpacking decoder (46_decoder.md), and the meaning of the record PAY, which it
reads. -/

namespace Sys2Proof.Machine

/-- The working registers and the buffer SYM_OUT, which phase DE writes. -/
abbrev Emitter := Work × Memory 32

/-- The bit `DE.NEXTBIT` returns from the byte at rd_ptr: bit 7 - bit_pos (46_decoder.md R201). -/
def payloadBit (byte : Byte) (w : Work) : Bool := byte.getLsbD (7 - w.bitPos.toNat)

/-- What `DE.NEXTBIT` does to the reader (46_decoder.md R201). -/
def deAdvance (w : Work) : Work :=
  if w.bitPos = 7 then { w with bitsLeft := w.bitsLeft - 1, bitPos := 0, rdPtr := w.rdPtr + 1 }
  else { w with bitsLeft := w.bitsLeft - 1, bitPos := w.bitPos + 1 }

/-- `DE.APPEND(b)` (46_decoder.md R202, R207). -/
def deAppend (b : Bool) (w : Work) : Work :=
  if w.accLen < 32 then
    { w with accPat := (w.accPat <<< 1) ||| (BitVec.ofBool b).setWidth 32, accLen := w.accLen + 1 }
  else { w with accLen := 33 }

/-- The key the accumulator spells, if there is one in DTAB (46_decoder.md R203). -/
def deKey (w : Work) : Option DtEntry :=
  if 1 ≤ w.accLen ∧ w.accLen ≤ 32 then dmatch w.dtab w.accLen.toNat w.accPat else none

/-- `DE.MATCH` (46_decoder.md R203). -/
def deMatch (cap : Option Nat) (x : Emitter) : Except ErrKind Emitter :=
  match deKey x.1 with
  | none => .ok x
  | some e =>
    match memWrite cap x.2 x.1.outIdx.toNat [e.sym] with
    | .error k => .error k
    | .ok m => .ok ({ x.1 with outIdx := x.1.outIdx + 1, accPat := 0, accLen := 0 }, m)

/-- One turn of the loop of `DE.RUN` (46_decoder.md R200): next bit, append, match. -/
def deBit (cap : Option Nat) (byte : Byte) (x : Emitter) : Except ErrKind Emitter :=
  deMatch cap (deAppend (payloadBit byte x.1) (deAdvance x.1), x.2)

/-- `n` turns of the loop on the byte at rd_ptr. -/
def deBits (cap : Option Nat) (byte : Byte) : Nat → Emitter → Except ErrKind Emitter
  | 0, x => .ok x
  | n + 1, x =>
    match deBit cap byte x with
    | .error e => .error e
    | .ok y => deBits cap byte n y

/-- How many bits of the byte at rd_ptr are still to consume: to its end, and at most bits_left. -/
def bitsOfByte (w : Work) : Nat := min (8 - w.bitPos.toNat) w.bitsLeft.toNat

/-- Meaning of PAY: the bits of the payload byte that are still to consume go through `DE.NEXTBIT`, `DE.APPEND` and
`DE.MATCH` one by one (46_decoder.md R200 to R203). -/
def execPay (byte : Byte) (s : State) : Host.Outcome State Fault Refusal :=
  if s.nextFormat = some .pay then
    match deBits s.params.symOutCap byte (bitsOfByte s.work) (s.work, s.symOut) with
    | .error e => .next (s.raise e)
    | .ok y => .next { s with work := y.1, symOut := y.2 }
  else .refused (.recordOutOfPlace .pay)

/-- The payload bits present in the file (46_decoder.md R200). -/
def State.avail (s : State) : Nat := 8 * (s.byteInLen.toNat - s.work.rdPtr.toNat)

/-- The start of `DE.RUN`: bits_left from DEC_BITS in length mode, from the file length in bare mode; a truncated
payload is AmbiguousTrailingBits (46_decoder.md R200, R205, R206). -/
def State.deStart (s : State) : Except ErrKind Work :=
  if s.work.lenEn then
    if s.decBits.toNat > s.avail then .error .ambiguousTrailingBits
    else .ok { s.work with bitsLeft := s.decBits }
  else .ok { s.work with bitsLeft := BitVec.ofNat 38 s.avail }

/-- How many payload bytes hold the bits left. -/
def Work.payloadLeft (w : Work) : Nat :=
  if w.bitsLeft = 0 then 0 else (w.bitPos.toNat + w.bitsLeft.toNat + 7) / 8

/-- `DE.FINISH` (46_decoder.md R204). -/
def State.deFinish (s : State) : State :=
  if s.work.accLen ≠ 0 ∧ s.work.lenEn = true then s.raise .ambiguousTrailingBits
  else
    ({ s with symOutLen := s.work.outIdx, decTabN := s.work.dtabN, residLen := s.work.accLen,
              trail := s.work.accLen ≠ 0 } : State).complete

end Sys2Proof.Machine
end

