-- ==== Sys2Proof/Machine/Dispatch.lean ====
section
/-! DEFINITION. One arm per instruction of the opcode table. -/

namespace Sys2Proof.Machine

/-- The meaning of each instruction. -/
def exec (i : Instr) (s : State) : Host.Outcome State Fault Refusal :=
  match i with
  | .encode => Sys2Proof.Machine.execEncode s
  | .decode => Sys2Proof.Machine.execDecode s
  | .hdr m => Sys2Proof.Machine.execHdr m s
  | .ent sym l p => Sys2Proof.Machine.execEnt sym l p s
  | .pay byte => Sys2Proof.Machine.execPay byte s

end Sys2Proof.Machine
end

