-- ==== Sys2Proof/Machine/Serializer.lean ====
section
/-! DEFINITION. Unit TS, the table serializer (44_table_serializer.md). The bytes it writes are the records HDR and
ENT of 30_encoding.md, through the encoder of Decode.lean. -/

namespace Sys2Proof.Machine

/-- The working registers and the buffer BYTE_OUT, which phases TS and EN write. -/
abbrev Writer := Work × Memory 8

/-- Write a record at wr_ptr and move past it. The one capacity check stands for the checks of the record's single
writes (44_table_serializer.md R177): an error's state does not depend on how far the phase had got
(60_exceptions.md R245). -/
def putRecord (cap : Option Nat) (i : Instr) (x : Writer) : Except ErrKind Writer :=
  match memWrite cap x.2 x.1.wrPtr.toNat (encode i) with
  | .error e => .error e
  | .ok m => .ok ({ x.1 with wrPtr := x.1.wrPtr + BitVec.ofNat 35 i.format.size }, m)

/-- `TS.HEADER` (44_table_serializer.md R176). -/
def tsHeader (cap : Option Nat) (x : Writer) : Except ErrKind Writer :=
  putRecord cap (.hdr x.1.ftN) x

/-- The record of table entry `i` (44_table_serializer.md R177): FT[i].sym and CODE[i]. -/
def entryRecord (w : Work) (e : FtEntry) (i : Nat) : Instr :=
  .ent e.sym ((w.codeAt i).len.setWidth 8) (w.codeAt i).pat

/-- `TS.ENTRY(ts_i)` and the step of ts_i, for each entry of FT still to write (44_table_serializer.md R175, R177,
R178). -/
def tsEntries (cap : Option Nat) : List FtEntry → Writer → Except ErrKind Writer
  | [], x => .ok x
  | e :: es, x =>
    match putRecord cap (entryRecord x.1 e x.1.tsI.toNat) x with
    | .error k => .error k
    | .ok y => tsEntries cap es ({ y.1 with tsI := y.1.tsI + 1 }, y.2)

/-- `TS.RUN` (44_table_serializer.md R175). -/
def tsRun (cap : Option Nat) (x : Writer) : Except ErrKind Writer :=
  match tsHeader cap x with
  | .error e => .error e
  | .ok y => tsEntries cap (y.1.ft.drop y.1.tsI.toNat) y

/-- Phase TS (44_table_serializer.md R175). -/
def State.phaseTS (s : State) : State :=
  match tsRun s.params.byteOutCap (s.work, s.byteOut) with
  | .error e => s.raise e
  | .ok y => ({ s with work := y.1, byteOut := y.2 } : State).toPhase .en

end Sys2Proof.Machine
end

