-- ==== Sys2Proof/Machine/Encoder.lean ====
section
/-! DEFINITION. Unit EN, the bit-packing encoder and its packer (43_encoder_packer.md). -/

namespace Sys2Proof.Machine

/-- `EN.LOOKUP(sym)`: the index of the key in FT, or UnknownSymbolInTable (43_encoder_packer.md R161, R166). -/
def enLookup (sym : Sym) (ft : List FtEntry) : Except ErrKind Nat :=
  match ft.findIdx? (fun e => e.sym = sym) with
  | some i => .ok i
  | none => .error .unknownSymbolInTable

/-- The byte being packed with one more bit (43_encoder_packer.md R163). -/
def packedByte (pkByte : Byte) (b : Bool) : Byte := (pkByte <<< 1) ||| (BitVec.ofBool b).setWidth 8

/-- `PK.PUSH(b)` (43_encoder_packer.md R163). -/
def pkPush (cap : Option Nat) (b : Bool) (x : Writer) : Except ErrKind Writer :=
  let w := x.1
  if w.pkCnt = 7 then
    match memWrite cap x.2 w.wrPtr.toNat (encode (.pay (packedByte w.pkByte b))) with
    | .error e => .error e
    | .ok m =>
      .ok ({ w with bitTotal := w.bitTotal + 1, wrPtr := w.wrPtr + 1, pkByte := 0, pkCnt := 0 }, m)
  else
    .ok ({ w with bitTotal := w.bitTotal + 1, pkByte := packedByte w.pkByte b, pkCnt := w.pkCnt + 1 }, x.2)

/-- `EN.SHIFT(l, p)`: the bits l - 1 down to 0 of the pattern (43_encoder_packer.md R162). -/
def enShift (cap : Option Nat) (p : BitVec 32) : Nat → Writer → Except ErrKind Writer
  | 0, x => .ok x
  | l + 1, x =>
    match pkPush cap (p.getLsbD l) x with
    | .error e => .error e
    | .ok y => enShift cap p l y

/-- `PK.FLUSH` (43_encoder_packer.md R164). -/
def pkFlush (cap : Option Nat) (x : Writer) : Except ErrKind Writer :=
  let w := x.1
  if w.pkCnt = 0 then .ok x
  else
    match memWrite cap x.2 w.wrPtr.toNat (encode (.pay (w.pkByte <<< (8 - w.pkCnt.toNat)))) with
    | .error e => .error e
    | .ok m => .ok ({ w with wrPtr := w.wrPtr + 1, pkByte := 0, pkCnt := 0 }, m)

/-- One input symbol: look it up and shift its code out (43_encoder_packer.md R160). -/
def enSymbol (cap : Option Nat) (sym : Sym) (x : Writer) : Except ErrKind Writer :=
  match enLookup sym x.1.ft with
  | .error e => .error e
  | .ok i => enShift cap (x.1.codeAt i).pat (x.1.codeAt i).len.toNat x

/-- The loop of `EN.RUN` (43_encoder_packer.md R160), at most `n` more symbols. -/
def enLoop (p : Params) (symIn : Memory 32) (inLen : BitVec 32) : Nat → Writer → Except ErrKind Writer
  | 0, x => .ok x
  | n + 1, x =>
    if x.1.inIdx < inLen then
      match memReadOne p.symInCap symIn x.1.inIdx.toNat with
      | .error e => .error e
      | .ok sym =>
        match enSymbol p.byteOutCap sym x with
        | .error e => .error e
        | .ok y => enLoop p symIn inLen n ({ y.1 with inIdx := y.1.inIdx + 1 }, y.2)
    else .ok x

/-- `EN.RUN` up to and with `PK.FLUSH` (43_encoder_packer.md R160). -/
def enRun (p : Params) (symIn : Memory 32) (inLen : BitVec 32) (x : Writer) : Except ErrKind Writer :=
  match enLoop p symIn inLen inLen.toNat ({ x.1 with inIdx := 0 }, x.2) with
  | .error e => .error e
  | .ok y => pkFlush p.byteOutCap y

/-- Phase EN: `EN.RUN`, the result registers of ENCODE, `complete` (43_encoder_packer.md R160). -/
def State.phaseEN (s : State) : State :=
  match enRun s.params s.symIn s.inLen (s.work, s.byteOut) with
  | .error e => s.raise e
  | .ok y =>
    ({ s with work := y.1, byteOut := y.2, encBits := y.1.bitTotal, byteOutLen := y.1.wrPtr,
              encTabN := y.1.ftN } : State).complete

end Sys2Proof.Machine
end

