-- ==== Sys2Proof/Machine/TreeBuilder.lean ====
section
/-! DEFINITION. Unit TB, the tree builder (41_tree_builder.md). -/

namespace Sys2Proof.Machine

/-- The order of the priority queue: frequency first, arena index second (41_tree_builder.md R131). -/
def Work.smaller (w : Work) (a b : NodeIdx) : Bool :=
  (w.nodeAt a).freq < (w.nodeAt b).freq || ((w.nodeAt a).freq = (w.nodeAt b).freq && a < b)

/-- `PQ.INSERT(k)` (41_tree_builder.md R132). A new node has the largest index so far, so the queue stays in
ascending order of index. -/
def pqInsert (k : NodeIdx) (w : Work) : Work := { w with pq := w.pq ++ [k] }

/-- The smallest of `best` and the indices listed (41_tree_builder.md R133). -/
def pqLeast (w : Work) (best : NodeIdx) : List NodeIdx → NodeIdx
  | [] => best
  | k :: ks => pqLeast w (if w.smaller k best then k else best) ks

/-- `PQ.POPMIN` (41_tree_builder.md R133); `none` on an empty queue, on which it is never called. -/
def pqPopMin (w : Work) : Option (NodeIdx × Work) :=
  match w.pq with
  | [] => none
  | k :: ks => some (pqLeast w k ks, { w with pq := (k :: ks).erase (pqLeast w k ks) })

/-- The leaf of a frequency table entry (41_tree_builder.md R134). -/
def leafOf (e : FtEntry) : Node := { leaf := true, sym := e.sym, freq := e.cnt, left := 0, right := 0 }

/-- The indices 0 .. n - 1. -/
def leafIndices (n : Nat) : List NodeIdx := (List.range n).map (BitVec.ofNat 17)

/-- `TB.LOAD` (41_tree_builder.md R134): leaf i of NODE is FT[i], and index i enters the queue. -/
def tbLoad (w : Work) : Work :=
  { w with node := w.ft.map leafOf, pq := leafIndices w.ft.length }

/-- The internal node of a merge (41_tree_builder.md R135): the smaller child left, the other right. -/
def mergedNode (w : Work) (a b : NodeIdx) : Node :=
  { leaf := false, sym := 0, freq := (w.nodeAt a).freq + (w.nodeAt b).freq, left := a, right := b }

/-- `TB.MERGE` (41_tree_builder.md R135); it is called only when pq_n ≥ 2. -/
def tbMerge (w : Work) : Work :=
  match pqPopMin w with
  | none => w
  | some (a, w1) =>
    match pqPopMin w1 with
    | none => w
    | some (b, w2) => pqInsert w.nodeN { w2 with node := w.node ++ [mergedNode w a b] }

/-- The loop of `TB.RUN` (41_tree_builder.md R136), at most `n` merges. -/
def tbLoop : Nat → Work → Work
  | 0, w => w
  | n + 1, w => if 2 ≤ w.pq.length then tbLoop n (tbMerge w) else w

/-- `TB.RUN` on the working registers (41_tree_builder.md R136). -/
def tbRun (w : Work) : Work :=
  let w1 := tbLoop (tbLoad w).pq.length (tbLoad w)
  { w1 with root := w1.pq.headD Config.anyRoot }

/-- Phase TB (41_tree_builder.md R136). -/
def State.phaseTB (s : State) : State :=
  ({ s with work := tbRun s.work } : State).toPhase .cg

end Sys2Proof.Machine
end

