-- ==== Sys2Proof/Machine/Run.lean ====
section
/-! DEFINITION. One step of the core (00_scope.md R10, 10_state.md R45), one move of the host (00_scope.md R8), and
whose turn it is (log 2). -/

namespace Sys2Proof.Machine

/-- Fetch the record of format `f` at the read pointer, decode it, run its meaning. -/
def State.runRecord (s : State) (f : Format) : Host.Outcome State Fault Refusal :=
  match s.recordBytes f with
  | .error e => .next (s.raise e)
  | .ok bs =>
    match decode f bs with
    | .ok (i, _) => exec i s
    | .error _ => .refused (.recordOutOfPlace f)

/-- Go on with `k` while the command stays in phase `p`: an error has ended the phase at once
(60_exceptions.md R245). -/
def whileIn (p : Phase) (o : Host.Outcome State Fault Refusal) (k : State → Host.Outcome State Fault Refusal) :
    Host.Outcome State Fault Refusal :=
  match o with
  | .next t => if t.phase = p then k t else .next t
  | .fault r => .fault r
  | .refused r => .refused r

/-- A record of phase TD. A file of 0 or 1 bytes has no header: MalformedTable before anything is read
(45_table_deserializer.md R186). -/
def State.tdRecord (s : State) (f : Format) : Host.Outcome State Fault Refusal :=
  if f = .hdr ∧ s.byteInLen.toNat < 2 then .next (s.raise .malformedTable) else s.runRecord f

/-- How many entries of the table are still to read (45_table_deserializer.md R185). -/
def Work.entriesLeft (w : Work) : Nat := w.tdM.toNat - w.tdI.toNat

/-- The loop of `TD.RUN` and its end, at most `n` more records (45_table_deserializer.md R185). -/
def State.tdLoop : Nat → State → Host.Outcome State Fault Refusal
  | 0, s => .next (s.toPhase .de)
  | n + 1, s =>
    match s.nextFormat with
    | some f => whileIn .td (s.tdRecord f) (State.tdLoop n)
    | none => .next (s.toPhase .de)

/-- Phase TD: `TD.RUN`, the header and then the entries (45_table_deserializer.md R185). -/
def State.coreTD (s : State) : Host.Outcome State Fault Refusal :=
  if s.work.rdPtr = 0 then whileIn .td (s.tdRecord .hdr) (fun t => t.tdLoop t.work.entriesLeft)
  else s.tdLoop s.work.entriesLeft

/-- The loop of `DE.RUN` and `DE.FINISH`, at most `n` more payload bytes (46_decoder.md R200). -/
def State.deLoop : Nat → State → Host.Outcome State Fault Refusal
  | 0, s => .next s.deFinish
  | n + 1, s =>
    match s.nextFormat with
    | some f => whileIn .de (s.runRecord f) (State.deLoop n)
    | none => .next s.deFinish

/-- `DE.RUN` from where bits_left is set (46_decoder.md R200). -/
def State.payloadRun (s : State) : Host.Outcome State Fault Refusal := s.deLoop s.work.payloadLeft

/-- Phase DE: `DE.RUN` (46_decoder.md R200). -/
def State.coreDE (s : State) : Host.Outcome State Fault Refusal :=
  match s.deStart with
  | .error e => .next (s.raise e)
  | .ok w => ({ s with work := w } : State).payloadRun

/-- One step of the core. Idle, it "does nothing until the next START" (47_commands.md R218). A phase is
one step (00_scope.md R10); the records of phases TD and DE are run one after another inside it. -/
def coreStep (s : State) : Host.Outcome State Fault Refusal :=
  match s.phase with
  | .idle => .next s
  | .fa => .next s.phaseFA
  | .tb => .next s.phaseTB
  | .cg => .next s.phaseCG
  | .ts => .next s.phaseTS
  | .en => .next s.phaseEN
  | .td => s.coreTD
  | .de => s.coreDE

/-- The host writes CMD or another register (10_state.md R20, R21). The command word is bit 0 of the value (R21). -/
def State.hostWriteReg (s : State) (k v : Nat) : Host.Outcome State Fault Refusal :=
  if k = 0 then exec (decodeCommand (BitVec.ofNat 1 v)) s else .next (s.writeReg k v)

/-- The host reads a register (10_state.md R20); a result register while BUSY = 1 gives any value
(93_implementation_defined.md U5). -/
def State.hostReadReg (s : State) (k : Nat) : Host.Outcome State Fault Refusal :=
  if s.busy = true ∧ isResultReg k = true then .next (s.readAny (regWidth k))
  else .next { s with hostData := s.readReg k }

/-- The host writes a buffer element: refused while BUSY = 1 (93_implementation_defined.md U4). -/
def State.hostWriteBuf (s : State) (b : BufId) (i : Nat) (v : BitVec 32) : Host.Outcome State Fault Refusal :=
  if s.busy then .refused (.hostBufferWriteWhileBusy b)
  else if fits (s.capOf b) (i + 1) then .next (s.writeBuf b i v)
  else .fault (.noSuchElement b i)

/-- The host reads a buffer element: any value while BUSY = 1 (70_reset_and_hazards.md R273). -/
def State.hostReadBuf (s : State) (b : BufId) (i : Nat) : Host.Outcome State Fault Refusal :=
  if fits (s.capOf b) (i + 1) = false then .fault (.noSuchElement b i)
  else if s.busy then .next (s.readAny b.width)
  else .next { s with hostData := s.readBuf b i }

/-- The host's FEED (30_encoding.md R100), a write of BYTE_IN: refused while BUSY = 1. -/
def State.hostFeed (s : State) : Host.Outcome State Fault Refusal :=
  if s.busy then .refused (.hostBufferWriteWhileBusy .byteIn) else .next s.feed

/-- The host waits for STATUS.DONE = 1 while the core steps; the wait stays planned until then
(30_encoding.md R100). -/
def State.hostWait (s : State) : Host.Outcome State Fault Refusal :=
  if s.done then .next s else coreStep { s with script := .waitDone :: s.script }

/-- One move of the host (00_scope.md R8). -/
def hostStep (m : HostMove) (s : State) : Host.Outcome State Fault Refusal :=
  match m with
  | .writeReg k v => s.hostWriteReg k v
  | .readReg k => s.hostReadReg k
  | .writeBuf b i v => s.hostWriteBuf b i v
  | .readBuf b i => s.hostReadBuf b i
  | .pins v => .next { s with portOk := v }
  | .reset => .next s.rst
  | .feed => s.hostFeed
  | .core => coreStep s
  | .waitDone => s.hostWait

/-- One step of the machine: the host's next planned move, or a step of the core if none is planned (log 2). -/
def machineStep (s : State) : Host.Outcome State Fault Refusal :=
  match s.script with
  | [] => coreStep s
  | m :: rest => hostStep m { s with script := rest }

/-- A DECODE in progress on a file of `n` bytes, with working registers `w` (log 11). -/
def State.decoding (s : State) (p : Phase) (n : BitVec 35) (w : Work) : State :=
  { s with busy := true, done := false, err := false, trail := false, errCode := 0, phase := p,
           byteInLen := n, work := w, script := .core :: s.script }

/-- Put an opcode-table word where the next step takes its instruction: a command word as the host's next write of
CMD, a record in BYTE_IN at the read pointer of a DECODE that has reached a record of its format, the last of its file
(log 11). -/
def State.placeWord (s : State) (nbits w : Nat) : State :=
  let start := Work.start .decode false
  match tableFormat nbits w with
  | none => s
  | some .cmd => { s with script := .writeReg 0 w :: s.script }
  | some .hdr =>
    { s.decoding .td 2 start with byteIn := s.byteIn.writeList 0 (wordBytes 2 w) }
  | some .ent =>
    { s.decoding .td 11 { start with rdPtr := 2, tdM := 1 } with byteIn := s.byteIn.writeList 2 (wordBytes 9 w) }
  | some .pay =>
    { s.decoding .de 3 { start with rdPtr := 2 } with
      byteIn := s.byteIn.writeList 2 (wordBytes 1 w) }

end Sys2Proof.Machine
end

