-- ==== Sys2Proof/Safety.lean ====
section
/-! DEFINITION. What counts as a legal state of the machine, what a run of a command is, and the spec's own words
for results: bit-strings (00_scope.md section 6), packed bytes (30_encoding.md R96), the file (47_commands.md R215)
and greedy matching (46_decoder.md R200). -/

namespace Sys2Proof.Machine

/-! ## Runs -/

/-- `k` steps of the core, with no host move between. -/
def coreRun : Nat → State → Host.Outcome State Fault Refusal
  | 0, s => .next s
  | k + 1, s =>
    match coreStep s with
    | .next t => coreRun k t
    | .fault r => .fault r
    | .refused r => .refused r

/-- `t` is the end of the run of command `op` started in the idle state `s`: the state with BUSY = 0 that the core
reaches after START (00_scope.md R11). The idle core stays as it is, so there is at most one. -/
def EndOfRun (op : Op) (s t : State) : Prop :=
  s.busy = false ∧ t.busy = false ∧ ∃ k, coreRun k (s.start op) = .next t

/-- `m` is a state of the run of command `op` started in the idle state `s`, with phase `p` to be done next
(00_scope.md R10). A phase is done once in a run, so for a phase other than IDLE there is at most one. -/
def Reaches (op : Op) (p : Phase) (s m : State) : Prop :=
  s.busy = false ∧ m.phase = p ∧ ∃ k, coreRun k (s.start op) = .next m

/-! ## The spec's words for values -/

/-- The bit-string `bs(l, p)`: bit i is p[l - 1 - i] (00_scope.md section 6, 30_encoding.md R95). -/
def bitString (l : Nat) (p : BitVec 32) : List Bool := (List.range l).map fun i => p.getLsbD (l - 1 - i)

/-- `ceil8(b)` (00_scope.md section 6). -/
def ceil8 (b : Nat) : Nat := (b + 7) / 8

/-- Payload byte `q` of a bitstream: bit 8q in bit 7 of the byte, missing bits 0 (30_encoding.md R96). -/
def payloadByte (bits : List Bool) (q : Nat) : Byte :=
  (List.range 8).foldl (fun acc j => (acc <<< 1) ||| (BitVec.ofBool (bits.getD (8 * q + j) false)).setWidth 8) 0

/-- `pack` (30_encoding.md R96). -/
def packBits (bits : List Bool) : List Byte := (List.range (ceil8 bits.length)).map (payloadByte bits)

/-- The bitstream bits of payload bytes, most significant first (20_memory.md R68). -/
def unpackBits (bytes : List Byte) : List Bool :=
  (bytes.map fun b => (List.range 8).map fun j => b.getLsbD (7 - j)).flatten

/-- The input sequence SYM_IN[0 .. IN_LEN - 1] (20_memory.md R61). -/
def State.inputSymbols (s : State) : List Sym := s.symIn.readList 0 s.inLen.toNat

/-- The input file BYTE_IN[0 .. BYTE_IN_LEN - 1] (20_memory.md R63). -/
def State.inputFile (s : State) : List Byte := s.byteIn.readList 0 s.byteInLen.toNat

/-- The output file BYTE_OUT[0 .. BYTE_OUT_LEN - 1] (20_memory.md R62). -/
def State.outputFile (s : State) : List Byte := s.byteOut.readList 0 s.byteOutLen.toNat

/-- The output sequence SYM_OUT[0 .. SYM_OUT_LEN - 1] (20_memory.md R64). -/
def State.outputSymbols (s : State) : List Sym := s.symOut.readList 0 s.symOutLen.toNat

/-- The code of leaf index `i` as a bit-string (10_state.md R40). -/
def Work.codeBits (w : Work) (i : Nat) : List Bool := bitString (w.codeAt i).len.toNat (w.codeAt i).pat

/-- The node reached from node `k` by a bit-string: 0 descends left and 1 right (42_code_generator.md R152). -/
def Work.descend (w : Work) (k : NodeIdx) : List Bool → NodeIdx
  | [] => k
  | b :: bs => w.descend (if b then (w.nodeAt k).right else (w.nodeAt k).left) bs

/-- `code(x)` of 47_commands.md R215: the bit-string of CODE[i] for the i with FT[i].sym = x. -/
def Work.codeOf (w : Work) (x : Sym) : List Bool :=
  match enLookup x w.ft with
  | .ok i => w.codeBits i
  | .error _ => []

/-- The bitstream of an input sequence (47_commands.md R215). -/
def Work.bitstream (w : Work) (syms : List Sym) : List Bool := (syms.map w.codeOf).flatten

/-- Bytes of a table entry (47_commands.md R215). -/
def Work.entryBytes (w : Work) (i : Nat) (e : FtEntry) : List Byte :=
  bytesLe32 e.sym ++ [(w.codeAt i).len.setWidth 8] ++ bytesLe32 (w.codeAt i).pat

/-- Bytes of the entries of `ft`, the first being number `i`. -/
def Work.entriesBytes (w : Work) : Nat → List FtEntry → List Byte
  | _, [] => []
  | i, e :: es => w.entryBytes i e ++ w.entriesBytes (i + 1) es

/-- The table of the file: the header and the entries (47_commands.md R215). -/
def Work.tableBytes (w : Work) : List Byte := bytesLe16 w.ftN ++ w.entriesBytes 0 w.ft

/-- The file of an input sequence (47_commands.md R215). -/
def Work.fileBytes (w : Work) (syms : List Sym) : List Byte := w.tableBytes ++ packBits (w.bitstream syms)

/-- Greedy matching with a working buffer of unlimited length (46_decoder.md R200, R207): the Symbols emitted and
the residual. -/
def greedy (dtab : List DtEntry) : List Bool → List Bool → List Sym × List Bool
  | acc, [] => ([], acc)
  | acc, b :: bs =>
    match dtab.find? (fun e => bitString e.len.toNat e.pat = acc ++ [b]) with
    | some e => (e.sym :: (greedy dtab [] bs).1, (greedy dtab [] bs).2)
    | none => greedy dtab (acc ++ [b]) bs

/-- The next `n` bits of the byte at the read pointer (46_decoder.md R201). -/
def nextBits (byte : Byte) (w : Work) (n : Nat) : List Bool :=
  (List.range n).map fun j => byte.getLsbD (7 - (w.bitPos.toNat + j))

/-- A legal key of a table (10_state.md R40, R41): 1 ≤ len ≤ 32 and pat < 2^len. -/
abbrev LegalKey (len : BitVec 6) (pat : BitVec 32) : Prop :=
  1 ≤ len.toNat ∧ len.toNat ≤ 32 ∧ pat.toNat < 2 ^ len.toNat

/-- The bits pushed so far into a packer whose first byte stands at index `base` of BYTE_OUT
(10_state.md R42): the whole bytes are written, the rest is in pk_byte, pk_cnt of them. -/
structure Packed (base : Nat) (bits : List Bool) (x : Writer) : Prop where
  count : x.1.pkCnt.toNat = bits.length % 8
  total : x.1.bitTotal.toNat = bits.length
  pointer : x.1.wrPtr.toNat = base + bits.length / 8
  written : ∀ q, q < bits.length / 8 → x.2.read (base + q) = payloadByte bits q
  upper : x.1.pkByte.toNat < 2 ^ x.1.pkCnt.toNat
  rest : x.1.pkByte <<< (8 - x.1.pkCnt.toNat) = payloadByte bits (bits.length / 8)

/-! ## Invariants -/

/-- The relations between the flags, PHASE, ERR_CODE and cur_op (10_state.md R23, R24, R45; 30_encoding.md R98). -/
structure StatusInv (s : State) : Prop where
  /-- "BUSY = 1 exactly when PHASE ≠ 0". -/
  busyPhase : s.busy = true ↔ s.phase ≠ .idle
  /-- "BUSY and DONE are never both 1". -/
  notBoth : ¬ (s.busy = true ∧ s.done = true)
  /-- "ERR = 1 implies DONE = 1". -/
  errDone : s.err = true → s.done = true
  /-- "TRAIL = 1 implies DONE = 1 and ERR = 0". -/
  trailDone : s.trail = true → s.done = true ∧ s.err = false
  /-- ERR_CODE is 0 exactly when ERR is 0, and never 7 (R24, R98). -/
  errCode : (s.errCode = 0 ↔ s.err = false) ∧ s.errCode ≠ 7
  /-- ENCODE passes through FA to EN, DECODE through TD and DE (R45). -/
  encodePhase : s.phase ∈ [Phase.fa, .tb, .cg, .ts, .en] → s.work.curOp = .encode
  decodePhase : s.phase ∈ [Phase.td, .de] → s.work.curOp = .decode

/-- The four buffers and CODE are in canonical form (log 4). -/
structure StoreInv (s : State) : Prop where
  symIn : s.symIn.wf
  byteOut : s.byteOut.wf
  byteIn : s.byteIn.wf
  symOut : s.symOut.wf
  code : CellsWf s.work.code

/-- What the core's tables hold between two steps. The contents of the arrays are any value once a command has ended
(93_implementation_defined.md U1), so what they hold is said of a command in progress. -/
structure TableInv (s : State) : Prop where
  /-- N_MAX is in its range (00_scope.md R7). -/
  params : s.params.Legal
  /-- FT is in strictly ascending order of signed Symbol (10_state.md R36). -/
  ftSorted : s.phase ≠ .idle → s.work.ft.Pairwise (fun a b => a.sym.slt b.sym)
  /-- Every count is at least 1 (10_state.md R36). -/
  ftCounts : s.phase ≠ .idle → ∀ e ∈ s.work.ft, 1 ≤ e.cnt.toNat
  /-- FT and DTAB hold at most N_MAX entries (20_memory.md R65). -/
  ftRoom : s.work.ft.length ≤ s.params.nMax
  dtabRoom : s.work.dtab.length ≤ s.params.nMax
  /-- Phase FA starts with the START values (40_frequency_analyzer.md R120). -/
  faFresh : s.phase = .fa → s.work = Work.start .encode false
  /-- STACK is used only inside phase CG (10_state.md R39). -/
  stack : s.work.stack = []
  /-- Codes are legal (10_state.md R40). -/
  codes : s.phase ≠ .idle → ∀ c ∈ s.work.code, LegalKey c.2.len c.2.pat
  /-- Keys of DTAB are legal and no two are equal (10_state.md R41). -/
  keys : s.phase ≠ .idle → ∀ e ∈ s.work.dtab, LegalKey e.len e.pat
  keysDistinct : s.phase ≠ .idle → s.work.dtab.Pairwise (fun a b => ¬ (a.len = b.len ∧ a.pat = b.pat))
  /-- acc_len is at most 33, and up to 32 the pattern fits it (10_state.md R43). -/
  accLen : s.work.accLen.toNat ≤ 33
  accPat : s.work.accLen.toNat ≤ 32 → s.work.accPat.toNat < 2 ^ s.work.accLen.toNat

/-- Where the reader of a DECODE stands between two steps (45_table_deserializer.md R185, 46_decoder.md R200), and that
the declared inputs fit their buffers (20_memory.md R66). -/
structure ReaderInv (s : State) : Prop where
  encodeFits : s.phase ∈ [Phase.fa, .tb, .cg, .ts, .en] → s.inputFits .encode = true
  decodeFits : s.phase ∈ [Phase.td, .de] → s.inputFits .decode = true
  /-- Phase TD starts with the START values. -/
  tdFresh : s.phase = .td → s.work = Work.start .decode s.work.lenEn
  /-- Phase DE starts behind the table, which is whole and lies inside the file: "`dtab_n` = `td_m` = m, `rd_ptr` =
  2 + 9·m". -/
  table : s.phase = .de →
    s.work.rdPtr.toNat = 2 + 9 * s.work.tdM.toNat ∧ s.work.rdPtr.toNat ≤ s.byteInLen.toNat ∧
    s.work.dtab.length = s.work.tdM.toNat ∧ s.work.tdI = s.work.tdM
  /-- Phase DE starts with the START values of the registers it alone writes. -/
  deFresh : s.phase = .de →
    s.work.bitsLeft = 0 ∧ s.work.bitPos = 0 ∧ s.work.accLen = 0 ∧ s.work.accPat = 0 ∧ s.work.outIdx = 0

/-- The legal states of the machine: every step keeps this, and it holds at reset. -/
structure Inv (s : State) : Prop where
  status : StatusInv s
  store : StoreInv s
  table : TableInv s
  reader : ReaderInv s

end Sys2Proof.Machine
end

