-- ==== Sys2Proof/Certificates/Slice0/Obligations.lean ====
section
/-! DEFINITION. The statements for the provers. Each docstring names the rule or section of spec/ it formalises. -/

open Sys2Proof Sys2Proof.Machine

/-! ## Encodings (30_encoding.md) -/

/-- Reading back a written instruction gives it again, every field at every value (30_encoding.md sections 1, 2). -/
def Obligations.DecodeOfEncode : Prop :=
  ∀ (i : Instr) (rest : List Byte), decode i.format (encode i ++ rest) = .ok (i, rest)

/-- Writing a record just read gives its bytes again (30_encoding.md section 2). -/
def Obligations.EncodeOfDecodedRecord : Prop :=
  ∀ (f : Format) (bs : List Byte) (i : Instr) (rest : List Byte),
    f ≠ .cmd → decode f bs = .ok (i, rest) → i.format = f ∧ encode i ++ rest = bs

/-- Words written out from the spec: 30_encoding.md R90, R92, R94, R96 and the examples of 44_table_serializer.md
R176, R177. -/
def Obligations.WordsOfTheSpecDecode : Prop :=
  decodeTableWord 1 0 = some .encode ∧ decodeTableWord 1 1 = some .decode ∧
  decode .hdr [0x2c#8, 0x01#8] = .ok (.hdr 300#16, []) ∧
  decode .ent [0x06#8, 0x00#8, 0x00#8, 0x00#8, 0x03#8, 0x04#8, 0x00#8, 0x00#8, 0x00#8] =
    .ok (.ent 6#32 3#8 4#32, []) ∧
  decode .ent [0xff#8, 0xff#8, 0xff#8, 0xff#8, 0x01#8, 0x00#8, 0x00#8, 0x00#8, 0x00#8] =
    .ok (.ent (BitVec.ofInt 32 (-1)) 1#8 0#32, []) ∧
  decode .pay [0x56#8] = .ok (.pay 0x56#8, [])

/-- The values of assembled fields and the bytes of written ones (30_encoding.md R93). -/
def Obligations.FieldsAreLittleEndian : Prop :=
  (∀ b0 b1 : Byte, (le16 b0 b1).toNat = b0.toNat + 256 * b1.toNat) ∧
  (∀ b0 b1 b2 b3 : Byte, (le32 b0 b1 b2 b3).toNat =
    b0.toNat + 2 ^ 8 * b1.toNat + 2 ^ 16 * b2.toNat + 2 ^ 24 * b3.toNat) ∧
  (∀ (v : BitVec 16) (k : Nat), k < 2 → (bytesLe16 v)[k]? = some (BitVec.ofNat 8 (v.toNat / 256 ^ k))) ∧
  (∀ (v : BitVec 32) (k : Nat), k < 4 → (bytesLe32 v)[k]? = some (BitVec.ofNat 8 (v.toNat / 256 ^ k))) ∧
  (∀ s0 s1 s2 s3 c q0 q1 q2 q3 : Byte, decode .ent [s0, s1, s2, s3, c, q0, q1, q2, q3] =
    .ok (.ent (le32 s0 s1 s2 s3) c (le32 q0 q1 q2 q3), []))

/-- A pattern is the number its bit-string spells, first bit most significant, and `dmatch` on legal keys compares
bit-strings (30_encoding.md R95, 10_state.md R41). -/
def Obligations.KeyIsItsBitString : Prop :=
  (∀ (l : Nat) (p : BitVec 32), l ≤ 32 → p.toNat < 2 ^ l →
    (bitString l p).foldl (fun a b => 2 * a + b.toNat) 0 = p.toNat) ∧
  (∀ (dtab : List DtEntry) (l : Nat) (p : BitVec 32), (∀ e ∈ dtab, LegalKey e.len e.pat) →
    1 ≤ l → l ≤ 32 → p.toNat < 2 ^ l →
    dmatch dtab l p = dtab.find? (fun e => bitString e.len.toNat e.pat = bitString l p))

/-! ## The step and the instruction -/

/-- A step on a pending write of CMD runs the command word, bit 0 of the value (10_state.md R21,
30_encoding.md R90). -/
def Obligations.StepRunsTheCommandWord : Prop :=
  ∀ (s : State) (v : Nat) (rest : List HostMove), s.script = .writeReg 0 v :: rest →
    step s = exec (if v % 2 = 0 then .encode else .decode) { s with script := rest }

/-- A step where the bytes at rd_ptr decode to a record inside the file runs exactly that record, and then goes on with the
phase if the command is still in it: in phase TD the step does the rest of TD as its own step would, in phase DE, once
bits_left is set, `payloadRun` does the rest of DE (45_table_deserializer.md R185, 46_decoder.md R200; 00_scope.md R10
makes the phase one step). The core's turn comes from an empty plan, a `core` move or a wait (log 2). -/
def Obligations.StepRunsTheRecord : Prop :=
  (∀ (s : State) (f : Format) (i : Instr),
    s.nextFormat = some f → s.work.rdPtr.toNat + f.size ≤ s.byteInLen.toNat →
    fits s.params.byteInCap (s.work.rdPtr.toNat + f.size) = true →
    decode f (s.byteIn.readList s.work.rdPtr.toNat f.size) = .ok (i, []) →
    (s.phase = .td → coreStep s = whileIn .td (exec i s) coreStep) ∧
    (s.phase = .de → s.payloadRun = whileIn .de (exec i s) State.payloadRun)) ∧
  (∀ (s : State) (w : Work), s.phase = .de → s.deStart = .ok w →
    coreStep s = ({ s with work := w } : State).payloadRun) ∧
  (∀ (s : State) (rest : List HostMove),
    step { s with script := [] } = coreStep { s with script := [] } ∧
    step { s with script := .core :: rest } = coreStep { s with script := rest } ∧
    (s.done = false →
      step { s with script := .waitDone :: rest } = coreStep { s with script := .waitDone :: rest }))

/-- "CMD written while STATUS.BUSY = 1 is ignored" (47_commands.md R219). -/
def Obligations.CommandWhileBusyIsIgnored : Prop :=
  ∀ (s : State), s.busy = true →
    exec .encode s = .next s ∧ exec .decode s = .next s ∧
    ∀ (v : Nat) (rest : List HostMove),
      step { s with script := .writeReg 0 v :: rest } = .next { s with script := rest }

/-- The only moves that can stop a step are the host's buffer accesses; a step of the core always completes
(60_exceptions.md R252). -/
def Obligations.OnlyHostBufferMovesStop : Prop :=
  (∀ s : State, ∃ t, coreStep s = .next t) ∧
  (∀ s : State,
    (∀ m rest, s.script = m :: rest →
      (∀ b i v, m ≠ .writeBuf b i v) ∧ (∀ b i, m ≠ .readBuf b i) ∧ m ≠ .feed) →
    ∃ t, step s = .next t)

/-! ## The commands (47_commands.md) -/

/-- ENCODE from an idle core whose buffers are available: the state after START(0) (47_commands.md section 1). -/
def Obligations.EncodeStarts : Prop :=
  ∀ s : State, s.busy = false → s.portOk.getLsbD 0 = true → s.portOk.getLsbD 1 = true →
    fits s.params.symInCap s.inLen.toNat = true →
    exec .encode s = .next
      { s with busy := true, done := false, err := false, trail := false, errCode := 0, phase := .fa,
               byteOutLen := 0, encBits := 0, encTabN := 0, work := Work.start .encode false }

/-- DECODE from an idle core whose buffers are available: the state after START(1) (47_commands.md section 1). -/
def Obligations.DecodeStarts : Prop :=
  ∀ s : State, s.busy = false → s.portOk.getLsbD 2 = true → s.portOk.getLsbD 3 = true →
    fits s.params.byteInCap s.byteInLen.toNat = true →
    exec .decode s = .next
      { s with busy := true, done := false, err := false, trail := false, errCode := 0, phase := .td,
               symOutLen := 0, decTabN := 0, residLen := 0, work := Work.start .decode (s.cfg = 1) }

/-- START's checks: a port that is not available or an input longer than its buffer ends the command at once with
IOError (47_commands.md section 1, 60_exceptions.md R241 (a) to (c)). -/
def Obligations.StartFailsWithIOError : Prop :=
  (∀ s : State, s.busy = false →
    (s.portOk.getLsbD 0 = false ∨ s.portOk.getLsbD 1 = false ∨ fits s.params.symInCap s.inLen.toNat = false) →
    ∃ t, exec .encode s = .next t ∧ t.busy = false ∧ t.done = true ∧ t.err = true ∧ t.trail = false ∧
      t.errCode = 1 ∧ t.phase = .idle ∧ t.byteOutLen = 0 ∧ t.encBits = 0 ∧ t.encTabN = 0) ∧
  (∀ s : State, s.busy = false →
    (s.portOk.getLsbD 2 = false ∨ s.portOk.getLsbD 3 = false ∨ fits s.params.byteInCap s.byteInLen.toNat = false) →
    ∃ t, exec .decode s = .next t ∧ t.busy = false ∧ t.done = true ∧ t.err = true ∧ t.trail = false ∧
      t.errCode = 1 ∧ t.phase = .idle ∧ t.symOutLen = 0 ∧ t.decTabN = 0 ∧ t.residLen = 0)

/-- Frame of the command words: registers, buffers and pins a command's START does not name keep their value; the
output buffer can change only when the START fails (47_commands.md section 1). -/
def Obligations.CommandFrame : Prop :=
  (∀ s t : State, exec .encode s = .next t →
    t.cfg = s.cfg ∧ t.inLen = s.inLen ∧ t.byteInLen = s.byteInLen ∧ t.decBits = s.decBits ∧
    t.symOutLen = s.symOutLen ∧ t.decTabN = s.decTabN ∧ t.residLen = s.residLen ∧
    t.portOk = s.portOk ∧ t.params = s.params ∧ t.script = s.script ∧ t.hostData = s.hostData ∧
    (∀ a, t.symIn.read a = s.symIn.read a) ∧ (∀ a, t.byteIn.read a = s.byteIn.read a) ∧
    (∀ a, t.symOut.read a = s.symOut.read a) ∧
    ((∀ a, t.byteOut.read a = s.byteOut.read a) ∨ (s.busy = false ∧ t.err = true))) ∧
  (∀ s t : State, exec .decode s = .next t →
    t.cfg = s.cfg ∧ t.inLen = s.inLen ∧ t.byteInLen = s.byteInLen ∧ t.decBits = s.decBits ∧
    t.byteOutLen = s.byteOutLen ∧ t.encBits = s.encBits ∧ t.encTabN = s.encTabN ∧
    t.portOk = s.portOk ∧ t.params = s.params ∧ t.script = s.script ∧ t.hostData = s.hostData ∧
    (∀ a, t.symIn.read a = s.symIn.read a) ∧ (∀ a, t.byteIn.read a = s.byteIn.read a) ∧
    (∀ a, t.byteOut.read a = s.byteOut.read a) ∧
    ((∀ a, t.symOut.read a = s.symOut.read a) ∨ (s.busy = false ∧ t.err = true)))

/-- No step of the core changes a host-writable register, an input buffer, a pin, a parameter or what the host plans
(10_state.md R22, R25, R29, R30; 20_memory.md R61, R63). -/
def Obligations.CoreKeepsItsInputs : Prop :=
  ∀ s t : State, coreStep s = .next t →
    t.cfg = s.cfg ∧ t.inLen = s.inLen ∧ t.byteInLen = s.byteInLen ∧ t.decBits = s.decBits ∧
    t.symIn = s.symIn ∧ t.byteIn = s.byteIn ∧ t.portOk = s.portOk ∧ t.params = s.params ∧
    t.script = s.script ∧ t.hostData = s.hostData

/-- Where each phase can go, and that DONE is set by the step that leaves for IDLE: a step does one phase (00_scope.md
R10; 10_state.md R45, R46). -/
def Obligations.PhaseSuccessors : Prop :=
  ∀ s t : State, coreStep s = .next t →
    (s.phase = .idle → t = s) ∧
    (s.phase = .fa → t.phase ∈ [Phase.tb, .ts, .idle] ∧ (t.phase = .ts → t.work.ft = []) ∧
      (t.phase = .tb → t.work.ft ≠ [])) ∧
    (s.phase = .tb → t.phase = .cg) ∧
    (s.phase = .cg → t.phase ∈ [Phase.ts, .idle]) ∧
    (s.phase = .ts → t.phase ∈ [Phase.en, .idle]) ∧
    (s.phase = .en → t.phase = .idle) ∧
    (s.phase = .td → t.phase ∈ [Phase.de, .idle]) ∧
    (s.phase = .de → t.phase = .idle) ∧
    (s.phase ≠ .idle → t.phase = .idle → t.done = true ∧ t.busy = false)

/-- "Every command reaches it" (00_scope.md section 5, R11): from any idle state a command ends, with DONE = 1 and
either no error and ERR_CODE = 0 or an error and its code; ENCODE ends within five steps after START and DECODE within
two, one for each phase (R10). -/
def Obligations.EveryRunEnds : Prop :=
  (∀ (op : Op) (s : State), s.busy = false → ∃ t, EndOfRun op s t) ∧
  (∀ (op : Op) (s t : State), EndOfRun op s t →
    t.done = true ∧ t.phase = .idle ∧
    ((t.err = false ∧ t.errCode = 0) ∨ (t.err = true ∧ t.trail = false ∧ t.errCode ≠ 0 ∧ t.errCode ≠ 7))) ∧
  (∀ s : State, s.busy = false →
    (∃ t, coreRun 5 (s.start .encode) = .next t ∧ t.busy = false) ∧
    (∃ t, coreRun 2 (s.start .decode) = .next t ∧ t.busy = false))

/-- Which errors each command can end with (60_exceptions.md section 1, 43_encoder_packer.md R166:
UnknownSymbolInTable cannot happen inside ENCODE). -/
def Obligations.ErrorsOfEachCommand : Prop :=
  (∀ s t : State, EndOfRun .encode s t → t.errCode ∈ [0#3, 1#3, 3#3, 6#3]) ∧
  (∀ s t : State, EndOfRun .decode s t →
    t.errCode ∈ [0#3, 1#3, 4#3, 5#3, 6#3] ∧ (t.errCode = 5 → s.cfg = 1))

/-- A command leaves the other command's result registers and output buffer alone (92_eei_decisions.md D34,
47_commands.md section 1). -/
def Obligations.RunLeavesTheOtherCommandAlone : Prop :=
  (∀ s t : State, EndOfRun .encode s t →
    t.symOutLen = s.symOutLen ∧ t.decTabN = s.decTabN ∧ t.residLen = s.residLen ∧ t.symOut = s.symOut) ∧
  (∀ s t : State, EndOfRun .decode s t →
    t.byteOutLen = s.byteOutLen ∧ t.encBits = s.encBits ∧ t.encTabN = s.encTabN ∧ t.byteOut = s.byteOut)

/-- The results of ENCODE as a function of the input sequence and of the tables FT and CODE it has built when phase EN
begins (47_commands.md section 1, R215), the size of the file (30_encoding.md R102), and that BYTE_OUT
keeps what it held at and above BYTE_OUT_LEN (20_memory.md R62). -/
def Obligations.EncodeWritesTheFile : Prop :=
  ∀ s t : State, s.params.Legal → EndOfRun .encode s t → t.err = false →
    ∃ m, Reaches .encode .en s m ∧
      t.encTabN.toNat = m.work.ft.length ∧
      t.encBits.toNat = (m.work.bitstream s.inputSymbols).length ∧
      t.byteOutLen.toNat = 2 + 9 * t.encTabN.toNat + ceil8 t.encBits.toNat ∧
      t.outputFile = m.work.fileBytes s.inputSymbols ∧
      ∀ a, t.byteOutLen.toNat ≤ a → t.byteOut.read a = s.byteOut.read a

/-- ENCODE completes with its file: an idle core, both ports available, the input in its buffer, at most 33 distinct
Symbols (no tree of 33 leaves is deeper than 32) and at most N_MAX, BYTE_OUT unbounded (47_commands.md section 1). And
whatever the number of Symbols, an ENCODE that has found its codes ends without error if its file fits BYTE_OUT, and with
IOError if it does not (section 2, R225). -/
def Obligations.EncodeCompletes : Prop :=
  (∀ s : State, s.params.Legal → s.busy = false → s.portOk.getLsbD 0 = true → s.portOk.getLsbD 1 = true →
    fits s.params.symInCap s.inLen.toNat = true → s.params.byteOutCap = none →
    s.inputSymbols.dedup.length ≤ 33 → s.inputSymbols.dedup.length ≤ s.params.nMax →
    ∃ m t, exec .encode s = .next (s.start .encode) ∧ Reaches .encode .en s m ∧ EndOfRun .encode s t ∧
      t.done = true ∧ t.err = false ∧ t.encTabN.toNat = s.inputSymbols.dedup.length ∧
      t.outputFile = m.work.fileBytes s.inputSymbols) ∧
  (∀ s m : State, s.params.Legal → Reaches .encode .ts s m →
    ∃ t, EndOfRun .encode s t ∧
      (fits s.params.byteOutCap (m.work.fileBytes s.inputSymbols).length = true →
        t.err = false ∧ t.outputFile = m.work.fileBytes s.inputSymbols) ∧
      (fits s.params.byteOutCap (m.work.fileBytes s.inputSymbols).length = false → t.errCode = 1))

/-- DECODE in bare mode completes: an idle core, both ports available, a file whose header and entries are legal with
distinct keys, SYM_OUT unbounded (47_commands.md section 1). -/
def Obligations.DecodeBareCompletes : Prop :=
  ∀ (s : State) (m : BitVec 16), s.busy = false → s.cfg = 0 →
    s.portOk.getLsbD 2 = true → s.portOk.getLsbD 3 = true →
    fits s.params.byteInCap s.byteInLen.toNat = true → s.params.symOutCap = none →
    decode .hdr (s.inputFile.take 2) = .ok (.hdr m, []) →
    2 + 9 * m.toNat ≤ s.byteInLen.toNat → m.toNat ≤ s.params.nMax →
    (∀ i, i < m.toNat → ∃ sym l p,
      decode .ent ((s.inputFile.drop (2 + 9 * i)).take 9) = .ok (.ent sym l p, []) ∧
      (Instr.ent sym l p).wellFormed = true) →
    (∀ i j sym sym' l p, i < j → j < m.toNat →
      decode .ent ((s.inputFile.drop (2 + 9 * i)).take 9) = .ok (.ent sym l p, []) →
      decode .ent ((s.inputFile.drop (2 + 9 * j)).take 9) ≠ .ok (.ent sym' l p, [])) →
    ∃ t, exec .decode s = .next (s.start .decode) ∧ EndOfRun .decode s t ∧ t.done = true ∧ t.err = false ∧
      t.decTabN = m

/-- "Empty input" (47_commands.md R222): ENCODE of nothing gives the file `00 00`, with phases TB and CG skipped, and
DECODE of that file gives nothing, in either mode. -/
def Obligations.EmptyInput : Prop :=
  (∀ s : State, s.busy = false → s.portOk.getLsbD 0 = true → s.portOk.getLsbD 1 = true → s.inLen = 0 →
    fits s.params.byteOutCap 2 = true →
    ∃ t u, coreStep (s.start .encode) = .next u ∧ u.phase = .ts ∧ EndOfRun .encode s t ∧ t.err = false ∧
      t.encTabN = 0 ∧ t.encBits = 0 ∧ t.byteOutLen = 2 ∧ t.outputFile = [0x00#8, 0x00#8]) ∧
  (∀ s : State, s.busy = false → s.portOk.getLsbD 2 = true → s.portOk.getLsbD 3 = true →
    fits s.params.byteInCap 2 = true → s.byteInLen = 2 → s.inputFile = [0x00#8, 0x00#8] →
    (s.cfg = 1 → s.decBits = 0) →
    ∃ t, EndOfRun .decode s t ∧ t.err = false ∧ t.symOutLen = 0 ∧ t.decTabN = 0 ∧ t.residLen = 0 ∧
      t.trail = false)

/-- ENCODE of k ≥ 1 copies of one Symbol (47_commands.md R223, the ENCODE half). -/
def Obligations.SingleSymbolFile : Prop :=
  ∀ (s : State) (x : Sym), s.params.Legal → s.busy = false →
    s.portOk.getLsbD 0 = true → s.portOk.getLsbD 1 = true →
    fits s.params.symInCap s.inLen.toNat = true → s.params.byteOutCap = none →
    1 ≤ s.inLen.toNat → (∀ y ∈ s.inputSymbols, y = x) →
    ∃ t, EndOfRun .encode s t ∧ t.err = false ∧ t.encTabN = 1 ∧ t.encBits.toNat = s.inLen.toNat ∧
      t.byteOutLen.toNat = 11 + ceil8 s.inLen.toNat ∧
      t.outputFile = [0x01#8, 0x00#8] ++ bytesLe32 x ++ [0x01#8, 0x00#8, 0x00#8, 0x00#8, 0x00#8] ++
        List.replicate (ceil8 s.inLen.toNat) 0x00#8

/-- Determinism (47_commands.md R224): equal inputs and parameters give equal results, whatever the state before START,
and equal trees and codes; the table bytes depend only on the multiset of the input. -/
def Obligations.RunsAreDeterministic : Prop :=
  (∀ s s' t t' : State, s.params = s'.params → s.portOk = s'.portOk → s.inLen = s'.inLen →
    s.inputSymbols = s'.inputSymbols → EndOfRun .encode s t → EndOfRun .encode s' t' →
    t.statusWord = t'.statusWord ∧ t.errCode = t'.errCode ∧ t.encTabN = t'.encTabN ∧ t.encBits = t'.encBits ∧
    t.byteOutLen = t'.byteOutLen ∧ t.outputFile = t'.outputFile) ∧
  (∀ s s' m m' : State, s.params = s'.params → s.inLen = s'.inLen → s.inputSymbols = s'.inputSymbols →
    Reaches .encode .en s m → Reaches .encode .en s' m' →
    m.work.node = m'.work.node ∧ m.work.root = m'.work.root ∧ m.work.code = m'.work.code) ∧
  (∀ s s' t t' : State, s.params = s'.params → s.portOk = s'.portOk → s.byteInLen = s'.byteInLen →
    s.inputFile = s'.inputFile → s.cfg = s'.cfg → (s.cfg = 1 → s.decBits = s'.decBits) →
    EndOfRun .decode s t → EndOfRun .decode s' t' →
    t.statusWord = t'.statusWord ∧ t.errCode = t'.errCode ∧ t.decTabN = t'.decTabN ∧
    t.residLen = t'.residLen ∧ t.symOutLen = t'.symOutLen ∧ t.outputSymbols = t'.outputSymbols) ∧
  (∀ s s' t t' : State, s.params = s'.params → s.params.Legal → s.inputSymbols.Perm s'.inputSymbols →
    EndOfRun .encode s t → EndOfRun .encode s' t' → t.err = false → t'.err = false →
    t.encTabN = t'.encTabN ∧
    t.outputFile.take (2 + 9 * t.encTabN.toNat) = t'.outputFile.take (2 + 9 * t'.encTabN.toNat))

/-- Round trip in length mode (47_commands.md R220): feeding an encoded file back and decoding it with DEC_BITS gives
the input again, or ends with IOError, which happens only for want of room or of a port. -/
def Obligations.RoundTripLengthMode : Prop :=
  ∀ s t u : State, s.params.Legal → EndOfRun .encode s t → t.err = false →
    EndOfRun .decode { t.feed with cfg := 1 } u →
    (u.errCode ≠ 1 →
      u.err = false ∧ u.symOutLen.toNat = s.inLen.toNat ∧ u.outputSymbols = s.inputSymbols ∧
      u.decTabN = t.encTabN ∧ u.residLen = 0 ∧ u.trail = false) ∧
    (u.errCode = 1 →
      fits s.params.symOutCap s.inLen.toNat = false ∨ fits s.params.byteInCap t.byteOutLen.toNat = false ∨
      s.portOk ≠ 0b1111#4)

/-- Round trip in bare mode (47_commands.md R221, first sentence): the input followed by at most 7 Symbols, each of which
has a code, of zeros only, in the tables ENCODE built. -/
def Obligations.RoundTripBareMode : Prop :=
  ∀ s m t u : State, s.params.Legal → Reaches .encode .en s m → EndOfRun .encode s t → t.err = false →
    EndOfRun .decode { t.feed with cfg := 0 } u → u.errCode ≠ 1 →
    u.err = false ∧ ∃ extra, u.outputSymbols = s.inputSymbols ++ extra ∧ extra.length ≤ 7 ∧
      ∀ x ∈ extra, (∃ e ∈ m.work.ft, e.sym = x) ∧ m.work.codeOf x ≠ [] ∧ ∀ b ∈ m.work.codeOf x, b = false

/-! ## Errors (60_exceptions.md) -/

/-- `raise E` (60_exceptions.md R245): the flags and the code, the command's own results 0, its output buffer any
value (a free value, log 4), everything else the host can see unchanged; the working registers back at their START
values (the model's reading, log 8). -/
def Obligations.RaiseEffect : Prop :=
  ∀ (s : State) (e : ErrKind),
    (s.raise e).errCode = e.code ∧ (s.raise e).err = true ∧ (s.raise e).done = true ∧
    (s.raise e).busy = false ∧ (s.raise e).trail = false ∧ (s.raise e).phase = .idle ∧
    (s.raise e).work = Work.start s.work.curOp s.work.lenEn ∧
    (s.raise e).cfg = s.cfg ∧ (s.raise e).inLen = s.inLen ∧ (s.raise e).byteInLen = s.byteInLen ∧
    (s.raise e).decBits = s.decBits ∧ (s.raise e).symIn = s.symIn ∧ (s.raise e).byteIn = s.byteIn ∧
    (s.raise e).portOk = s.portOk ∧ (s.raise e).params = s.params ∧ (s.raise e).script = s.script ∧
    (s.work.curOp = .encode →
      (s.raise e).byteOutLen = 0 ∧ (s.raise e).encBits = 0 ∧ (s.raise e).encTabN = 0 ∧
      (s.raise e).symOutLen = s.symOutLen ∧ (s.raise e).decTabN = s.decTabN ∧
      (s.raise e).residLen = s.residLen ∧ (s.raise e).symOut = s.symOut ∧
      ∀ a, (s.raise e).byteOut.read a = Config.anyElement 8 s.fresh a) ∧
    (s.work.curOp = .decode →
      (s.raise e).symOutLen = 0 ∧ (s.raise e).decTabN = 0 ∧ (s.raise e).residLen = 0 ∧
      (s.raise e).byteOutLen = s.byteOutLen ∧ (s.raise e).encBits = s.encBits ∧
      (s.raise e).encTabN = s.encTabN ∧ (s.raise e).byteOut = s.byteOut ∧
      ∀ a, (s.raise e).symOut.read a = Config.anyElement 32 s.fresh a)

/-! ## Reset and the host's registers and buffers -/

/-- Reset (70_reset_and_hazards.md R270): asserting `rst` at any time, and the state after power-on, give every
register its reset value. -/
def Obligations.ResetValues : Prop :=
  (∀ (s : State) (rest : List HostMove), ∃ t, step { s with script := .reset :: rest } = .next t ∧
    t.statusWord = 0 ∧ t.errCode = 0 ∧ t.cfg = 0 ∧ t.inLen = 0 ∧ t.byteInLen = 0 ∧ t.decBits = 0 ∧
    t.byteOutLen = 0 ∧ t.encBits = 0 ∧ t.encTabN = 0 ∧ t.symOutLen = 0 ∧ t.decTabN = 0 ∧ t.residLen = 0 ∧
    t.work = Work.start .encode false ∧ t.work.ftN = 0 ∧ t.work.nodeN = 0 ∧ t.work.pqN = 0 ∧ t.work.sp = 0 ∧
    t.work.dtabN = 0 ∧ t.busyPin = false ∧ t.donePin = false) ∧
  (State.reset.statusWord = 0 ∧ State.reset.errCode = 0 ∧ State.reset.cfg = 0 ∧ State.reset.inLen = 0 ∧
    State.reset.byteInLen = 0 ∧ State.reset.decBits = 0 ∧ State.reset.byteOutLen = 0 ∧
    State.reset.encBits = 0 ∧ State.reset.encTabN = 0 ∧ State.reset.symOutLen = 0 ∧
    State.reset.decTabN = 0 ∧ State.reset.residLen = 0 ∧ State.reset.work = Work.start .encode false ∧
    State.reset.busyPin = false ∧ State.reset.donePin = false)

/-- Host writes to registers other than CMD (10_state.md R20): the four RW registers take the bits of their width,
every other number ignores the write, and while BUSY = 1 all do. -/
def Obligations.HostRegisterWrites : Prop :=
  ∀ (s : State) (k v : Nat) (rest : List HostMove), k ≠ 0 →
    ∃ t, step { s with script := .writeReg k v :: rest } = .next t ∧
      ((s.busy = true ∨ k ∉ [1, 4, 8, 9]) → t = { s with script := rest }) ∧
      (s.busy = false →
        (k = 1 → t = { s with script := rest, cfg := t.cfg } ∧ (t.readReg 1).toNat = v % 2) ∧
        (k = 4 → t = { s with script := rest, inLen := t.inLen } ∧ (t.readReg 4).toNat = v % 2 ^ 32) ∧
        (k = 8 → t = { s with script := rest, byteInLen := t.byteInLen } ∧ (t.readReg 8).toNat = v % 2 ^ 35) ∧
        (k = 9 → t = { s with script := rest, decBits := t.decBits } ∧ (t.readReg 9).toNat = v % 2 ^ 38))

/-- Host reads of registers (10_state.md R20, R23; 30_encoding.md R98): a read changes nothing but the value read last,
every number returns its own register's value, CMD and the numbers 13 and above read 0, STATUS has its fields at bits 0 to
3 and 7:4, and registers other than results are readable while BUSY = 1. A result register read while BUSY = 1 returns any
value of its width (93_implementation_defined.md U5), the bits above it 0 (the model's reading of R20 beside U5, log 20),
and uses up one free value (log 4). -/
def Obligations.HostRegisterReads : Prop :=
  (∀ (s : State) (k : Nat) (rest : List HostMove), (s.busy = false ∨ isResultReg k = false) →
    ∃ t, step { s with script := .readReg k :: rest } = .next t ∧
      t = { s with script := rest, hostData := t.hostData } ∧ t.hostData = s.readReg k) ∧
  (∀ s : State, s.readReg 0 = 0 ∧ ∀ k, 13 ≤ k → s.readReg k = 0) ∧
  (∀ s : State, (s.readReg 1).toNat = s.cfg.toNat ∧ (s.readReg 3).toNat = s.errCode.toNat ∧
    (s.readReg 4).toNat = s.inLen.toNat ∧ (s.readReg 5).toNat = s.byteOutLen.toNat ∧
    (s.readReg 6).toNat = s.encBits.toNat ∧ (s.readReg 7).toNat = s.encTabN.toNat ∧
    (s.readReg 8).toNat = s.byteInLen.toNat ∧ (s.readReg 9).toNat = s.decBits.toNat ∧
    (s.readReg 10).toNat = s.symOutLen.toNat ∧ (s.readReg 11).toNat = s.decTabN.toNat ∧
    (s.readReg 12).toNat = s.residLen.toNat) ∧
  (∀ s : State, (s.readReg 2).getLsbD 0 = s.busy ∧ (s.readReg 2).getLsbD 1 = s.done ∧
    (s.readReg 2).getLsbD 2 = s.err ∧ (s.readReg 2).getLsbD 3 = s.trail ∧
    (s.readReg 2).extractLsb' 4 4 = s.phase.code ∧ (s.readReg 2).toNat < 256) ∧
  (∀ (s : State) (k w : Nat) (rest : List HostMove), s.busy = true →
    (k, w) ∈ [(5, 35), (6, 37), (7, 16), (10, 38), (11, 16), (12, 6)] →
    ∃ t, step { s with script := .readReg k :: rest } = .next t ∧
      t = { s with script := rest, hostData := t.hostData, fresh := s.fresh + 1 } ∧ t.hostData.toNat < 2 ^ w)

/-- Buffer accesses of the host (20_memory.md R70, R72; 93_implementation_defined.md U4): an idle write stores one
element and nothing more, no other element and no other part of the state; a read returns the element and changes nothing
but the value read last; while BUSY = 1 a write is refused, and a read returns any value of the element's width (U5) and
uses up one free value (log 4, log 20). -/
def Obligations.HostBufferAccesses : Prop :=
  (∀ (s : State) (b : BufId) (i : Nat) (v : BitVec 32) (rest : List HostMove), s.busy = false →
    fits (s.capOf b) (i + 1) = true →
    ∃ t, step { s with script := .writeBuf b i v :: rest } = .next t ∧
      t.readBuf b i = (match b with
        | .symIn => v.setWidth 38
        | .byteOut => (v.setWidth 8).setWidth 38
        | .byteIn => (v.setWidth 8).setWidth 38
        | .symOut => v.setWidth 38) ∧
      (∀ b' j, (b' ≠ b ∨ j ≠ i) → t.readBuf b' j = s.readBuf b' j) ∧
      t = { s with script := rest, symIn := t.symIn, byteOut := t.byteOut, byteIn := t.byteIn, symOut := t.symOut }) ∧
  (∀ (s : State) (b : BufId) (i : Nat) (rest : List HostMove), s.busy = false →
    fits (s.capOf b) (i + 1) = true →
    ∃ u, step { s with script := .readBuf b i :: rest } = .next u ∧ u.hostData = s.readBuf b i ∧
      u = { s with script := rest, hostData := u.hostData }) ∧
  (∀ (s : State) (b : BufId) (i : Nat) (v : BitVec 32) (rest : List HostMove), s.busy = true →
    step { s with script := .writeBuf b i v :: rest } = .refused (.hostBufferWriteWhileBusy b)) ∧
  (∀ (s : State) (b : BufId) (i : Nat) (rest : List HostMove), s.busy = true →
    fits (s.capOf b) (i + 1) = true →
    ∃ u, step { s with script := .readBuf b i :: rest } = .next u ∧
      u = { s with script := rest, hostData := u.hostData, fresh := s.fresh + 1 } ∧
      u.hostData.toNat < (match b with
        | .symIn => 2 ^ 32
        | .byteOut => 2 ^ 8
        | .byteIn => 2 ^ 8
        | .symOut => 2 ^ 32))

/-! ## Unit FA (40_frequency_analyzer.md) -/

/-- FT after phase FA is in strictly ascending order of signed Symbol with every count at least 1
(40_frequency_analyzer.md R122). -/
def Obligations.FrequencyTableIsSorted : Prop :=
  ∀ (p : Params) (symIn : Memory 32) (inLen : BitVec 32) (lenEn : Bool) (w : Work),
    faRun p symIn inLen (Work.start .encode lenEn) = .ok w →
    w.ft.Pairwise (fun a b => a.sym.toInt < b.sym.toInt) ∧ ∀ e ∈ w.ft, 1 ≤ e.cnt.toNat

/-- Every symbol of the input is a key whose count is its number of occurrences, there is no other key, and the counts
add up to IN_LEN (40_frequency_analyzer.md R120). -/
def Obligations.FrequencyTableCounts : Prop :=
  ∀ (p : Params) (symIn : Memory 32) (inLen : BitVec 32) (lenEn : Bool) (w : Work),
    faRun p symIn inLen (Work.start .encode lenEn) = .ok w →
    (∀ e ∈ w.ft, e.cnt.toNat = (symIn.readList 0 inLen.toNat).count e.sym) ∧
    (∀ x ∈ symIn.readList 0 inLen.toNat, ∃ e ∈ w.ft, e.sym = x) ∧
    (w.ft.map fun e => e.cnt.toNat).sum = inLen.toNat

/-- FT does not depend on the order of the input (40_frequency_analyzer.md R122). -/
def Obligations.FrequencyTableIgnoresOrder : Prop :=
  ∀ (p : Params) (a b : Memory 32) (inLen : BitVec 32) (lenEn : Bool) (w : Work),
    (a.readList 0 inLen.toNat).Perm (b.readList 0 inLen.toNat) →
    faRun p a inLen (Work.start .encode lenEn) = .ok w →
    ∃ w', faRun p b inLen (Work.start .encode lenEn) = .ok w' ∧ w'.ft = w.ft

/-- TableTooLarge in phase FA exactly when the input has more than N_MAX distinct symbols
(40_frequency_analyzer.md R123, 60_exceptions.md R247). -/
def Obligations.TooManySymbols : Prop :=
  ∀ (p : Params) (symIn : Memory 32) (inLen : BitVec 32) (lenEn : Bool),
    fits p.symInCap inLen.toNat = true →
    (faRun p symIn inLen (Work.start .encode lenEn) = .error .tableTooLarge ↔
      p.nMax < (symIn.readList 0 inLen.toNat).dedup.length)

/-! ## Unit TB (41_tree_builder.md) -/

/-- The queue order, frequency first and arena index second, is a strict total order on distinct indices
(41_tree_builder.md R131). `PQ.POPMIN` on a queue that holds at least one index, none twice, returns and removes the
element smaller than every other, and nothing else changes (R133). -/
def Obligations.PopMinReturnsTheSmallest : Prop :=
  (∀ (w : Work) (a b c : NodeIdx),
    (w.smaller a b = true ↔
      ((w.nodeAt a).freq.toNat < (w.nodeAt b).freq.toNat ∨
        ((w.nodeAt a).freq = (w.nodeAt b).freq ∧ a.toNat < b.toNat))) ∧
    w.smaller a a = false ∧
    (a ≠ b → (w.smaller a b = true ↔ w.smaller b a = false)) ∧
    (w.smaller a b = true → w.smaller b c = true → w.smaller a c = true)) ∧
  (∀ w : Work, 1 ≤ w.pq.length → w.pq.Nodup →
    ∃ k, pqPopMin w = some (k, { w with pq := w.pq.erase k }) ∧ k ∈ w.pq ∧
      (w.pq.erase k).length + 1 = w.pq.length ∧ ∀ j ∈ w.pq, j ≠ k → w.smaller k j = true)

/-- The finished tree: its size, its leaves, its internal nodes and its root (41_tree_builder.md R136, R138,
R140). -/
def Obligations.TreeShape : Prop :=
  ∀ w : Work, 1 ≤ w.ft.length → w.ft.length ≤ 65535 →
    (tbRun w).node.length = 2 * w.ft.length - 1 ∧
    (tbRun w).root.toNat = 2 * w.ft.length - 2 ∧
    (tbRun w).pq = [(tbRun w).root] ∧
    (∀ (i : Nat) (e : FtEntry), w.ft[i]? = some e →
      (tbRun w).node[i]? = some (Node.mk true e.sym e.cnt 0 0)) ∧
    (∀ (k : Nat) (nd : Node), w.ft.length ≤ k → (tbRun w).node[k]? = some nd →
      nd.leaf = false ∧ nd.left.toNat < k ∧ nd.right.toNat < k ∧ nd.left ≠ nd.right)

/-- Every node but the root is the child of exactly one internal node (41_tree_builder.md R140, 10_state.md R37). -/
def Obligations.EveryNodeHasOneParent : Prop :=
  ∀ w : Work, 1 ≤ w.ft.length → w.ft.length ≤ 65535 →
    ∀ i, i < 2 * w.ft.length - 2 →
      ∃ k nd, w.ft.length ≤ k ∧ (tbRun w).node[k]? = some nd ∧ (nd.left.toNat = i ∨ nd.right.toNat = i) ∧
        ∀ (k' : Nat) (nd' : Node), w.ft.length ≤ k' → (tbRun w).node[k']? = some nd' →
          (nd'.left.toNat = i ∨ nd'.right.toNat = i) → k' = k

/-- `TB.MERGE` on a queue of at least two different nodes takes the smallest and the smallest of the rest, appends their
parent to NODE, the first left and the second right, and queues it in their place (41_tree_builder.md R135). `TB.RUN` is
`TB.LOAD` and n - 1 merges (R134, R136). Frequencies add up without wrapping: an internal node's frequency is the sum of
its children's, and the root's is the sum of all counts (R137, R140). -/
def Obligations.TreeFrequenciesAdd : Prop :=
  (∀ w : Work, 2 ≤ w.pq.length → w.pq.Nodup → (∀ k ∈ w.pq, k.toNat < w.node.length) → w.node.length < 2 ^ 17 →
    ∃ a b, a ∈ w.pq ∧ b ∈ w.pq ∧ a ≠ b ∧
      (∀ j ∈ w.pq, j ≠ a → w.smaller a j = true) ∧
      (∀ j ∈ w.pq, j ≠ a → j ≠ b → w.smaller b j = true) ∧
      pqPopMin w = some (a, { w with pq := w.pq.erase a }) ∧
      pqPopMin { w with pq := w.pq.erase a } = some (b, { w with pq := (w.pq.erase a).erase b }) ∧
      tbMerge w = { w with
        node := w.node ++ [Node.mk false 0 ((w.nodeAt a).freq + (w.nodeAt b).freq) a b],
        pq := (w.pq.erase a).erase b ++ [BitVec.ofNat 17 w.node.length] }) ∧
  (∀ w : Work, 1 ≤ w.ft.length → w.ft.length ≤ 65535 →
    (tbLoad w).node = w.ft.map (fun e => Node.mk true e.sym e.cnt 0 0) ∧
    (tbLoad w).pq.map BitVec.toNat = List.range w.ft.length ∧
    (tbRun w).node = (Nat.iterate tbMerge (w.ft.length - 1) (tbLoad w)).node ∧
    (tbRun w).pq = (Nat.iterate tbMerge (w.ft.length - 1) (tbLoad w)).pq) ∧
  (∀ w : Work, 1 ≤ w.ft.length → w.ft.length ≤ 65535 → (w.ft.map fun e => e.cnt.toNat).sum < 2 ^ 32 →
    ((tbRun w).nodeAt (tbRun w).root).freq.toNat = (w.ft.map fun e => e.cnt.toNat).sum ∧
    ∀ (k : Nat) (nd : Node), w.ft.length ≤ k → (tbRun w).node[k]? = some nd →
      nd.freq.toNat = ((tbRun w).nodeAt nd.left).freq.toNat + ((tbRun w).nodeAt nd.right).freq.toNat ∧
      (tbRun w).smaller nd.left nd.right = true)

/-! ## Unit CG (42_code_generator.md) -/

/-- The stack bound: "`sp` never exceeds 31 + 2 = 33", and a popped entry of length l leaves at most l entries, for
any contents of NODE (42_code_generator.md R153). -/
def Obligations.StackNeverExceedsItsDepth : Prop :=
  ∀ (j : Nat) (w w' : Work) (k : NodeIdx),
    cgLoop j { w with stack := [{ node := k, pat := 0, len := 0 }] } = .ok w' →
    w'.stack.length ≤ 33 ∧ ∀ e rest, w'.stack = e :: rest → rest.length ≤ e.len.toNat ∧ e.len.toNat ≤ 32

/-- `CG.WALK` ends with an empty stack or CodeTooLong, for any contents of NODE, and records only legal codes
(42_code_generator.md R150, R152; 10_state.md R39, R40). -/
def Obligations.WalkEnds : Prop :=
  ∀ w : Work,
    (∀ w', cgRun w = .ok w' → w.stack = [] → w'.stack = [] ∧
      ((∀ c ∈ w.code, LegalKey c.2.len c.2.pat) → ∀ c ∈ w'.code, LegalKey c.2.len c.2.pat)) ∧
    (∀ e, cgRun w = .error e → e = .codeTooLong)

/-- The codes an ENCODE has found when phase CG is over. With at least two distinct Symbols the code of leaf i is the
path from the root to node i, 0 for left and 1 for right, through internal nodes only (42_code_generator.md R150, R152);
the codes are prefix-free and of 1 to 32 bits (R155). A single Symbol has the code "0" (R151). -/
def Obligations.CodesArePrefixFree : Prop :=
  ∀ s m : State, s.params.Legal → Reaches .encode .ts s m →
    (2 ≤ m.work.ft.length →
      (∀ i, i < m.work.ft.length →
        (m.work.descend m.work.root (m.work.codeBits i)).toNat = i ∧
        (∀ j, j < (m.work.codeBits i).length →
          (m.work.nodeAt (m.work.descend m.work.root ((m.work.codeBits i).take j))).leaf = false) ∧
        LegalKey (m.work.codeAt i).len (m.work.codeAt i).pat) ∧
      ∀ i j, i < m.work.ft.length → j < m.work.ft.length → i ≠ j →
        ¬ (m.work.codeBits i).IsPrefix (m.work.codeBits j)) ∧
    (m.work.ft.length = 1 → m.work.codeAt 0 = { len := 1, pat := 0 } ∧ m.work.codeBits 0 = [false])

/-! ## Units EN and TS (43_encoder_packer.md, 44_table_serializer.md) -/

/-- `PK.PUSH` appends one bit to the bitstream, keeping the packer's invariant (43_encoder_packer.md R163, 10_state.md
R42, 30_encoding.md R96). With fewer than seven bits held it stores nothing and needs no room; the eighth bit writes the
byte at wr_ptr and no other, and a byte that does not fit BYTE_OUT is IOError (20_memory.md R66, 60_exceptions.md
R241 (d)). The bounds are the widths of bit_total and wr_ptr (00_scope.md R7). -/
def Obligations.PushAppendsOneBit : Prop :=
  (∀ (cap : Option Nat) (base : Nat) (bits : List Bool) (b : Bool) (x : Writer), Packed base bits x →
    x.1.pkCnt ≠ 7 → bits.length + 1 < 2 ^ 37 →
    ∃ y, pkPush cap b x = .ok y ∧ Packed base (bits ++ [b]) y ∧ y.2 = x.2) ∧
  (∀ (cap : Option Nat) (base : Nat) (bits : List Bool) (b : Bool) (x : Writer), Packed base bits x →
    x.1.pkCnt = 7 → fits cap (x.1.wrPtr.toNat + 1) = true → bits.length + 1 < 2 ^ 37 →
    base + bits.length / 8 + 1 < 2 ^ 35 →
    ∃ y, pkPush cap b x = .ok y ∧ Packed base (bits ++ [b]) y ∧
      ∀ a, a ≠ x.1.wrPtr.toNat → y.2.read a = x.2.read a) ∧
  (∀ (cap : Option Nat) (b : Bool) (x : Writer), x.1.pkCnt = 7 → fits cap (x.1.wrPtr.toNat + 1) = false →
    pkPush cap b x = .error .ioError) ∧
  (∀ (cap : Option Nat) (x : Writer), x.1.pkCnt ≠ 0 → fits cap (x.1.wrPtr.toNat + 1) = false →
    pkFlush cap x = .error .ioError)

/-- `EN.SHIFT(l, p)` appends the bit-string bs(l, p), first bit first (43_encoder_packer.md R162). The bounds are the widths
of bit_total and wr_ptr (00_scope.md R7). -/
def Obligations.ShiftAppendsTheCode : Prop :=
  ∀ (base : Nat) (bits : List Bool) (l : Nat) (p : BitVec 32) (x : Writer), Packed base bits x → l ≤ 32 →
    bits.length + l < 2 ^ 37 → base + (bits.length + l) / 8 < 2 ^ 35 →
    ∃ y, enShift none p l x = .ok y ∧ Packed base (bits ++ bitString l p) y

/-! ## Unit TD (45_table_deserializer.md) -/

/-- HDR completes where phase TD stands at the header, for a table that fits the file and the core
(45_table_deserializer.md R185 to R187). -/
def Obligations.HdrCompletes : Prop :=
  ∀ (m : BitVec 16) (s : State), s.phase = .td → s.work.rdPtr = 0 →
    2 + 9 * m.toNat ≤ s.byteInLen.toNat → m.toNat ≤ s.params.nMax →
    exec (.hdr m) s = .next { s with work := { s.work with tdM := m, rdPtr := 2 } }

/-- `TD.SIZECHECK` (45_table_deserializer.md R187) and the short file (R186). -/
def Obligations.TableSizeErrors : Prop :=
  (∀ (m : BitVec 16) (s : State), s.phase = .td → s.work.rdPtr = 0 →
    (2 + 9 * m.toNat > s.byteInLen.toNat → exec (.hdr m) s = .next (s.raise .malformedTable)) ∧
    (2 + 9 * m.toNat ≤ s.byteInLen.toNat → m.toNat > s.params.nMax →
      exec (.hdr m) s = .next (s.raise .tableTooLarge))) ∧
  (∀ s : State, s.phase = .td → s.work.rdPtr = 0 → s.byteInLen.toNat < 2 →
    coreStep s = .next (s.raise .malformedTable))

/-- ENT completes where phase TD stands at an entry, for a legal length, upper bits zero and a key not yet in DTAB
(45_table_deserializer.md R188, R189). -/
def Obligations.EntCompletes : Prop :=
  ∀ (sym : Sym) (l : BitVec 8) (p : BitVec 32) (s : State), s.phase = .td → s.work.rdPtr ≠ 0 →
    s.work.tdI < s.work.tdM → 1 ≤ l.toNat → l.toNat ≤ 32 → p.toNat < 2 ^ l.toNat →
    (∀ e ∈ s.work.dtab, ¬ (e.len.toNat = l.toNat ∧ e.pat = p)) →
    exec (.ent sym l p) s = .next
      { s with work := { s.work with
          dtab := s.work.dtab ++ [{ len := BitVec.ofNat 6 l.toNat, pat := p, sym := sym }],
          rdPtr := s.work.rdPtr + 9, tdI := s.work.tdI + 1 } }

/-- `TD.CHECK` (45_table_deserializer.md R189): exactly the entries with an illegal length, a non-zero upper bit or a
key already in DTAB raise MalformedTable. -/
def Obligations.EntryChecks : Prop :=
  ∀ (sym : Sym) (l : BitVec 8) (p : BitVec 32) (s : State), s.phase = .td → s.work.rdPtr ≠ 0 →
    s.work.tdI < s.work.tdM →
    ((l.toNat = 0 ∨ l.toNat > 32 ∨ (l.toNat < 32 ∧ p.toNat / 2 ^ l.toNat ≠ 0) ∨
        ∃ e ∈ s.work.dtab, e.len.toNat = l.toNat ∧ e.pat = p) →
      exec (.ent sym l p) s = .next (s.raise .malformedTable)) ∧
    (¬ (l.toNat = 0 ∨ l.toNat > 32 ∨ (l.toNat < 32 ∧ p.toNat / 2 ^ l.toNat ≠ 0) ∨
        ∃ e ∈ s.work.dtab, e.len.toNat = l.toNat ∧ e.pat = p) →
      ∃ t, exec (.ent sym l p) s = .next t ∧ t.err = s.err ∧ t.errCode = s.errCode ∧ t.phase = .td)

/-- Frame of HDR and ENT: an error, or nothing changes but td_m, td_i, rd_ptr and DTAB; in particular no flag, no host
register and no element of a buffer (45_table_deserializer.md R186 to R188). -/
def Obligations.TableRecordFrame : Prop :=
  ∀ (i : Instr) (s t : State), (i.format = .hdr ∨ i.format = .ent) → exec i s = .next t →
    (∃ e, t = s.raise e) ∨
    (t = { s with work := { s.work with
            tdM := t.work.tdM, tdI := t.work.tdI, rdPtr := t.work.rdPtr, dtab := t.work.dtab } } ∧
      (i.format = .hdr → t.work.dtab = s.work.dtab ∧ t.work.tdI = s.work.tdI) ∧
      (i.format = .ent → t.work.tdM = s.work.tdM))

/-- The table DECODE has read when phase TD is over is the one in the file (45_table_deserializer.md R185, R188), and
DEC_TAB_N is its size. -/
def Obligations.DecodeReadsTheTable : Prop :=
  (∀ s m : State, Reaches .decode .de s m →
    decode .hdr (s.inputFile.take 2) = .ok (.hdr m.work.tdM, []) ∧
    m.work.dtab.length = m.work.tdM.toNat ∧ m.work.rdPtr.toNat = 2 + 9 * m.work.tdM.toNat ∧
    ∀ i, i < m.work.dtab.length → ∃ sym l p,
      decode .ent ((s.inputFile.drop (2 + 9 * i)).take 9) = .ok (.ent sym l p, []) ∧
      (Instr.ent sym l p).wellFormed = true ∧
      m.work.dtab[i]? = some (DtEntry.mk (l.setWidth 6) p sym)) ∧
  (∀ s t : State, EndOfRun .decode s t → t.err = false →
    ∃ m, Reaches .decode .de s m ∧ t.decTabN = m.work.tdM)

/-- Table round trip (45_table_deserializer.md R192): phase TD, started on a file ENCODE wrote, raises no error and ends
with as many entries in DTAB as FT has, each with the length and pattern of its code and its Symbol. -/
def Obligations.TableRoundTrip : Prop :=
  ∀ (s m t : State) (c : BitVec 1), s.params.Legal → Reaches .encode .en s m → EndOfRun .encode s t → t.err = false →
    fits t.params.byteInCap t.byteOutLen.toNat = true → t.portOk.getLsbD 2 = true → t.portOk.getLsbD 3 = true →
    ∃ u, Reaches .decode .de { t.feed with cfg := c } u ∧
      coreStep (({ t.feed with cfg := c } : State).start .decode) = .next u ∧
      u.work.dtabN.toNat = m.work.ft.length ∧ u.work.dtab.length = m.work.ft.length ∧
      ∀ (i : Nat) (e : FtEntry), m.work.ft[i]? = some e →
        u.work.dtab[i]? = some (DtEntry.mk (m.work.codeAt i).len (m.work.codeAt i).pat e.sym)

/-! ## Unit DE (46_decoder.md) -/

/-- `DE.NEXTBIT` and `DE.APPEND` on one bit (46_decoder.md R201, R202): the bit read is the next one of the stream,
most significant first; it enters the accumulator last, or saturates acc_len at 33. -/
def Obligations.NextBitIsAppended : Prop :=
  ∀ (b : Bool) (byte : Byte) (w : Work),
    payloadBit byte w = byte.getLsbD (7 - w.bitPos.toNat) ∧
    (1 ≤ w.bitsLeft.toNat → w.rdPtr.toNat + 1 < 2 ^ 35 →
      8 * (deAdvance w).rdPtr.toNat + (deAdvance w).bitPos.toNat = 8 * w.rdPtr.toNat + w.bitPos.toNat + 1 ∧
      (deAdvance w).bitsLeft.toNat = w.bitsLeft.toNat - 1 ∧
      deAdvance w = { w with rdPtr := (deAdvance w).rdPtr, bitPos := (deAdvance w).bitPos,
                             bitsLeft := (deAdvance w).bitsLeft }) ∧
    (w.accLen.toNat < 32 → w.accPat.toNat < 2 ^ w.accLen.toNat →
      (deAppend b w).accLen.toNat = w.accLen.toNat + 1 ∧
      bitString (deAppend b w).accLen.toNat (deAppend b w).accPat = bitString w.accLen.toNat w.accPat ++ [b] ∧
      deAppend b w = { w with accPat := (deAppend b w).accPat, accLen := (deAppend b w).accLen }) ∧
    (32 ≤ w.accLen.toNat → deAppend b w = { w with accLen := 33 })

/-- `DE.MATCH` (46_decoder.md R203): the Symbol of the key the accumulator equals is written at out_idx and the
accumulator emptied; a full SYM_OUT is IOError; without a key nothing happens. -/
def Obligations.MatchEmitsAndClears : Prop :=
  ∀ (cap : Option Nat) (x : Emitter),
    (∀ e ∈ x.1.dtab, 1 ≤ x.1.accLen.toNat → x.1.accLen.toNat ≤ 32 → e.len = x.1.accLen → e.pat = x.1.accPat →
      (∀ e' ∈ x.1.dtab, e'.len = e.len → e'.pat = e.pat → e' = e) →
      (fits cap (x.1.outIdx.toNat + 1) = false → deMatch cap x = .error .ioError) ∧
      (fits cap (x.1.outIdx.toNat + 1) = true → ∃ m,
        deMatch cap x = .ok ({ x.1 with outIdx := x.1.outIdx + 1, accPat := 0, accLen := 0 }, m) ∧
        m.read x.1.outIdx.toNat = e.sym ∧ ∀ a, a ≠ x.1.outIdx.toNat → m.read a = x.2.read a)) ∧
    ((x.1.accLen = 0 ∨ 32 < x.1.accLen.toNat ∨ ∀ e ∈ x.1.dtab, ¬ (e.len = x.1.accLen ∧ e.pat = x.1.accPat)) →
      deMatch cap x = .ok x)

/-- PAY completes where phase DE has bits left, if SYM_OUT has room: the bits of the byte still to consume are
consumed, the Symbols that greedy matching emits are written from out_idx on, and the rest stays in the accumulator
(46_decoder.md R200 to R203); with a saturated accumulator the bits are consumed and ignored (R207). -/
def Obligations.PayCompletes : Prop :=
  ∀ (byte : Byte) (s : State), s.phase = .de → 1 ≤ s.work.bitsLeft.toNat →
    s.work.rdPtr.toNat + 1 < 2 ^ 35 → s.work.outIdx.toNat + s.work.bitsLeft.toNat < 2 ^ 38 →
    (s.work.accLen.toNat ≤ 32 → fits s.params.symOutCap (s.work.outIdx.toNat + bitsOfByte s.work) = true) →
    (∀ e ∈ s.work.dtab, LegalKey e.len e.pat) →
    s.work.accLen.toNat ≤ 33 →
    (s.work.accLen.toNat ≤ 32 → s.work.accPat.toNat < 2 ^ s.work.accLen.toNat) →
    ∃ t, exec (.pay byte) s = .next t ∧ t.phase = .de ∧
      t.work.bitsLeft.toNat = s.work.bitsLeft.toNat - bitsOfByte s.work ∧
      8 * t.work.rdPtr.toNat + t.work.bitPos.toNat =
        8 * s.work.rdPtr.toNat + s.work.bitPos.toNat + bitsOfByte s.work ∧
      (s.work.accLen.toNat ≤ 32 →
        t.symOut.readList s.work.outIdx.toNat (t.work.outIdx.toNat - s.work.outIdx.toNat) =
          (greedy s.work.dtab (bitString s.work.accLen.toNat s.work.accPat)
            (nextBits byte s.work (bitsOfByte s.work))).1 ∧
        t.work.accLen.toNat = min 33 (greedy s.work.dtab (bitString s.work.accLen.toNat s.work.accPat)
            (nextBits byte s.work (bitsOfByte s.work))).2.length ∧
        (t.work.accLen.toNat ≤ 32 → bitString t.work.accLen.toNat t.work.accPat =
          (greedy s.work.dtab (bitString s.work.accLen.toNat s.work.accPat)
            (nextBits byte s.work (bitsOfByte s.work))).2)) ∧
      (s.work.accLen = 33 → t.work.accLen = 33 ∧ t.work.outIdx = s.work.outIdx ∧ t.symOut = s.symOut)

/-- Frame of PAY: an error, or nothing changes but the reader, the accumulator, out_idx and SYM_OUT from the old
out_idx to the new; in particular no flag and no host register (46_decoder.md R201 to R203). The premise is the
output bound of R208: `out_idx` ≤ `avail`. -/
def Obligations.PayFrame : Prop :=
  ∀ (byte : Byte) (s t : State), s.work.outIdx.toNat + s.work.bitsLeft.toNat < 2 ^ 38 →
    exec (.pay byte) s = .next t →
    (∃ e, t = s.raise e) ∨
    (t = { s with
        symOut := t.symOut,
        work := { s.work with
          rdPtr := t.work.rdPtr, bitPos := t.work.bitPos, bitsLeft := t.work.bitsLeft,
          accPat := t.work.accPat, accLen := t.work.accLen, outIdx := t.work.outIdx } } ∧
      s.work.outIdx.toNat ≤ t.work.outIdx.toNat ∧
      t.work.outIdx.toNat ≤ s.work.outIdx.toNat + bitsOfByte s.work ∧
      ∀ a, (a < s.work.outIdx.toNat ∨ t.work.outIdx.toNat ≤ a) → t.symOut.read a = s.symOut.read a)

/-- DECODE without error emits what greedy matching with a buffer of unlimited length emits on the payload bits, by the
table it has read when phase DE begins: all bits in bare mode, the first DEC_BITS in length mode (46_decoder.md R200, R205
to R207). Each Symbol takes at least one bit (R208). -/
def Obligations.DecodeIsGreedy : Prop :=
  ∀ s t : State, EndOfRun .decode s t → t.err = false →
    ∃ m, Reaches .decode .de s m ∧
      ∀ bits : List Bool,
        bits = (if s.cfg = 1 then (unpackBits (s.inputFile.drop (2 + 9 * m.work.dtab.length))).take s.decBits.toNat
          else unpackBits (s.inputFile.drop (2 + 9 * m.work.dtab.length))) →
        (s.cfg = 1 → bits.length = s.decBits.toNat) ∧
        t.outputSymbols = (greedy m.work.dtab [] bits).1 ∧
        t.symOutLen.toNat ≤ bits.length ∧
        t.residLen.toNat = min 33 (greedy m.work.dtab [] bits).2.length ∧
        (t.trail = true ↔ (greedy m.work.dtab [] bits).2 ≠ []) ∧
        (s.cfg = 1 → t.residLen = 0 ∧ t.trail = false)

/-! ## Invariants -/

/-- The legal-state invariant holds at reset (70_reset_and_hazards.md section 1). -/
def Obligations.ResetIsLegal : Prop := Inv State.reset

/-- Every step, of the core or of the host, keeps the relations of the flags, PHASE and ERR_CODE
(10_state.md R23, R24). -/
def Obligations.StepKeepsStatus : Prop :=
  ∀ s t : State, StatusInv s → step s = .next t → StatusInv t

/-- Every step keeps the buffers and CODE in canonical form (the model's own form, log 4). -/
def Obligations.StepKeepsCanonicalForm : Prop :=
  ∀ s t : State, StoreInv s → step s = .next t → StoreInv t

/-- Every step keeps the legal-state invariant: flags, canonical form, sorted FT, legal and distinct keys, the
accumulator's bound, and where each phase of DECODE starts (10_state.md R23, R36, R40, R41, R43; 45_table_deserializer.md
R185). -/
def Obligations.StepKeepsLegalStates : Prop :=
  ∀ s t : State, Inv s → step s = .next t → Inv t
end

