-- ==== Sys2Proof/Laws/Memory.lean ====
section
/-! SUPPORT. Laws of the buffers: a read after a write, a read elsewhere, and that every operation keeps the canonical
form. -/

namespace Sys2Proof.Machine

@[simp] theorem cellsFind_set_same {α : Type} (a : Nat) (v : α) (l : List (Nat × α)) :
    cellsFind a (cellsSet a v l) = some v := by
  induction l with
  | nil => simp [cellsSet, cellsFind]
  | cons h t ih =>
    obtain ⟨b, u⟩ := h
    simp only [cellsSet]
    split
    · simp [cellsFind]
    · split
      · simp [cellsFind]
      · rename_i hab; simp [cellsFind, hab, ih]

theorem cellsFind_set_other {α : Type} {a c : Nat} (hne : c ≠ a) (v : α) (l : List (Nat × α)) :
    cellsFind c (cellsSet a v l) = cellsFind c l := by
  induction l with
  | nil => simp [cellsSet, cellsFind, hne]
  | cons h t ih =>
    obtain ⟨b, u⟩ := h
    simp only [cellsSet]
    split
    · simp [cellsFind, hne]
    · split
      · rename_i hab; subst hab; simp [cellsFind, hne]
      · simp [cellsFind, ih]

theorem cellsSet_key_mem {α : Type} {a : Nat} {v : α} {l : List (Nat × α)} {x : Nat}
    (hx : x ∈ (cellsSet a v l).map Prod.fst) : x = a ∨ x ∈ l.map Prod.fst := by
  induction l with
  | nil => simpa [cellsSet] using hx
  | cons h t ih =>
    obtain ⟨b, u⟩ := h
    simp only [cellsSet] at hx
    split at hx
    · simpa using hx
    · split at hx
      · rename_i hab; subst hab; simpa using hx
      · simp only [List.map_cons, List.mem_cons] at hx ⊢
        rcases hx with hx | hx
        · exact .inr (.inl hx)
        · rcases ih hx with hx | hx
          · exact .inl hx
          · exact .inr (.inr hx)

/-- Listing an element keeps the canonical form. -/
theorem cellsSet_wf {α : Type} (a : Nat) (v : α) {l : List (Nat × α)} (h : CellsWf l) :
    CellsWf (cellsSet a v l) := by
  induction l with
  | nil => simp [cellsSet, CellsWf]
  | cons hd t ih =>
    obtain ⟨b, u⟩ := hd
    simp only [CellsWf, List.map_cons, List.pairwise_cons] at h
    simp only [cellsSet]
    split
    · rename_i hab
      simp only [CellsWf, List.map_cons, List.pairwise_cons, List.mem_cons]
      refine ⟨?_, h.1, h.2⟩
      rintro x (rfl | hx)
      · exact hab
      · exact Nat.lt_trans hab (h.1 x hx)
    · split
      · rename_i hab; subst hab
        simp only [CellsWf, List.map_cons, List.pairwise_cons]
        exact h
      · rename_i h1 h2
        simp only [CellsWf, List.map_cons, List.pairwise_cons]
        refine ⟨fun x hx => ?_, ih h.2⟩
        rcases cellsSet_key_mem hx with rfl | hx
        · omega
        · exact h.1 x hx

/-- The entries after a write are the new one and old ones. -/
theorem cellsSet_mem {α : Type} {a : Nat} {v : α} {l : List (Nat × α)} {x : Nat × α}
    (hx : x ∈ cellsSet a v l) : x = (a, v) ∨ x ∈ l := by
  induction l with
  | nil => simpa [cellsSet] using hx
  | cons h t ih =>
    obtain ⟨b, u⟩ := h
    simp only [cellsSet] at hx
    split at hx
    · simpa using hx
    · split at hx
      · simp only [List.mem_cons] at hx ⊢
        rcases hx with hx | hx
        · exact .inl hx
        · exact .inr (.inr hx)
      · simp only [List.mem_cons] at hx ⊢
        rcases hx with hx | hx
        · exact .inr (.inl hx)
        · rcases ih hx with hx | hx
          · exact .inl hx
          · exact .inr (.inr hx)

@[simp] theorem Memory.read_write_same {w : Nat} (m : Memory w) (i : Nat) (v : BitVec w) :
    (m.write i v).read i = v := by
  simp [Memory.read, Memory.write]

theorem Memory.read_write_other {w : Nat} (m : Memory w) {i j : Nat} (hne : j ≠ i) (v : BitVec w) :
    (m.write i v).read j = m.read j := by
  simp [Memory.read, Memory.write, cellsFind_set_other hne]

theorem Memory.write_wf {w : Nat} {m : Memory w} (h : m.wf) (i : Nat) (v : BitVec w) : (m.write i v).wf :=
  cellsSet_wf i v h

theorem Memory.writeList_wf {w : Nat} {m : Memory w} (h : m.wf) (a : Nat) (vs : List (BitVec w)) :
    (m.writeList a vs).wf := by
  induction vs generalizing m a with
  | nil => exact h
  | cons v vs ih => exact ih (Memory.write_wf h a v) (a + 1)

@[simp] theorem Memory.forget_wf {w : Nat} (m : Memory w) (e : Nat) : (m.forget e).wf := by
  simp [Memory.forget, Memory.wf, CellsWf]

@[simp] theorem Memory.forget_read {w : Nat} (m : Memory w) (e i : Nat) :
    (m.forget e).read i = Config.anyElement w e i := rfl

/-- A write of consecutive elements leaves every other element alone. -/
theorem Memory.read_writeList_outside {w : Nat} (m : Memory w) (a : Nat) (vs : List (BitVec w)) {j : Nat}
    (h : j < a ∨ a + vs.length ≤ j) : (m.writeList a vs).read j = m.read j := by
  induction vs generalizing m a with
  | nil => rfl
  | cons v vs ih =>
    simp only [List.length_cons] at h
    rw [Memory.writeList, ih _ _ (by omega), Memory.read_write_other _ (by omega)]

/-- A write of consecutive elements stores each. -/
theorem Memory.read_writeList_inside {w : Nat} (m : Memory w) (a : Nat) (vs : List (BitVec w)) {k : Nat}
    {v : BitVec w} (h : vs[k]? = some v) : (m.writeList a vs).read (a + k) = v := by
  induction vs generalizing m a k with
  | nil => simp at h
  | cons x vs ih =>
    cases k with
    | zero =>
      simp only [List.getElem?_cons_zero, Option.some.injEq] at h
      subst h
      rw [Memory.writeList, Memory.read_writeList_outside _ _ _ (.inl (by omega))]
      simp
    | succ k =>
      simp only [List.getElem?_cons_succ] at h
      have := ih (m.write a x) (a + 1) h
      rwa [show a + 1 + k = a + (k + 1) by omega] at this

@[simp] theorem Memory.readList_length {w : Nat} (m : Memory w) (a n : Nat) : (m.readList a n).length = n := by
  induction n generalizing a with
  | zero => rfl
  | succ n ih => simp [Memory.readList, ih]

theorem Memory.readList_getElem? {w : Nat} (m : Memory w) (a n k : Nat) (h : k < n) :
    (m.readList a n)[k]? = some (m.read (a + k)) := by
  induction n generalizing a k with
  | zero => omega
  | succ n ih =>
    cases k with
    | zero => simp [Memory.readList]
    | succ k =>
      rw [Memory.readList, List.getElem?_cons_succ, ih (a + 1) k (by omega)]
      congr 2
      omega

/-- Two buffers with equal elements in a range give equal lists. -/
theorem Memory.readList_congr {w : Nat} (m m' : Memory w) (a n : Nat)
    (h : ∀ i, a ≤ i → i < a + n → m.read i = m'.read i) : m.readList a n = m'.readList a n := by
  induction n generalizing a with
  | zero => rfl
  | succ n ih =>
    rw [Memory.readList, Memory.readList, h a (by omega) (by omega), ih (a + 1) fun i h1 h2 => h i (by omega) (by omega)]

theorem Memory.readList_append {w : Nat} (m : Memory w) (a n k : Nat) :
    m.readList a (n + k) = m.readList a n ++ m.readList (a + n) k := by
  induction n generalizing a with
  | zero => simp [Memory.readList]
  | succ n ih =>
    rw [show n + 1 + k = (n + k) + 1 by omega, Memory.readList, ih, Memory.readList,
      show a + 1 + n = a + (n + 1) by omega, List.cons_append]

/-- Reading back a list just written. -/
theorem Memory.readList_writeList {w : Nat} (m : Memory w) (a : Nat) (vs : List (BitVec w)) :
    (m.writeList a vs).readList a vs.length = vs := by
  apply List.ext_getElem?
  intro k
  by_cases h : k < vs.length
  · rw [Memory.readList_getElem? _ _ _ _ h]
    have := Memory.read_writeList_inside m a vs (List.getElem?_eq_getElem h)
    simp [this, h]
  · rw [List.getElem?_eq_none (by simpa using h), List.getElem?_eq_none (by omega)]

theorem copyBytes_wf (cap : Option Nat) (src : Memory 8) {dst : Memory 8} (h : dst.wf) (a n : Nat) :
    (copyBytes cap src dst a n).wf := by
  induction n generalizing dst a with
  | zero => exact h
  | succ n ih =>
    rw [copyBytes]
    apply ih
    split
    · exact Memory.write_wf h _ _
    · exact h

/-! ### Capacity (20_memory.md R66) -/

theorem fits_mono {cap : Option Nat} {m n : Nat} (h : fits cap n = true) (hmn : m ≤ n) : fits cap m = true := by
  cases cap with
  | none => rfl
  | some c => simp only [fits, decide_eq_true_eq] at h ⊢; omega

@[simp] theorem fits_none (n : Nat) : fits none n = true := rfl

theorem memRead_ok {w : Nat} {cap : Option Nat} {m : Memory w} {a k : Nat} (h : fits cap (a + k) = true) :
    memRead cap m a k = .ok (m.readList a k) := by
  simp [memRead, h]

theorem memRead_full {w : Nat} {cap : Option Nat} {m : Memory w} {a k : Nat} (h : fits cap (a + k) = false) :
    memRead cap m a k = .error .ioError := by
  simp [memRead, h]

theorem memReadOne_ok {w : Nat} {cap : Option Nat} {m : Memory w} {a : Nat} (h : fits cap (a + 1) = true) :
    memReadOne cap m a = .ok (m.read a) := by
  simp [memReadOne, h]

theorem memWrite_ok {w : Nat} {cap : Option Nat} {m : Memory w} {a : Nat} {vs : List (BitVec w)}
    (h : fits cap (a + vs.length) = true) : memWrite cap m a vs = .ok (m.writeList a vs) := by
  simp [memWrite, h]

theorem memWrite_full {w : Nat} {cap : Option Nat} {m : Memory w} {a : Nat} {vs : List (BitVec w)}
    (h : fits cap (a + vs.length) = false) : memWrite cap m a vs = .error .ioError := by
  simp [memWrite, h]

/-- Everything a write of consecutive elements can do. -/
theorem memWrite_cases {w : Nat} {cap : Option Nat} {m : Memory w} {a : Nat} {vs : List (BitVec w)} :
    (fits cap (a + vs.length) = true ∧ memWrite cap m a vs = .ok (m.writeList a vs)) ∨
    (fits cap (a + vs.length) = false ∧ memWrite cap m a vs = .error .ioError) := by
  cases h : fits cap (a + vs.length)
  · exact .inr ⟨rfl, memWrite_full h⟩
  · exact .inl ⟨rfl, memWrite_ok h⟩

/-- What an `.ok` of a write says. -/
theorem memWrite_inv {w : Nat} {cap : Option Nat} {m m' : Memory w} {a : Nat} {vs : List (BitVec w)}
    (h : memWrite cap m a vs = .ok m') : m' = m.writeList a vs ∧ fits cap (a + vs.length) = true := by
  rcases memWrite_cases (cap := cap) (m := m) (a := a) (vs := vs) with ⟨h1, h2⟩ | ⟨_, h2⟩
  · rw [h2] at h; exact ⟨(Except.ok.inj h).symm, h1⟩
  · rw [h2] at h; cases h

end Sys2Proof.Machine
end

