-- ==== Sys2Proof/Laws/State.lean ====
section
/-! SUPPORT. One lemma per field for each update of the state, so that no proof unfolds a record update. -/

namespace Sys2Proof.Machine

/-! ### flagsStart (47_commands.md R217) -/
@[simp] theorem State.flagsStart_busy (s : State) : (s.flagsStart).busy = true := rfl
@[simp] theorem State.flagsStart_done (s : State) : (s.flagsStart).done = false := rfl
@[simp] theorem State.flagsStart_err (s : State) : (s.flagsStart).err = false := rfl
@[simp] theorem State.flagsStart_trail (s : State) : (s.flagsStart).trail = false := rfl
@[simp] theorem State.flagsStart_phase (s : State) : (s.flagsStart).phase = s.phase := rfl
@[simp] theorem State.flagsStart_errCode (s : State) : (s.flagsStart).errCode = 0 := rfl
@[simp] theorem State.flagsStart_cfg (s : State) : (s.flagsStart).cfg = s.cfg := rfl
@[simp] theorem State.flagsStart_inLen (s : State) : (s.flagsStart).inLen = s.inLen := rfl
@[simp] theorem State.flagsStart_byteOutLen (s : State) : (s.flagsStart).byteOutLen = s.byteOutLen := rfl
@[simp] theorem State.flagsStart_encBits (s : State) : (s.flagsStart).encBits = s.encBits := rfl
@[simp] theorem State.flagsStart_encTabN (s : State) : (s.flagsStart).encTabN = s.encTabN := rfl
@[simp] theorem State.flagsStart_byteInLen (s : State) : (s.flagsStart).byteInLen = s.byteInLen := rfl
@[simp] theorem State.flagsStart_decBits (s : State) : (s.flagsStart).decBits = s.decBits := rfl
@[simp] theorem State.flagsStart_symOutLen (s : State) : (s.flagsStart).symOutLen = s.symOutLen := rfl
@[simp] theorem State.flagsStart_decTabN (s : State) : (s.flagsStart).decTabN = s.decTabN := rfl
@[simp] theorem State.flagsStart_residLen (s : State) : (s.flagsStart).residLen = s.residLen := rfl
@[simp] theorem State.flagsStart_work (s : State) : (s.flagsStart).work = s.work := rfl
@[simp] theorem State.flagsStart_symIn (s : State) : (s.flagsStart).symIn = s.symIn := rfl
@[simp] theorem State.flagsStart_byteOut (s : State) : (s.flagsStart).byteOut = s.byteOut := rfl
@[simp] theorem State.flagsStart_byteIn (s : State) : (s.flagsStart).byteIn = s.byteIn := rfl
@[simp] theorem State.flagsStart_symOut (s : State) : (s.flagsStart).symOut = s.symOut := rfl
@[simp] theorem State.flagsStart_portOk (s : State) : (s.flagsStart).portOk = s.portOk := rfl
@[simp] theorem State.flagsStart_params (s : State) : (s.flagsStart).params = s.params := rfl
@[simp] theorem State.flagsStart_script (s : State) : (s.flagsStart).script = s.script := rfl
@[simp] theorem State.flagsStart_hostData (s : State) : (s.flagsStart).hostData = s.hostData := rfl
@[simp] theorem State.flagsStart_fresh (s : State) : (s.flagsStart).fresh = s.fresh := rfl

/-! ### flagsComplete (47_commands.md R218) -/
@[simp] theorem State.flagsComplete_busy (s : State) : (s.flagsComplete).busy = false := rfl
@[simp] theorem State.flagsComplete_done (s : State) : (s.flagsComplete).done = true := rfl
@[simp] theorem State.flagsComplete_err (s : State) : (s.flagsComplete).err = s.err := rfl
@[simp] theorem State.flagsComplete_trail (s : State) : (s.flagsComplete).trail = s.trail := rfl
@[simp] theorem State.flagsComplete_phase (s : State) : (s.flagsComplete).phase = .idle := rfl
@[simp] theorem State.flagsComplete_errCode (s : State) : (s.flagsComplete).errCode = s.errCode := rfl
@[simp] theorem State.flagsComplete_cfg (s : State) : (s.flagsComplete).cfg = s.cfg := rfl
@[simp] theorem State.flagsComplete_inLen (s : State) : (s.flagsComplete).inLen = s.inLen := rfl
@[simp] theorem State.flagsComplete_byteOutLen (s : State) : (s.flagsComplete).byteOutLen = s.byteOutLen := rfl
@[simp] theorem State.flagsComplete_encBits (s : State) : (s.flagsComplete).encBits = s.encBits := rfl
@[simp] theorem State.flagsComplete_encTabN (s : State) : (s.flagsComplete).encTabN = s.encTabN := rfl
@[simp] theorem State.flagsComplete_byteInLen (s : State) : (s.flagsComplete).byteInLen = s.byteInLen := rfl
@[simp] theorem State.flagsComplete_decBits (s : State) : (s.flagsComplete).decBits = s.decBits := rfl
@[simp] theorem State.flagsComplete_symOutLen (s : State) : (s.flagsComplete).symOutLen = s.symOutLen := rfl
@[simp] theorem State.flagsComplete_decTabN (s : State) : (s.flagsComplete).decTabN = s.decTabN := rfl
@[simp] theorem State.flagsComplete_residLen (s : State) : (s.flagsComplete).residLen = s.residLen := rfl
@[simp] theorem State.flagsComplete_work (s : State) : (s.flagsComplete).work = s.work := rfl
@[simp] theorem State.flagsComplete_symIn (s : State) : (s.flagsComplete).symIn = s.symIn := rfl
@[simp] theorem State.flagsComplete_byteOut (s : State) : (s.flagsComplete).byteOut = s.byteOut := rfl
@[simp] theorem State.flagsComplete_byteIn (s : State) : (s.flagsComplete).byteIn = s.byteIn := rfl
@[simp] theorem State.flagsComplete_symOut (s : State) : (s.flagsComplete).symOut = s.symOut := rfl
@[simp] theorem State.flagsComplete_portOk (s : State) : (s.flagsComplete).portOk = s.portOk := rfl
@[simp] theorem State.flagsComplete_params (s : State) : (s.flagsComplete).params = s.params := rfl
@[simp] theorem State.flagsComplete_script (s : State) : (s.flagsComplete).script = s.script := rfl
@[simp] theorem State.flagsComplete_hostData (s : State) : (s.flagsComplete).hostData = s.hostData := rfl
@[simp] theorem State.flagsComplete_fresh (s : State) : (s.flagsComplete).fresh = s.fresh := rfl

/-! ### complete (47_commands.md R218) -/
@[simp] theorem State.complete_busy (s : State) : (s.complete).busy = false := rfl
@[simp] theorem State.complete_done (s : State) : (s.complete).done = true := rfl
@[simp] theorem State.complete_err (s : State) : (s.complete).err = s.err := rfl
@[simp] theorem State.complete_trail (s : State) : (s.complete).trail = s.trail := rfl
@[simp] theorem State.complete_phase (s : State) : (s.complete).phase = .idle := rfl
@[simp] theorem State.complete_errCode (s : State) : (s.complete).errCode = s.errCode := rfl
@[simp] theorem State.complete_cfg (s : State) : (s.complete).cfg = s.cfg := rfl
@[simp] theorem State.complete_inLen (s : State) : (s.complete).inLen = s.inLen := rfl
@[simp] theorem State.complete_byteOutLen (s : State) : (s.complete).byteOutLen = s.byteOutLen := rfl
@[simp] theorem State.complete_encBits (s : State) : (s.complete).encBits = s.encBits := rfl
@[simp] theorem State.complete_encTabN (s : State) : (s.complete).encTabN = s.encTabN := rfl
@[simp] theorem State.complete_byteInLen (s : State) : (s.complete).byteInLen = s.byteInLen := rfl
@[simp] theorem State.complete_decBits (s : State) : (s.complete).decBits = s.decBits := rfl
@[simp] theorem State.complete_symOutLen (s : State) : (s.complete).symOutLen = s.symOutLen := rfl
@[simp] theorem State.complete_decTabN (s : State) : (s.complete).decTabN = s.decTabN := rfl
@[simp] theorem State.complete_residLen (s : State) : (s.complete).residLen = s.residLen := rfl
@[simp] theorem State.complete_work (s : State) : (s.complete).work = s.work.forgetArrays s.fresh := rfl
@[simp] theorem State.complete_symIn (s : State) : (s.complete).symIn = s.symIn := rfl
@[simp] theorem State.complete_byteOut (s : State) : (s.complete).byteOut = s.byteOut := rfl
@[simp] theorem State.complete_byteIn (s : State) : (s.complete).byteIn = s.byteIn := rfl
@[simp] theorem State.complete_symOut (s : State) : (s.complete).symOut = s.symOut := rfl
@[simp] theorem State.complete_portOk (s : State) : (s.complete).portOk = s.portOk := rfl
@[simp] theorem State.complete_params (s : State) : (s.complete).params = s.params := rfl
@[simp] theorem State.complete_script (s : State) : (s.complete).script = s.script := rfl
@[simp] theorem State.complete_hostData (s : State) : (s.complete).hostData = s.hostData := rfl
@[simp] theorem State.complete_fresh (s : State) : (s.complete).fresh = s.fresh + 1 := rfl

/-! ### forgetArrays (93_implementation_defined.md U1) -/
@[simp] theorem Work.forgetArrays_curOp (w : Work) (n : Nat) : (w.forgetArrays n).curOp = w.curOp := rfl
@[simp] theorem Work.forgetArrays_lenEn (w : Work) (n : Nat) : (w.forgetArrays n).lenEn = w.lenEn := rfl
@[simp] theorem Work.forgetArrays_inIdx (w : Work) (n : Nat) : (w.forgetArrays n).inIdx = w.inIdx := rfl
@[simp] theorem Work.forgetArrays_root (w : Work) (n : Nat) : (w.forgetArrays n).root = w.root := rfl
@[simp] theorem Work.forgetArrays_tsI (w : Work) (n : Nat) : (w.forgetArrays n).tsI = w.tsI := rfl
@[simp] theorem Work.forgetArrays_wrPtr (w : Work) (n : Nat) : (w.forgetArrays n).wrPtr = w.wrPtr := rfl
@[simp] theorem Work.forgetArrays_pkByte (w : Work) (n : Nat) : (w.forgetArrays n).pkByte = w.pkByte := rfl
@[simp] theorem Work.forgetArrays_pkCnt (w : Work) (n : Nat) : (w.forgetArrays n).pkCnt = w.pkCnt := rfl
@[simp] theorem Work.forgetArrays_bitTotal (w : Work) (n : Nat) : (w.forgetArrays n).bitTotal = w.bitTotal := rfl
@[simp] theorem Work.forgetArrays_rdPtr (w : Work) (n : Nat) : (w.forgetArrays n).rdPtr = w.rdPtr := rfl
@[simp] theorem Work.forgetArrays_tdM (w : Work) (n : Nat) : (w.forgetArrays n).tdM = w.tdM := rfl
@[simp] theorem Work.forgetArrays_tdI (w : Work) (n : Nat) : (w.forgetArrays n).tdI = w.tdI := rfl
@[simp] theorem Work.forgetArrays_bitsLeft (w : Work) (n : Nat) : (w.forgetArrays n).bitsLeft = w.bitsLeft := rfl
@[simp] theorem Work.forgetArrays_bitPos (w : Work) (n : Nat) : (w.forgetArrays n).bitPos = w.bitPos := rfl
@[simp] theorem Work.forgetArrays_accPat (w : Work) (n : Nat) : (w.forgetArrays n).accPat = w.accPat := rfl
@[simp] theorem Work.forgetArrays_accLen (w : Work) (n : Nat) : (w.forgetArrays n).accLen = w.accLen := rfl
@[simp] theorem Work.forgetArrays_outIdx (w : Work) (n : Nat) : (w.forgetArrays n).outIdx = w.outIdx := rfl
@[simp] theorem Work.forgetArrays_stack (w : Work) (n : Nat) : (w.forgetArrays n).stack = w.stack := rfl

@[simp] theorem anyEntries_length {α : Type} (any : Nat → α) (n : Nat) : (anyEntries any n).length = n := by
  simp [anyEntries]

@[simp] theorem Work.forgetArrays_ft_length (w : Work) (n : Nat) :
    (w.forgetArrays n).ft.length = w.ft.length := anyEntries_length _ _

@[simp] theorem Work.forgetArrays_node_length (w : Work) (n : Nat) :
    (w.forgetArrays n).node.length = w.node.length := anyEntries_length _ _

@[simp] theorem Work.forgetArrays_pq_length (w : Work) (n : Nat) :
    (w.forgetArrays n).pq.length = w.pq.length := anyEntries_length _ _

@[simp] theorem Work.forgetArrays_dtab_length (w : Work) (n : Nat) :
    (w.forgetArrays n).dtab.length = w.dtab.length := anyEntries_length _ _

@[simp] theorem Work.forgetArrays_code_keys (w : Work) (n : Nat) :
    (w.forgetArrays n).code.map Prod.fst = w.code.map Prod.fst := by
  simp [Work.forgetArrays]

@[simp] theorem Work.forgetArrays_ftN (w : Work) (n : Nat) : (w.forgetArrays n).ftN = w.ftN := by
  simp [Work.ftN]

@[simp] theorem Work.forgetArrays_nodeN (w : Work) (n : Nat) : (w.forgetArrays n).nodeN = w.nodeN := by
  simp [Work.nodeN]

@[simp] theorem Work.forgetArrays_pqN (w : Work) (n : Nat) : (w.forgetArrays n).pqN = w.pqN := by
  simp [Work.pqN]

@[simp] theorem Work.forgetArrays_dtabN (w : Work) (n : Nat) : (w.forgetArrays n).dtabN = w.dtabN := by
  simp [Work.dtabN]

@[simp] theorem Work.forgetArrays_sp (w : Work) (n : Nat) : (w.forgetArrays n).sp = w.sp := rfl

/-! ### flagsError (60_exceptions.md R245) -/
@[simp] theorem State.flagsError_busy (s : State) (e : ErrKind) : (s.flagsError e).busy = false := rfl
@[simp] theorem State.flagsError_done (s : State) (e : ErrKind) : (s.flagsError e).done = true := rfl
@[simp] theorem State.flagsError_err (s : State) (e : ErrKind) : (s.flagsError e).err = true := rfl
@[simp] theorem State.flagsError_trail (s : State) (e : ErrKind) : (s.flagsError e).trail = false := rfl
@[simp] theorem State.flagsError_phase (s : State) (e : ErrKind) : (s.flagsError e).phase = .idle := rfl
@[simp] theorem State.flagsError_errCode (s : State) (e : ErrKind) : (s.flagsError e).errCode = e.code := rfl
@[simp] theorem State.flagsError_cfg (s : State) (e : ErrKind) : (s.flagsError e).cfg = s.cfg := rfl
@[simp] theorem State.flagsError_inLen (s : State) (e : ErrKind) : (s.flagsError e).inLen = s.inLen := rfl
@[simp] theorem State.flagsError_byteOutLen (s : State) (e : ErrKind) : (s.flagsError e).byteOutLen = s.byteOutLen := rfl
@[simp] theorem State.flagsError_encBits (s : State) (e : ErrKind) : (s.flagsError e).encBits = s.encBits := rfl
@[simp] theorem State.flagsError_encTabN (s : State) (e : ErrKind) : (s.flagsError e).encTabN = s.encTabN := rfl
@[simp] theorem State.flagsError_byteInLen (s : State) (e : ErrKind) : (s.flagsError e).byteInLen = s.byteInLen := rfl
@[simp] theorem State.flagsError_decBits (s : State) (e : ErrKind) : (s.flagsError e).decBits = s.decBits := rfl
@[simp] theorem State.flagsError_symOutLen (s : State) (e : ErrKind) : (s.flagsError e).symOutLen = s.symOutLen := rfl
@[simp] theorem State.flagsError_decTabN (s : State) (e : ErrKind) : (s.flagsError e).decTabN = s.decTabN := rfl
@[simp] theorem State.flagsError_residLen (s : State) (e : ErrKind) : (s.flagsError e).residLen = s.residLen := rfl
@[simp] theorem State.flagsError_work (s : State) (e : ErrKind) : (s.flagsError e).work = s.work := rfl
@[simp] theorem State.flagsError_symIn (s : State) (e : ErrKind) : (s.flagsError e).symIn = s.symIn := rfl
@[simp] theorem State.flagsError_byteOut (s : State) (e : ErrKind) : (s.flagsError e).byteOut = s.byteOut := rfl
@[simp] theorem State.flagsError_byteIn (s : State) (e : ErrKind) : (s.flagsError e).byteIn = s.byteIn := rfl
@[simp] theorem State.flagsError_symOut (s : State) (e : ErrKind) : (s.flagsError e).symOut = s.symOut := rfl
@[simp] theorem State.flagsError_portOk (s : State) (e : ErrKind) : (s.flagsError e).portOk = s.portOk := rfl
@[simp] theorem State.flagsError_params (s : State) (e : ErrKind) : (s.flagsError e).params = s.params := rfl
@[simp] theorem State.flagsError_script (s : State) (e : ErrKind) : (s.flagsError e).script = s.script := rfl
@[simp] theorem State.flagsError_hostData (s : State) (e : ErrKind) : (s.flagsError e).hostData = s.hostData := rfl
@[simp] theorem State.flagsError_fresh (s : State) (e : ErrKind) : (s.flagsError e).fresh = s.fresh := rfl

/-! ### dropWork (60_exceptions.md R245) -/
@[simp] theorem State.dropWork_busy (s : State) : (s.dropWork).busy = s.busy := rfl
@[simp] theorem State.dropWork_done (s : State) : (s.dropWork).done = s.done := rfl
@[simp] theorem State.dropWork_err (s : State) : (s.dropWork).err = s.err := rfl
@[simp] theorem State.dropWork_trail (s : State) : (s.dropWork).trail = s.trail := rfl
@[simp] theorem State.dropWork_phase (s : State) : (s.dropWork).phase = s.phase := rfl
@[simp] theorem State.dropWork_errCode (s : State) : (s.dropWork).errCode = s.errCode := rfl
@[simp] theorem State.dropWork_cfg (s : State) : (s.dropWork).cfg = s.cfg := rfl
@[simp] theorem State.dropWork_inLen (s : State) : (s.dropWork).inLen = s.inLen := rfl
@[simp] theorem State.dropWork_byteOutLen (s : State) : (s.dropWork).byteOutLen = s.byteOutLen := rfl
@[simp] theorem State.dropWork_encBits (s : State) : (s.dropWork).encBits = s.encBits := rfl
@[simp] theorem State.dropWork_encTabN (s : State) : (s.dropWork).encTabN = s.encTabN := rfl
@[simp] theorem State.dropWork_byteInLen (s : State) : (s.dropWork).byteInLen = s.byteInLen := rfl
@[simp] theorem State.dropWork_decBits (s : State) : (s.dropWork).decBits = s.decBits := rfl
@[simp] theorem State.dropWork_symOutLen (s : State) : (s.dropWork).symOutLen = s.symOutLen := rfl
@[simp] theorem State.dropWork_decTabN (s : State) : (s.dropWork).decTabN = s.decTabN := rfl
@[simp] theorem State.dropWork_residLen (s : State) : (s.dropWork).residLen = s.residLen := rfl
@[simp] theorem State.dropWork_work (s : State) : (s.dropWork).work = Work.start s.work.curOp s.work.lenEn := rfl
@[simp] theorem State.dropWork_symIn (s : State) : (s.dropWork).symIn = s.symIn := rfl
@[simp] theorem State.dropWork_byteOut (s : State) : (s.dropWork).byteOut = s.byteOut := rfl
@[simp] theorem State.dropWork_byteIn (s : State) : (s.dropWork).byteIn = s.byteIn := rfl
@[simp] theorem State.dropWork_symOut (s : State) : (s.dropWork).symOut = s.symOut := rfl
@[simp] theorem State.dropWork_portOk (s : State) : (s.dropWork).portOk = s.portOk := rfl
@[simp] theorem State.dropWork_params (s : State) : (s.dropWork).params = s.params := rfl
@[simp] theorem State.dropWork_script (s : State) : (s.dropWork).script = s.script := rfl
@[simp] theorem State.dropWork_hostData (s : State) : (s.dropWork).hostData = s.hostData := rfl
@[simp] theorem State.dropWork_fresh (s : State) : (s.dropWork).fresh = s.fresh := rfl

/-! ### toPhase (10_state.md R45) -/
@[simp] theorem State.toPhase_busy (s : State) (p : Phase) : (s.toPhase p).busy = s.busy := rfl
@[simp] theorem State.toPhase_done (s : State) (p : Phase) : (s.toPhase p).done = s.done := rfl
@[simp] theorem State.toPhase_err (s : State) (p : Phase) : (s.toPhase p).err = s.err := rfl
@[simp] theorem State.toPhase_trail (s : State) (p : Phase) : (s.toPhase p).trail = s.trail := rfl
@[simp] theorem State.toPhase_phase (s : State) (p : Phase) : (s.toPhase p).phase = p := rfl
@[simp] theorem State.toPhase_errCode (s : State) (p : Phase) : (s.toPhase p).errCode = s.errCode := rfl
@[simp] theorem State.toPhase_cfg (s : State) (p : Phase) : (s.toPhase p).cfg = s.cfg := rfl
@[simp] theorem State.toPhase_inLen (s : State) (p : Phase) : (s.toPhase p).inLen = s.inLen := rfl
@[simp] theorem State.toPhase_byteOutLen (s : State) (p : Phase) : (s.toPhase p).byteOutLen = s.byteOutLen := rfl
@[simp] theorem State.toPhase_encBits (s : State) (p : Phase) : (s.toPhase p).encBits = s.encBits := rfl
@[simp] theorem State.toPhase_encTabN (s : State) (p : Phase) : (s.toPhase p).encTabN = s.encTabN := rfl
@[simp] theorem State.toPhase_byteInLen (s : State) (p : Phase) : (s.toPhase p).byteInLen = s.byteInLen := rfl
@[simp] theorem State.toPhase_decBits (s : State) (p : Phase) : (s.toPhase p).decBits = s.decBits := rfl
@[simp] theorem State.toPhase_symOutLen (s : State) (p : Phase) : (s.toPhase p).symOutLen = s.symOutLen := rfl
@[simp] theorem State.toPhase_decTabN (s : State) (p : Phase) : (s.toPhase p).decTabN = s.decTabN := rfl
@[simp] theorem State.toPhase_residLen (s : State) (p : Phase) : (s.toPhase p).residLen = s.residLen := rfl
@[simp] theorem State.toPhase_work (s : State) (p : Phase) : (s.toPhase p).work = s.work := rfl
@[simp] theorem State.toPhase_symIn (s : State) (p : Phase) : (s.toPhase p).symIn = s.symIn := rfl
@[simp] theorem State.toPhase_byteOut (s : State) (p : Phase) : (s.toPhase p).byteOut = s.byteOut := rfl
@[simp] theorem State.toPhase_byteIn (s : State) (p : Phase) : (s.toPhase p).byteIn = s.byteIn := rfl
@[simp] theorem State.toPhase_symOut (s : State) (p : Phase) : (s.toPhase p).symOut = s.symOut := rfl
@[simp] theorem State.toPhase_portOk (s : State) (p : Phase) : (s.toPhase p).portOk = s.portOk := rfl
@[simp] theorem State.toPhase_params (s : State) (p : Phase) : (s.toPhase p).params = s.params := rfl
@[simp] theorem State.toPhase_script (s : State) (p : Phase) : (s.toPhase p).script = s.script := rfl
@[simp] theorem State.toPhase_hostData (s : State) (p : Phase) : (s.toPhase p).hostData = s.hostData := rfl
@[simp] theorem State.toPhase_fresh (s : State) (p : Phase) : (s.toPhase p).fresh = s.fresh := rfl

/-! ### readAny (93_implementation_defined.md U5) -/
@[simp] theorem State.readAny_busy (s : State) (w : Nat) : (s.readAny w).busy = s.busy := rfl
@[simp] theorem State.readAny_done (s : State) (w : Nat) : (s.readAny w).done = s.done := rfl
@[simp] theorem State.readAny_err (s : State) (w : Nat) : (s.readAny w).err = s.err := rfl
@[simp] theorem State.readAny_trail (s : State) (w : Nat) : (s.readAny w).trail = s.trail := rfl
@[simp] theorem State.readAny_phase (s : State) (w : Nat) : (s.readAny w).phase = s.phase := rfl
@[simp] theorem State.readAny_errCode (s : State) (w : Nat) : (s.readAny w).errCode = s.errCode := rfl
@[simp] theorem State.readAny_cfg (s : State) (w : Nat) : (s.readAny w).cfg = s.cfg := rfl
@[simp] theorem State.readAny_inLen (s : State) (w : Nat) : (s.readAny w).inLen = s.inLen := rfl
@[simp] theorem State.readAny_byteOutLen (s : State) (w : Nat) : (s.readAny w).byteOutLen = s.byteOutLen := rfl
@[simp] theorem State.readAny_encBits (s : State) (w : Nat) : (s.readAny w).encBits = s.encBits := rfl
@[simp] theorem State.readAny_encTabN (s : State) (w : Nat) : (s.readAny w).encTabN = s.encTabN := rfl
@[simp] theorem State.readAny_byteInLen (s : State) (w : Nat) : (s.readAny w).byteInLen = s.byteInLen := rfl
@[simp] theorem State.readAny_decBits (s : State) (w : Nat) : (s.readAny w).decBits = s.decBits := rfl
@[simp] theorem State.readAny_symOutLen (s : State) (w : Nat) : (s.readAny w).symOutLen = s.symOutLen := rfl
@[simp] theorem State.readAny_decTabN (s : State) (w : Nat) : (s.readAny w).decTabN = s.decTabN := rfl
@[simp] theorem State.readAny_residLen (s : State) (w : Nat) : (s.readAny w).residLen = s.residLen := rfl
@[simp] theorem State.readAny_work (s : State) (w : Nat) : (s.readAny w).work = s.work := rfl
@[simp] theorem State.readAny_symIn (s : State) (w : Nat) : (s.readAny w).symIn = s.symIn := rfl
@[simp] theorem State.readAny_byteOut (s : State) (w : Nat) : (s.readAny w).byteOut = s.byteOut := rfl
@[simp] theorem State.readAny_byteIn (s : State) (w : Nat) : (s.readAny w).byteIn = s.byteIn := rfl
@[simp] theorem State.readAny_symOut (s : State) (w : Nat) : (s.readAny w).symOut = s.symOut := rfl
@[simp] theorem State.readAny_portOk (s : State) (w : Nat) : (s.readAny w).portOk = s.portOk := rfl
@[simp] theorem State.readAny_params (s : State) (w : Nat) : (s.readAny w).params = s.params := rfl
@[simp] theorem State.readAny_script (s : State) (w : Nat) : (s.readAny w).script = s.script := rfl
@[simp] theorem State.readAny_hostData (s : State) (w : Nat) : (s.readAny w).hostData =
    ((Config.anyRead s.fresh).setWidth w).setWidth 38 := rfl
@[simp] theorem State.readAny_fresh (s : State) (w : Nat) : (s.readAny w).fresh = s.fresh + 1 := rfl

/-! ### clearResults, ENCODE (60_exceptions.md R245) -/
@[simp] theorem State.clearResults_encode_busy (s : State) : (s.clearResults .encode).busy = s.busy := rfl
@[simp] theorem State.clearResults_encode_done (s : State) : (s.clearResults .encode).done = s.done := rfl
@[simp] theorem State.clearResults_encode_err (s : State) : (s.clearResults .encode).err = s.err := rfl
@[simp] theorem State.clearResults_encode_trail (s : State) : (s.clearResults .encode).trail = s.trail := rfl
@[simp] theorem State.clearResults_encode_phase (s : State) : (s.clearResults .encode).phase = s.phase := rfl
@[simp] theorem State.clearResults_encode_errCode (s : State) : (s.clearResults .encode).errCode = s.errCode := rfl
@[simp] theorem State.clearResults_encode_cfg (s : State) : (s.clearResults .encode).cfg = s.cfg := rfl
@[simp] theorem State.clearResults_encode_inLen (s : State) : (s.clearResults .encode).inLen = s.inLen := rfl
@[simp] theorem State.clearResults_encode_byteOutLen (s : State) : (s.clearResults .encode).byteOutLen = 0 := rfl
@[simp] theorem State.clearResults_encode_encBits (s : State) : (s.clearResults .encode).encBits = 0 := rfl
@[simp] theorem State.clearResults_encode_encTabN (s : State) : (s.clearResults .encode).encTabN = 0 := rfl
@[simp] theorem State.clearResults_encode_byteInLen (s : State) : (s.clearResults .encode).byteInLen = s.byteInLen := rfl
@[simp] theorem State.clearResults_encode_decBits (s : State) : (s.clearResults .encode).decBits = s.decBits := rfl
@[simp] theorem State.clearResults_encode_symOutLen (s : State) : (s.clearResults .encode).symOutLen = s.symOutLen := rfl
@[simp] theorem State.clearResults_encode_decTabN (s : State) : (s.clearResults .encode).decTabN = s.decTabN := rfl
@[simp] theorem State.clearResults_encode_residLen (s : State) : (s.clearResults .encode).residLen = s.residLen := rfl
@[simp] theorem State.clearResults_encode_work (s : State) : (s.clearResults .encode).work = s.work := rfl
@[simp] theorem State.clearResults_encode_symIn (s : State) : (s.clearResults .encode).symIn = s.symIn := rfl
@[simp] theorem State.clearResults_encode_byteOut (s : State) : (s.clearResults .encode).byteOut = s.byteOut := rfl
@[simp] theorem State.clearResults_encode_byteIn (s : State) : (s.clearResults .encode).byteIn = s.byteIn := rfl
@[simp] theorem State.clearResults_encode_symOut (s : State) : (s.clearResults .encode).symOut = s.symOut := rfl
@[simp] theorem State.clearResults_encode_portOk (s : State) : (s.clearResults .encode).portOk = s.portOk := rfl
@[simp] theorem State.clearResults_encode_params (s : State) : (s.clearResults .encode).params = s.params := rfl
@[simp] theorem State.clearResults_encode_script (s : State) : (s.clearResults .encode).script = s.script := rfl
@[simp] theorem State.clearResults_encode_hostData (s : State) : (s.clearResults .encode).hostData = s.hostData := rfl
@[simp] theorem State.clearResults_encode_fresh (s : State) : (s.clearResults .encode).fresh = s.fresh := rfl

/-! ### clearResults, DECODE (60_exceptions.md R245) -/
@[simp] theorem State.clearResults_decode_busy (s : State) : (s.clearResults .decode).busy = s.busy := rfl
@[simp] theorem State.clearResults_decode_done (s : State) : (s.clearResults .decode).done = s.done := rfl
@[simp] theorem State.clearResults_decode_err (s : State) : (s.clearResults .decode).err = s.err := rfl
@[simp] theorem State.clearResults_decode_trail (s : State) : (s.clearResults .decode).trail = s.trail := rfl
@[simp] theorem State.clearResults_decode_phase (s : State) : (s.clearResults .decode).phase = s.phase := rfl
@[simp] theorem State.clearResults_decode_errCode (s : State) : (s.clearResults .decode).errCode = s.errCode := rfl
@[simp] theorem State.clearResults_decode_cfg (s : State) : (s.clearResults .decode).cfg = s.cfg := rfl
@[simp] theorem State.clearResults_decode_inLen (s : State) : (s.clearResults .decode).inLen = s.inLen := rfl
@[simp] theorem State.clearResults_decode_byteOutLen (s : State) : (s.clearResults .decode).byteOutLen = s.byteOutLen := rfl
@[simp] theorem State.clearResults_decode_encBits (s : State) : (s.clearResults .decode).encBits = s.encBits := rfl
@[simp] theorem State.clearResults_decode_encTabN (s : State) : (s.clearResults .decode).encTabN = s.encTabN := rfl
@[simp] theorem State.clearResults_decode_byteInLen (s : State) : (s.clearResults .decode).byteInLen = s.byteInLen := rfl
@[simp] theorem State.clearResults_decode_decBits (s : State) : (s.clearResults .decode).decBits = s.decBits := rfl
@[simp] theorem State.clearResults_decode_symOutLen (s : State) : (s.clearResults .decode).symOutLen = 0 := rfl
@[simp] theorem State.clearResults_decode_decTabN (s : State) : (s.clearResults .decode).decTabN = 0 := rfl
@[simp] theorem State.clearResults_decode_residLen (s : State) : (s.clearResults .decode).residLen = 0 := rfl
@[simp] theorem State.clearResults_decode_work (s : State) : (s.clearResults .decode).work = s.work := rfl
@[simp] theorem State.clearResults_decode_symIn (s : State) : (s.clearResults .decode).symIn = s.symIn := rfl
@[simp] theorem State.clearResults_decode_byteOut (s : State) : (s.clearResults .decode).byteOut = s.byteOut := rfl
@[simp] theorem State.clearResults_decode_byteIn (s : State) : (s.clearResults .decode).byteIn = s.byteIn := rfl
@[simp] theorem State.clearResults_decode_symOut (s : State) : (s.clearResults .decode).symOut = s.symOut := rfl
@[simp] theorem State.clearResults_decode_portOk (s : State) : (s.clearResults .decode).portOk = s.portOk := rfl
@[simp] theorem State.clearResults_decode_params (s : State) : (s.clearResults .decode).params = s.params := rfl
@[simp] theorem State.clearResults_decode_script (s : State) : (s.clearResults .decode).script = s.script := rfl
@[simp] theorem State.clearResults_decode_hostData (s : State) : (s.clearResults .decode).hostData = s.hostData := rfl
@[simp] theorem State.clearResults_decode_fresh (s : State) : (s.clearResults .decode).fresh = s.fresh := rfl

/-! ### forgetOutput, ENCODE (60_exceptions.md R245) -/
@[simp] theorem State.forgetOutput_encode_busy (s : State) : (s.forgetOutput .encode).busy = s.busy := rfl
@[simp] theorem State.forgetOutput_encode_done (s : State) : (s.forgetOutput .encode).done = s.done := rfl
@[simp] theorem State.forgetOutput_encode_err (s : State) : (s.forgetOutput .encode).err = s.err := rfl
@[simp] theorem State.forgetOutput_encode_trail (s : State) : (s.forgetOutput .encode).trail = s.trail := rfl
@[simp] theorem State.forgetOutput_encode_phase (s : State) : (s.forgetOutput .encode).phase = s.phase := rfl
@[simp] theorem State.forgetOutput_encode_errCode (s : State) : (s.forgetOutput .encode).errCode = s.errCode := rfl
@[simp] theorem State.forgetOutput_encode_cfg (s : State) : (s.forgetOutput .encode).cfg = s.cfg := rfl
@[simp] theorem State.forgetOutput_encode_inLen (s : State) : (s.forgetOutput .encode).inLen = s.inLen := rfl
@[simp] theorem State.forgetOutput_encode_byteOutLen (s : State) : (s.forgetOutput .encode).byteOutLen = s.byteOutLen := rfl
@[simp] theorem State.forgetOutput_encode_encBits (s : State) : (s.forgetOutput .encode).encBits = s.encBits := rfl
@[simp] theorem State.forgetOutput_encode_encTabN (s : State) : (s.forgetOutput .encode).encTabN = s.encTabN := rfl
@[simp] theorem State.forgetOutput_encode_byteInLen (s : State) : (s.forgetOutput .encode).byteInLen = s.byteInLen := rfl
@[simp] theorem State.forgetOutput_encode_decBits (s : State) : (s.forgetOutput .encode).decBits = s.decBits := rfl
@[simp] theorem State.forgetOutput_encode_symOutLen (s : State) : (s.forgetOutput .encode).symOutLen = s.symOutLen := rfl
@[simp] theorem State.forgetOutput_encode_decTabN (s : State) : (s.forgetOutput .encode).decTabN = s.decTabN := rfl
@[simp] theorem State.forgetOutput_encode_residLen (s : State) : (s.forgetOutput .encode).residLen = s.residLen := rfl
@[simp] theorem State.forgetOutput_encode_work (s : State) : (s.forgetOutput .encode).work = s.work := rfl
@[simp] theorem State.forgetOutput_encode_symIn (s : State) : (s.forgetOutput .encode).symIn = s.symIn := rfl
@[simp] theorem State.forgetOutput_encode_byteOut (s : State) : (s.forgetOutput .encode).byteOut = s.byteOut.forget s.fresh := rfl
@[simp] theorem State.forgetOutput_encode_byteIn (s : State) : (s.forgetOutput .encode).byteIn = s.byteIn := rfl
@[simp] theorem State.forgetOutput_encode_symOut (s : State) : (s.forgetOutput .encode).symOut = s.symOut := rfl
@[simp] theorem State.forgetOutput_encode_portOk (s : State) : (s.forgetOutput .encode).portOk = s.portOk := rfl
@[simp] theorem State.forgetOutput_encode_params (s : State) : (s.forgetOutput .encode).params = s.params := rfl
@[simp] theorem State.forgetOutput_encode_script (s : State) : (s.forgetOutput .encode).script = s.script := rfl
@[simp] theorem State.forgetOutput_encode_hostData (s : State) : (s.forgetOutput .encode).hostData = s.hostData := rfl
@[simp] theorem State.forgetOutput_encode_fresh (s : State) : (s.forgetOutput .encode).fresh = s.fresh + 1 := rfl

/-! ### forgetOutput, DECODE (60_exceptions.md R245) -/
@[simp] theorem State.forgetOutput_decode_busy (s : State) : (s.forgetOutput .decode).busy = s.busy := rfl
@[simp] theorem State.forgetOutput_decode_done (s : State) : (s.forgetOutput .decode).done = s.done := rfl
@[simp] theorem State.forgetOutput_decode_err (s : State) : (s.forgetOutput .decode).err = s.err := rfl
@[simp] theorem State.forgetOutput_decode_trail (s : State) : (s.forgetOutput .decode).trail = s.trail := rfl
@[simp] theorem State.forgetOutput_decode_phase (s : State) : (s.forgetOutput .decode).phase = s.phase := rfl
@[simp] theorem State.forgetOutput_decode_errCode (s : State) : (s.forgetOutput .decode).errCode = s.errCode := rfl
@[simp] theorem State.forgetOutput_decode_cfg (s : State) : (s.forgetOutput .decode).cfg = s.cfg := rfl
@[simp] theorem State.forgetOutput_decode_inLen (s : State) : (s.forgetOutput .decode).inLen = s.inLen := rfl
@[simp] theorem State.forgetOutput_decode_byteOutLen (s : State) : (s.forgetOutput .decode).byteOutLen = s.byteOutLen := rfl
@[simp] theorem State.forgetOutput_decode_encBits (s : State) : (s.forgetOutput .decode).encBits = s.encBits := rfl
@[simp] theorem State.forgetOutput_decode_encTabN (s : State) : (s.forgetOutput .decode).encTabN = s.encTabN := rfl
@[simp] theorem State.forgetOutput_decode_byteInLen (s : State) : (s.forgetOutput .decode).byteInLen = s.byteInLen := rfl
@[simp] theorem State.forgetOutput_decode_decBits (s : State) : (s.forgetOutput .decode).decBits = s.decBits := rfl
@[simp] theorem State.forgetOutput_decode_symOutLen (s : State) : (s.forgetOutput .decode).symOutLen = s.symOutLen := rfl
@[simp] theorem State.forgetOutput_decode_decTabN (s : State) : (s.forgetOutput .decode).decTabN = s.decTabN := rfl
@[simp] theorem State.forgetOutput_decode_residLen (s : State) : (s.forgetOutput .decode).residLen = s.residLen := rfl
@[simp] theorem State.forgetOutput_decode_work (s : State) : (s.forgetOutput .decode).work = s.work := rfl
@[simp] theorem State.forgetOutput_decode_symIn (s : State) : (s.forgetOutput .decode).symIn = s.symIn := rfl
@[simp] theorem State.forgetOutput_decode_byteOut (s : State) : (s.forgetOutput .decode).byteOut = s.byteOut := rfl
@[simp] theorem State.forgetOutput_decode_byteIn (s : State) : (s.forgetOutput .decode).byteIn = s.byteIn := rfl
@[simp] theorem State.forgetOutput_decode_symOut (s : State) : (s.forgetOutput .decode).symOut = s.symOut.forget s.fresh := rfl
@[simp] theorem State.forgetOutput_decode_portOk (s : State) : (s.forgetOutput .decode).portOk = s.portOk := rfl
@[simp] theorem State.forgetOutput_decode_params (s : State) : (s.forgetOutput .decode).params = s.params := rfl
@[simp] theorem State.forgetOutput_decode_script (s : State) : (s.forgetOutput .decode).script = s.script := rfl
@[simp] theorem State.forgetOutput_decode_hostData (s : State) : (s.forgetOutput .decode).hostData = s.hostData := rfl
@[simp] theorem State.forgetOutput_decode_fresh (s : State) : (s.forgetOutput .decode).fresh = s.fresh + 1 := rfl

/-! ### raise (60_exceptions.md R245) -/
@[simp] theorem State.raise_busy (s : State) (e : ErrKind) : (s.raise e).busy = false := by
  unfold State.raise; cases s.work.curOp <;> rfl
@[simp] theorem State.raise_done (s : State) (e : ErrKind) : (s.raise e).done = true := by
  unfold State.raise; cases s.work.curOp <;> rfl
@[simp] theorem State.raise_err (s : State) (e : ErrKind) : (s.raise e).err = true := by
  unfold State.raise; cases s.work.curOp <;> rfl
@[simp] theorem State.raise_trail (s : State) (e : ErrKind) : (s.raise e).trail = false := by
  unfold State.raise; cases s.work.curOp <;> rfl
@[simp] theorem State.raise_phase (s : State) (e : ErrKind) : (s.raise e).phase = .idle := by
  unfold State.raise; cases s.work.curOp <;> rfl
@[simp] theorem State.raise_errCode (s : State) (e : ErrKind) : (s.raise e).errCode = e.code := by
  unfold State.raise; cases s.work.curOp <;> rfl
@[simp] theorem State.raise_cfg (s : State) (e : ErrKind) : (s.raise e).cfg = s.cfg := by
  unfold State.raise; cases s.work.curOp <;> rfl
@[simp] theorem State.raise_inLen (s : State) (e : ErrKind) : (s.raise e).inLen = s.inLen := by
  unfold State.raise; cases s.work.curOp <;> rfl
@[simp] theorem State.raise_byteOutLen (s : State) (e : ErrKind) : (s.raise e).byteOutLen = (match s.work.curOp with | .encode => 0 | .decode => s.byteOutLen) := by
  unfold State.raise; cases s.work.curOp <;> rfl
@[simp] theorem State.raise_encBits (s : State) (e : ErrKind) : (s.raise e).encBits = (match s.work.curOp with | .encode => 0 | .decode => s.encBits) := by
  unfold State.raise; cases s.work.curOp <;> rfl
@[simp] theorem State.raise_encTabN (s : State) (e : ErrKind) : (s.raise e).encTabN = (match s.work.curOp with | .encode => 0 | .decode => s.encTabN) := by
  unfold State.raise; cases s.work.curOp <;> rfl
@[simp] theorem State.raise_byteInLen (s : State) (e : ErrKind) : (s.raise e).byteInLen = s.byteInLen := by
  unfold State.raise; cases s.work.curOp <;> rfl
@[simp] theorem State.raise_decBits (s : State) (e : ErrKind) : (s.raise e).decBits = s.decBits := by
  unfold State.raise; cases s.work.curOp <;> rfl
@[simp] theorem State.raise_symOutLen (s : State) (e : ErrKind) : (s.raise e).symOutLen = (match s.work.curOp with | .encode => s.symOutLen | .decode => 0) := by
  unfold State.raise; cases s.work.curOp <;> rfl
@[simp] theorem State.raise_decTabN (s : State) (e : ErrKind) : (s.raise e).decTabN = (match s.work.curOp with | .encode => s.decTabN | .decode => 0) := by
  unfold State.raise; cases s.work.curOp <;> rfl
@[simp] theorem State.raise_residLen (s : State) (e : ErrKind) : (s.raise e).residLen = (match s.work.curOp with | .encode => s.residLen | .decode => 0) := by
  unfold State.raise; cases s.work.curOp <;> rfl
@[simp] theorem State.raise_work (s : State) (e : ErrKind) : (s.raise e).work = Work.start s.work.curOp s.work.lenEn := by
  unfold State.raise; cases h : s.work.curOp <;> simp [h]
@[simp] theorem State.raise_symIn (s : State) (e : ErrKind) : (s.raise e).symIn = s.symIn := by
  unfold State.raise; cases s.work.curOp <;> rfl
@[simp] theorem State.raise_byteOut (s : State) (e : ErrKind) : (s.raise e).byteOut = (match s.work.curOp with | .encode => s.byteOut.forget s.fresh | .decode => s.byteOut) := by
  unfold State.raise; cases s.work.curOp <;> rfl
@[simp] theorem State.raise_byteIn (s : State) (e : ErrKind) : (s.raise e).byteIn = s.byteIn := by
  unfold State.raise; cases s.work.curOp <;> rfl
@[simp] theorem State.raise_symOut (s : State) (e : ErrKind) : (s.raise e).symOut = (match s.work.curOp with | .encode => s.symOut | .decode => s.symOut.forget s.fresh) := by
  unfold State.raise; cases s.work.curOp <;> rfl
@[simp] theorem State.raise_portOk (s : State) (e : ErrKind) : (s.raise e).portOk = s.portOk := by
  unfold State.raise; cases s.work.curOp <;> rfl
@[simp] theorem State.raise_params (s : State) (e : ErrKind) : (s.raise e).params = s.params := by
  unfold State.raise; cases s.work.curOp <;> rfl
@[simp] theorem State.raise_script (s : State) (e : ErrKind) : (s.raise e).script = s.script := by
  unfold State.raise; cases s.work.curOp <;> rfl
@[simp] theorem State.raise_hostData (s : State) (e : ErrKind) : (s.raise e).hostData = s.hostData := by
  unfold State.raise; cases s.work.curOp <;> rfl
@[simp] theorem State.raise_fresh (s : State) (e : ErrKind) : (s.raise e).fresh = s.fresh + 1 := by
  unfold State.raise; cases s.work.curOp <;> rfl

/-! ### startClear (47_commands.md R217) -/
@[simp] theorem State.startClear_busy (s : State) (op : Op) : (s.startClear op).busy = true := by
  unfold State.startClear; cases op <;> rfl
@[simp] theorem State.startClear_done (s : State) (op : Op) : (s.startClear op).done = false := by
  unfold State.startClear; cases op <;> rfl
@[simp] theorem State.startClear_err (s : State) (op : Op) : (s.startClear op).err = false := by
  unfold State.startClear; cases op <;> rfl
@[simp] theorem State.startClear_trail (s : State) (op : Op) : (s.startClear op).trail = false := by
  unfold State.startClear; cases op <;> rfl
@[simp] theorem State.startClear_phase (s : State) (op : Op) : (s.startClear op).phase = s.phase := by
  unfold State.startClear; cases op <;> rfl
@[simp] theorem State.startClear_errCode (s : State) (op : Op) : (s.startClear op).errCode = 0 := by
  unfold State.startClear; cases op <;> rfl
@[simp] theorem State.startClear_cfg (s : State) (op : Op) : (s.startClear op).cfg = s.cfg := by
  unfold State.startClear; cases op <;> rfl
@[simp] theorem State.startClear_inLen (s : State) (op : Op) : (s.startClear op).inLen = s.inLen := by
  unfold State.startClear; cases op <;> rfl
@[simp] theorem State.startClear_byteOutLen (s : State) (op : Op) : (s.startClear op).byteOutLen = (match op with | .encode => 0 | .decode => s.byteOutLen) := by
  unfold State.startClear; cases op <;> rfl
@[simp] theorem State.startClear_encBits (s : State) (op : Op) : (s.startClear op).encBits = (match op with | .encode => 0 | .decode => s.encBits) := by
  unfold State.startClear; cases op <;> rfl
@[simp] theorem State.startClear_encTabN (s : State) (op : Op) : (s.startClear op).encTabN = (match op with | .encode => 0 | .decode => s.encTabN) := by
  unfold State.startClear; cases op <;> rfl
@[simp] theorem State.startClear_byteInLen (s : State) (op : Op) : (s.startClear op).byteInLen = s.byteInLen := by
  unfold State.startClear; cases op <;> rfl
@[simp] theorem State.startClear_decBits (s : State) (op : Op) : (s.startClear op).decBits = s.decBits := by
  unfold State.startClear; cases op <;> rfl
@[simp] theorem State.startClear_symOutLen (s : State) (op : Op) : (s.startClear op).symOutLen = (match op with | .encode => s.symOutLen | .decode => 0) := by
  unfold State.startClear; cases op <;> rfl
@[simp] theorem State.startClear_decTabN (s : State) (op : Op) : (s.startClear op).decTabN = (match op with | .encode => s.decTabN | .decode => 0) := by
  unfold State.startClear; cases op <;> rfl
@[simp] theorem State.startClear_residLen (s : State) (op : Op) : (s.startClear op).residLen = (match op with | .encode => s.residLen | .decode => 0) := by
  unfold State.startClear; cases op <;> rfl
@[simp] theorem State.startClear_work (s : State) (op : Op) : (s.startClear op).work = Work.start op (op = .decode && s.cfg = 1) := by
  unfold State.startClear; cases op <;> rfl
@[simp] theorem State.startClear_symIn (s : State) (op : Op) : (s.startClear op).symIn = s.symIn := by
  unfold State.startClear; cases op <;> rfl
@[simp] theorem State.startClear_byteOut (s : State) (op : Op) : (s.startClear op).byteOut = s.byteOut := by
  unfold State.startClear; cases op <;> rfl
@[simp] theorem State.startClear_byteIn (s : State) (op : Op) : (s.startClear op).byteIn = s.byteIn := by
  unfold State.startClear; cases op <;> rfl
@[simp] theorem State.startClear_symOut (s : State) (op : Op) : (s.startClear op).symOut = s.symOut := by
  unfold State.startClear; cases op <;> rfl
@[simp] theorem State.startClear_portOk (s : State) (op : Op) : (s.startClear op).portOk = s.portOk := by
  unfold State.startClear; cases op <;> rfl
@[simp] theorem State.startClear_params (s : State) (op : Op) : (s.startClear op).params = s.params := by
  unfold State.startClear; cases op <;> rfl
@[simp] theorem State.startClear_script (s : State) (op : Op) : (s.startClear op).script = s.script := by
  unfold State.startClear; cases op <;> rfl
@[simp] theorem State.startClear_hostData (s : State) (op : Op) : (s.startClear op).hostData = s.hostData := by
  unfold State.startClear; cases op <;> rfl
@[simp] theorem State.startClear_fresh (s : State) (op : Op) : (s.startClear op).fresh = s.fresh := by
  unfold State.startClear; cases op <;> rfl

/-! ### rst (70_reset_and_hazards.md R270) -/
@[simp] theorem State.rst_busy (s : State) : (s.rst).busy = false := rfl
@[simp] theorem State.rst_done (s : State) : (s.rst).done = false := rfl
@[simp] theorem State.rst_err (s : State) : (s.rst).err = false := rfl
@[simp] theorem State.rst_trail (s : State) : (s.rst).trail = false := rfl
@[simp] theorem State.rst_phase (s : State) : (s.rst).phase = .idle := rfl
@[simp] theorem State.rst_errCode (s : State) : (s.rst).errCode = 0 := rfl
@[simp] theorem State.rst_cfg (s : State) : (s.rst).cfg = 0 := rfl
@[simp] theorem State.rst_inLen (s : State) : (s.rst).inLen = 0 := rfl
@[simp] theorem State.rst_byteOutLen (s : State) : (s.rst).byteOutLen = 0 := rfl
@[simp] theorem State.rst_encBits (s : State) : (s.rst).encBits = 0 := rfl
@[simp] theorem State.rst_encTabN (s : State) : (s.rst).encTabN = 0 := rfl
@[simp] theorem State.rst_byteInLen (s : State) : (s.rst).byteInLen = 0 := rfl
@[simp] theorem State.rst_decBits (s : State) : (s.rst).decBits = 0 := rfl
@[simp] theorem State.rst_symOutLen (s : State) : (s.rst).symOutLen = 0 := rfl
@[simp] theorem State.rst_decTabN (s : State) : (s.rst).decTabN = 0 := rfl
@[simp] theorem State.rst_residLen (s : State) : (s.rst).residLen = 0 := rfl
@[simp] theorem State.rst_work (s : State) : (s.rst).work = Work.start .encode false := rfl
@[simp] theorem State.rst_symIn (s : State) : (s.rst).symIn = s.symIn.forget s.fresh := rfl
@[simp] theorem State.rst_byteOut (s : State) : (s.rst).byteOut = s.byteOut.forget (s.fresh + 1) := rfl
@[simp] theorem State.rst_byteIn (s : State) : (s.rst).byteIn = s.byteIn.forget (s.fresh + 2) := rfl
@[simp] theorem State.rst_symOut (s : State) : (s.rst).symOut = s.symOut.forget (s.fresh + 3) := rfl
@[simp] theorem State.rst_portOk (s : State) : (s.rst).portOk = s.portOk := rfl
@[simp] theorem State.rst_params (s : State) : (s.rst).params = s.params := rfl
@[simp] theorem State.rst_script (s : State) : (s.rst).script = s.script := rfl
@[simp] theorem State.rst_hostData (s : State) : (s.rst).hostData = s.hostData := rfl
@[simp] theorem State.rst_fresh (s : State) : (s.rst).fresh = s.fresh + 4 := rfl

/-! ### feed (30_encoding.md R100) -/
@[simp] theorem State.feed_busy (s : State) : (s.feed).busy = s.busy := rfl
@[simp] theorem State.feed_done (s : State) : (s.feed).done = s.done := rfl
@[simp] theorem State.feed_err (s : State) : (s.feed).err = s.err := rfl
@[simp] theorem State.feed_trail (s : State) : (s.feed).trail = s.trail := rfl
@[simp] theorem State.feed_phase (s : State) : (s.feed).phase = s.phase := rfl
@[simp] theorem State.feed_errCode (s : State) : (s.feed).errCode = s.errCode := rfl
@[simp] theorem State.feed_cfg (s : State) : (s.feed).cfg = s.cfg := rfl
@[simp] theorem State.feed_inLen (s : State) : (s.feed).inLen = s.inLen := rfl
@[simp] theorem State.feed_byteOutLen (s : State) : (s.feed).byteOutLen = s.byteOutLen := rfl
@[simp] theorem State.feed_encBits (s : State) : (s.feed).encBits = s.encBits := rfl
@[simp] theorem State.feed_encTabN (s : State) : (s.feed).encTabN = s.encTabN := rfl
@[simp] theorem State.feed_byteInLen (s : State) : (s.feed).byteInLen = s.byteOutLen := rfl
@[simp] theorem State.feed_decBits (s : State) : (s.feed).decBits = s.encBits.setWidth 38 := rfl
@[simp] theorem State.feed_symOutLen (s : State) : (s.feed).symOutLen = s.symOutLen := rfl
@[simp] theorem State.feed_decTabN (s : State) : (s.feed).decTabN = s.decTabN := rfl
@[simp] theorem State.feed_residLen (s : State) : (s.feed).residLen = s.residLen := rfl
@[simp] theorem State.feed_work (s : State) : (s.feed).work = s.work := rfl
@[simp] theorem State.feed_symIn (s : State) : (s.feed).symIn = s.symIn := rfl
@[simp] theorem State.feed_byteOut (s : State) : (s.feed).byteOut = s.byteOut := rfl
@[simp] theorem State.feed_byteIn (s : State) : (s.feed).byteIn = copyBytes s.params.byteInCap s.byteOut s.byteIn 0 s.byteOutLen.toNat := rfl
@[simp] theorem State.feed_symOut (s : State) : (s.feed).symOut = s.symOut := rfl
@[simp] theorem State.feed_portOk (s : State) : (s.feed).portOk = s.portOk := rfl
@[simp] theorem State.feed_params (s : State) : (s.feed).params = s.params := rfl
@[simp] theorem State.feed_script (s : State) : (s.feed).script = s.script := rfl
@[simp] theorem State.feed_hostData (s : State) : (s.feed).hostData = s.hostData := rfl
@[simp] theorem State.feed_fresh (s : State) : (s.feed).fresh = s.fresh := rfl

/-! ### Work.start (10_state.md R35) -/
@[simp] theorem Work.start_curOp (op : Op) (b : Bool) : (Work.start op b).curOp = op := rfl
@[simp] theorem Work.start_lenEn (op : Op) (b : Bool) : (Work.start op b).lenEn = b := rfl
@[simp] theorem Work.start_inIdx (op : Op) (b : Bool) : (Work.start op b).inIdx = 0 := rfl
@[simp] theorem Work.start_root (op : Op) (b : Bool) : (Work.start op b).root = 0 := rfl
@[simp] theorem Work.start_tsI (op : Op) (b : Bool) : (Work.start op b).tsI = 0 := rfl
@[simp] theorem Work.start_wrPtr (op : Op) (b : Bool) : (Work.start op b).wrPtr = 0 := rfl
@[simp] theorem Work.start_pkByte (op : Op) (b : Bool) : (Work.start op b).pkByte = 0 := rfl
@[simp] theorem Work.start_pkCnt (op : Op) (b : Bool) : (Work.start op b).pkCnt = 0 := rfl
@[simp] theorem Work.start_bitTotal (op : Op) (b : Bool) : (Work.start op b).bitTotal = 0 := rfl
@[simp] theorem Work.start_rdPtr (op : Op) (b : Bool) : (Work.start op b).rdPtr = 0 := rfl
@[simp] theorem Work.start_tdM (op : Op) (b : Bool) : (Work.start op b).tdM = 0 := rfl
@[simp] theorem Work.start_tdI (op : Op) (b : Bool) : (Work.start op b).tdI = 0 := rfl
@[simp] theorem Work.start_bitsLeft (op : Op) (b : Bool) : (Work.start op b).bitsLeft = 0 := rfl
@[simp] theorem Work.start_bitPos (op : Op) (b : Bool) : (Work.start op b).bitPos = 0 := rfl
@[simp] theorem Work.start_accPat (op : Op) (b : Bool) : (Work.start op b).accPat = 0 := rfl
@[simp] theorem Work.start_accLen (op : Op) (b : Bool) : (Work.start op b).accLen = 0 := rfl
@[simp] theorem Work.start_outIdx (op : Op) (b : Bool) : (Work.start op b).outIdx = 0 := rfl
@[simp] theorem Work.start_ft (op : Op) (b : Bool) : (Work.start op b).ft = [] := rfl
@[simp] theorem Work.start_node (op : Op) (b : Bool) : (Work.start op b).node = [] := rfl
@[simp] theorem Work.start_pq (op : Op) (b : Bool) : (Work.start op b).pq = [] := rfl
@[simp] theorem Work.start_stack (op : Op) (b : Bool) : (Work.start op b).stack = [] := rfl
@[simp] theorem Work.start_code (op : Op) (b : Bool) : (Work.start op b).code = [] := rfl
@[simp] theorem Work.start_dtab (op : Op) (b : Bool) : (Work.start op b).dtab = [] := rfl

/-! ### tdHeader (45_table_deserializer.md R186) -/
@[simp] theorem tdHeader_curOp (m : BitVec 16) (w : Work) : (tdHeader m w).curOp = w.curOp := rfl
@[simp] theorem tdHeader_lenEn (m : BitVec 16) (w : Work) : (tdHeader m w).lenEn = w.lenEn := rfl
@[simp] theorem tdHeader_inIdx (m : BitVec 16) (w : Work) : (tdHeader m w).inIdx = w.inIdx := rfl
@[simp] theorem tdHeader_root (m : BitVec 16) (w : Work) : (tdHeader m w).root = w.root := rfl
@[simp] theorem tdHeader_tsI (m : BitVec 16) (w : Work) : (tdHeader m w).tsI = w.tsI := rfl
@[simp] theorem tdHeader_wrPtr (m : BitVec 16) (w : Work) : (tdHeader m w).wrPtr = w.wrPtr := rfl
@[simp] theorem tdHeader_pkByte (m : BitVec 16) (w : Work) : (tdHeader m w).pkByte = w.pkByte := rfl
@[simp] theorem tdHeader_pkCnt (m : BitVec 16) (w : Work) : (tdHeader m w).pkCnt = w.pkCnt := rfl
@[simp] theorem tdHeader_bitTotal (m : BitVec 16) (w : Work) : (tdHeader m w).bitTotal = w.bitTotal := rfl
@[simp] theorem tdHeader_rdPtr (m : BitVec 16) (w : Work) : (tdHeader m w).rdPtr = 2 := rfl
@[simp] theorem tdHeader_tdM (m : BitVec 16) (w : Work) : (tdHeader m w).tdM = m := rfl
@[simp] theorem tdHeader_tdI (m : BitVec 16) (w : Work) : (tdHeader m w).tdI = w.tdI := rfl
@[simp] theorem tdHeader_bitsLeft (m : BitVec 16) (w : Work) : (tdHeader m w).bitsLeft = w.bitsLeft := rfl
@[simp] theorem tdHeader_bitPos (m : BitVec 16) (w : Work) : (tdHeader m w).bitPos = w.bitPos := rfl
@[simp] theorem tdHeader_accPat (m : BitVec 16) (w : Work) : (tdHeader m w).accPat = w.accPat := rfl
@[simp] theorem tdHeader_accLen (m : BitVec 16) (w : Work) : (tdHeader m w).accLen = w.accLen := rfl
@[simp] theorem tdHeader_outIdx (m : BitVec 16) (w : Work) : (tdHeader m w).outIdx = w.outIdx := rfl
@[simp] theorem tdHeader_ft (m : BitVec 16) (w : Work) : (tdHeader m w).ft = w.ft := rfl
@[simp] theorem tdHeader_node (m : BitVec 16) (w : Work) : (tdHeader m w).node = w.node := rfl
@[simp] theorem tdHeader_pq (m : BitVec 16) (w : Work) : (tdHeader m w).pq = w.pq := rfl
@[simp] theorem tdHeader_stack (m : BitVec 16) (w : Work) : (tdHeader m w).stack = w.stack := rfl
@[simp] theorem tdHeader_code (m : BitVec 16) (w : Work) : (tdHeader m w).code = w.code := rfl
@[simp] theorem tdHeader_dtab (m : BitVec 16) (w : Work) : (tdHeader m w).dtab = w.dtab := rfl

/-! ### tdEntry (45_table_deserializer.md R188) -/
@[simp] theorem tdEntry_curOp (sym : Sym) (l : BitVec 8) (p : BitVec 32) (w : Work) : (tdEntry sym l p w).curOp = w.curOp := rfl
@[simp] theorem tdEntry_lenEn (sym : Sym) (l : BitVec 8) (p : BitVec 32) (w : Work) : (tdEntry sym l p w).lenEn = w.lenEn := rfl
@[simp] theorem tdEntry_inIdx (sym : Sym) (l : BitVec 8) (p : BitVec 32) (w : Work) : (tdEntry sym l p w).inIdx = w.inIdx := rfl
@[simp] theorem tdEntry_root (sym : Sym) (l : BitVec 8) (p : BitVec 32) (w : Work) : (tdEntry sym l p w).root = w.root := rfl
@[simp] theorem tdEntry_tsI (sym : Sym) (l : BitVec 8) (p : BitVec 32) (w : Work) : (tdEntry sym l p w).tsI = w.tsI := rfl
@[simp] theorem tdEntry_wrPtr (sym : Sym) (l : BitVec 8) (p : BitVec 32) (w : Work) : (tdEntry sym l p w).wrPtr = w.wrPtr := rfl
@[simp] theorem tdEntry_pkByte (sym : Sym) (l : BitVec 8) (p : BitVec 32) (w : Work) : (tdEntry sym l p w).pkByte = w.pkByte := rfl
@[simp] theorem tdEntry_pkCnt (sym : Sym) (l : BitVec 8) (p : BitVec 32) (w : Work) : (tdEntry sym l p w).pkCnt = w.pkCnt := rfl
@[simp] theorem tdEntry_bitTotal (sym : Sym) (l : BitVec 8) (p : BitVec 32) (w : Work) : (tdEntry sym l p w).bitTotal = w.bitTotal := rfl
@[simp] theorem tdEntry_rdPtr (sym : Sym) (l : BitVec 8) (p : BitVec 32) (w : Work) : (tdEntry sym l p w).rdPtr = w.rdPtr + 9 := rfl
@[simp] theorem tdEntry_tdM (sym : Sym) (l : BitVec 8) (p : BitVec 32) (w : Work) : (tdEntry sym l p w).tdM = w.tdM := rfl
@[simp] theorem tdEntry_tdI (sym : Sym) (l : BitVec 8) (p : BitVec 32) (w : Work) : (tdEntry sym l p w).tdI = w.tdI + 1 := rfl
@[simp] theorem tdEntry_bitsLeft (sym : Sym) (l : BitVec 8) (p : BitVec 32) (w : Work) : (tdEntry sym l p w).bitsLeft = w.bitsLeft := rfl
@[simp] theorem tdEntry_bitPos (sym : Sym) (l : BitVec 8) (p : BitVec 32) (w : Work) : (tdEntry sym l p w).bitPos = w.bitPos := rfl
@[simp] theorem tdEntry_accPat (sym : Sym) (l : BitVec 8) (p : BitVec 32) (w : Work) : (tdEntry sym l p w).accPat = w.accPat := rfl
@[simp] theorem tdEntry_accLen (sym : Sym) (l : BitVec 8) (p : BitVec 32) (w : Work) : (tdEntry sym l p w).accLen = w.accLen := rfl
@[simp] theorem tdEntry_outIdx (sym : Sym) (l : BitVec 8) (p : BitVec 32) (w : Work) : (tdEntry sym l p w).outIdx = w.outIdx := rfl
@[simp] theorem tdEntry_ft (sym : Sym) (l : BitVec 8) (p : BitVec 32) (w : Work) : (tdEntry sym l p w).ft = w.ft := rfl
@[simp] theorem tdEntry_node (sym : Sym) (l : BitVec 8) (p : BitVec 32) (w : Work) : (tdEntry sym l p w).node = w.node := rfl
@[simp] theorem tdEntry_pq (sym : Sym) (l : BitVec 8) (p : BitVec 32) (w : Work) : (tdEntry sym l p w).pq = w.pq := rfl
@[simp] theorem tdEntry_stack (sym : Sym) (l : BitVec 8) (p : BitVec 32) (w : Work) : (tdEntry sym l p w).stack = w.stack := rfl
@[simp] theorem tdEntry_code (sym : Sym) (l : BitVec 8) (p : BitVec 32) (w : Work) : (tdEntry sym l p w).code = w.code := rfl
@[simp] theorem tdEntry_dtab (sym : Sym) (l : BitVec 8) (p : BitVec 32) (w : Work) : (tdEntry sym l p w).dtab = w.dtab ++ [{ len := l.setWidth 6, pat := p, sym := sym }] := rfl

/-! ### pqInsert (41_tree_builder.md R132) -/
@[simp] theorem pqInsert_curOp (k : NodeIdx) (w : Work) : (pqInsert k w).curOp = w.curOp := rfl
@[simp] theorem pqInsert_lenEn (k : NodeIdx) (w : Work) : (pqInsert k w).lenEn = w.lenEn := rfl
@[simp] theorem pqInsert_inIdx (k : NodeIdx) (w : Work) : (pqInsert k w).inIdx = w.inIdx := rfl
@[simp] theorem pqInsert_root (k : NodeIdx) (w : Work) : (pqInsert k w).root = w.root := rfl
@[simp] theorem pqInsert_tsI (k : NodeIdx) (w : Work) : (pqInsert k w).tsI = w.tsI := rfl
@[simp] theorem pqInsert_wrPtr (k : NodeIdx) (w : Work) : (pqInsert k w).wrPtr = w.wrPtr := rfl
@[simp] theorem pqInsert_pkByte (k : NodeIdx) (w : Work) : (pqInsert k w).pkByte = w.pkByte := rfl
@[simp] theorem pqInsert_pkCnt (k : NodeIdx) (w : Work) : (pqInsert k w).pkCnt = w.pkCnt := rfl
@[simp] theorem pqInsert_bitTotal (k : NodeIdx) (w : Work) : (pqInsert k w).bitTotal = w.bitTotal := rfl
@[simp] theorem pqInsert_rdPtr (k : NodeIdx) (w : Work) : (pqInsert k w).rdPtr = w.rdPtr := rfl
@[simp] theorem pqInsert_tdM (k : NodeIdx) (w : Work) : (pqInsert k w).tdM = w.tdM := rfl
@[simp] theorem pqInsert_tdI (k : NodeIdx) (w : Work) : (pqInsert k w).tdI = w.tdI := rfl
@[simp] theorem pqInsert_bitsLeft (k : NodeIdx) (w : Work) : (pqInsert k w).bitsLeft = w.bitsLeft := rfl
@[simp] theorem pqInsert_bitPos (k : NodeIdx) (w : Work) : (pqInsert k w).bitPos = w.bitPos := rfl
@[simp] theorem pqInsert_accPat (k : NodeIdx) (w : Work) : (pqInsert k w).accPat = w.accPat := rfl
@[simp] theorem pqInsert_accLen (k : NodeIdx) (w : Work) : (pqInsert k w).accLen = w.accLen := rfl
@[simp] theorem pqInsert_outIdx (k : NodeIdx) (w : Work) : (pqInsert k w).outIdx = w.outIdx := rfl
@[simp] theorem pqInsert_ft (k : NodeIdx) (w : Work) : (pqInsert k w).ft = w.ft := rfl
@[simp] theorem pqInsert_node (k : NodeIdx) (w : Work) : (pqInsert k w).node = w.node := rfl
@[simp] theorem pqInsert_pq (k : NodeIdx) (w : Work) : (pqInsert k w).pq = w.pq ++ [k] := rfl
@[simp] theorem pqInsert_stack (k : NodeIdx) (w : Work) : (pqInsert k w).stack = w.stack := rfl
@[simp] theorem pqInsert_code (k : NodeIdx) (w : Work) : (pqInsert k w).code = w.code := rfl
@[simp] theorem pqInsert_dtab (k : NodeIdx) (w : Work) : (pqInsert k w).dtab = w.dtab := rfl

/-! ### cgSingle (42_code_generator.md R151) -/
@[simp] theorem cgSingle_curOp (w : Work) : (cgSingle w).curOp = w.curOp := rfl
@[simp] theorem cgSingle_lenEn (w : Work) : (cgSingle w).lenEn = w.lenEn := rfl
@[simp] theorem cgSingle_inIdx (w : Work) : (cgSingle w).inIdx = w.inIdx := rfl
@[simp] theorem cgSingle_root (w : Work) : (cgSingle w).root = w.root := rfl
@[simp] theorem cgSingle_tsI (w : Work) : (cgSingle w).tsI = w.tsI := rfl
@[simp] theorem cgSingle_wrPtr (w : Work) : (cgSingle w).wrPtr = w.wrPtr := rfl
@[simp] theorem cgSingle_pkByte (w : Work) : (cgSingle w).pkByte = w.pkByte := rfl
@[simp] theorem cgSingle_pkCnt (w : Work) : (cgSingle w).pkCnt = w.pkCnt := rfl
@[simp] theorem cgSingle_bitTotal (w : Work) : (cgSingle w).bitTotal = w.bitTotal := rfl
@[simp] theorem cgSingle_rdPtr (w : Work) : (cgSingle w).rdPtr = w.rdPtr := rfl
@[simp] theorem cgSingle_tdM (w : Work) : (cgSingle w).tdM = w.tdM := rfl
@[simp] theorem cgSingle_tdI (w : Work) : (cgSingle w).tdI = w.tdI := rfl
@[simp] theorem cgSingle_bitsLeft (w : Work) : (cgSingle w).bitsLeft = w.bitsLeft := rfl
@[simp] theorem cgSingle_bitPos (w : Work) : (cgSingle w).bitPos = w.bitPos := rfl
@[simp] theorem cgSingle_accPat (w : Work) : (cgSingle w).accPat = w.accPat := rfl
@[simp] theorem cgSingle_accLen (w : Work) : (cgSingle w).accLen = w.accLen := rfl
@[simp] theorem cgSingle_outIdx (w : Work) : (cgSingle w).outIdx = w.outIdx := rfl
@[simp] theorem cgSingle_ft (w : Work) : (cgSingle w).ft = w.ft := rfl
@[simp] theorem cgSingle_node (w : Work) : (cgSingle w).node = w.node := rfl
@[simp] theorem cgSingle_pq (w : Work) : (cgSingle w).pq = w.pq := rfl
@[simp] theorem cgSingle_stack (w : Work) : (cgSingle w).stack = w.stack := rfl
@[simp] theorem cgSingle_code (w : Work) : (cgSingle w).code = cellsSet 0 { len := 1, pat := 0 } w.code := rfl
@[simp] theorem cgSingle_dtab (w : Work) : (cgSingle w).dtab = w.dtab := rfl

/-! ### tbLoad (41_tree_builder.md R134) -/
@[simp] theorem tbLoad_curOp (w : Work) : (tbLoad w).curOp = w.curOp := rfl
@[simp] theorem tbLoad_lenEn (w : Work) : (tbLoad w).lenEn = w.lenEn := rfl
@[simp] theorem tbLoad_inIdx (w : Work) : (tbLoad w).inIdx = w.inIdx := rfl
@[simp] theorem tbLoad_root (w : Work) : (tbLoad w).root = w.root := rfl
@[simp] theorem tbLoad_tsI (w : Work) : (tbLoad w).tsI = w.tsI := rfl
@[simp] theorem tbLoad_wrPtr (w : Work) : (tbLoad w).wrPtr = w.wrPtr := rfl
@[simp] theorem tbLoad_pkByte (w : Work) : (tbLoad w).pkByte = w.pkByte := rfl
@[simp] theorem tbLoad_pkCnt (w : Work) : (tbLoad w).pkCnt = w.pkCnt := rfl
@[simp] theorem tbLoad_bitTotal (w : Work) : (tbLoad w).bitTotal = w.bitTotal := rfl
@[simp] theorem tbLoad_rdPtr (w : Work) : (tbLoad w).rdPtr = w.rdPtr := rfl
@[simp] theorem tbLoad_tdM (w : Work) : (tbLoad w).tdM = w.tdM := rfl
@[simp] theorem tbLoad_tdI (w : Work) : (tbLoad w).tdI = w.tdI := rfl
@[simp] theorem tbLoad_bitsLeft (w : Work) : (tbLoad w).bitsLeft = w.bitsLeft := rfl
@[simp] theorem tbLoad_bitPos (w : Work) : (tbLoad w).bitPos = w.bitPos := rfl
@[simp] theorem tbLoad_accPat (w : Work) : (tbLoad w).accPat = w.accPat := rfl
@[simp] theorem tbLoad_accLen (w : Work) : (tbLoad w).accLen = w.accLen := rfl
@[simp] theorem tbLoad_outIdx (w : Work) : (tbLoad w).outIdx = w.outIdx := rfl
@[simp] theorem tbLoad_ft (w : Work) : (tbLoad w).ft = w.ft := rfl
@[simp] theorem tbLoad_node (w : Work) : (tbLoad w).node = w.ft.map leafOf := rfl
@[simp] theorem tbLoad_pq (w : Work) : (tbLoad w).pq = leafIndices w.ft.length := rfl
@[simp] theorem tbLoad_stack (w : Work) : (tbLoad w).stack = w.stack := rfl
@[simp] theorem tbLoad_code (w : Work) : (tbLoad w).code = w.code := rfl
@[simp] theorem tbLoad_dtab (w : Work) : (tbLoad w).dtab = w.dtab := rfl

/-! ### deAdvance, deAppend (46_decoder.md R201, R202) -/
@[simp] theorem deAdvance_curOp (w : Work) : (deAdvance w).curOp = w.curOp := by
  unfold deAdvance; split <;> rfl
@[simp] theorem deAdvance_lenEn (w : Work) : (deAdvance w).lenEn = w.lenEn := by
  unfold deAdvance; split <;> rfl
@[simp] theorem deAdvance_inIdx (w : Work) : (deAdvance w).inIdx = w.inIdx := by
  unfold deAdvance; split <;> rfl
@[simp] theorem deAdvance_root (w : Work) : (deAdvance w).root = w.root := by
  unfold deAdvance; split <;> rfl
@[simp] theorem deAdvance_tsI (w : Work) : (deAdvance w).tsI = w.tsI := by
  unfold deAdvance; split <;> rfl
@[simp] theorem deAdvance_wrPtr (w : Work) : (deAdvance w).wrPtr = w.wrPtr := by
  unfold deAdvance; split <;> rfl
@[simp] theorem deAdvance_pkByte (w : Work) : (deAdvance w).pkByte = w.pkByte := by
  unfold deAdvance; split <;> rfl
@[simp] theorem deAdvance_pkCnt (w : Work) : (deAdvance w).pkCnt = w.pkCnt := by
  unfold deAdvance; split <;> rfl
@[simp] theorem deAdvance_bitTotal (w : Work) : (deAdvance w).bitTotal = w.bitTotal := by
  unfold deAdvance; split <;> rfl
@[simp] theorem deAdvance_tdM (w : Work) : (deAdvance w).tdM = w.tdM := by
  unfold deAdvance; split <;> rfl
@[simp] theorem deAdvance_tdI (w : Work) : (deAdvance w).tdI = w.tdI := by
  unfold deAdvance; split <;> rfl
@[simp] theorem deAdvance_accPat (w : Work) : (deAdvance w).accPat = w.accPat := by
  unfold deAdvance; split <;> rfl
@[simp] theorem deAdvance_accLen (w : Work) : (deAdvance w).accLen = w.accLen := by
  unfold deAdvance; split <;> rfl
@[simp] theorem deAdvance_outIdx (w : Work) : (deAdvance w).outIdx = w.outIdx := by
  unfold deAdvance; split <;> rfl
@[simp] theorem deAdvance_ft (w : Work) : (deAdvance w).ft = w.ft := by
  unfold deAdvance; split <;> rfl
@[simp] theorem deAdvance_node (w : Work) : (deAdvance w).node = w.node := by
  unfold deAdvance; split <;> rfl
@[simp] theorem deAdvance_pq (w : Work) : (deAdvance w).pq = w.pq := by
  unfold deAdvance; split <;> rfl
@[simp] theorem deAdvance_stack (w : Work) : (deAdvance w).stack = w.stack := by
  unfold deAdvance; split <;> rfl
@[simp] theorem deAdvance_code (w : Work) : (deAdvance w).code = w.code := by
  unfold deAdvance; split <;> rfl
@[simp] theorem deAdvance_dtab (w : Work) : (deAdvance w).dtab = w.dtab := by
  unfold deAdvance; split <;> rfl
@[simp] theorem deAdvance_bitsLeft (w : Work) : (deAdvance w).bitsLeft = w.bitsLeft - 1 := by
  unfold deAdvance; split <;> rfl
@[simp] theorem deAppend_curOp (b : Bool) (w : Work) : (deAppend b w).curOp = w.curOp := by
  unfold deAppend; split <;> rfl
@[simp] theorem deAppend_lenEn (b : Bool) (w : Work) : (deAppend b w).lenEn = w.lenEn := by
  unfold deAppend; split <;> rfl
@[simp] theorem deAppend_inIdx (b : Bool) (w : Work) : (deAppend b w).inIdx = w.inIdx := by
  unfold deAppend; split <;> rfl
@[simp] theorem deAppend_root (b : Bool) (w : Work) : (deAppend b w).root = w.root := by
  unfold deAppend; split <;> rfl
@[simp] theorem deAppend_tsI (b : Bool) (w : Work) : (deAppend b w).tsI = w.tsI := by
  unfold deAppend; split <;> rfl
@[simp] theorem deAppend_wrPtr (b : Bool) (w : Work) : (deAppend b w).wrPtr = w.wrPtr := by
  unfold deAppend; split <;> rfl
@[simp] theorem deAppend_pkByte (b : Bool) (w : Work) : (deAppend b w).pkByte = w.pkByte := by
  unfold deAppend; split <;> rfl
@[simp] theorem deAppend_pkCnt (b : Bool) (w : Work) : (deAppend b w).pkCnt = w.pkCnt := by
  unfold deAppend; split <;> rfl
@[simp] theorem deAppend_bitTotal (b : Bool) (w : Work) : (deAppend b w).bitTotal = w.bitTotal := by
  unfold deAppend; split <;> rfl
@[simp] theorem deAppend_rdPtr (b : Bool) (w : Work) : (deAppend b w).rdPtr = w.rdPtr := by
  unfold deAppend; split <;> rfl
@[simp] theorem deAppend_tdM (b : Bool) (w : Work) : (deAppend b w).tdM = w.tdM := by
  unfold deAppend; split <;> rfl
@[simp] theorem deAppend_tdI (b : Bool) (w : Work) : (deAppend b w).tdI = w.tdI := by
  unfold deAppend; split <;> rfl
@[simp] theorem deAppend_bitsLeft (b : Bool) (w : Work) : (deAppend b w).bitsLeft = w.bitsLeft := by
  unfold deAppend; split <;> rfl
@[simp] theorem deAppend_bitPos (b : Bool) (w : Work) : (deAppend b w).bitPos = w.bitPos := by
  unfold deAppend; split <;> rfl
@[simp] theorem deAppend_outIdx (b : Bool) (w : Work) : (deAppend b w).outIdx = w.outIdx := by
  unfold deAppend; split <;> rfl
@[simp] theorem deAppend_ft (b : Bool) (w : Work) : (deAppend b w).ft = w.ft := by
  unfold deAppend; split <;> rfl
@[simp] theorem deAppend_node (b : Bool) (w : Work) : (deAppend b w).node = w.node := by
  unfold deAppend; split <;> rfl
@[simp] theorem deAppend_pq (b : Bool) (w : Work) : (deAppend b w).pq = w.pq := by
  unfold deAppend; split <;> rfl
@[simp] theorem deAppend_stack (b : Bool) (w : Work) : (deAppend b w).stack = w.stack := by
  unfold deAppend; split <;> rfl
@[simp] theorem deAppend_code (b : Bool) (w : Work) : (deAppend b w).code = w.code := by
  unfold deAppend; split <;> rfl
@[simp] theorem deAppend_dtab (b : Bool) (w : Work) : (deAppend b w).dtab = w.dtab := by
  unfold deAppend; split <;> rfl

end Sys2Proof.Machine
end

