-- ==== Sys2Proof/Laws/Ops.lean ====
section
/-! SUPPORT. One lemma per shared operation saying what it can do: START, the reader, fetching a record, the step; and
the frame of each unit as one equation. -/

namespace Sys2Proof.Machine

/-! ### START and the command word (47_commands.md R217, R219) -/

theorem command_busy {s : State} (h : s.busy = true) (op : Op) : s.command op = s := by
  simp [State.command, h]

theorem command_idle {s : State} (h : s.busy = false) (op : Op) : s.command op = s.start op := by
  simp [State.command, h]

theorem start_ok {s : State} {op : Op} (hp : s.portsOk op = true) (hf : s.inputFits op = true) :
    s.start op = { s.startClear op with phase := op.firstPhase } := by
  simp [State.start, hp, hf]

theorem start_fails {s : State} {op : Op} (h : s.portsOk op = false ∨ s.inputFits op = false) :
    s.start op = (s.startClear op).raise .ioError := by
  rcases h with h | h
  · simp [State.start, h]
  · unfold State.start
    rw [if_pos h]
    exact ite_self _

/-- Everything START can do. -/
theorem start_cases (s : State) (op : Op) :
    (s.portsOk op = true ∧ s.inputFits op = true ∧ s.start op = { s.startClear op with phase := op.firstPhase }) ∨
    ((s.portsOk op = false ∨ s.inputFits op = false) ∧ s.start op = (s.startClear op).raise .ioError) := by
  cases hp : s.portsOk op
  · exact .inr ⟨.inl rfl, start_fails (.inl hp)⟩
  · cases hf : s.inputFits op
    · exact .inr ⟨.inr rfl, start_fails (.inr hf)⟩
    · exact .inl ⟨rfl, rfl, start_ok hp hf⟩

/-! ### Host reads (10_state.md R20, 93_implementation_defined.md U5) -/

/-- A read that returns any value still fits the width. -/
theorem readAny_hostData_lt (s : State) (w : Nat) : (s.readAny w).hostData.toNat < 2 ^ w := by
  rw [State.readAny_hostData, BitVec.toNat_setWidth]
  exact Nat.lt_of_le_of_lt (Nat.mod_le _ _) (BitVec.isLt _)

/-- Everything a host read of a register can do. -/
theorem hostReadReg_cases (s : State) (k : Nat) :
    (s.busy = true ∧ isResultReg k = true ∧ s.hostReadReg k = .next (s.readAny (regWidth k))) ∨
    (¬ (s.busy = true ∧ isResultReg k = true) ∧ s.hostReadReg k = .next { s with hostData := s.readReg k }) := by
  by_cases h : s.busy = true ∧ isResultReg k = true
  · exact .inl ⟨h.1, h.2, if_pos h⟩
  · exact .inr ⟨h, if_neg h⟩

/-! ### The record at the read pointer (30_encoding.md R91) -/

theorem nextFormat_hdr {s : State} : s.nextFormat = some .hdr ↔ s.phase = .td ∧ s.work.rdPtr = 0 := by
  unfold State.nextFormat
  constructor
  · intro h
    split at h
    · rename_i hp
      refine ⟨hp, ?_⟩
      split at h
      · assumption
      · split at h <;> simp at h
    · split at h <;> simp at h
    · simp at h
  · rintro ⟨hp, hr⟩
    simp [hp, hr]

theorem nextFormat_ent {s : State} :
    s.nextFormat = some .ent ↔ s.phase = .td ∧ s.work.rdPtr ≠ 0 ∧ s.work.tdI < s.work.tdM := by
  unfold State.nextFormat
  constructor
  · intro h
    split at h
    · rename_i hp
      split at h
      · simp at h
      · rename_i hr
        split at h
        · rename_i hi; exact ⟨hp, hr, hi⟩
        · simp at h
    · split at h <;> simp at h
    · simp at h
  · rintro ⟨hp, hr, hi⟩
    rw [hp]
    dsimp only
    rw [if_neg hr, if_pos hi]

theorem nextFormat_pay {s : State} :
    s.nextFormat = some .pay ↔ s.phase = .de ∧ s.work.bitsLeft ≠ 0 := by
  unfold State.nextFormat
  constructor
  · intro h
    split at h
    · split at h
      · simp at h
      · split at h <;> simp at h
    · rename_i hp
      split at h
      · simp at h
      · rename_i hb; exact ⟨hp, hb⟩
    · simp at h
  · rintro ⟨hp, hb⟩
    rw [hp]
    dsimp only
    rw [if_neg hb]

theorem nextFormat_ne_cmd {s : State} : s.nextFormat ≠ some .cmd := by
  unfold State.nextFormat
  split
  · split
    · simp
    · split <;> simp
  · split <;> simp
  · simp

/-- The phases in which a record is read next. -/
theorem nextFormat_phase {s : State} {f : Format} (h : s.nextFormat = some f) :
    s.phase = .td ∨ s.phase = .de := by
  cases f with
  | cmd => exact absurd h nextFormat_ne_cmd
  | hdr => exact .inl (nextFormat_hdr.1 h).1
  | ent => exact .inl (nextFormat_ent.1 h).1
  | pay => exact .inr (nextFormat_pay.1 h).1

/-- As many bytes as a format has always decode, to an instruction of that format. -/
theorem decode_of_size {f : Format} {bs : List Byte} (h : bs.length = f.size) :
    ∃ i, decode f bs = .ok (i, []) ∧ i.format = f := by
  cases f with
  | cmd =>
    match bs, h with
    | [b], _ =>
      refine ⟨decodeCommand (b.setWidth 1), rfl, ?_⟩
      unfold decodeCommand; split <;> rfl
  | hdr =>
    match bs, h with
    | [b0, b1], _ => exact ⟨_, rfl, rfl⟩
  | ent =>
    match bs, h with
    | [s0, s1, s2, s3, c, q0, q1, q2, q3], _ => exact ⟨_, rfl, rfl⟩
  | pay =>
    match bs, h with
    | [b], _ => exact ⟨_, rfl, rfl⟩

/-! ### The meanings of the records, where the reader stands at one -/

theorem execHdr_at {s : State} (h : s.nextFormat = some .hdr) (m : BitVec 16) :
    execHdr m s = match tdSizeCheck s.params.nMax s.byteInLen m with
      | some e => .next (s.raise e)
      | none => .next { s with work := tdHeader m s.work } := by
  unfold execHdr
  refine (if_pos h).trans ?_
  cases tdSizeCheck s.params.nMax s.byteInLen m <;> rfl

theorem execEnt_at {s : State} (h : s.nextFormat = some .ent) (sym : Sym) (l : BitVec 8) (p : BitVec 32) :
    execEnt sym l p s = match tdCheck s.work.dtab l p with
      | some e => .next (s.raise e)
      | none => .next { s with work := tdEntry sym l p s.work } := by
  unfold execEnt
  refine (if_pos h).trans ?_
  cases tdCheck s.work.dtab l p <;> rfl

theorem execPay_at {s : State} (h : s.nextFormat = some .pay) (byte : Byte) :
    execPay byte s = match deBits s.params.symOutCap byte (bitsOfByte s.work) (s.work, s.symOut) with
      | .error e => .next (s.raise e)
      | .ok y => .next { s with work := y.1, symOut := y.2 } := by
  unfold execPay
  refine (if_pos h).trans ?_
  cases deBits s.params.symOutCap byte (bitsOfByte s.work) (s.work, s.symOut) <;> rfl

/-- Everything a record's meaning can do at its place. -/
theorem exec_record_cases {s : State} {i : Instr} (h : s.nextFormat = some i.format) :
    (∃ e, exec i s = .next (s.raise e)) ∨
    (∃ m, i = .hdr m ∧ tdSizeCheck s.params.nMax s.byteInLen m = none ∧
      exec i s = .next { s with work := tdHeader m s.work }) ∨
    (∃ sym l p, i = .ent sym l p ∧ tdCheck s.work.dtab l p = none ∧
      exec i s = .next { s with work := tdEntry sym l p s.work }) ∨
    (∃ byte y, i = .pay byte ∧
      deBits s.params.symOutCap byte (bitsOfByte s.work) (s.work, s.symOut) = .ok y ∧
      exec i s = .next { s with work := y.1, symOut := y.2 }) := by
  cases i with
  | encode => exact absurd h nextFormat_ne_cmd
  | decode => exact absurd h nextFormat_ne_cmd
  | hdr m =>
    have hx : exec (.hdr m) s = execHdr m s := rfl
    rw [hx, execHdr_at h]
    cases hc : tdSizeCheck s.params.nMax s.byteInLen m with
    | some e => exact .inl ⟨e, rfl⟩
    | none => exact .inr (.inl ⟨m, rfl, hc, rfl⟩)
  | ent sym l p =>
    have hx : exec (.ent sym l p) s = execEnt sym l p s := rfl
    rw [hx, execEnt_at h]
    cases hc : tdCheck s.work.dtab l p with
    | some e => exact .inl ⟨e, rfl⟩
    | none => exact .inr (.inr (.inl ⟨sym, l, p, rfl, hc, rfl⟩))
  | pay byte =>
    have hx : exec (.pay byte) s = execPay byte s := rfl
    rw [hx, execPay_at h]
    cases hc : deBits s.params.symOutCap byte (bitsOfByte s.work) (s.work, s.symOut) with
    | error e => exact .inl ⟨e, rfl⟩
    | ok y => exact .inr (.inr (.inr ⟨byte, y, rfl, hc, rfl⟩))

/-- What fetching and running a record comes to: an IOError where BYTE_IN ends, else the record decoded from the bytes
at the read pointer. -/
theorem runRecord_cases (s : State) (f : Format) :
    (fits s.params.byteInCap (s.work.rdPtr.toNat + f.size) = false ∧ s.runRecord f = .next (s.raise .ioError)) ∨
    (∃ i, fits s.params.byteInCap (s.work.rdPtr.toNat + f.size) = true ∧
      decode f (s.byteIn.readList s.work.rdPtr.toNat f.size) = .ok (i, []) ∧ i.format = f ∧
      s.runRecord f = exec i s) := by
  cases hc : fits s.params.byteInCap (s.work.rdPtr.toNat + f.size) with
  | false => exact .inl ⟨rfl, by simp [State.runRecord, State.recordBytes, memRead_full hc]⟩
  | true =>
    obtain ⟨i, hi, hf⟩ := decode_of_size (f := f) (bs := s.byteIn.readList s.work.rdPtr.toNat f.size) (by simp)
    exact .inr ⟨i, rfl, hi, hf, by simp [State.runRecord, State.recordBytes, memRead_ok hc, hi]⟩

/-! ### The step of the core, phase by phase (10_state.md R45) -/

theorem coreStep_idle {s : State} (h : s.phase = .idle) : coreStep s = .next s := by simp [coreStep, h]

theorem coreStep_fa {s : State} (h : s.phase = .fa) : coreStep s = .next s.phaseFA := by simp [coreStep, h]

theorem coreStep_tb {s : State} (h : s.phase = .tb) : coreStep s = .next s.phaseTB := by simp [coreStep, h]

theorem coreStep_cg {s : State} (h : s.phase = .cg) : coreStep s = .next s.phaseCG := by simp [coreStep, h]

theorem coreStep_ts {s : State} (h : s.phase = .ts) : coreStep s = .next s.phaseTS := by simp [coreStep, h]

theorem coreStep_en {s : State} (h : s.phase = .en) : coreStep s = .next s.phaseEN := by simp [coreStep, h]

theorem coreStep_td {s : State} (h : s.phase = .td) : coreStep s = s.coreTD := by simp [coreStep, h]

theorem coreStep_de {s : State} (h : s.phase = .de) : coreStep s = s.coreDE := by simp [coreStep, h]

/-! ### Phases TD and DE, record by record (45_table_deserializer.md R185, 46_decoder.md R200) -/

/-- Everything `whileIn` can answer as a next state. -/
theorem whileIn_next {p : Phase} {o : Host.Outcome State Fault Refusal}
    {k : State → Host.Outcome State Fault Refusal} {t : State} (h : whileIn p o k = .next t) :
    ∃ u, o = .next u ∧ ((u.phase = p ∧ k u = .next t) ∨ (u.phase ≠ p ∧ t = u)) := by
  cases o with
  | next u =>
    refine ⟨u, rfl, ?_⟩
    by_cases hp : u.phase = p
    · exact .inl ⟨hp, (if_pos hp).symm.trans h⟩
    · refine .inr ⟨hp, ?_⟩
      have h' := (if_neg hp).symm.trans h
      cases h'
      rfl
  | fault r => cases h
  | refused r => cases h

/-- Everything a record of phase TD can do. -/
theorem tdRecord_cases (s : State) (f : Format) :
    (f = .hdr ∧ s.byteInLen.toNat < 2 ∧ s.tdRecord f = .next (s.raise .malformedTable)) ∨
    (¬ (f = .hdr ∧ s.byteInLen.toNat < 2) ∧ s.tdRecord f = s.runRecord f) := by
  by_cases hc : f = .hdr ∧ s.byteInLen.toNat < 2
  · exact .inl ⟨hc.1, hc.2, if_pos hc⟩
  · exact .inr ⟨hc, if_neg hc⟩

theorem tdLoop_none {n : Nat} {s : State} (h : s.nextFormat = none) : s.tdLoop n = .next (s.toPhase .de) := by
  cases n with
  | zero => rfl
  | succ n => rw [State.tdLoop, h]

theorem tdLoop_some {n : Nat} {s : State} {f : Format} (h : s.nextFormat = some f) :
    s.tdLoop (n + 1) = whileIn .td (s.tdRecord f) (State.tdLoop n) := by
  rw [State.tdLoop, h]

theorem deLoop_none {n : Nat} {s : State} (h : s.nextFormat = none) : s.deLoop n = .next s.deFinish := by
  cases n with
  | zero => rfl
  | succ n => rw [State.deLoop, h]

theorem deLoop_some {n : Nat} {s : State} {f : Format} (h : s.nextFormat = some f) :
    s.deLoop (n + 1) = whileIn .de (s.runRecord f) (State.deLoop n) := by
  rw [State.deLoop, h]

/-- The induction over the loop of `TD.RUN`: what every record keeps holds at its end, where the phase is over. -/
theorem tdLoop_induct {P : State → Prop} {Q : State → Prop}
    (hrec : ∀ s f t, P s → s.nextFormat = some f → s.tdRecord f = .next t →
      (t.phase = .td → P t) ∧ (t.phase ≠ .td → Q t))
    (hend : ∀ s, P s → Q (s.toPhase .de)) {n : Nat} {s t : State} (hs : P s) (h : s.tdLoop n = .next t) : Q t := by
  induction n generalizing s with
  | zero => cases h; exact hend s hs
  | succ n ih =>
    cases hf : s.nextFormat with
    | none => rw [tdLoop_none hf] at h; cases h; exact hend s hs
    | some f =>
      rw [tdLoop_some hf] at h
      obtain ⟨u, hu, ⟨hp, hk⟩ | ⟨hp, rfl⟩⟩ := whileIn_next h
      · exact ih ((hrec s f u hs hf hu).1 hp) hk
      · exact (hrec s f t hs hf hu).2 hp

/-- The induction over the loop of `DE.RUN`: what every payload byte keeps holds at `DE.FINISH`. -/
theorem deLoop_induct {P : State → Prop} {Q : State → Prop}
    (hrec : ∀ s f t, P s → s.nextFormat = some f → s.runRecord f = .next t →
      (t.phase = .de → P t) ∧ (t.phase ≠ .de → Q t))
    (hend : ∀ s, P s → Q s.deFinish) {n : Nat} {s t : State} (hs : P s) (h : s.deLoop n = .next t) : Q t := by
  induction n generalizing s with
  | zero => cases h; exact hend s hs
  | succ n ih =>
    cases hf : s.nextFormat with
    | none => rw [deLoop_none hf] at h; cases h; exact hend s hs
    | some f =>
      rw [deLoop_some hf] at h
      obtain ⟨u, hu, ⟨hp, hk⟩ | ⟨hp, rfl⟩⟩ := whileIn_next h
      · exact ih ((hrec s f u hs hf hu).1 hp) hk
      · exact (hrec s f t hs hf hu).2 hp

/-- Phase TD by the place of the reader. -/
theorem coreTD_header {s : State} (h : s.work.rdPtr = 0) :
    s.coreTD = whileIn .td (s.tdRecord .hdr) (fun t => t.tdLoop t.work.entriesLeft) := if_pos h

theorem coreTD_entries {s : State} (h : s.work.rdPtr ≠ 0) : s.coreTD = s.tdLoop s.work.entriesLeft := if_neg h

/-- Everything the start of `DE.RUN` can do: bits_left is all it sets (46_decoder.md R205, R206). -/
theorem deStart_cases (s : State) :
    (s.work.lenEn = true ∧ s.avail < s.decBits.toNat ∧ s.deStart = .error .ambiguousTrailingBits) ∨
    (s.work.lenEn = true ∧ s.decBits.toNat ≤ s.avail ∧ s.deStart = .ok { s.work with bitsLeft := s.decBits }) ∨
    (s.work.lenEn = false ∧ s.deStart = .ok { s.work with bitsLeft := BitVec.ofNat 38 s.avail }) := by
  unfold State.deStart
  cases hl : s.work.lenEn with
  | false => exact .inr (.inr ⟨rfl, rfl⟩)
  | true =>
    rw [if_pos rfl]
    by_cases hd : s.decBits.toNat > s.avail
    · exact .inl ⟨rfl, hd, if_pos hd⟩
    · exact .inr (.inl ⟨rfl, Nat.le_of_not_lt hd, if_neg hd⟩)

/-- Everything a step in phase DE can do. -/
theorem coreDE_cases (s : State) :
    (∃ e, s.deStart = .error e ∧ s.coreDE = .next (s.raise e)) ∨
    (∃ w, s.deStart = .ok w ∧ s.coreDE = ({ s with work := w } : State).payloadRun) := by
  unfold State.coreDE
  cases s.deStart with
  | error e => exact .inl ⟨e, rfl, rfl⟩
  | ok w => exact .inr ⟨w, rfl, rfl⟩

/-- The step: the host's first planned move, else the core's. -/
theorem step_nil {s : State} (h : s.script = []) : step s = coreStep s := by simp [step, machineStep, h]

theorem step_cons {s : State} {m : HostMove} {rest : List HostMove} (h : s.script = m :: rest) :
    step s = hostStep m { s with script := rest } := by simp [step, machineStep, h]

/-! ### Tree and codes (41_tree_builder.md R135, 42_code_generator.md R152) -/

/-- Everything `TB.MERGE` does, by its two removals. -/
theorem tbMerge_of_popMin {w w1 w2 : Work} {a b : NodeIdx} (h1 : pqPopMin w = some (a, w1))
    (h2 : pqPopMin w1 = some (b, w2)) :
    tbMerge w = pqInsert w.nodeN { w2 with node := w.node ++ [mergedNode w a b] } := by
  unfold tbMerge
  rw [h1]
  dsimp only
  rw [h2]

@[simp] theorem descend_nil (w : Work) (k : NodeIdx) : w.descend k [] = k := rfl

@[simp] theorem descend_cons (w : Work) (k : NodeIdx) (b : Bool) (bs : List Bool) :
    w.descend k (b :: bs) = w.descend (if b then (w.nodeAt k).right else (w.nodeAt k).left) bs := rfl

/-- A path followed by another is followed from where the first ends. -/
theorem descend_append (w : Work) (k : NodeIdx) (as bs : List Bool) :
    w.descend k (as ++ bs) = w.descend (w.descend k as) bs := by
  induction as generalizing k with
  | nil => rfl
  | cons a as ih => exact ih _

/-! ### Frames of the units: which working registers each may change -/

theorem faInsert_frame {nMax : Nat} {sym : Sym} {w w' : Work} {j : Nat} (h : faInsert nMax sym w j = .ok w') :
    w' = { w with ft := w'.ft } := by
  unfold faInsert at h
  split at h
  · cases h
  · cases h; rfl

theorem faCount_frame {nMax : Nat} {sym : Sym} {w w' : Work} (h : faCount nMax sym w = .ok w') :
    w' = { w with ft := w'.ft } := by
  unfold faCount at h
  split at h
  · split at h
    · cases h; rfl
    · exact faInsert_frame h
  · exact faInsert_frame h

theorem faLoop_frame {p : Params} {symIn : Memory 32} {inLen : BitVec 32} {n : Nat} {w w' : Work}
    (h : faLoop p symIn inLen n w = .ok w') : w' = { w with ft := w'.ft, inIdx := w'.inIdx } := by
  induction n generalizing w with
  | zero => cases h; rfl
  | succ n ih =>
    rw [faLoop] at h
    split at h
    · split at h
      · cases h
      · split at h
        · cases h
        · rename_i w1 hc
          rw [ih h, faCount_frame hc]
    · cases h; rfl

/-- Phase FA writes FT and in_idx only (40_frequency_analyzer.md R120). -/
theorem faRun_frame {p : Params} {symIn : Memory 32} {inLen : BitVec 32} {w w' : Work}
    (h : faRun p symIn inLen w = .ok w') : w' = { w with ft := w'.ft, inIdx := w'.inIdx } := faLoop_frame h

theorem pqPopMin_frame {w w' : Work} {k : NodeIdx} (h : pqPopMin w = some (k, w')) : w' = { w with pq := w'.pq } := by
  unfold pqPopMin at h
  split at h
  · cases h
  · cases h; rfl

theorem tbMerge_frame (w : Work) : tbMerge w = { w with node := (tbMerge w).node, pq := (tbMerge w).pq } := by
  unfold tbMerge
  cases h1 : pqPopMin w with
  | none => rfl
  | some x =>
    obtain ⟨a, w1⟩ := x
    dsimp only
    cases h2 : pqPopMin w1 with
    | none => rfl
    | some y =>
      obtain ⟨b, w2⟩ := y
      dsimp only [pqInsert]
      rw [pqPopMin_frame h2, pqPopMin_frame h1]

theorem tbLoop_frame (n : Nat) (w : Work) :
    tbLoop n w = { w with node := (tbLoop n w).node, pq := (tbLoop n w).pq } := by
  induction n generalizing w with
  | zero => rfl
  | succ n ih =>
    rw [tbLoop]
    split
    · rw [ih, tbMerge_frame w]
    · rfl

/-- Phase TB writes NODE, PQ and root only (41_tree_builder.md R136). -/
theorem tbRun_frame (w : Work) :
    tbRun w = { w with node := (tbRun w).node, pq := (tbRun w).pq, root := (tbRun w).root } := by
  unfold tbRun
  dsimp only
  rw [tbLoop_frame]
  rfl

theorem cgTurn_frame {w w' : Work} (h : cgTurn w = .ok w') : w' = { w with stack := w'.stack, code := w'.code } := by
  unfold cgTurn at h
  split at h
  · cases h; rfl
  · split at h
    · cases h; rfl
    · split at h
      · cases h
      · cases h; rfl

theorem cgLoop_frame {n : Nat} {w w' : Work} (h : cgLoop n w = .ok w') :
    w' = { w with stack := w'.stack, code := w'.code } := by
  induction n generalizing w with
  | zero => cases h; rfl
  | succ n ih =>
    rw [cgLoop] at h
    split at h
    · cases h; rfl
    · split at h
      · cases h
      · rename_i w1 hc
        rw [ih h, cgTurn_frame hc]

/-- Phase CG writes STACK and CODE only (42_code_generator.md R150). -/
theorem cgRun_frame {w w' : Work} (h : cgRun w = .ok w') : w' = { w with stack := w'.stack, code := w'.code } := by
  unfold cgRun at h
  split at h
  · cases h; rfl
  · unfold cgWalk at h
    rw [cgLoop_frame h]

theorem putRecord_frame {cap : Option Nat} {i : Instr} {x y : Writer} (h : putRecord cap i x = .ok y) :
    y.1 = { x.1 with wrPtr := y.1.wrPtr } := by
  unfold putRecord at h
  split at h
  · cases h
  · cases h; rfl

theorem tsEntries_frame {cap : Option Nat} {es : List FtEntry} {x y : Writer} (h : tsEntries cap es x = .ok y) :
    y.1 = { x.1 with wrPtr := y.1.wrPtr, tsI := y.1.tsI } := by
  induction es generalizing x with
  | nil => cases h; rfl
  | cons e es ih =>
    rw [tsEntries] at h
    split at h
    · cases h
    · rename_i z hz
      rw [ih h, putRecord_frame hz]

/-- Phase TS writes wr_ptr and ts_i only, besides BYTE_OUT (44_table_serializer.md R175). -/
theorem tsRun_frame {cap : Option Nat} {x y : Writer} (h : tsRun cap x = .ok y) :
    y.1 = { x.1 with wrPtr := y.1.wrPtr, tsI := y.1.tsI } := by
  unfold tsRun at h
  split at h
  · cases h
  · rename_i z hz
    rw [tsEntries_frame h, putRecord_frame hz]

/-- The packer's registers change and no other (43_encoder_packer.md R163). -/
theorem pkPush_frame {cap : Option Nat} {b : Bool} {x y : Writer} (h : pkPush cap b x = .ok y) :
    y.1 = { x.1 with
      bitTotal := y.1.bitTotal, wrPtr := y.1.wrPtr, pkByte := y.1.pkByte, pkCnt := y.1.pkCnt } := by
  unfold pkPush at h
  dsimp only at h
  split at h
  · split at h
    · cases h
    · cases h; rfl
  · cases h; rfl

theorem enShift_frame {cap : Option Nat} {p : BitVec 32} {l : Nat} {x y : Writer} (h : enShift cap p l x = .ok y) :
    y.1 = { x.1 with
      bitTotal := y.1.bitTotal, wrPtr := y.1.wrPtr, pkByte := y.1.pkByte, pkCnt := y.1.pkCnt } := by
  induction l generalizing x with
  | zero => cases h; rfl
  | succ l ih =>
    rw [enShift] at h
    split at h
    · cases h
    · rename_i z hz
      rw [ih h, pkPush_frame hz]

theorem pkFlush_frame {cap : Option Nat} {x y : Writer} (h : pkFlush cap x = .ok y) :
    y.1 = { x.1 with wrPtr := y.1.wrPtr, pkByte := y.1.pkByte, pkCnt := y.1.pkCnt } := by
  unfold pkFlush at h
  dsimp only at h
  split at h
  · cases h; rfl
  · split at h
    · cases h
    · cases h; rfl

theorem enSymbol_frame {cap : Option Nat} {sym : Sym} {x y : Writer} (h : enSymbol cap sym x = .ok y) :
    y.1 = { x.1 with
      bitTotal := y.1.bitTotal, wrPtr := y.1.wrPtr, pkByte := y.1.pkByte, pkCnt := y.1.pkCnt } := by
  unfold enSymbol at h
  split at h
  · cases h
  · exact enShift_frame h

theorem enLoop_frame {p : Params} {symIn : Memory 32} {inLen : BitVec 32} {n : Nat} {x y : Writer}
    (h : enLoop p symIn inLen n x = .ok y) :
    y.1 = { x.1 with
      inIdx := y.1.inIdx, bitTotal := y.1.bitTotal, wrPtr := y.1.wrPtr, pkByte := y.1.pkByte,
      pkCnt := y.1.pkCnt } := by
  induction n generalizing x with
  | zero => cases h; rfl
  | succ n ih =>
    rw [enLoop] at h
    split at h
    · split at h
      · cases h
      · split at h
        · cases h
        · rename_i z hz
          rw [ih h, enSymbol_frame hz]
    · cases h; rfl

/-- Phase EN writes in_idx and the packer's registers only, besides BYTE_OUT (43_encoder_packer.md R160). -/
theorem enRun_frame {p : Params} {symIn : Memory 32} {inLen : BitVec 32} {x y : Writer}
    (h : enRun p symIn inLen x = .ok y) :
    y.1 = { x.1 with
      inIdx := y.1.inIdx, bitTotal := y.1.bitTotal, wrPtr := y.1.wrPtr, pkByte := y.1.pkByte,
      pkCnt := y.1.pkCnt } := by
  unfold enRun at h
  split at h
  · cases h
  · rename_i z hz
    rw [pkFlush_frame h, enLoop_frame hz]

/-- Everything `DE.MATCH` can do (46_decoder.md R203). -/
theorem deMatch_cases (cap : Option Nat) (x : Emitter) :
    (deKey x.1 = none ∧ deMatch cap x = .ok x) ∨
    (∃ e, deKey x.1 = some e ∧ fits cap (x.1.outIdx.toNat + 1) = false ∧ deMatch cap x = .error .ioError) ∨
    (∃ e, deKey x.1 = some e ∧ fits cap (x.1.outIdx.toNat + 1) = true ∧
      deMatch cap x = .ok ({ x.1 with outIdx := x.1.outIdx + 1, accPat := 0, accLen := 0 },
        x.2.write x.1.outIdx.toNat e.sym)) := by
  unfold deMatch
  cases hk : deKey x.1 with
  | none => exact .inl ⟨rfl, rfl⟩
  | some e =>
    dsimp only
    rcases memWrite_cases (cap := cap) (m := x.2) (a := x.1.outIdx.toNat) (vs := [e.sym]) with ⟨h, hw⟩ | ⟨h, hw⟩
    · exact .inr (.inr ⟨e, rfl, h, by rw [hw]; rfl⟩)
    · exact .inr (.inl ⟨e, rfl, h, by rw [hw]⟩)

theorem deBit_frame {cap : Option Nat} {byte : Byte} {x y : Emitter} (h : deBit cap byte x = .ok y) :
    y.1 = { x.1 with
      rdPtr := y.1.rdPtr, bitPos := y.1.bitPos, bitsLeft := y.1.bitsLeft, accPat := y.1.accPat,
      accLen := y.1.accLen, outIdx := y.1.outIdx } := by
  have ha : ∀ (b : Bool) (w : Work), deAppend b (deAdvance w) = { w with
      rdPtr := (deAppend b (deAdvance w)).rdPtr, bitPos := (deAppend b (deAdvance w)).bitPos,
      bitsLeft := (deAppend b (deAdvance w)).bitsLeft, accPat := (deAppend b (deAdvance w)).accPat,
      accLen := (deAppend b (deAdvance w)).accLen } := by
    intro b w
    unfold deAppend deAdvance
    split <;> split <;> rfl
  unfold deBit at h
  rcases deMatch_cases cap (deAppend (payloadBit byte x.1) (deAdvance x.1), x.2) with ⟨_, hm⟩ | ⟨e, _, _, hm⟩ | ⟨e, _, _, hm⟩
  · rw [hm] at h; cases h; dsimp only; rw [ha]
  · rw [hm] at h; cases h
  · rw [hm] at h; cases h; dsimp only; rw [ha]

/-- The bits of a payload byte change the reader, the accumulator and out_idx only, besides SYM_OUT
(46_decoder.md R200). -/
theorem deBits_frame {cap : Option Nat} {byte : Byte} {n : Nat} {x y : Emitter} (h : deBits cap byte n x = .ok y) :
    y.1 = { x.1 with
      rdPtr := y.1.rdPtr, bitPos := y.1.bitPos, bitsLeft := y.1.bitsLeft, accPat := y.1.accPat,
      accLen := y.1.accLen, outIdx := y.1.outIdx } := by
  induction n generalizing x with
  | zero => cases h; rfl
  | succ n ih =>
    rw [deBits] at h
    split at h
    · cases h
    · rename_i z hz
      rw [ih h, deBit_frame hz]

end Sys2Proof.Machine
end

