-- ==== Sys2Proof/Laws/PerInstr.lean ====
section
/-! SUPPORT. Statements about every instruction as syntax, one lemma per constructor. -/

namespace Sys2Proof.Laws.EncodedSize

/-- An instruction is written in as many bytes as its format has (30_encoding.md R92, R94, R96). -/
def Statement (i : Instr) : Prop := (Sys2Proof.encode i).length = i.format.size

theorem encode : Statement .encode := rfl

theorem decode : Statement .decode := rfl

theorem hdr (tableSize : BitVec 16) : Statement (.hdr tableSize) := rfl

theorem ent (symbolValue : Sym) (codeLength : BitVec 8) (codePattern : BitVec 32) :
    Statement (.ent symbolValue codeLength codePattern) := rfl

theorem pay (payload : Byte) : Statement (.pay payload) := rfl

end Sys2Proof.Laws.EncodedSize
end

