-- ==== Sys2Proof/Machine/HostProgram.lean ====
section
/-! DEFINITION. The host notation of 30_encoding.md R100 and its expansion into host moves. -/

namespace Sys2Proof.Machine

/-- The registers a SET line may name (30_encoding.md R100). -/
inductive SetReg where
  | cfg | inLen | byteInLen | decBits
  deriving DecidableEq, Repr

/-- Register numbers (10_state.md R20). -/
def SetReg.number : SetReg → Nat
  | .cfg => 1
  | .inLen => 4
  | .byteInLen => 8
  | .decBits => 9

/-- A line of a host program (30_encoding.md R100). -/
inductive HostLine where
  | set (r : SetReg) (v : Nat)
  | loadSymIn (syms : List (BitVec 32))
  | loadByteIn (bytes : List (BitVec 8))
  | pins (v : BitVec 4)
  | encode
  | decode
  | decodeB
  | decodeL
  | feed
  deriving DecidableEq, Repr

/-- Write the listed elements of a buffer from index `i` on. -/
def loadMoves (b : BufId) (i : Nat) : List (BitVec 32) → List HostMove
  | [] => []
  | v :: vs => .writeBuf b i v :: loadMoves b (i + 1) vs

/-- The host moves of a line: a command line writes CMD and waits for DONE (30_encoding.md R100). -/
def HostLine.moves : HostLine → List HostMove
  | .set r v => [.writeReg r.number v]
  | .loadSymIn syms => loadMoves .symIn 0 syms
  | .loadByteIn bytes => loadMoves .byteIn 0 (bytes.map (BitVec.setWidth 32))
  | .pins v => [.pins v]
  | .encode => [.writeReg 0 0, .waitDone]
  | .decode => [.writeReg 0 1, .waitDone]
  | .decodeB => [.writeReg 1 0, .writeReg 0 1, .waitDone]
  | .decodeL => [.writeReg 1 1, .writeReg 0 1, .waitDone]
  | .feed => [.feed]

/-- The host moves of a program (30_encoding.md R100). -/
def programMoves (lines : List HostLine) : List HostMove := (lines.map HostLine.moves).flatten

end Sys2Proof.Machine
end

