-- ==== Sys2Proof/Tests/Slice0.lean ====
section
/-! SUPPORT. The model's own tests: ill-formed terms, words written out from the spec's encodings, one step per
instruction, and for every obligation with hypotheses a named theorem (test_meets_<Obligation>) that shows operands and
a state meeting them. Expected values are the spec's own (the rule or the example is named) or worked out by hand. -/

namespace Sys2Proof.Tests

open Sys2Proof Sys2Proof.Machine

/-! ## Helpers -/

/-- The state of an outcome, `s` for a stop. -/
def stateOf (s : State) : Host.Outcome State Fault Refusal → State
  | .next t => t
  | .fault _ => s
  | .refused _ => s

/-- The outcome is a next state. -/
def isNext : Host.Outcome State Fault Refusal → Bool
  | .next _ => true
  | .fault _ => false
  | .refused _ => false

theorem next_stateOf {o : Host.Outcome State Fault Refusal} (s : State) (h : isNext o = true) :
    o = .next (stateOf s o) := by
  cases o <;> simp_all [isNext, stateOf]

/-- The state `k` steps of the core after START. -/
def ran (op : Op) (k : Nat) (s : State) : State := stateOf s (coreRun k (s.start op))

theorem endOfRun_ran {op : Op} {k : Nat} {s : State} (hs : s.busy = false)
    (hn : isNext (coreRun k (s.start op)) = true) (ht : (ran op k s).busy = false) : EndOfRun op s (ran op k s) :=
  ⟨hs, ht, k, next_stateOf s hn⟩

theorem reaches_ran {op : Op} {k : Nat} {s : State} (hs : s.busy = false)
    (hn : isNext (coreRun k (s.start op)) = true) : Reaches op (ran op k s).phase s (ran op k s) :=
  ⟨hs, rfl, k, next_stateOf s hn⟩

/-- An idle core with an input sequence. -/
def withInput (xs : List Sym) : State :=
  { State.reset with inLen := BitVec.ofNat 32 xs.length, symIn := State.reset.symIn.writeList 0 xs }

/-- An idle core with an input file. -/
def withFile (cfg : BitVec 1) (bits : BitVec 38) (bs : List Byte) : State :=
  { State.reset with
    cfg := cfg, decBits := bits, byteInLen := BitVec.ofNat 35 bs.length,
    byteIn := State.reset.byteIn.writeList 0 bs }

/-- A core in phase TD at entry 0 of a table of two entries. -/
def atEntry (dtab : List DtEntry) : State :=
  { State.reset with
    busy := true, phase := .td, byteInLen := 20,
    work := { Work.start .decode false with rdPtr := 2, tdM := 2, dtab := dtab } }

/-- A core in phase TD at the header of a file of `n` bytes. -/
def atHeader (n : BitVec 35) : State :=
  { State.reset with busy := true, phase := .td, byteInLen := n, work := Work.start .decode false }

/-- A core in phase DE at a payload byte, `n` bits left. -/
def atPayload (n : BitVec 38) (dtab : List DtEntry) : State :=
  { State.reset with
    busy := true, phase := .de, byteInLen := 100,
    work := { Work.start .decode false with rdPtr := 2, bitsLeft := n, dtab := dtab } }

/-- The table of 44_table_serializer.md's example: 2, 3, 6, 7, 9 with codes 00, 01, 100, 101 and 11 as
46_decoder.md's example decodes them. -/
def specTable : List DtEntry :=
  [{ len := 2, pat := 3, sym := 2 }, { len := 2, pat := 1, sym := 3 }, { len := 3, pat := 4, sym := 6 },
   { len := 3, pat := 5, sym := 7 }, { len := 2, pat := 0, sym := 9 }]

/-- An input of two distinct Symbols. -/
def sEnc : State := withInput [3#32, 7#32, 3#32]

/-- The end of its ENCODE. -/
def tEnc : State := ran .encode 5 sEnc

/-- Its state when phase EN begins. -/
def mEnc : State := ran .encode 4 sEnc

/-- The state of DECODE of its file when phase DE begins, with LEN_EN = `c`. -/
def mDec (c : BitVec 1) : State := ran .decode 1 { tEnc.feed with cfg := c }

/-- The end of DECODE of its file, with LEN_EN = `c`. -/
def uDec (c : BitVec 1) : State := ran .decode 2 { tEnc.feed with cfg := c }

/-! ## Ill-formed terms (30_encoding.md R94 to R97) -/

theorem test_length_zero_is_ill_formed : (Instr.ent 5 0 0).wellFormed = false := by decide

theorem test_length_33_is_ill_formed : (Instr.ent 5 33 0).wellFormed = false := by decide

theorem test_upper_bit_is_ill_formed : (Instr.ent 5 1 2).wellFormed = false := by decide

theorem test_length_32_is_well_formed : (Instr.ent 5 32 0xffffffff).wellFormed = true := by decide

/-! ## Words written out from the spec's encodings -/

/-- 30_encoding.md R90: OP = 0 and OP = 1. -/
theorem test_decode_commands :
    decodeTableWord 1 0b0 = some .encode ∧ decodeTableWord 1 0b1 = some .decode := by decide

/-- 44_table_serializer.md R176: n = 300 is `2c 01`, so bits 7:0 are 2c and bits 15:8 are 01. -/
theorem test_decode_hdr : decodeTableWord 16 0b0000000100101100 = some (.hdr 300) := by decide

/-- 44_table_serializer.md R177: `06 00 00 00 03 04 00 00 00` is Symbol 6 with code "100". -/
theorem test_decode_ent : decodeTableWord 72 0x000000040300000006 = some (.ent 6 3 4) := by decide

/-- 30_encoding.md R96: payload byte 0x56. -/
theorem test_decode_pay : decodeTableWord 8 0b01010110 = some (.pay 0x56) := by decide

/-- 45_table_deserializer.md R188, field by field: every byte of an entry goes to its own field bits. -/
theorem test_decode_ent_bytes :
    decode .ent [0x01#8, 0x02#8, 0x03#8, 0x04#8, 0x05#8, 0x06#8, 0x07#8, 0x08#8, 0x09#8, 0xaa#8] =
      .ok (.ent 0x04030201 0x05 0x09080706, [0xaa#8]) := by rfl

/-- Fewer bytes than a record has are no record (30_encoding.md R94). -/
theorem test_decode_short : decode .ent (List.replicate 8 0#8) = .error (.tooShort .ent) := by rfl

/-- 44_table_serializer.md R177: the bytes of Symbol -1 with code "0". -/
theorem test_encode_ent : encode (.ent 0xffffffff 1 0) =
    [0xff#8, 0xff#8, 0xff#8, 0xff#8, 0x01#8, 0x00#8, 0x00#8, 0x00#8, 0x00#8] := by decide

/-! ## One step per instruction -/

/-- 47_commands.md R217: START(0) from reset. -/
theorem test_encode_starts :
    (stateOf .reset (exec .encode .reset)).statusWord = 0x11 := by decide

/-- 60_exceptions.md R241 (a): SYM_IN not available: ERR and DONE, ERR_CODE 1. -/
theorem test_encode_port_closed :
    (stateOf .reset (exec .encode { State.reset with portOk := 0b1110 })).statusWord = 0x06 ∧
    (stateOf .reset (exec .encode { State.reset with portOk := 0b1110 })).errCode = 1 := by decide

/-- 47_commands.md R217: START(1) from reset, PHASE = 6, LEN_EN latched. -/
theorem test_decode_starts :
    (stateOf .reset (exec .decode { State.reset with cfg := 1 })).statusWord = 0x61 ∧
    (stateOf .reset (exec .decode { State.reset with cfg := 1 })).work.lenEn = true := by decide

/-- 60_exceptions.md R241 (b): a file longer than BYTE_IN. -/
theorem test_decode_file_too_long :
    (stateOf .reset (exec .decode
      { State.reset with byteInLen := 3, params := { Params.default with byteInCap := some 2 } })).errCode = 1 := by
  decide

/-- 95_test_vectors.md: a file of 47 bytes with `05 00`: m = 5. -/
theorem test_hdr_size : (stateOf .reset (exec (.hdr 5) (atHeader 47))).work.tdM = 5 ∧
    (stateOf .reset (exec (.hdr 5) (atHeader 47))).work.rdPtr = 2 := by decide

/-- 45_table_deserializer.md R187: one byte less is MalformedTable. -/
theorem test_hdr_past_the_file : (stateOf .reset (exec (.hdr 5) (atHeader 46))).errCode = 4 := by decide

/-- 45_table_deserializer.md R188: the key "100" maps to Symbol 6. -/
theorem test_ent_row : (stateOf .reset (exec (.ent 6 3 4) (atEntry []))).work.dtab =
    [{ len := 3, pat := 4, sym := 6 }] := by decide

/-- 95_test_vectors.md V-TD-9: the duplicate key (1, 0). -/
theorem test_ent_duplicate :
    (stateOf .reset (exec (.ent 6 1 0) (atEntry [{ len := 1, pat := 0, sym := 5 }]))).errCode = 4 := by decide

/-- 46_decoder.md R201: byte 0x56 is 0,1,0,1,0,1,1,0: the Symbols 3, 3, 3 and the bits 1, 0 of a code. -/
theorem test_pay_symbols :
    (stateOf .reset (exec (.pay 0x56) (atPayload 8 specTable))).symOut.cells = [(0, 3), (1, 3), (2, 3)] ∧
    (stateOf .reset (exec (.pay 0x56) (atPayload 8 specTable))).work.accPat = 2 ∧
    (stateOf .reset (exec (.pay 0x56) (atPayload 8 specTable))).work.accLen = 2 := by decide

/-- 46_decoder.md R200: only bits_left bits of the last byte are consumed. -/
theorem test_pay_last_bits :
    (stateOf .reset (exec (.pay 0x56) (atPayload 3 specTable))).symOut.cells = [(0, 3)] ∧
    (stateOf .reset (exec (.pay 0x56) (atPayload 3 specTable))).work.accLen = 1 ∧
    (stateOf .reset (exec (.pay 0x56) (atPayload 3 specTable))).work.bitPos = 3 := by decide

/-! ## A placed word is the next step's instruction -/

theorem test_place_encode : (stateOf .reset (step (State.reset.withFetchWord 1 0))).phase = .fa := by decide

theorem test_place_decode : (stateOf .reset (step (State.reset.withFetchWord 8 1))).phase = .td := by decide

theorem test_place_hdr : (stateOf .reset (step (State.reset.withFetchWord 16 0))).work.rdPtr = 2 := by decide

theorem test_place_ent :
    (stateOf .reset (step (State.reset.withFetchWord 72 0x000000040300000006))).work.dtab =
      [{ len := 3, pat := 4, sym := 6 }] := by decide

/-- The whole step: the byte enters the accumulator, and DE.FINISH reports its 8 bits as the residual. -/
theorem test_place_pay :
    (stateOf .reset (step (State.reset.withFetchWord 8 0x56))).work.accPat = 0x56 ∧
    (stateOf .reset (step (State.reset.withFetchWord 8 0x56))).residLen = 8 := by decide

/-! ## Witnesses: states and operands that meet the hypotheses of the obligations -/

theorem run_enc : EndOfRun .encode sEnc tEnc :=
  endOfRun_ran (by decide) (by decide +kernel) (by decide +kernel)

theorem reach_enc : Reaches .encode .en sEnc mEnc :=
  (by decide +kernel : (ran .encode 4 sEnc).phase = .en) ▸ reaches_ran rfl (by decide +kernel)

theorem reach_dec (c : BitVec 1) (h : c = 0 ∨ c = 1) : Reaches .decode .de { tEnc.feed with cfg := c } (mDec c) := by
  rcases h with rfl | rfl
  · exact (by decide +kernel : (mDec 0).phase = .de) ▸ reaches_ran (by decide +kernel) (by decide +kernel)
  · exact (by decide +kernel : (mDec 1).phase = .de) ▸ reaches_ran (by decide +kernel) (by decide +kernel)

theorem run_dec (c : BitVec 1) (h : c = 0 ∨ c = 1) : EndOfRun .decode { tEnc.feed with cfg := c } (uDec c) := by
  rcases h with rfl | rfl <;> exact endOfRun_ran (by decide +kernel) (by decide +kernel) (by decide +kernel)

/-- Worked out by hand: 7 has code "0", 3 has code "1", the bits are 1, 0, 1. -/
theorem test_small_file :
    tEnc.outputFile = [0x02#8, 0x00#8, 0x03#8, 0x00#8, 0x00#8, 0x00#8, 0x01#8, 0x01#8, 0x00#8, 0x00#8, 0x00#8,
      0x07#8, 0x00#8, 0x00#8, 0x00#8, 0x01#8, 0x00#8, 0x00#8, 0x00#8, 0x00#8, 0xa0#8] ∧
    tEnc.encBits = 3 ∧ tEnc.err = false := by decide +kernel

theorem test_meets_EncodeOfDecodedRecord :
    (Format.hdr ≠ .cmd ∧ decode .hdr [0xff#8, 0xff#8, 0x00#8] = .ok (.hdr 0xffff, [0x00#8])) ∧
    (Format.ent ≠ .cmd ∧ decode .ent (List.replicate 9 0xff#8) = .ok (.ent 0xffffffff 0xff 0xffffffff, [])) ∧
    (Format.pay ≠ .cmd ∧ decode .pay [0xff#8] = .ok (.pay 0xff, [])) :=
  ⟨⟨by decide, rfl⟩, ⟨by decide, rfl⟩, ⟨by decide, rfl⟩⟩

theorem test_meets_FieldsAreLittleEndian :
    1 < 2 ∧ (bytesLe16 0x012c)[1]? = some 0x01#8 ∧ 3 < 4 ∧ (bytesLe32 0x80000000)[3]? = some 0x80#8 := by decide

/-- The first clause at l = 32, the second with a key of each boundary length. -/
theorem test_meets_KeyIsItsBitString :
    (32 ≤ 32 ∧ (0xffffffff#32).toNat < 2 ^ 32) ∧
    ((∀ e ∈ [DtEntry.mk 1 1 5, DtEntry.mk 32 0xffffffff 6], LegalKey e.len e.pat) ∧
      1 ≤ 32 ∧ 32 ≤ 32 ∧ dmatch [DtEntry.mk 1 1 5, DtEntry.mk 32 0xffffffff 6] 32 0xffffffff =
        some (DtEntry.mk 32 0xffffffff 6)) := by decide

theorem test_meets_StepRunsTheCommandWord :
    ({ State.reset with script := [.writeReg 0 3] } : State).script = .writeReg 0 3 :: [] := rfl

/-- One clause per record format: a header, an entry and a payload byte inside the file; the start of phase DE. -/
theorem test_meets_StepRunsTheRecord :
    let h := (withFile 0 0 [0x00#8, 0x00#8]).start .decode
    (h.nextFormat = some .hdr ∧ h.work.rdPtr.toNat + 2 ≤ h.byteInLen.toNat ∧
      decode .hdr (h.byteIn.readList 0 2) = .ok (.hdr 0, [])) ∧
    ((atEntry []).nextFormat = some .ent ∧ (atEntry []).work.rdPtr.toNat + 9 ≤ (atEntry []).byteInLen.toNat ∧
      ∃ i, decode .ent ((atEntry []).byteIn.readList 2 9) = .ok (i, [])) ∧
    ((atPayload 1 []).nextFormat = some .pay ∧ (atPayload 1 []).work.rdPtr.toNat + 1 ≤ (atPayload 1 []).byteInLen.toNat ∧
      ∃ i, decode .pay ((atPayload 1 []).byteIn.readList 2 1) = .ok (i, [])) ∧
    (∀ n, fits (atEntry []).params.byteInCap n = true) ∧
    ((atPayload 1 []).phase = .de ∧ ∃ w, (atPayload 1 []).deStart = .ok w) ∧ (atPayload 1 []).done = false :=
  ⟨⟨by decide, by decide, rfl⟩, ⟨by decide, by decide, _, rfl⟩, ⟨by decide, by decide, _, rfl⟩, fun _ => rfl,
    ⟨rfl, _, rfl⟩, rfl⟩

theorem test_meets_CommandWhileBusyIsIgnored : (atHeader 2).busy = true := rfl

/-- A plan whose next move accesses no buffer, and the empty plan. -/
theorem test_meets_OnlyHostBufferMovesStop :
    (∀ m rest, ({ State.reset with script := [.core] } : State).script = m :: rest →
      (∀ b i v, m ≠ .writeBuf b i v) ∧ (∀ b i, m ≠ .readBuf b i) ∧ m ≠ .feed) ∧
    (∀ m rest, State.reset.script ≠ m :: rest) := by
  constructor
  · rintro m rest h
    obtain ⟨rfl, -⟩ := List.cons.inj h
    exact ⟨by simp, by simp, by simp⟩
  · intro m rest h
    cases h

theorem test_meets_EncodeStarts :
    sEnc.busy = false ∧ sEnc.portOk.getLsbD 0 = true ∧ sEnc.portOk.getLsbD 1 = true ∧
    fits sEnc.params.symInCap sEnc.inLen.toNat = true := by decide

theorem test_meets_DecodeStarts :
    State.reset.busy = false ∧ State.reset.portOk.getLsbD 2 = true ∧ State.reset.portOk.getLsbD 3 = true ∧
    fits State.reset.params.byteInCap State.reset.byteInLen.toNat = true := by decide

/-- Each port alone, and an input one element longer than its buffer. -/
theorem test_meets_StartFailsWithIOError :
    State.reset.busy = false ∧ (0b1110#4).getLsbD 0 = false ∧ (0b1101#4).getLsbD 1 = false ∧
    (0b1011#4).getLsbD 2 = false ∧ (0b0111#4).getLsbD 3 = false ∧
    fits (some 2) (3#32).toNat = false ∧ fits (some 2) (3#35).toNat = false := by decide

/-- The command taken, and the command turned away at START. -/
theorem test_meets_CommandFrame :
    exec .encode sEnc = .next (sEnc.start .encode) ∧ exec .decode sEnc = .next (sEnc.start .decode) ∧
    (sEnc.start .encode).err = false ∧ (({ sEnc with portOk := 0 } : State).start .encode).err = true :=
  ⟨rfl, rfl, by decide, by decide⟩

theorem test_meets_CoreKeepsItsInputs : ∃ t, coreStep (sEnc.start .encode) = .next t :=
  ⟨_, next_stateOf .reset (by decide +kernel)⟩

/-- Each phase in turn, and a step that leaves for IDLE. -/
theorem test_meets_PhaseSuccessors :
    ((List.range 6).map fun k => (ran .encode k sEnc).phase) = [.fa, .tb, .cg, .ts, .en, .idle] ∧
    ((List.range 3).map fun k => (ran .decode k { tEnc.feed with cfg := 1 }).phase) = [.td, .de, .idle] ∧
    (ran .encode 1 State.reset).phase = .ts ∧
    (ran .decode 1 State.reset).phase = .idle ∧
    ∀ k, k < 3 → isNext (coreStep (ran .decode k { tEnc.feed with cfg := 1 })) = true := by decide +kernel

theorem test_meets_EveryRunEnds : sEnc.busy = false ∧ EndOfRun .encode sEnc tEnc ∧ tEnc.err = false :=
  ⟨rfl, run_enc, by decide +kernel⟩

/-- A run that ends with AmbiguousTrailingBits in length mode, and one of each command without error. -/
theorem test_meets_ErrorsOfEachCommand :
    EndOfRun .encode sEnc tEnc ∧ EndOfRun .decode { tEnc.feed with cfg := 1 } (uDec 1) ∧
    EndOfRun .decode (withFile 1 1 [0x00#8, 0x00#8]) (ran .decode 2 (withFile 1 1 [0x00#8, 0x00#8])) ∧
    (ran .decode 2 (withFile 1 1 [0x00#8, 0x00#8])).errCode = 5 :=
  ⟨run_enc, run_dec 1 (.inr rfl), endOfRun_ran rfl (by decide +kernel) (by decide +kernel), by decide +kernel⟩

theorem test_meets_RunLeavesTheOtherCommandAlone :
    EndOfRun .encode sEnc tEnc ∧ EndOfRun .decode { tEnc.feed with cfg := 0 } (uDec 0) :=
  ⟨run_enc, run_dec 0 (.inl rfl)⟩

theorem test_meets_EncodeWritesTheFile :
    sEnc.params.Legal ∧ EndOfRun .encode sEnc tEnc ∧ tEnc.err = false ∧ tEnc.byteOutLen.toNat ≤ 21 :=
  ⟨by decide, run_enc, by decide +kernel, by decide +kernel⟩

/-- An input with exactly N_MAX distinct Symbols. -/
theorem test_meets_EncodeCompletes :
    let s := { sEnc with params := { Params.default with nMax := 2 } }
    s.params.Legal ∧ s.busy = false ∧ s.portOk.getLsbD 0 = true ∧ s.portOk.getLsbD 1 = true ∧
    fits s.params.symInCap s.inLen.toNat = true ∧ s.params.byteOutCap = none ∧
    s.inputSymbols.dedup.length ≤ 33 ∧ s.inputSymbols.dedup.length = s.params.nMax := by decide +kernel

/-- The second clause: the codes are found, and BYTE_OUT has room for the 21 bytes of the file or for 20. -/
theorem test_meets_EncodeCompletes_room :
    sEnc.params.Legal ∧ Reaches .encode .ts sEnc (ran .encode 3 sEnc) ∧
    ((ran .encode 3 sEnc).work.fileBytes sEnc.inputSymbols).length = 21 ∧ fits (some 21) 21 = true ∧
    fits (some 20) 21 = false :=
  ⟨by decide, (by decide +kernel : (ran .encode 3 sEnc).phase = .ts) ▸ reaches_ran rfl (by decide +kernel),
    by decide +kernel, by decide, by decide⟩

/-- The input with 33 distinct Symbols. -/
theorem test_meets_EncodeCompletes_33 :
    (withInput ((List.range 33).map (BitVec.ofNat 32))).inputSymbols.dedup.length = 33 := by decide +kernel

/-- A file of two entries, with the two boundary code lengths, and no payload. -/
theorem test_meets_DecodeBareCompletes :
    let s := withFile 0 0 [0x02#8, 0x00#8, 0x05#8, 0x00#8, 0x00#8, 0x00#8, 0x01#8, 0x01#8, 0x00#8, 0x00#8, 0x00#8,
      0x06#8, 0x00#8, 0x00#8, 0x00#8, 0x20#8, 0xff#8, 0xff#8, 0xff#8, 0x7f#8]
    s.busy = false ∧ s.cfg = 0 ∧ s.portOk.getLsbD 2 = true ∧ s.portOk.getLsbD 3 = true ∧
    fits s.params.byteInCap s.byteInLen.toNat = true ∧ s.params.symOutCap = none ∧
    decode .hdr (s.inputFile.take 2) = .ok (.hdr 2#16, []) ∧
    2 + 9 * (2#16).toNat ≤ s.byteInLen.toNat ∧ (2#16).toNat ≤ s.params.nMax ∧
    (∀ i, i < (2#16).toNat → ∃ sym l p,
      decode .ent ((s.inputFile.drop (2 + 9 * i)).take 9) = .ok (.ent sym l p, []) ∧
      (Instr.ent sym l p).wellFormed = true) ∧
    (∀ i j sym sym' l p, i < j → j < (2#16).toNat →
      decode .ent ((s.inputFile.drop (2 + 9 * i)).take 9) = .ok (.ent sym l p, []) →
      decode .ent ((s.inputFile.drop (2 + 9 * j)).take 9) ≠ .ok (.ent sym' l p, [])) := by
  intro s
  have h0 : decode .ent ((s.inputFile.drop (2 + 9 * 0)).take 9) = .ok (.ent 5 1 1, []) := by decide +kernel
  have h1 : decode .ent ((s.inputFile.drop (2 + 9 * 1)).take 9) = .ok (.ent 6 32 0x7fffffff, []) := by decide +kernel
  refine ⟨rfl, rfl, by decide, by decide, rfl, rfl, by decide +kernel, by decide, by decide, ?_, ?_⟩
  · intro i hi
    have : i = 0 ∨ i = 1 := by simp at hi; omega
    rcases this with rfl | rfl
    · exact ⟨_, _, _, h0, by decide⟩
    · exact ⟨_, _, _, h1, by decide⟩
  · intro i j sym sym' l p hij hj e0 e1
    have hj' : j < 2 := hj
    obtain rfl : j = 1 := by omega
    obtain rfl : i = 0 := by omega
    rw [h0] at e0
    rw [h1] at e1
    cases e0
    cases e1

/-- The empty input, the file `00 00` in bare mode and in length mode, the buffers of exactly two bytes. -/
theorem test_meets_EmptyInput :
    let p := { Params.default with byteOutCap := some 2, byteInCap := some 2 }
    (State.reset.busy = false ∧ State.reset.portOk = 0b1111 ∧ State.reset.inLen = 0 ∧
      fits p.byteOutCap 2 = true) ∧
    (∀ c : BitVec 1, (withFile c 0 [0x00#8, 0x00#8]).busy = false ∧
      (withFile c 0 [0x00#8, 0x00#8]).portOk = 0b1111 ∧ fits p.byteInCap 2 = true ∧
      (withFile c 0 [0x00#8, 0x00#8]).byteInLen = 2 ∧
      (withFile c 0 [0x00#8, 0x00#8]).inputFile = [0x00#8, 0x00#8] ∧
      (withFile c 0 [0x00#8, 0x00#8]).decBits = 0) :=
  ⟨⟨rfl, rfl, rfl, rfl⟩, fun _ => ⟨rfl, rfl, rfl, rfl, rfl, rfl⟩⟩

theorem test_meets_SingleSymbolFile :
    (withInput [5#32]).params.Legal ∧ (withInput [5#32]).busy = false ∧ (withInput [5#32]).portOk = 0b1111 ∧
    fits (withInput [5#32]).params.symInCap (withInput [5#32]).inLen.toNat = true ∧
    (withInput [5#32]).params.byteOutCap = none ∧ 1 ≤ (withInput [5#32]).inLen.toNat ∧
    ∀ y ∈ (withInput [5#32]).inputSymbols, y = 5#32 := by
  have h : (withInput [5#32]).inputSymbols = [5#32] := by decide +kernel
  rw [h]
  exact ⟨by decide, rfl, rfl, rfl, rfl, by decide, by simp⟩

/-- The same inputs in two different states before START. -/
theorem test_meets_RunsAreDeterministic :
    let s' := { sEnc with byteOutLen := 9, done := true, work := tEnc.work }
    let d := { tEnc.feed with cfg := 0 }
    let d' := { d with decBits := 77, symOutLen := 5 }
    (sEnc.params = s'.params ∧ sEnc.portOk = s'.portOk ∧ sEnc.inLen = s'.inLen ∧
      sEnc.inputSymbols = s'.inputSymbols ∧ EndOfRun .encode sEnc tEnc ∧ EndOfRun .encode s' (ran .encode 5 s')) ∧
    (d.params = d'.params ∧ d.portOk = d'.portOk ∧ d.byteInLen = d'.byteInLen ∧ d.inputFile = d'.inputFile ∧
      d.cfg = d'.cfg ∧ (d.cfg = 1 → d.decBits = d'.decBits) ∧ EndOfRun .decode d (uDec 0) ∧
      EndOfRun .decode d' (ran .decode 2 d')) :=
  ⟨⟨rfl, rfl, rfl, rfl, run_enc, endOfRun_ran rfl (by decide +kernel) (by decide +kernel)⟩,
    ⟨rfl, rfl, rfl, rfl, rfl, fun h => absurd h (by decide), run_dec 0 (.inl rfl),
      endOfRun_ran (by decide +kernel) (by decide +kernel) (by decide +kernel)⟩⟩

/-- The second clause of RunsAreDeterministic: two states before START. -/
theorem test_meets_RunsAreDeterministic_tables :
    let s' := { sEnc with byteOutLen := 9, done := true, work := tEnc.work }
    sEnc.params = s'.params ∧ sEnc.inLen = s'.inLen ∧ sEnc.inputSymbols = s'.inputSymbols ∧
    Reaches .encode .en sEnc mEnc ∧ Reaches .encode .en s' (ran .encode 4 s') :=
  ⟨rfl, rfl, rfl, reach_enc, (by decide +kernel : (ran .encode 4
    { sEnc with byteOutLen := 9, done := true, work := tEnc.work }).phase = .en) ▸ reaches_ran rfl (by decide +kernel)⟩

/-- The last clause of RunsAreDeterministic: the input in another order. -/
theorem test_meets_RunsAreDeterministic_order :
    let s' := withInput [3#32, 3#32, 7#32]
    sEnc.params = s'.params ∧ sEnc.params.Legal ∧ sEnc.inputSymbols.Perm s'.inputSymbols ∧
    EndOfRun .encode sEnc tEnc ∧ EndOfRun .encode s' (ran .encode 5 s') ∧ tEnc.err = false ∧
    (ran .encode 5 s').err = false :=
  ⟨rfl, by decide, by decide +kernel, run_enc, endOfRun_ran rfl (by decide +kernel) (by decide +kernel),
    by decide +kernel, by decide +kernel⟩

/-- A decode that gives the input again, and one that ends with IOError on a SYM_OUT of two words. -/
theorem test_meets_RoundTripLengthMode :
    let s' := { sEnc with params := { Params.default with symOutCap := some 2 } }
    let t' := ran .encode 5 s'
    let u' := ran .decode 2 { t'.feed with cfg := 1 }
    (sEnc.params.Legal ∧ EndOfRun .encode sEnc tEnc ∧ tEnc.err = false ∧
      EndOfRun .decode { tEnc.feed with cfg := 1 } (uDec 1) ∧ (uDec 1).errCode ≠ 1 ∧
      (uDec 1).outputSymbols = [3#32, 7#32, 3#32]) ∧
    (s'.params.Legal ∧ EndOfRun .encode s' t' ∧ t'.err = false ∧
      EndOfRun .decode { t'.feed with cfg := 1 } u' ∧ u'.errCode = 1) :=
  ⟨⟨by decide, run_enc, by decide +kernel, run_dec 1 (.inr rfl), by decide +kernel, by decide +kernel⟩,
    ⟨by decide, endOfRun_ran rfl (by decide +kernel) (by decide +kernel), by decide +kernel,
      endOfRun_ran (by decide +kernel) (by decide +kernel) (by decide +kernel), by decide +kernel⟩⟩

/-- Bare mode: five padding bits are five extra Symbols 7. -/
theorem test_meets_RoundTripBareMode :
    sEnc.params.Legal ∧ Reaches .encode .en sEnc mEnc ∧ EndOfRun .encode sEnc tEnc ∧ tEnc.err = false ∧
    EndOfRun .decode { tEnc.feed with cfg := 0 } (uDec 0) ∧ (uDec 0).errCode ≠ 1 ∧
    (uDec 0).outputSymbols = [3#32, 7#32, 3#32] ++ List.replicate 5 7#32 ∧ mEnc.work.codeOf 7 = [false] :=
  ⟨by decide, reach_enc, run_enc, by decide +kernel, run_dec 0 (.inl rfl), by decide +kernel, by decide +kernel,
    by decide +kernel⟩

theorem test_meets_RaiseEffect : (sEnc.start .encode).work.curOp = .encode ∧ (atHeader 2).work.curOp = .decode := by
  decide

/-- Every clause: busy, a number that ignores writes, and each of the four registers. -/
theorem test_meets_HostRegisterWrites :
    (atHeader 2).busy = true ∧ (13 ≠ 0 ∧ 13 ∉ [1, 4, 8, 9]) ∧ (2 ≠ 0 ∧ 2 ∉ [1, 4, 8, 9]) ∧
    State.reset.busy = false ∧ ∀ k ∈ [1, 4, 8, 9], k ≠ 0 := by decide

theorem test_meets_HostRegisterReads :
    ((atHeader 2).busy = true ∧ isResultReg 2 = false) ∧ (State.reset.busy = false ∧ isResultReg 5 = true) ∧
    13 ≤ 13 ∧ ((atHeader 2).busy = true ∧ (12, 6) ∈ [(5, 35), (6, 37), (7, 16), (10, 38), (11, 16), (12, 6)]) := by
  decide

/-- RESID_LEN has 6 bits (10_state.md R33): a read during a command returns less than 64. -/
theorem test_busy_read_width :
    (stateOf .reset (step { atHeader 2 with script := [.readReg 12] })).hostData.toNat < 64 :=
  readAny_hostData_lt (atHeader 2) 6

/-- A write at the last element a buffer has, another element, and a busy core. -/
theorem test_meets_HostBufferAccesses :
    let s := { State.reset with params := { Params.default with byteInCap := some 1 } }
    s.busy = false ∧ fits (s.capOf .byteIn) (0 + 1) = true ∧ (BufId.symIn ≠ .byteIn ∨ 0 ≠ 0) ∧
    (atHeader 2).busy = true ∧ fits ((atHeader 2).capOf .byteIn) (0 + 1) = true := by decide

/-- Phase FA on the sample, which FrequencyTableIsSorted, FrequencyTableCounts and FrequencyTableIgnoresOrder take. -/
theorem test_meets_FrequencyTable :
    faRun sEnc.params sEnc.symIn 3 (Work.start .encode false) =
      .ok { Work.start .encode false with ft := [{ sym := 3, cnt := 2 }, { sym := 7, cnt := 1 }], inIdx := 3 } ∧
    (sEnc.symIn.readList 0 3).Perm ((withInput [3#32, 3#32, 7#32]).symIn.readList 0 3) := by
  exact ⟨rfl, by decide⟩

/-- Negative before positive: signed order. -/
theorem test_signed_order :
    faRun Params.default (withInput [1#32, 0xffffffff#32]).symIn 2 (Work.start .encode false) =
      .ok { Work.start .encode false with
        ft := [{ sym := 0xffffffff, cnt := 1 }, { sym := 1, cnt := 1 }], inIdx := 2 } := rfl

/-- Two distinct Symbols against N_MAX = 1 and N_MAX = 2. -/
theorem test_meets_TooManySymbols :
    fits sEnc.params.symInCap (3#32).toNat = true ∧
    1 < (sEnc.symIn.readList 0 3).dedup.length ∧ ¬ 2 < (sEnc.symIn.readList 0 3).dedup.length := by decide

/-- Work with a frequency table of three entries. -/
def threeLeaves : Work :=
  { Work.start .encode false with
    ft := [{ sym := 1, cnt := 2 }, { sym := 2, cnt := 1 }, { sym := 3, cnt := 2 }] }

/-- Both orders of the queue: by frequency, and by index on equal frequency; a queue of one index. -/
theorem test_meets_PopMinReturnsTheSmallest :
    (tbLoad threeLeaves).smaller 1 0 = true ∧ (tbLoad threeLeaves).smaller 0 2 = true ∧
    (tbLoad threeLeaves).smaller 1 2 = true ∧ (0 : NodeIdx) ≠ 2 ∧
    1 ≤ (tbLoad threeLeaves).pq.length ∧ (tbLoad threeLeaves).pq.Nodup ∧
    1 ≤ ({ Work.start .encode false with pq := [5] } : Work).pq.length ∧ ([5] : List NodeIdx).Nodup := by decide

/-- Three leaves for TreeShape, EveryNodeHasOneParent and TreeFrequenciesAdd; by hand (41_tree_builder.md R135): nodes
1 and 0 are merged, then 2 and 3. -/
theorem test_meets_Tree :
    1 ≤ threeLeaves.ft.length ∧ threeLeaves.ft.length ≤ 65535 ∧ 0 < 2 * threeLeaves.ft.length - 2 ∧
    (threeLeaves.ft.map fun e => e.cnt.toNat).sum < 2 ^ 32 ∧
    (tbRun threeLeaves).node[3]? = some (Node.mk false 0 3 1 0) ∧
    (tbRun threeLeaves).node[4]? = some (Node.mk false 0 5 2 3) ∧ (tbRun threeLeaves).root = 4 := by decide

/-- A queue of exactly two nodes, and `TB.MERGE` on three: nodes 1 and 0 leave, node 3 enters. -/
theorem test_meets_Tree_merge :
    let w := { tbLoad threeLeaves with pq := [2, 0] }
    (2 ≤ w.pq.length ∧ w.pq.Nodup ∧ (∀ k ∈ w.pq, k.toNat < w.node.length) ∧ w.node.length < 2 ^ 17) ∧
    (tbMerge (tbLoad threeLeaves)).pq = [2, 3] := by
  refine ⟨⟨by decide, by decide, fun k hk => ?_, by norm_num [tbLoad, threeLeaves]⟩, by decide⟩
  obtain rfl | rfl : k = 2 ∨ k = 0 := by simpa using hk
  all_goals decide

/-- A node that is its own child: the walk meets the depth limit (42_code_generator.md R154). -/
def endless : Work := { Work.start .encode false with node := [Node.mk false 0 1 0 0] }

/-- The deepest stack, 33 entries, after 32 turns. -/
theorem test_meets_StackNeverExceedsItsDepth :
    (match cgLoop 32 { endless with stack := [{ node := 0, pat := 0, len := 0 }] } with
      | .ok w => w.stack.length
      | .error _ => 0) = 33 := by decide +kernel

/-- A walk that ends and one that raises CodeTooLong. -/
theorem test_meets_WalkEnds :
    (∃ w', cgRun (tbRun threeLeaves) = .ok w') ∧ (tbRun threeLeaves).stack = [] ∧
    (∀ c ∈ (tbRun threeLeaves).code, LegalKey c.2.len c.2.pat) ∧ cgRun endless = .error .codeTooLong := by
  refine ⟨?_, by decide, by decide, ?_⟩
  · have h : (cgRun (tbRun threeLeaves)).toBool = true := by decide +kernel
    cases hc : cgRun (tbRun threeLeaves) with
    | ok w => exact ⟨w, rfl⟩
    | error e => rw [hc] at h; cases h
  · have h : (match cgRun endless with
        | .ok _ => none
        | .error e => some e) = some ErrKind.codeTooLong := by decide +kernel
    cases hc : cgRun endless with
    | ok w => rw [hc] at h; cases h
    | error e => rw [hc] at h; cases h; rfl

theorem test_meets_CodesArePrefixFree :
    let m := ran .encode 3 sEnc
    sEnc.params.Legal ∧ Reaches .encode .ts sEnc m ∧ 2 ≤ m.work.ft.length ∧ 1 < m.work.ft.length ∧
    m.work.codeBits 0 = [true] ∧ m.work.codeBits 1 = [false] ∧ 0 < (m.work.codeBits 0).length :=
  ⟨by decide, (by decide +kernel : (ran .encode 3 sEnc).phase = .ts) ▸ reaches_ran rfl (by decide +kernel),
    by decide +kernel, by decide +kernel, by decide +kernel, by decide +kernel, by decide +kernel⟩

/-- An input of one Symbol. -/
def sOne : State := withInput [5#32]

/-- The last clause: a single Symbol. -/
theorem test_meets_CodesArePrefixFree_single :
    sOne.params.Legal ∧ Reaches .encode .ts sOne (ran .encode 3 sOne) ∧ (ran .encode 3 sOne).work.ft.length = 1 :=
  ⟨by decide, (by decide +kernel : (ran .encode 3 sOne).phase = .ts) ▸ reaches_ran rfl (by decide +kernel),
    by decide +kernel⟩

/-- A packer that holds seven bits of a first byte at index 11. -/
def sevenBits : Writer :=
  ({ Work.start .encode false with bitTotal := 7, wrPtr := 11, pkByte := 0x56, pkCnt := 7 }, { epoch := 0, cells := [] })

/-- A packer that holds no bit yet, for which no room is needed; a packer about to write its byte, with room for it and
without, and the same for a flush. -/
theorem test_meets_PushAppendsOneBit :
    (Packed 11 [] ({ Work.start .encode false with wrPtr := 11 }, { epoch := 0, cells := [] }) ∧
      (Work.start .encode false).pkCnt ≠ 7 ∧ 0 + 1 < 2 ^ 37) ∧
    Packed 11 [true, false, true, false, true, true, false] sevenBits ∧
    fits (some 12) (sevenBits.1.wrPtr.toNat + 1) = true ∧ 7 + 1 < 2 ^ 37 ∧ 11 + 7 / 8 + 1 < 2 ^ 35 ∧
    (sevenBits.1.pkCnt = 7 ∧ fits (some 11) (sevenBits.1.wrPtr.toNat + 1) = false) ∧ sevenBits.1.pkCnt ≠ 0 :=
  ⟨⟨⟨by decide, by decide, by decide, by simp, by decide, by decide⟩, by decide, by decide⟩,
    ⟨by decide, by decide, by decide, by simp, by decide, by decide⟩, by decide, by decide, by decide, by decide, by decide⟩

theorem test_meets_ShiftAppendsTheCode :
    Packed 11 [true, false, true, false, true, true, false] sevenBits ∧ 32 ≤ 32 ∧ 7 + 32 < 2 ^ 37 ∧ 11 + (7 + 32) / 8 < 2 ^ 35 :=
  ⟨⟨by decide, by decide, by decide, by simp, by decide, by decide⟩, by decide, by decide, by decide⟩

/-- The largest table of the file of 47 bytes. -/
theorem test_meets_HdrCompletes :
    (atHeader 47).phase = .td ∧ (atHeader 47).work.rdPtr = 0 ∧ 2 + 9 * (5#16).toNat ≤ (atHeader 47).byteInLen.toNat ∧
    (5#16).toNat ≤ (atHeader 47).params.nMax := by decide

/-- A table one byte too long, a table one entry too large, and a file of one byte. -/
theorem test_meets_TableSizeErrors :
    let s := { atHeader 47 with params := { Params.default with nMax := 4 } }
    (s.phase = .td ∧ s.work.rdPtr = 0) ∧ 2 + 9 * (5#16).toNat > (atHeader 46).byteInLen.toNat ∧
    (2 + 9 * (5#16).toNat ≤ s.byteInLen.toNat ∧ (5#16).toNat > s.params.nMax) ∧
    ((atHeader 1).phase = .td ∧ (atHeader 1).work.rdPtr = 0 ∧ (atHeader 1).byteInLen.toNat < 2) := by decide

/-- The boundary lengths 1 and 32 with all bits set, beside a key of another length and one of another pattern. -/
theorem test_meets_EntCompletes :
    let s := atEntry [DtEntry.mk 1 0 5, DtEntry.mk 2 1 6]
    s.phase = .td ∧ s.work.rdPtr ≠ 0 ∧ s.work.tdI < s.work.tdM ∧
    (1 ≤ (1#8).toNat ∧ (1#8).toNat ≤ 32 ∧ (1#32).toNat < 2 ^ (1#8).toNat ∧
      ∀ e ∈ s.work.dtab, ¬ (e.len.toNat = (1#8).toNat ∧ e.pat = 1#32)) ∧
    (1 ≤ (32#8).toNat ∧ (32#8).toNat ≤ 32 ∧ (0xffffffff#32).toNat < 2 ^ (32#8).toNat ∧
      ∀ e ∈ s.work.dtab, ¬ (e.len.toNat = (32#8).toNat ∧ e.pat = 0xffffffff#32)) := by decide

/-- Each of the four reasons alone, at its boundary. -/
theorem test_meets_EntryChecks :
    let s := atEntry [DtEntry.mk 1 0 5]
    s.phase = .td ∧ s.work.rdPtr ≠ 0 ∧ s.work.tdI < s.work.tdM ∧
    (0#8).toNat = 0 ∧ (33#8).toNat > 32 ∧ ((31#8).toNat < 32 ∧ (0x80000000#32).toNat / 2 ^ (31#8).toNat ≠ 0) ∧
    (∃ e ∈ s.work.dtab, e.len.toNat = (1#8).toNat ∧ e.pat = 0#32) ∧
    ¬ ((32#8).toNat = 0 ∨ (32#8).toNat > 32 ∨ ((32#8).toNat < 32 ∧ (0x80000000#32).toNat / 2 ^ (32#8).toNat ≠ 0) ∨
      ∃ e ∈ s.work.dtab, e.len.toNat = (32#8).toNat ∧ e.pat = 0x80000000#32) := by decide

theorem test_meets_TableRecordFrame :
    (Instr.hdr 0).format = .hdr ∧ (∃ t, exec (.hdr 0) (atHeader 2) = .next t ∧ t.err = false) ∧
    (Instr.ent 6 3 4).format = .ent ∧ (∃ t, exec (.ent 6 3 4) (atEntry []) = .next t ∧ t.err = false) :=
  ⟨rfl, ⟨_, rfl, rfl⟩, rfl, ⟨_, rfl, rfl⟩⟩

theorem test_meets_DecodeReadsTheTable :
    Reaches .decode .de { tEnc.feed with cfg := 0 } (mDec 0) ∧ 0 < (mDec 0).work.dtab.length ∧
    EndOfRun .decode { tEnc.feed with cfg := 0 } (uDec 0) ∧ (uDec 0).err = false :=
  ⟨reach_dec 0 (.inl rfl), by decide +kernel, run_dec 0 (.inl rfl), by decide +kernel⟩

/-- BYTE_IN with exactly the room of the file. -/
theorem test_meets_TableRoundTrip :
    sEnc.params.Legal ∧ Reaches .encode .en sEnc mEnc ∧ EndOfRun .encode sEnc tEnc ∧ tEnc.err = false ∧
    fits (some 21) tEnc.byteOutLen.toNat = true ∧ fits tEnc.params.byteInCap tEnc.byteOutLen.toNat = true ∧
    tEnc.portOk.getLsbD 2 = true ∧ tEnc.portOk.getLsbD 3 = true ∧
    mEnc.work.ft[0]? = some (FtEntry.mk 3 2) ∧ (mDec 1).work.dtab[0]? = some (DtEntry.mk 1 1 3) :=
  ⟨by decide, reach_enc, run_enc, by decide +kernel, by decide +kernel, by decide +kernel, by decide +kernel,
    by decide +kernel, by decide +kernel, by decide +kernel⟩

/-- One bit left at the end of a byte; the accumulator one short of full; the full accumulator. -/
theorem test_meets_NextBitIsAppended :
    let w := { Work.start .decode false with bitsLeft := 1, bitPos := 7, rdPtr := 2, accLen := 31, accPat := 0x7fffffff }
    let f := { Work.start .decode false with accLen := 32 }
    (1 ≤ w.bitsLeft.toNat ∧ w.rdPtr.toNat + 1 < 2 ^ 35) ∧
    (w.accLen.toNat < 32 ∧ w.accPat.toNat < 2 ^ w.accLen.toNat) ∧ 32 ≤ f.accLen.toNat := by decide

/-- A matching key of 32 bits with room for one Symbol and without; an empty, a saturated and a matchless accumulator. -/
theorem test_meets_MatchEmitsAndClears :
    let w := { Work.start .decode false with dtab := [DtEntry.mk 32 5 9], accLen := 32, accPat := 5 }
    (∃ e ∈ w.dtab, 1 ≤ w.accLen.toNat ∧ w.accLen.toNat ≤ 32 ∧ e.len = w.accLen ∧ e.pat = w.accPat ∧
      ∀ e' ∈ w.dtab, e'.len = e.len → e'.pat = e.pat → e' = e) ∧
    fits (some 0) (w.outIdx.toNat + 1) = false ∧ fits (some 1) (w.outIdx.toNat + 1) = true ∧
    ({ w with accLen := 0 } : Work).accLen = 0 ∧ 32 < ({ w with accLen := 33 } : Work).accLen.toNat ∧
    ∀ e ∈ w.dtab, ¬ (e.len = ({ w with accPat := 6 } : Work).accLen ∧ e.pat = ({ w with accPat := 6 } : Work).accPat) := by
  decide

/-- The last bits of a payload, SYM_OUT with exactly as much room as they can need; a saturated accumulator and no room. -/
theorem test_meets_PayCompletes :
    let s := { atPayload 3 specTable with params := { Params.default with symOutCap := some 3 } }
    let f := { atPayload 3 specTable with
      params := { Params.default with symOutCap := some 0 },
      work := { (atPayload 3 specTable).work with accLen := 33, accPat := 0xffffffff } }
    (s.phase = .de ∧ 1 ≤ s.work.bitsLeft.toNat ∧ s.work.rdPtr.toNat + 1 < 2 ^ 35 ∧
      s.work.outIdx.toNat + s.work.bitsLeft.toNat < 2 ^ 38 ∧
      fits s.params.symOutCap (s.work.outIdx.toNat + bitsOfByte s.work) = true ∧
      (∀ e ∈ s.work.dtab, LegalKey e.len e.pat) ∧
      s.work.accLen.toNat ≤ 32 ∧ s.work.accPat.toNat < 2 ^ s.work.accLen.toNat) ∧
    (f.phase = .de ∧ 1 ≤ f.work.bitsLeft.toNat ∧ f.work.rdPtr.toNat + 1 < 2 ^ 35 ∧
      f.work.outIdx.toNat + f.work.bitsLeft.toNat < 2 ^ 38 ∧ f.work.accLen = 33 ∧ ¬ f.work.accLen.toNat ≤ 32 ∧
      ∀ e ∈ f.work.dtab, LegalKey e.len e.pat) := by decide

theorem test_meets_PayFrame :
    (atPayload 8 specTable).work.outIdx.toNat + (atPayload 8 specTable).work.bitsLeft.toNat < 2 ^ 38 ∧
    ∃ t, exec (.pay 0x56) (atPayload 8 specTable) = .next t ∧ t.err = false := ⟨by decide, _, rfl, rfl⟩

/-- Bare mode and length mode. -/
theorem test_meets_DecodeIsGreedy :
    (EndOfRun .decode { tEnc.feed with cfg := 0 } (uDec 0) ∧ (uDec 0).err = false ∧
      unpackBits (({ tEnc.feed with cfg := 0 } : State).inputFile.drop (2 + 9 * (mDec 0).work.dtab.length)) =
        [true, false, true, false, false, false, false, false]) ∧
    (EndOfRun .decode { tEnc.feed with cfg := 1 } (uDec 1) ∧ (uDec 1).err = false ∧ tEnc.feed.decBits = 3) :=
  ⟨⟨run_dec 0 (.inl rfl), by decide +kernel, by decide +kernel⟩,
    ⟨run_dec 1 (.inr rfl), by decide +kernel, by decide +kernel⟩⟩

/-- A core with phase DE to be done on the only payload byte, 0x56, of a file with the spec's table. -/
def atLastByte : State :=
  { State.reset with
    busy := true, phase := .de, byteInLen := 48, byteIn := State.reset.byteIn.write 47 0x56,
    work := { Work.start .decode false with
      rdPtr := 47, tdM := 5, tdI := 5, dtab := specTable } }

theorem status_atLastByte : StatusInv atLastByte :=
  ⟨by decide, by decide, by decide, by decide, by decide, by decide, by decide⟩

theorem store_atLastByte : StoreInv atLastByte := ⟨by decide, by decide, by decide, by decide, by decide⟩

theorem table_atLastByte : TableInv atLastByte :=
  ⟨by decide, by decide, by decide, by decide, by decide, by decide, by decide, by decide, by decide, by decide,
    by decide, by decide⟩

theorem reader_atLastByte : ReaderInv atLastByte :=
  ⟨by decide, by decide, fun h => absurd h (by decide), by decide, by decide⟩

theorem test_meets_StepKeepsStatus :
    StatusInv atLastByte ∧ ∃ t, step atLastByte = .next t :=
  ⟨status_atLastByte, _, next_stateOf .reset (by decide +kernel)⟩

theorem test_meets_StepKeepsCanonicalForm :
    StoreInv atLastByte ∧ ∃ t, step atLastByte = .next t ∧ t.symOut.cells = [(0, 3), (1, 3), (2, 3)] :=
  ⟨store_atLastByte, _, next_stateOf .reset (by decide +kernel), by decide +kernel⟩

theorem test_meets_StepKeepsLegalStates :
    Inv atLastByte ∧ ∃ t, step atLastByte = .next t ∧ t.phase = .idle ∧ t.symOutLen = 3 ∧ t.residLen = 2 :=
  ⟨⟨status_atLastByte, store_atLastByte, table_atLastByte, reader_atLastByte⟩, _,
    next_stateOf .reset (by decide +kernel), by decide +kernel, by decide +kernel, by decide +kernel⟩

end Sys2Proof.Tests
end

