-- ==== Sys2Proof/Proofs/FieldBytes.lean ====
section
/-! SUPPORT. The numbers behind little-endian fields: what an assembled field is worth, and which byte of a written field
stands where (30_encoding.md R93). -/

namespace Sys2Proof

/-- A byte appended below `hi` is one more base-256 digit. -/
theorem toNat_append_byte {w : Nat} (hi : BitVec w) (lo : Byte) :
    (hi ++ lo).toNat = lo.toNat + 256 * hi.toNat := by
  rw [BitVec.toNat_append, ← Nat.shiftLeft_add_eq_or_of_lt lo.isLt, Nat.shiftLeft_eq]
  omega

theorem toNat_le16 (b0 b1 : Byte) : (le16 b0 b1).toNat = b0.toNat + 256 * b1.toNat :=
  toNat_append_byte b1 b0

theorem toNat_le32 (b0 b1 b2 b3 : Byte) : (le32 b0 b1 b2 b3).toNat =
    b0.toNat + 2 ^ 8 * b1.toNat + 2 ^ 16 * b2.toNat + 2 ^ 24 * b3.toNat := by
  have horner : (le32 b0 b1 b2 b3).toNat =
      b0.toNat + 256 * (b1.toNat + 256 * (b2.toNat + 256 * b3.toNat)) := by
    simp only [le32, toNat_append_byte]
  omega

/-- Bits 8k + 7 : 8k of a value are its base-256 digit of weight `256 ^ k`. -/
theorem fieldByte_eq_ofNat {w : Nat} (v : BitVec w) (k : Nat) :
    fieldByte v k = BitVec.ofNat 8 (v.toNat / 256 ^ k) := by
  rw [fieldByte, BitVec.extractLsb', Nat.shiftRight_eq_div_pow, Nat.pow_mul]

theorem getElem?_bytesLe16 (v : BitVec 16) : ∀ k < 2, (bytesLe16 v)[k]? = some (fieldByte v k)
  | 0, _ | 1, _ => rfl

theorem getElem?_bytesLe32 (v : BitVec 32) : ∀ k < 4, (bytesLe32 v)[k]? = some (fieldByte v k)
  | 0, _ | 1, _ | 2, _ | 3, _ => rfl

/-- The places of an entry's three fields (30_encoding.md R94). -/
theorem decode_ent_cons (s0 s1 s2 s3 c q0 q1 q2 q3 : Byte) (rest : List Byte) :
    decode .ent (s0 :: s1 :: s2 :: s3 :: c :: q0 :: q1 :: q2 :: q3 :: rest) =
      .ok (.ent (le32 s0 s1 s2 s3) c (le32 q0 q1 q2 q3), rest) := rfl

end Sys2Proof
end

