-- ==== Sys2Proof/Proofs/Encoding.lean ====
section
/-! The statements about encodings (30_encoding.md). -/

namespace Sys2Proof

/-- Settles O4: assembly is base-256 Horner evaluation, and byte `k` written is the digit of weight `256 ^ k`. -/
theorem fieldsAreLittleEndian : Obligations.FieldsAreLittleEndian := by
  refine ⟨toNat_le16, toNat_le32, fun v k hk => ?_, fun v k hk => ?_,
    fun s0 s1 s2 s3 c q0 q1 q2 q3 => decode_ent_cons s0 s1 s2 s3 c q0 q1 q2 q3 []⟩
  · rw [getElem?_bytesLe16 v k hk, fieldByte_eq_ofNat]
  · rw [getElem?_bytesLe32 v k hk, fieldByte_eq_ofNat]

end Sys2Proof
end

