-- ==== Sys2Proof/Proofs/PriorityQueue.lean ====
section
/-! SUPPORT. The priority queue of unit TB (41_tree_builder.md R131, R133): the queue order is the lexicographic order of
a node's rank, and `PQ.POPMIN` returns the index of least rank. -/

namespace Sys2Proof.Machine

/-- Frequency and arena index of a node, the pair that the queue order compares (41_tree_builder.md R131). -/
def Work.rank (w : Work) (k : NodeIdx) : ℕ ×ₗ ℕ := toLex ((w.nodeAt k).freq.toNat, k.toNat)

theorem Work.rank_lt_rank_iff (w : Work) (a b : NodeIdx) :
    w.rank a < w.rank b ↔ (w.nodeAt a).freq.toNat < (w.nodeAt b).freq.toNat ∨
      ((w.nodeAt a).freq = (w.nodeAt b).freq ∧ a.toNat < b.toNat) := by
  rw [Work.rank, Work.rank, Prod.Lex.toLex_lt_toLex, BitVec.toNat_inj]

theorem Work.smaller_iff_rank_lt (w : Work) (a b : NodeIdx) : w.smaller a b = true ↔ w.rank a < w.rank b := by
  simp only [w.rank_lt_rank_iff, Work.smaller, Bool.or_eq_true, Bool.and_eq_true, decide_eq_true_eq, BitVec.lt_def]

theorem Work.smaller_eq_false_iff (w : Work) (a b : NodeIdx) : w.smaller a b = false ↔ w.rank b ≤ w.rank a := by
  rw [← Bool.not_eq_true, w.smaller_iff_rank_lt, not_lt]

/-- Nodes of equal frequency still differ in index, so the order is total. -/
theorem Work.rank_injective (w : Work) : Function.Injective w.rank := fun _ _ h =>
  BitVec.eq_of_toNat_eq (congrArg (fun r => (ofLex r).2) h)

/-- On distinct indices "not larger" is "smaller". -/
theorem Work.smaller_of_rank_le {w : Work} {a b : NodeIdx} (hne : a ≠ b) (h : w.rank a ≤ w.rank b) :
    w.smaller a b = true :=
  (w.smaller_iff_rank_lt a b).mpr (h.lt_of_ne (w.rank_injective.ne hne))

theorem pqLeast_mem (w : Work) (best : NodeIdx) (ks : List NodeIdx) : pqLeast w best ks ∈ best :: ks := by
  induction ks generalizing best with
  | nil => exact List.mem_singleton_self best
  | cons k ks ih =>
    rw [pqLeast]
    split
    · exact List.mem_cons_of_mem _ (ih k)
    · exact (List.Sublist.cons_cons best (List.sublist_cons_self k ks)).subset (ih best)

theorem pqLeast_rank_le (w : Work) (best : NodeIdx) (ks : List NodeIdx) :
    ∀ j ∈ best :: ks, w.rank (pqLeast w best ks) ≤ w.rank j := by
  induction ks generalizing best with
  | nil => exact fun j hj => (List.mem_singleton.mp hj) ▸ le_rfl
  | cons k ks ih =>
    rw [pqLeast]
    split
    next hk =>
      have hlt : w.rank k < w.rank best := (w.smaller_iff_rank_lt k best).mp hk
      have hbest : w.rank (pqLeast w k ks) ≤ w.rank best := (ih k k List.mem_cons_self).trans hlt.le
      exact List.forall_mem_cons.mpr ⟨hbest, ih k⟩
    next hk =>
      have hle : w.rank best ≤ w.rank k := (w.smaller_eq_false_iff k best).mp (Bool.eq_false_of_not_eq_true hk)
      have ⟨hbest, hks⟩ := List.forall_mem_cons.mp (ih best)
      exact List.forall_mem_cons.mpr ⟨hbest, List.forall_mem_cons.mpr ⟨hbest.trans hle, hks⟩⟩

/-- `PQ.POPMIN` on a queue that is not empty (41_tree_builder.md R133). -/
theorem exists_pqPopMin_eq_some {w : Work} (h : w.pq ≠ []) :
    ∃ k ∈ w.pq, pqPopMin w = some (k, { w with pq := w.pq.erase k }) ∧
      ∀ j ∈ w.pq, j ≠ k → w.smaller k j = true := by
  obtain ⟨k, ks, hpq⟩ := List.exists_cons_of_ne_nil h
  rw [pqPopMin, hpq]
  exact ⟨pqLeast w k ks, pqLeast_mem w k ks, rfl,
    fun j hj hne => Work.smaller_of_rank_le hne.symm (pqLeast_rank_le w k ks j hj)⟩

end Sys2Proof.Machine
end

