-- ==== Sys2Proof/Proofs/TreeBuilder.lean ====
section
/-! The statements about unit TB (41_tree_builder.md). -/

namespace Sys2Proof
open Machine

/-- Settles O36: the queue order is the order of ranks, which is linear and separates indices, and `PQ.POPMIN` keeps the
index of least rank as it goes through the queue. -/
theorem popMinReturnsTheSmallest : Obligations.PopMinReturnsTheSmallest := by
  refine ⟨fun w a b c => ⟨?toNat, ?irrefl, fun hne => ?total, ?trans⟩, fun w hlen _ => ?popMin⟩
  case toNat => rw [w.smaller_iff_rank_lt, w.rank_lt_rank_iff]
  case irrefl => exact (w.smaller_eq_false_iff a a).mpr le_rfl
  case total =>
    rw [w.smaller_iff_rank_lt, w.smaller_eq_false_iff]
    exact (w.rank_injective.ne hne).le_iff_lt.symm
  case trans =>
    simp only [w.smaller_iff_rank_lt]
    exact lt_trans
  case popMin =>
    obtain ⟨k, hk, hpop, hleast⟩ := exists_pqPopMin_eq_some (List.ne_nil_of_length_pos hlen)
    exact ⟨k, hpop, hk, List.length_erase_add_one hk, hleast⟩

end Sys2Proof
end

