-- ==== Sys2Proof/Proofs/PendingStack.lean ====
section
/-! SUPPORT. The stack of `CG.WALK` (42_code_generator.md R152, R153): what one turn does to the working registers, and the
bound on the pending entries that every turn keeps. -/

namespace Sys2Proof.Machine

@[simp] theorem childEntry_len (k : NodeIdx) (e : StackEntry) (c : Bool) : (childEntry k e c).len = e.len + 1 := rfl

/-- What a turn of `CG.WALK` can do when it raises no error (42_code_generator.md R152, R154). -/
theorem cgTurn_cases {w w' : Work} (h : cgTurn w = .ok w') :
    (w.stack = [] ∧ w' = w) ∨
    ∃ e rest, w.stack = e :: rest ∧
      (((w.nodeAt e.node).leaf = true ∧
          w' = { w with stack := rest, code := cellsSet e.node.toNat { len := e.len, pat := e.pat } w.code }) ∨
        ((w.nodeAt e.node).leaf = false ∧ e.len ≠ 32 ∧
          w' = { w with
            stack :=
              childEntry (w.nodeAt e.node).left e false :: childEntry (w.nodeAt e.node).right e true :: rest })) := by
  unfold cgTurn at h
  split at h
  next hs => exact .inl ⟨hs, (Except.ok.inj h).symm⟩
  next e rest hs =>
    refine .inr ⟨e, rest, hs, ?_⟩
    split at h
    next hleaf => exact .inl ⟨hleaf, (Except.ok.inj h).symm⟩
    next hleaf =>
      split at h
      next => cases h
      next hlen => exact .inr ⟨Bool.eq_false_of_not_eq_true hleaf, hlen, (Except.ok.inj h).symm⟩

/-- What every turn keeps holds at every turn. -/
theorem cgLoop_invariant {P : Work → Prop} (hturn : ∀ w w', P w → cgTurn w = .ok w' → P w') {n : Nat} {w w' : Work}
    (h : cgLoop n w = .ok w') (hw : P w) : P w' := by
  induction n generalizing w with
  | zero => exact Except.ok.inj h ▸ hw
  | succ n ih =>
    rw [cgLoop] at h
    split at h
    next => exact Except.ok.inj h ▸ hw
    next =>
      split at h
      next => cases h
      next w₁ h₁ => exact ih h (hturn w w₁ hw h₁)

/-- Below every entry, not only the top one, stand at most as many entries as its length, a length of at most 32: one
pending right sibling per level above it (42_code_generator.md R153). -/
def PendingBounded : List StackEntry → Prop
  | [] => True
  | e :: rest => rest.length ≤ e.len.toNat ∧ e.len.toNat ≤ 32 ∧ PendingBounded rest

@[simp] theorem pendingBounded_nil : PendingBounded [] := trivial

@[simp] theorem pendingBounded_cons {e : StackEntry} {rest : List StackEntry} :
    PendingBounded (e :: rest) ↔ rest.length ≤ e.len.toNat ∧ e.len.toNat ≤ 32 ∧ PendingBounded rest := Iff.rfl

theorem PendingBounded.length_le {st : List StackEntry} (h : PendingBounded st) : st.length ≤ 33 := by
  cases st with
  | nil => exact Nat.zero_le 33
  | cons e rest =>
    obtain ⟨hrest, hlen, -⟩ := h
    exact Nat.succ_le_succ (hrest.trans hlen)

/-- The children are one level deeper than their parent, which makes room for the right one below the left one. -/
theorem PendingBounded.push_children {e : StackEntry} {rest : List StackEntry} (h : PendingBounded (e :: rest))
    (hne : e.len ≠ 32) (l r : NodeIdx) :
    PendingBounded (childEntry l e false :: childEntry r e true :: rest) := by
  obtain ⟨hrest, hlen, htail⟩ := h
  have hsucc : (e.len + 1).toNat = e.len.toNat + 1 := by bv_omega
  have hlt : e.len.toNat < 32 := by bv_omega
  simp only [pendingBounded_cons, childEntry_len, hsucc, List.length_cons]
  exact ⟨by omega, hlt, by omega, hlt, htail⟩

theorem cgTurn_pendingBounded (w w' : Work) (hw : PendingBounded w.stack) (h : cgTurn w = .ok w') :
    PendingBounded w'.stack := by
  obtain ⟨-, rfl⟩ | ⟨e, rest, hs, ⟨-, rfl⟩ | ⟨-, hne, rfl⟩⟩ := cgTurn_cases h
  case inl => exact hw
  case inr.inl =>
    rw [hs] at hw
    obtain ⟨-, -, hrest⟩ := hw
    exact hrest
  case inr.inr =>
    rw [hs] at hw
    exact hw.push_children hne _ _

end Sys2Proof.Machine
end

