-- ==== Sys2Proof/Proofs/CodeGenerator.lean ====
section
/-! The statements about unit CG (42_code_generator.md). -/

namespace Sys2Proof
open Machine

/-- Settles O40: bounding what stands below every entry, not only below the top one, is kept by every turn, since a pop
uncovers an entry already bounded and a push adds one entry and one level. -/
theorem stackNeverExceedsItsDepth : Obligations.StackNeverExceedsItsDepth := by
  intro j w w' k h
  have hroot : PendingBounded [{ node := k, pat := 0, len := 0 }] := by simp
  have hb : PendingBounded w'.stack :=
    cgLoop_invariant (P := fun x => PendingBounded x.stack) cgTurn_pendingBounded h hroot
  refine ⟨hb.length_le, fun e rest hs => ?_⟩
  obtain ⟨hrest, hlen, -⟩ := pendingBounded_cons.mp (hs ▸ hb)
  exact ⟨hrest, hlen⟩

end Sys2Proof
end

