-- ==== Sys2Proof/Proofs/TreeCoverage.lean ====
section
/-! SUPPORT. Every leaf stands below the root of the tree TB builds (41_tree_builder.md R134 to R136): while merges are
still to come, every leaf stands below a queued node. -/

namespace Sys2Proof.Machine

/-- Node `i` stands in the subtree of node `k`: a path of child links of internal nodes leads from `k` to `i`. -/
inductive InSubtree (nodes : List Node) (i : NodeIdx) : NodeIdx → Prop
  | self : InSubtree nodes i i
  | child {k c : NodeIdx} {nd : Node} : nodes[k.toNat]? = some nd → nd.leaf = false → (c = nd.left ∨ c = nd.right) →
      InSubtree nodes i c → InSubtree nodes i k

/-- Appending nodes breaks no path. -/
theorem InSubtree.append {nodes : List Node} {i k : NodeIdx} (h : InSubtree nodes i k) (more : List Node) :
    InSubtree (nodes ++ more) i k := by
  induction h with
  | self => exact .self
  | child hnd hleaf hc _ ih =>
    obtain ⟨hlt, -⟩ := List.getElem?_eq_some_iff.mp hnd
    exact .child ((List.getElem?_append_left hlt).trans hnd) hleaf hc ih

theorem Work.nodeAt_of_getElem? {w : Work} {k : NodeIdx} {nd : Node} (h : w.node[k.toNat]? = some nd) :
    w.nodeAt k = nd := by
  rw [Work.nodeAt, h]

/-- A leaf has only itself in its subtree. -/
theorem InSubtree.eq_of_leaf {w : Work} {i k : NodeIdx} (h : InSubtree w.node i k)
    (hleaf : (w.nodeAt k).leaf = true) : k = i := by
  cases h with
  | self => rfl
  | child hnd hinternal _ _ =>
    rw [Work.nodeAt_of_getElem? hnd, hinternal] at hleaf
    cases hleaf

/-- What stands below an internal node, other than itself, stands below one of its children. -/
theorem InSubtree.child_of_ne {w : Work} {i k : NodeIdx} (h : InSubtree w.node i k) (hne : k ≠ i) :
    InSubtree w.node i (w.nodeAt k).left ∨ InSubtree w.node i (w.nodeAt k).right := by
  cases h with
  | self => exact absurd rfl hne
  | child hnd _ hc hsub =>
    rw [Work.nodeAt_of_getElem? hnd]
    obtain rfl | rfl := hc
    · exact .inl hsub
    · exact .inr hsub

/-- The arena and the queue while TB merges: the leaves are FT's entries, the indices to come fit 17 bits, and every
leaf stands below a queued node. -/
structure Forest (w : Work) : Prop where
  leaves : w.ft.map leafOf <+: w.node
  room : w.node.length + w.pq.length ≤ 2 * w.ft.length
  covered : ∀ i : NodeIdx, i.toNat < w.ft.length → ∃ k ∈ w.pq, InSubtree w.node i k

/-- `TB.LOAD` queues the leaves themselves (41_tree_builder.md R134). -/
theorem forest_tbLoad (w : Work) : Forest (tbLoad w) where
  leaves := List.prefix_rfl
  room := by
    simp only [tbLoad_node, tbLoad_pq, tbLoad_ft, leafIndices, List.length_map, List.length_range]
    omega
  covered i hi := by
    refine ⟨i, ?_, .self⟩
    rw [tbLoad_pq, leafIndices, List.mem_map]
    exact ⟨i.toNat, List.mem_range.mpr hi, BitVec.ofNat_toNat 17 i |>.trans (BitVec.setWidth_eq i)⟩

/-- What `TB.MERGE` does on a queue of two or more: two queued nodes give way to their parent (41_tree_builder.md
R135). -/
theorem exists_tbMerge_eq {w : Work} (h : 2 ≤ w.pq.length) :
    ∃ a ∈ w.pq, ∃ b ∈ w.pq.erase a, tbMerge w = { w with
      node := w.node ++ [mergedNode w a b], pq := (w.pq.erase a).erase b ++ [w.nodeN] } := by
  obtain ⟨a, ha, hpopa, -⟩ := exists_pqPopMin_eq_some (List.ne_nil_of_length_pos (by omega : 0 < w.pq.length))
  have hlen : (w.pq.erase a).length + 1 = w.pq.length := List.length_erase_add_one ha
  obtain ⟨b, hb, hpopb, -⟩ := exists_pqPopMin_eq_some (w := { w with pq := w.pq.erase a })
    (List.ne_nil_of_length_pos (by omega : 0 < (w.pq.erase a).length))
  exact ⟨a, ha, b, hb, tbMerge_of_popMin hpopa hpopb⟩

theorem tbMerge_pq_length {w : Work} (h : 2 ≤ w.pq.length) : (tbMerge w).pq.length + 1 = w.pq.length := by
  obtain ⟨a, ha, b, hb, hmerge⟩ := exists_tbMerge_eq h
  rw [hmerge, List.length_append, List.length_singleton, List.length_erase_add_one hb, List.length_erase_add_one ha]

/-- A merge keeps the forest: what stood below the two nodes taken stands below their parent. -/
theorem forest_tbMerge {w : Work} (hf : Forest w) (hft : w.ft.length ≤ 65535) (h : 2 ≤ w.pq.length) :
    Forest (tbMerge w) := by
  have hlen := tbMerge_pq_length h
  obtain ⟨a, ha, b, hb, hmerge⟩ := exists_tbMerge_eq h
  obtain ⟨hleaves, hroom, hcovered⟩ := hf
  have hnew : (w.node ++ [mergedNode w a b])[w.nodeN.toNat]? = some (mergedNode w a b) := by
    rw [Work.nodeN, BitVec.toNat_ofNat, Nat.mod_eq_of_lt (by omega), List.getElem?_concat_length]
  rw [hmerge] at hlen ⊢
  refine ⟨hleaves.trans (List.prefix_append _ _), ?_, fun i hi => ?_⟩
  · simp only [List.length_append, List.length_singleton] at hlen ⊢
    omega
  · obtain ⟨k, hk, hsub⟩ := hcovered i hi
    replace hsub := hsub.append [mergedNode w a b]
    by_cases hka : k = a
    · exact ⟨w.nodeN, List.mem_concat_self, .child hnew rfl (.inl rfl) (hka ▸ hsub)⟩
    by_cases hkb : k = b
    · exact ⟨w.nodeN, List.mem_concat_self, .child hnew rfl (.inr rfl) (hkb ▸ hsub)⟩
    · have hkeep : k ∈ (w.pq.erase a).erase b :=
        (List.mem_erase_of_ne hkb).mpr ((List.mem_erase_of_ne hka).mpr hk)
      exact ⟨k, List.mem_append_left _ hkeep, hsub⟩

theorem tbMerge_ft (w : Work) : (tbMerge w).ft = w.ft := by
  rw [tbMerge_frame]

theorem tbLoop_ft (n : Nat) (w : Work) : (tbLoop n w).ft = w.ft := by
  rw [tbLoop_frame]

theorem forest_tbLoop {n : Nat} {w : Work} (hf : Forest w) (hft : w.ft.length ≤ 65535) : Forest (tbLoop n w) := by
  induction n generalizing w with
  | zero => exact hf
  | succ n ih =>
    rw [tbLoop]
    split
    next h => exact ih (forest_tbMerge hf hft h) ((tbMerge_ft w).symm ▸ hft)
    next => exact hf

/-- The loop of `TB.RUN` ends with one queued node. -/
theorem tbLoop_pq_length {n : Nat} {w : Work} (hpos : 1 ≤ w.pq.length) (hn : w.pq.length ≤ n + 1) :
    (tbLoop n w).pq.length = 1 := by
  induction n generalizing w with
  | zero =>
    rw [tbLoop]
    omega
  | succ n ih =>
    rw [tbLoop]
    split
    next h =>
      have hlen := tbMerge_pq_length h
      exact ih (by omega) (by omega)
    next h => omega

/-- What CG relies on in the finished tree: the leaves are FT's entries, and all stand below the root. -/
structure CodeTree (w : Work) : Prop where
  leaves : w.ft.map leafOf <+: w.node
  covered : ∀ i : NodeIdx, i.toNat < w.ft.length → InSubtree w.node i w.root

theorem CodeTree.nodeAt_leaf {w : Work} (h : CodeTree w) {i : NodeIdx} (hi : i.toNat < w.ft.length) :
    (w.nodeAt i).leaf = true := by
  obtain ⟨more, hnode⟩ := h.leaves
  have hentry : w.node[i.toNat]? = some (leafOf w.ft[i.toNat]) := by
    rw [← hnode, List.getElem?_append_left (by simpa using hi), List.getElem?_map, List.getElem?_eq_getElem hi]
    rfl
  rw [Work.nodeAt_of_getElem? hentry]
  rfl

/-- Phase TB builds such a tree (41_tree_builder.md R136). -/
theorem codeTree_tbRun {w : Work} (hpos : 1 ≤ w.ft.length) (hmax : w.ft.length ≤ 65535) : CodeTree (tbRun w) := by
  have hpq : (tbLoad w).pq.length = w.ft.length := by simp [leafIndices]
  have hforest : Forest (tbLoop (tbLoad w).pq.length (tbLoad w)) := forest_tbLoop (forest_tbLoad w) hmax
  have hone : (tbLoop (tbLoad w).pq.length (tbLoad w)).pq.length = 1 := tbLoop_pq_length (by omega) (by omega)
  obtain ⟨root, hroot⟩ := List.length_eq_one_iff.mp hone
  obtain ⟨hleaves, -, hcovered⟩ := hforest
  refine ⟨hleaves, fun i hi => ?_⟩
  obtain ⟨k, hk, hsub⟩ := hcovered i hi
  have hkroot : (tbRun w).root = k := by
    rw [hroot, List.mem_singleton] at hk
    simp only [tbRun, hroot, List.headD_cons, hk]
  exact hkroot ▸ hsub

end Sys2Proof.Machine
end

