-- ==== Sys2Proof/Proofs/CodeWalk.lean ====
section
/-! SUPPORT. What `CG.RUN` leaves in CODE (42_code_generator.md R150 to R152): a legal code for every leaf, no two
equal. A code stands for the interval of the 32-bit strings that begin with it. The walk takes the intervals from left to
right: those of the recorded codes lie before those of the pending entries, and no two overlap. -/

namespace Sys2Proof.Machine

theorem codeEntry_eq_of_len_of_pat {c c' : CodeEntry} (hlen : c.len = c'.len) (hpat : c.pat = c'.pat) : c = c' := by
  cases c
  cases hlen
  cases hpat
  rfl

/-- The first 32-bit string that begins with the code. -/
def codeFirst (c : CodeEntry) : Nat := c.pat.toNat * 2 ^ (32 - c.len.toNat)

/-- The end of the 32-bit strings that begin with the code. -/
def codeEnd (c : CodeEntry) : Nat := (c.pat.toNat + 1) * 2 ^ (32 - c.len.toNat)

theorem codeFirst_lt_codeEnd (c : CodeEntry) : codeFirst c < codeEnd c :=
  Nat.mul_lt_mul_of_pos_right (Nat.lt_succ_self _) (Nat.two_pow_pos _)

/-- All strings that begin with `a` come before those that begin with `b`. -/
abbrev CodeBefore (a b : CodeEntry) : Prop := codeEnd a ≤ codeFirst b

theorem CodeBefore.ne {a b : CodeEntry} (h : CodeBefore a b) : a ≠ b := by
  rintro rfl
  exact absurd h (Nat.not_le_of_lt (codeFirst_lt_codeEnd a))

theorem two_pow_sub_eq_double {a b : Nat} (h : b < a) : 2 ^ (a - b) = 2 * 2 ^ (a - (b + 1)) := by
  rw [← Nat.pow_succ']
  congr 1
  omega

/-- The code a pending entry stands for. -/
def pendingCode (e : StackEntry) : CodeEntry := { len := e.len, pat := e.pat }

section Children
variable {e : StackEntry} (hlen : e.len.toNat < 32)
include hlen

theorem childEntry_len_toNat (k : NodeIdx) (c : Bool) : (childEntry k e c).len.toNat = e.len.toNat + 1 := by
  rw [childEntry_len]
  bv_omega

variable (hpat : e.pat.toNat < 2 ^ e.len.toNat)
include hpat

/-- The child's pattern is 2p + c (42_code_generator.md R152). -/
theorem childEntry_pat_toNat (k : NodeIdx) (c : Bool) :
    (childEntry k e c).pat.toNat = 2 * e.pat.toNat + c.toNat := by
  have hsmall : e.pat.toNat < 2 ^ 31 := hpat.trans_le (Nat.pow_le_pow_right (by decide) (by omega))
  have hbit : ((BitVec.ofBool c).setWidth 32).toNat = c.toNat := by cases c <;> rfl
  rw [childEntry, BitVec.toNat_or, hbit, BitVec.toNat_shiftLeft, Nat.shiftLeft_eq, Nat.mod_eq_of_lt (by omega),
    ← Nat.shiftLeft_eq, ← Nat.shiftLeft_add_eq_or_of_lt c.toNat_lt, Nat.shiftLeft_eq]
  omega

theorem childEntry_pat_lt (k : NodeIdx) (c : Bool) :
    (childEntry k e c).pat.toNat < 2 ^ (childEntry k e c).len.toNat := by
  have hc : c.toNat < 2 := c.toNat_lt
  rw [childEntry_pat_toNat hlen hpat, childEntry_len_toNat hlen, Nat.pow_succ]
  omega

/-- The two children halve the interval of their parent. -/
theorem children_halve_code (k k' : NodeIdx) :
    codeFirst (pendingCode (childEntry k e false)) = codeFirst (pendingCode e) ∧
    codeEnd (pendingCode (childEntry k e false)) = codeFirst (pendingCode (childEntry k' e true)) ∧
    codeEnd (pendingCode (childEntry k' e true)) = codeEnd (pendingCode e) := by
  simp only [codeFirst, codeEnd, pendingCode, childEntry_pat_toNat hlen hpat, childEntry_len_toNat hlen,
    two_pow_sub_eq_double hlen, Bool.toNat_false, Bool.toNat_true]
  refine ⟨?_, trivial, ?_⟩ <;> ring

end Children

/-- What the walk keeps at every turn. -/
structure WalkInv (w : Work) : Prop where
  /-- A pending pattern fits its length, and only an internal node is pending without a code. -/
  pending : ∀ e ∈ w.stack, e.len.toNat ≤ 32 ∧ e.pat.toNat < 2 ^ e.len.toNat ∧
    ((w.nodeAt e.node).leaf = true → 1 ≤ e.len.toNat)
  ordered : w.stack.Pairwise (fun e e' => CodeBefore (pendingCode e) (pendingCode e'))
  legal : ∀ c ∈ w.code, LegalKey c.2.len c.2.pat
  recorded : ∀ c ∈ w.code, ∀ e ∈ w.stack, CodeBefore c.2 (pendingCode e)
  apart : ∀ c ∈ w.code, ∀ c' ∈ w.code, c.1 ≠ c'.1 → CodeBefore c.2 c'.2 ∨ CodeBefore c'.2 c.2
  /-- Every leaf has its code or stands below a pending node. -/
  covered : ∀ i : NodeIdx, i.toNat < w.ft.length →
    (cellsFind i.toNat w.code).isSome ∨ ∃ e ∈ w.stack, InSubtree w.node i e.node

/-- A leaf popped moves from the pending entries to the recorded codes (42_code_generator.md R152). -/
theorem WalkInv.record {w : Work} {e : StackEntry} {rest : List StackEntry} (h : WalkInv w)
    (hs : w.stack = e :: rest) (hleaf : (w.nodeAt e.node).leaf = true) :
    WalkInv { w with stack := rest, code := cellsSet e.node.toNat { len := e.len, pat := e.pat } w.code } := by
  obtain ⟨hpending, hordered, hlegal, hrecorded, hapart, hcovered⟩ := h
  rw [hs] at hpending hordered hrecorded hcovered
  obtain ⟨hfirst, hrest⟩ := List.pairwise_cons.mp hordered
  obtain ⟨⟨hlen, hpat, hone⟩, hpending⟩ := List.forall_mem_cons.mp hpending
  have hbefore : ∀ c ∈ w.code, CodeBefore c.2 (pendingCode e) := fun c hc => hrecorded c hc e List.mem_cons_self
  refine ⟨hpending, hrest, fun c hc => ?legal, fun c hc f hf => ?recorded, fun c hc c' hc' hne => ?apart,
    fun i hi => ?covered⟩
  case legal =>
    obtain rfl | hc := cellsSet_mem hc
    · exact ⟨hone hleaf, hlen, hpat⟩
    · exact hlegal c hc
  case recorded =>
    obtain rfl | hc := cellsSet_mem hc
    · exact hfirst f hf
    · exact hrecorded c hc f (List.mem_cons_of_mem _ hf)
  case apart =>
    obtain rfl | hc := cellsSet_mem hc <;> obtain rfl | hc' := cellsSet_mem hc'
    · exact absurd rfl hne
    · exact .inr (hbefore c' hc')
    · exact .inl (hbefore c hc)
    · exact hapart c hc c' hc' hne
  case covered =>
    by_cases hi' : i = e.node
    · exact .inl (by simp [hi'])
    · rw [cellsFind_set_other (fun h => hi' (BitVec.eq_of_toNat_eq h))]
      refine (hcovered i hi).imp_right ?_
      rintro ⟨f, hf, hsub⟩
      obtain rfl | hf := List.mem_cons.mp hf
      · exact absurd (hsub.eq_of_leaf hleaf).symm hi'
      · exact ⟨f, hf, hsub⟩

/-- An internal node popped gives way to its two children (42_code_generator.md R152). -/
theorem WalkInv.push_children {w : Work} {e : StackEntry} {rest : List StackEntry} (h : WalkInv w) (htree : CodeTree w)
    (hs : w.stack = e :: rest) (hinternal : (w.nodeAt e.node).leaf = false) (hne : e.len ≠ 32) :
    WalkInv { w with
      stack := childEntry (w.nodeAt e.node).left e false :: childEntry (w.nodeAt e.node).right e true :: rest } := by
  obtain ⟨hpending, hordered, hlegal, hrecorded, hapart, hcovered⟩ := h
  rw [hs] at hpending hordered hrecorded hcovered
  obtain ⟨hfirst, hrest⟩ := List.pairwise_cons.mp hordered
  obtain ⟨⟨hlen, hpat, -⟩, hpending⟩ := List.forall_mem_cons.mp hpending
  have hlt : e.len.toNat < 32 := by bv_omega
  obtain ⟨hleft, hmid, hright⟩ :=
    children_halve_code hlt hpat (w.nodeAt e.node).left (w.nodeAt e.node).right
  have hchild : ∀ (k : NodeIdx) (c : Bool), (childEntry k e c).len.toNat ≤ 32 ∧
      (childEntry k e c).pat.toNat < 2 ^ (childEntry k e c).len.toNat ∧
      ((w.nodeAt (childEntry k e c).node).leaf = true → 1 ≤ (childEntry k e c).len.toNat) := by
    intro k c
    refine ⟨?_, childEntry_pat_lt hlt hpat k c, fun _ => ?_⟩ <;> rw [childEntry_len_toNat hlt] <;> omega
  refine ⟨?pending, ?ordered, hlegal, fun c hc => ?recorded, hapart, fun i hi => ?covered⟩
  case pending => exact List.forall_mem_cons.mpr ⟨hchild _ _, List.forall_mem_cons.mpr ⟨hchild _ _, hpending⟩⟩
  case ordered =>
    have hafter : ∀ f ∈ rest, CodeBefore (pendingCode (childEntry (w.nodeAt e.node).right e true)) (pendingCode f) :=
      fun f hf => hright.trans_le (hfirst f hf)
    refine List.pairwise_cons.mpr ⟨List.forall_mem_cons.mpr ⟨hmid.le, fun f hf => ?_⟩,
      List.pairwise_cons.mpr ⟨hafter, hrest⟩⟩
    exact (hmid.trans_lt (codeFirst_lt_codeEnd _)).le.trans (hafter f hf)
  case recorded =>
    obtain ⟨hce, hcrest⟩ := List.forall_mem_cons.mp (hrecorded c hc)
    have hcleft : CodeBefore c.2 (pendingCode (childEntry (w.nodeAt e.node).left e false)) := hce.trans hleft.ge
    have hcright : CodeBefore c.2 (pendingCode (childEntry (w.nodeAt e.node).right e true)) :=
      hcleft.trans ((codeFirst_lt_codeEnd _).le.trans hmid.le)
    exact List.forall_mem_cons.mpr ⟨hcleft, List.forall_mem_cons.mpr ⟨hcright, hcrest⟩⟩
  case covered =>
    refine (hcovered i hi).imp_right ?_
    rintro ⟨f, hf, hsub⟩
    obtain rfl | hf := List.mem_cons.mp hf
    · have hfi : f.node ≠ i := by
        rintro rfl
        rw [htree.nodeAt_leaf hi] at hinternal
        cases hinternal
      obtain hl | hr := hsub.child_of_ne hfi
      · exact ⟨_, List.mem_cons_self, hl⟩
      · exact ⟨_, List.mem_cons_of_mem _ List.mem_cons_self, hr⟩
    · exact ⟨f, List.mem_cons_of_mem _ (List.mem_cons_of_mem _ hf), hsub⟩

/-- Every turn of the walk keeps its invariant, and the tree as it is. -/
theorem cgTurn_walkInv (w w' : Work) (h : CodeTree w ∧ WalkInv w) (hturn : cgTurn w = .ok w') :
    CodeTree w' ∧ WalkInv w' := by
  obtain ⟨htree, hinv⟩ := h
  refine ⟨cgTurn_frame hturn ▸ ⟨htree.leaves, htree.covered⟩, ?_⟩
  obtain ⟨-, rfl⟩ | ⟨e, rest, hs, ⟨hleaf, rfl⟩ | ⟨hinternal, hne, rfl⟩⟩ := cgTurn_cases hturn
  · exact hinv
  · exact hinv.record hs hleaf
  · exact hinv.push_children htree hs hinternal hne

/-! ### The end of the walk -/

/-- The turns the pending entries can still take: an entry of length l has at most the nodes of a full binary tree of
depth 32 - l below it. -/
def turnsLeft (st : List StackEntry) : Nat := (st.map fun e => 2 ^ (33 - e.len.toNat) - 1).sum

theorem turns_pos {e : StackEntry} (hlen : e.len.toNat ≤ 32) : 0 < 2 ^ (33 - e.len.toNat) - 1 := by
  have htwo : 2 ^ 1 ≤ 2 ^ (33 - e.len.toNat) := Nat.pow_le_pow_right (by decide) (by omega)
  omega

theorem turnsLeft_cons (e : StackEntry) (rest : List StackEntry) :
    turnsLeft (e :: rest) = 2 ^ (33 - e.len.toNat) - 1 + turnsLeft rest := List.sum_cons

theorem turnsLeft_root_le (k : NodeIdx) : turnsLeft [{ node := k, pat := 0, len := 0 }] ≤ cgTurns := by
  simp [turnsLeft, cgTurns]

/-- Every turn uses up one of the turns left. -/
theorem cgTurn_turnsLeft_lt {w w' : Work} (hb : PendingBounded w.stack) (hne : w.stack ≠ [])
    (hturn : cgTurn w = .ok w') : turnsLeft w'.stack < turnsLeft w.stack := by
  obtain ⟨hnil, -⟩ | ⟨e, rest, hs, hcase⟩ := cgTurn_cases hturn
  · exact absurd hnil hne
  · rw [hs] at hb ⊢
    obtain ⟨-, hlen, -⟩ := pendingBounded_cons.mp hb
    rw [turnsLeft_cons]
    obtain ⟨-, rfl⟩ | ⟨-, hne32, rfl⟩ := hcase
    · exact Nat.lt_add_of_pos_left (turns_pos hlen)
    · have hlt : e.len.toNat < 32 := by bv_omega
      have hsplit : 2 ^ (33 - e.len.toNat) = 2 * 2 ^ (33 - (e.len.toNat + 1)) :=
        two_pow_sub_eq_double (hlt.trans (by decide))
      have hpos : 0 < 2 ^ (33 - (e.len.toNat + 1)) := Nat.two_pow_pos _
      simp only [turnsLeft_cons, childEntry_len_toNat hlt]
      omega

/-- A walk with enough turns ends with nothing pending. -/
theorem cgLoop_stack_eq_nil {n : Nat} {w w' : Work} (hb : PendingBounded w.stack) (hn : turnsLeft w.stack ≤ n)
    (h : cgLoop n w = .ok w') : w'.stack = [] := by
  induction n generalizing w with
  | zero =>
    cases h
    cases hs : w'.stack with
    | nil => rfl
    | cons e rest =>
      rw [hs] at hb hn
      obtain ⟨-, hlen, -⟩ := pendingBounded_cons.mp hb
      have hpos := turns_pos hlen
      rw [turnsLeft_cons] at hn
      omega
  | succ n ih =>
    rw [cgLoop] at h
    split at h
    next hlen =>
      cases h
      exact List.length_eq_zero_iff.mp hlen
    next hlen =>
      split at h
      next => cases h
      next w₁ h₁ =>
        have hlt := cgTurn_turnsLeft_lt hb (fun hnil => hlen (by rw [hnil]; rfl)) h₁
        exact ih (cgTurn_pendingBounded w w₁ hb h₁) (by omega) h

/-! ### CODE when phase CG is over -/

/-- CODE holds a legal code for every entry of FT, and no two are equal. -/
structure UsableCodes (w : Work) : Prop where
  legal : ∀ i, i < w.ft.length → LegalKey (w.codeAt i).len (w.codeAt i).pat
  distinct : ∀ i j, i < w.ft.length → j < w.ft.length → i ≠ j → w.codeAt i ≠ w.codeAt j

theorem UsableCodes.congr {w w' : Work} (h : UsableCodes w) (hft : w'.ft = w.ft) (hcode : w'.code = w.code) :
    UsableCodes w' := by
  have hat : ∀ i, w'.codeAt i = w.codeAt i := fun i => by rw [Work.codeAt, Work.codeAt, hcode]
  refine ⟨?_, ?_⟩ <;> simp only [hat, hft]
  · exact h.legal
  · exact h.distinct

theorem cellsFind_mem {α : Type} {a : Nat} {v : α} {l : List (Nat × α)} (h : cellsFind a l = some v) : (a, v) ∈ l := by
  induction l with
  | nil => cases h
  | cons c t ih =>
    obtain ⟨b, u⟩ := c
    rw [cellsFind] at h
    split at h
    next hab =>
      cases h
      exact hab ▸ List.mem_cons_self
    next => exact List.mem_cons_of_mem _ (ih h)

/-- FT's indices fit the arena's index width (00_scope.md R7). -/
theorem leafIndex_toNat {i n : Nat} (hi : i < n) (hmax : n ≤ 65535) : (BitVec.ofNat 17 i).toNat = i :=
  Nat.mod_eq_of_lt (by omega)

/-- With nothing pending, the walk has recorded a code for every leaf. -/
theorem WalkInv.usableCodes {w : Work} (h : WalkInv w) (hnil : w.stack = []) (hmax : w.ft.length ≤ 65535) :
    UsableCodes w := by
  have hmem : ∀ i, i < w.ft.length → (i, w.codeAt i) ∈ w.code := by
    intro i hi
    have hidx := leafIndex_toNat hi hmax
    have hfound := h.covered (BitVec.ofNat 17 i) (hidx.symm ▸ hi)
    rw [hidx, hnil] at hfound
    simp only [List.not_mem_nil, false_and, exists_false, or_false, Option.isSome_iff_exists] at hfound
    obtain ⟨c, hc⟩ := hfound
    rw [Work.codeAt, hc]
    exact cellsFind_mem hc
  exact ⟨fun i hi => h.legal _ (hmem i hi),
    fun i j hi hj hne => (h.apart _ (hmem i hi) _ (hmem j hj) hne).elim CodeBefore.ne (fun hb => hb.ne.symm)⟩

/-- A root that is a leaf is the only leaf, and `CG.SINGLE` gives it its code (42_code_generator.md R151). -/
theorem usableCodes_cgSingle {w : Work} (htree : CodeTree w) (hmax : w.ft.length ≤ 65535)
    (hleaf : (w.nodeAt w.root).leaf = true) : UsableCodes (cgSingle w) := by
  have hroot : ∀ i, i < w.ft.length → w.root.toNat = i := by
    intro i hi
    have hidx := leafIndex_toNat hi hmax
    rw [(htree.covered (BitVec.ofNat 17 i) (hidx.symm ▸ hi)).eq_of_leaf hleaf, hidx]
  have hzero : ∀ i, i < w.ft.length → i = 0 := fun i hi => by
    rw [← hroot i hi, hroot 0 (Nat.zero_lt_of_lt hi)]
  refine ⟨fun i hi => ?_, fun i j hi hj hne => ?_⟩
  · rw [hzero i hi, Work.codeAt, cgSingle_code, cellsFind_set_same]
    decide
  · exact absurd ((hzero i hi).trans (hzero j hj).symm) hne

/-- The walk starts with the root pending, at the empty code. -/
theorem walkInv_start {w : Work} (htree : CodeTree w) (hcode : w.code = [])
    (hinternal : (w.nodeAt w.root).leaf ≠ true) :
    WalkInv { w with stack := [{ node := w.root, pat := 0, len := 0 }] } where
  pending e he := by
    obtain rfl := List.mem_singleton.mp he
    exact ⟨Nat.zero_le 32, Nat.zero_lt_one, fun hleaf => absurd hleaf hinternal⟩
  ordered := List.pairwise_singleton _ _
  legal c hc := by simp [hcode] at hc
  recorded c hc := by simp [hcode] at hc
  apart c hc := by simp [hcode] at hc
  covered i hi := .inr ⟨_, List.mem_cons_self, htree.covered i hi⟩

/-- Phase CG finds usable codes or raises an error (42_code_generator.md R150). -/
theorem cgRun_usableCodes {w w' : Work} (htree : CodeTree w) (hcode : w.code = []) (hmax : w.ft.length ≤ 65535)
    (h : cgRun w = .ok w') : UsableCodes w' := by
  have hft : w'.ft = w.ft := by rw [cgRun_frame h]
  rw [cgRun] at h
  split at h
  next hleaf =>
    cases h
    exact usableCodes_cgSingle htree hmax hleaf
  next hinternal =>
    rw [cgWalk] at h
    have hstart := walkInv_start htree hcode hinternal
    have htree₀ : CodeTree { w with stack := [{ node := w.root, pat := 0, len := 0 }] } :=
      ⟨htree.leaves, htree.covered⟩
    have hinv : CodeTree w' ∧ WalkInv w' := cgLoop_invariant cgTurn_walkInv h ⟨htree₀, hstart⟩
    have hnil : w'.stack = [] := cgLoop_stack_eq_nil (by simp) (turnsLeft_root_le w.root) h
    exact hinv.2.usableCodes hnil (hft ▸ hmax)

end Sys2Proof.Machine
end

