-- ==== Sys2Proof/Proofs/TableWriting.lean ====
section
/-! SUPPORT. The bytes phase TS writes (44_table_serializer.md R175 to R178), and that phase EN leaves them alone
(43_encoder_packer.md R163, R164). -/

namespace Sys2Proof.Machine

/-- What writing a record does (44_table_serializer.md R177). -/
theorem putRecord_inv {cap : Option Nat} {i : Instr} {x y : Writer} (h : putRecord cap i x = .ok y) :
    y = ({ x.1 with wrPtr := x.1.wrPtr + BitVec.ofNat 35 i.format.size },
      x.2.writeList x.1.wrPtr.toNat (encode i)) := by
  rw [putRecord] at h
  split at h
  next => cases h
  next m hm =>
    cases h
    rw [(memWrite_inv hm).1]

theorem entriesBytes_congr {w w' : Work} (h : w'.code = w.code) (i : Nat) (es : List FtEntry) :
    w'.entriesBytes i es = w.entriesBytes i es := by
  induction es generalizing i with
  | nil => rfl
  | cons e es ih => rw [Work.entriesBytes, Work.entriesBytes, ih, Work.entryBytes, Work.entryBytes, Work.codeAt,
      Work.codeAt, h]

theorem tableBytes_congr {w w' : Work} (hft : w'.ft = w.ft) (hcode : w'.code = w.code) :
    w'.tableBytes = w.tableBytes := by
  rw [Work.tableBytes, Work.tableBytes, Work.ftN, Work.ftN, hft, entriesBytes_congr hcode]

/-- The entries of the table stand in BYTE_OUT from the write pointer on, and everything before it is kept. -/
theorem tsEntries_writes {cap : Option Nat} {es : List FtEntry} {x y : Writer} (h : tsEntries cap es x = .ok y)
    (hptr : x.1.wrPtr.toNat + 9 * es.length < 2 ^ 35) (hidx : x.1.tsI.toNat + es.length < 2 ^ 16) :
    y.1.wrPtr.toNat = x.1.wrPtr.toNat + 9 * es.length ∧
    (∀ a < x.1.wrPtr.toNat, y.2.read a = x.2.read a) ∧
    y.2.readList x.1.wrPtr.toNat (9 * es.length) = x.1.entriesBytes x.1.tsI.toNat es := by
  induction es generalizing x with
  | nil =>
    cases h
    exact ⟨rfl, fun _ _ => rfl, rfl⟩
  | cons e es ih =>
    rw [List.length_cons] at hptr hidx ⊢
    rw [tsEntries] at h
    split at h
    next => cases h
    next z hz =>
      obtain rfl := putRecord_inv hz
      have hptr' : (x.1.wrPtr + BitVec.ofNat 35 9).toNat = x.1.wrPtr.toNat + 9 := by
        rw [BitVec.toNat_add, BitVec.toNat_ofNat]
        omega
      have hidx' : (x.1.tsI + 1).toNat = x.1.tsI.toNat + 1 := by bv_omega
      obtain ⟨hend, hkept, hbytes⟩ := ih h (hptr'.symm ▸ by omega) (hidx'.symm ▸ by omega)
      simp only [entryRecord, Instr.format, Format.size, hptr', hidx'] at hend hkept hbytes
      refine ⟨by omega, fun a ha => ?_, ?_⟩
      · rw [hkept a (by omega), Memory.read_writeList_outside _ _ _ (.inl ha)]
      · have hentry : y.2.readList x.1.wrPtr.toNat 9 = x.1.entryBytes x.1.tsI.toNat e :=
          (Memory.readList_congr _ _ _ _ fun a _ ha => hkept a ha).trans
            (Memory.readList_writeList x.2 x.1.wrPtr.toNat (x.1.entryBytes x.1.tsI.toNat e))
        rw [Nat.mul_succ, Nat.add_comm, Memory.readList_append, hentry, hbytes, Work.entriesBytes]
        congr 1
        refine entriesBytes_congr ?_ _ _
        rfl

/-- Phase TS writes the table to the front of BYTE_OUT (44_table_serializer.md R175). -/
theorem tsRun_writes {cap : Option Nat} {x y : Writer} (h : tsRun cap x = .ok y) (hptr : x.1.wrPtr = 0)
    (hidx : x.1.tsI = 0) (hmax : x.1.ft.length ≤ 65535) :
    y.1.wrPtr.toNat = 2 + 9 * x.1.ft.length ∧ y.2.readList 0 (2 + 9 * x.1.ft.length) = x.1.tableBytes := by
  rw [tsRun] at h
  split at h
  next => cases h
  next z hz =>
    obtain rfl := putRecord_inv hz
    obtain ⟨hend, hkept, hbytes⟩ := tsEntries_writes h
      (by simp [hptr, hidx, Instr.format, Format.size]; omega) (by simp [hidx]; omega)
    simp only [hptr, hidx, Instr.format, Format.size, BitVec.ofNat_eq_ofNat, BitVec.toNat_zero, List.drop_zero,
      BitVec.zero_add, BitVec.reduceToNat] at hend hkept hbytes
    refine ⟨hend, ?_⟩
    have hheader : y.2.readList 0 2 = bytesLe16 x.1.ftN :=
      (Memory.readList_congr _ _ _ _ fun a _ ha => hkept a (by omega)).trans
        (Memory.readList_writeList x.2 0 (bytesLe16 x.1.ftN))
    rw [Memory.readList_append, hheader, Work.tableBytes]
    congr 1
    refine hbytes.trans (entriesBytes_congr ?_ _ _)
    rfl

/-! ### Phase EN behind the table -/

/-- A packer that began at index `base`: it has written nothing before it, and at most `n` bits from it on. -/
structure PacksFrom (base n : Nat) (old : Memory 8) (x : Writer) : Prop where
  pointer : base ≤ x.1.wrPtr.toNat
  bits : 8 * x.1.wrPtr.toNat + x.1.pkCnt.toNat ≤ 8 * base + n
  kept : ∀ a < base, x.2.read a = old.read a

theorem PacksFrom.mono {base n n' : Nat} {old : Memory 8} {x : Writer} (h : PacksFrom base n old x) (hn : n ≤ n') :
    PacksFrom base n' old x := ⟨h.pointer, h.bits.trans (by omega), h.kept⟩

/-- The byte the packer writes is not before where it began. -/
theorem PacksFrom.read_write {base n : Nat} {old : Memory 8} {x : Writer} (h : PacksFrom base n old x) (v : Byte) :
    ∀ a < base, (x.2.writeList x.1.wrPtr.toNat [v]).read a = old.read a := fun a ha => by
  rw [Memory.read_writeList_outside _ _ _ (.inl (ha.trans_le h.pointer)), h.kept a ha]

theorem pkPush_packsFrom {cap : Option Nat} {b : Bool} {base n : Nat} {old : Memory 8} {x y : Writer}
    (h : pkPush cap b x = .ok y) (hx : PacksFrom base n old x) (hroom : 8 * base + n + 1 < 2 ^ 38) :
    PacksFrom base (n + 1) old y := by
  have hpointer := hx.pointer
  have hbits := hx.bits
  rw [pkPush] at h
  split at h
  next hcnt =>
    split at h
    next => cases h
    next m hm =>
      cases h
      have hseven : x.1.pkCnt.toNat = 7 := by rw [hcnt]; rfl
      have hptr : (x.1.wrPtr + 1).toNat = x.1.wrPtr.toNat + 1 := by bv_omega
      refine ⟨hptr ▸ hpointer.trans (Nat.le_succ _), ?_, (memWrite_inv hm).1 ▸ hx.read_write _⟩
      show 8 * (x.1.wrPtr + 1).toNat + 0 ≤ 8 * base + (n + 1)
      omega
  next hcnt =>
    cases h
    have hnext : (x.1.pkCnt + 1).toNat = x.1.pkCnt.toNat + 1 := by bv_omega
    refine ⟨hpointer, ?_, hx.kept⟩
    simp only [hnext]
    omega

theorem enShift_packsFrom {cap : Option Nat} {p : BitVec 32} {l base n : Nat} {old : Memory 8} {x y : Writer}
    (h : enShift cap p l x = .ok y) (hx : PacksFrom base n old x) (hroom : 8 * base + n + l < 2 ^ 38) :
    PacksFrom base (n + l) old y := by
  induction l generalizing n x with
  | zero =>
    cases h
    exact hx
  | succ l ih =>
    rw [enShift] at h
    split at h
    next => cases h
    next z hz => exact (ih h (pkPush_packsFrom hz hx (by omega)) (by omega)).mono (by omega)

/-- A symbol's code has at most 63 bits, whatever CODE holds: the width of its length. -/
theorem enSymbol_packsFrom {cap : Option Nat} {sym : Sym} {base n : Nat} {old : Memory 8} {x y : Writer}
    (h : enSymbol cap sym x = .ok y) (hx : PacksFrom base n old x) (hroom : 8 * base + n + 63 < 2 ^ 38) :
    PacksFrom base (n + 63) old y := by
  rw [enSymbol] at h
  split at h
  next => cases h
  next i _ =>
    have hlen : (x.1.codeAt i).len.toNat < 64 := (x.1.codeAt i).len.isLt
    exact (enShift_packsFrom h hx (by omega)).mono (by omega)

theorem enLoop_packsFrom {p : Params} {symIn : Memory 32} {inLen : BitVec 32} {k base n : Nat} {old : Memory 8}
    {x y : Writer} (h : enLoop p symIn inLen k x = .ok y) (hx : PacksFrom base n old x)
    (hroom : 8 * base + n + 63 * k < 2 ^ 38) : PacksFrom base (n + 63 * k) old y := by
  induction k generalizing n x with
  | zero =>
    cases h
    exact hx
  | succ k ih =>
    rw [enLoop] at h
    split at h
    next =>
      split at h
      next => cases h
      next sym _ =>
        split at h
        next => cases h
        next z hz =>
          obtain ⟨hpointer, hbits, hkept⟩ := enSymbol_packsFrom hz hx (by omega)
          exact (ih h ⟨hpointer, hbits, hkept⟩ (by omega)).mono (by omega)
    next =>
      cases h
      exact hx.mono (by omega)

theorem pkFlush_packsFrom {cap : Option Nat} {base n : Nat} {old : Memory 8} {x y : Writer}
    (h : pkFlush cap x = .ok y) (hx : PacksFrom base n old x) (hroom : 8 * base + n + 8 < 2 ^ 38) :
    PacksFrom base (n + 8) old y := by
  have hpointer := hx.pointer
  have hbits := hx.bits
  rw [pkFlush] at h
  split at h
  next =>
    cases h
    exact hx.mono (by omega)
  next =>
    split at h
    next => cases h
    next m hm =>
      cases h
      have hptr : (x.1.wrPtr + 1).toNat = x.1.wrPtr.toNat + 1 := by bv_omega
      refine ⟨hptr ▸ hpointer.trans (Nat.le_succ _), ?_, (memWrite_inv hm).1 ▸ hx.read_write _⟩
      show 8 * (x.1.wrPtr + 1).toNat + 0 ≤ 8 * base + (n + 8)
      omega

/-- Phase EN writes behind what stands before the write pointer, which never moves back: an input of fewer than 2^32
symbols of at most 63 bits cannot make it wrap. -/
theorem enRun_keeps {p : Params} {symIn : Memory 32} {inLen : BitVec 32} {x y : Writer}
    (h : enRun p symIn inLen x = .ok y) (hcnt : x.1.pkCnt = 0) (hptr : x.1.wrPtr.toNat ≤ 2 + 9 * 65535) :
    x.1.wrPtr.toNat ≤ y.1.wrPtr.toNat ∧ ∀ a < x.1.wrPtr.toNat, y.2.read a = x.2.read a := by
  have hlen : inLen.toNat < 2 ^ 32 := inLen.isLt
  have hstart : PacksFrom x.1.wrPtr.toNat 0 x.2 ({ x.1 with inIdx := 0 }, x.2) :=
    ⟨le_rfl, by simp [hcnt], fun _ _ => rfl⟩
  rw [enRun] at h
  split at h
  next => cases h
  next z hz =>
    have hend := pkFlush_packsFrom h (enLoop_packsFrom hz hstart (by omega)) (by omega)
    exact ⟨hend.pointer, hend.kept⟩

end Sys2Proof.Machine
end

