-- ==== Sys2Proof/Proofs/EncodeRun.lean ====
section
/-! SUPPORT. What holds where each phase of an ENCODE begins (47_commands.md R215, 10_state.md R45), and how its run
ends. -/

namespace Sys2Proof.Machine

/-! ### Runs of the core -/

/-- What every step of the core keeps holds along a run. -/
theorem coreRun_invariant {P : State → Prop} (hstep : ∀ s t, P s → coreStep s = .next t → P t) {k : Nat} {s t : State}
    (hs : P s) (h : coreRun k s = .next t) : P t := by
  induction k generalizing s with
  | zero =>
    cases h
    exact hs
  | succ k ih =>
    rw [coreRun] at h
    split at h
    next u hu => exact ih (hstep s u hs hu) h
    next => cases h
    next => cases h

theorem coreRun_succ {k : Nat} {s t : State} (h : coreStep s = .next t) : coreRun (k + 1) s = coreRun k t := by
  rw [coreRun, h]

theorem coreRun_add {j k : Nat} {s m : State} (h : coreRun j s = .next m) : coreRun (j + k) s = coreRun k m := by
  induction j generalizing s with
  | zero =>
    cases h
    rw [Nat.zero_add]
  | succ j ih =>
    rw [coreRun] at h
    split at h
    next u hu => rw [Nat.succ_add, coreRun_succ hu, ih h]
    next => cases h
    next => cases h

theorem coreRun_idle {k : Nat} {s : State} (h : s.phase = .idle) : coreRun k s = .next s := by
  induction k with
  | zero => rfl
  | succ k ih => rw [coreRun_succ (coreStep_idle h), ih]

/-! ### The phases of ENCODE -/

theorem faInsert_ft_length_le {nMax j : Nat} {sym : Sym} {w w' : Work} (h : faInsert nMax sym w j = .ok w')
    (hw : w.ft.length ≤ nMax) : w'.ft.length ≤ nMax := by
  rw [faInsert] at h
  split at h
  next => cases h
  next hfull =>
    cases h
    exact List.length_insertIdx_le_succ.trans (by omega)

theorem faCount_ft_length_le {nMax : Nat} {sym : Sym} {w w' : Work} (h : faCount nMax sym w = .ok w')
    (hw : w.ft.length ≤ nMax) : w'.ft.length ≤ nMax := by
  rw [faCount] at h
  split at h
  next =>
    split at h
    next =>
      cases h
      exact (List.length_set ..).trans_le hw
    next => exact faInsert_ft_length_le h hw
  next => exact faInsert_ft_length_le h hw

theorem faLoop_ft_length_le {p : Params} {symIn : Memory 32} {inLen : BitVec 32} {n : Nat} {w w' : Work}
    (h : faLoop p symIn inLen n w = .ok w') (hw : w.ft.length ≤ p.nMax) : w'.ft.length ≤ p.nMax := by
  induction n generalizing w with
  | zero =>
    cases h
    exact hw
  | succ n ih =>
    rw [faLoop] at h
    split at h
    next =>
      split at h
      next => cases h
      next =>
        split at h
        next => cases h
        next w₁ h₁ =>
          have hw₁ : w₁.ft.length ≤ p.nMax := faCount_ft_length_le h₁ hw
          exact ih h hw₁
    next =>
      cases h
      exact hw

/-- FT never outgrows N_MAX (40_frequency_analyzer.md R123). -/
theorem faRun_ft_length_le {p : Params} {symIn : Memory 32} {inLen : BitVec 32} {w w' : Work}
    (h : faRun p symIn inLen w = .ok w') (hw : w.ft.length ≤ p.nMax) : w'.ft.length ≤ p.nMax :=
  faLoop_ft_length_le h hw

/-- Nothing of the file has been written yet. -/
structure Unwritten (w : Work) : Prop where
  tsI : w.tsI = 0
  wrPtr : w.wrPtr = 0
  pkCnt : w.pkCnt = 0

/-- The table stands in BYTE_OUT, and the packer is about to begin behind it. -/
structure TableWritten (w : Work) (byteOut : Memory 8) : Prop where
  wrPtr : w.wrPtr.toNat = 2 + 9 * w.ft.length
  pkCnt : w.pkCnt = 0
  bytes : byteOut.readList 0 (2 + 9 * w.ft.length) = w.tableBytes

/-- What the units before it have done, at the start of each phase of an ENCODE. -/
inductive EncodeReady (s : State) : Prop
  | ended (phase : s.phase = .idle)
  | fa (phase : s.phase = .fa) (work : s.work = Work.start .encode false)
  | tb (phase : s.phase = .tb) (room : s.work.ft.length ≤ s.params.nMax) (unwritten : Unwritten s.work)
      (code : s.work.code = []) (nonempty : 1 ≤ s.work.ft.length)
  | cg (phase : s.phase = .cg) (room : s.work.ft.length ≤ s.params.nMax) (unwritten : Unwritten s.work)
      (code : s.work.code = []) (tree : CodeTree s.work)
  | ts (phase : s.phase = .ts) (room : s.work.ft.length ≤ s.params.nMax) (unwritten : Unwritten s.work)
      (codes : UsableCodes s.work)
  | en (phase : s.phase = .en) (room : s.work.ft.length ≤ s.params.nMax) (codes : UsableCodes s.work)
      (table : TableWritten s.work s.byteOut)

/-- The states of an ENCODE between two steps. -/
structure EncodeInv (s : State) : Prop where
  params : s.params.Legal
  busy : s.phase ≠ .idle → s.busy = true
  ready : EncodeReady s

theorem encodeInv_raise {s : State} (h : s.params.Legal) (e : ErrKind) : EncodeInv (s.raise e) :=
  ⟨(State.raise_params s e).symm ▸ h, fun hne => absurd (State.raise_phase s e) hne, .ended (State.raise_phase s e)⟩

theorem encodeInv_start {s : State} (h : s.params.Legal) : EncodeInv (s.start .encode) := by
  have hclear : (s.startClear .encode).params.Legal := (State.startClear_params s .encode).symm ▸ h
  obtain ⟨-, -, hstart⟩ | ⟨-, hstart⟩ := start_cases s .encode
  · rw [hstart]
    exact ⟨hclear, fun _ => State.startClear_busy s .encode, .fa rfl (by simp)⟩
  · exact hstart ▸ encodeInv_raise hclear _

section Phases
variable {s : State} (hparams : s.params.Legal) (hbusy : s.busy = true)
include hparams hbusy

theorem encodeInv_phaseFA (hwork : s.work = Work.start .encode false) : EncodeInv s.phaseFA := by
  rw [State.phaseFA]
  split
  next e _ => exact encodeInv_raise hparams e
  next w hw =>
    have hroom : w.ft.length ≤ s.params.nMax := faRun_ft_length_le hw (by simp [hwork])
    have hframe := faRun_frame hw
    have hunwritten : Unwritten w := by
      rw [hframe, hwork]
      exact ⟨rfl, rfl, rfl⟩
    split
    next hempty =>
      have hcodes : UsableCodes w := ⟨fun i hi => absurd hi (by omega), fun i _ hi => absurd hi (by omega)⟩
      exact ⟨hparams, fun _ => hbusy, .ts rfl hroom hunwritten hcodes⟩
    next hne =>
      have hcode : w.code = [] := by rw [hframe, hwork]; rfl
      exact ⟨hparams, fun _ => hbusy, .tb rfl hroom hunwritten hcode (Nat.one_le_iff_ne_zero.mpr hne)⟩

theorem encodeInv_phaseTB (hroom : s.work.ft.length ≤ s.params.nMax) (hunwritten : Unwritten s.work)
    (hcode : s.work.code = []) (hne : 1 ≤ s.work.ft.length) : EncodeInv s.phaseTB := by
  have htree : CodeTree (tbRun s.work) := codeTree_tbRun hne (hroom.trans hparams.2)
  have hframe := tbRun_frame s.work
  refine ⟨hparams, fun _ => hbusy, .cg rfl ?_ ?_ ?_ htree⟩ <;> rw [State.phaseTB, State.toPhase_work, hframe]
  · exact hroom
  · exact ⟨hunwritten.tsI, hunwritten.wrPtr, hunwritten.pkCnt⟩
  · exact hcode

theorem encodeInv_phaseCG (hroom : s.work.ft.length ≤ s.params.nMax) (hunwritten : Unwritten s.work)
    (hcode : s.work.code = []) (htree : CodeTree s.work) : EncodeInv s.phaseCG := by
  rw [State.phaseCG]
  split
  next e _ => exact encodeInv_raise hparams e
  next w hw =>
    have hframe := cgRun_frame hw
    refine ⟨hparams, fun _ => hbusy, .ts rfl ?_ ?_ (cgRun_usableCodes htree hcode (hroom.trans hparams.2) hw)⟩ <;>
      rw [State.toPhase_work, hframe]
    · exact hroom
    · exact ⟨hunwritten.tsI, hunwritten.wrPtr, hunwritten.pkCnt⟩

theorem encodeInv_phaseTS (hroom : s.work.ft.length ≤ s.params.nMax) (hunwritten : Unwritten s.work)
    (hcodes : UsableCodes s.work) : EncodeInv s.phaseTS := by
  rw [State.phaseTS]
  split
  next e _ => exact encodeInv_raise hparams e
  next y hy =>
    obtain ⟨hptr, hbytes⟩ := tsRun_writes hy hunwritten.wrPtr hunwritten.tsI (hroom.trans hparams.2)
    have hframe := tsRun_frame hy
    have hft : y.1.ft = s.work.ft := by rw [hframe]
    have hcode : y.1.code = s.work.code := by rw [hframe]
    have hcnt : y.1.pkCnt = 0 := by rw [hframe]; exact hunwritten.pkCnt
    rw [← hft] at hroom hptr hbytes
    rw [← tableBytes_congr hft hcode] at hbytes
    exact ⟨hparams, fun _ => hbusy, .en rfl hroom (hcodes.congr hft hcode) ⟨hptr, hcnt, hbytes⟩⟩

end Phases

/-- Everything phase EN can do. -/
theorem phaseEN_cases (s : State) :
    (∃ e, s.phaseEN = s.raise e) ∨
    (∃ y, enRun s.params s.symIn s.inLen (s.work, s.byteOut) = .ok y ∧
      s.phaseEN = ({ s with work := y.1, byteOut := y.2, encBits := y.1.bitTotal, byteOutLen := y.1.wrPtr,
                            encTabN := y.1.ftN } : State).complete) := by
  rw [State.phaseEN]
  split
  next e _ => exact .inl ⟨e, rfl⟩
  next y hy => exact .inr ⟨y, hy, rfl⟩

theorem phaseEN_phase (s : State) : s.phaseEN.phase = .idle := by
  obtain ⟨e, he⟩ | ⟨y, -, hy⟩ := phaseEN_cases s
  · rw [he, State.raise_phase]
  · rw [hy, State.complete_phase]

theorem phaseEN_params (s : State) : s.phaseEN.params = s.params := by
  obtain ⟨e, he⟩ | ⟨y, -, hy⟩ := phaseEN_cases s
  · rw [he, State.raise_params]
  · rw [hy, State.complete_params]

/-- A step of an ENCODE leads to the start of its next phase, or to its end. -/
theorem encodeInv_coreStep (s t : State) (h : EncodeInv s) (hstep : coreStep s = .next t) : EncodeInv t := by
  obtain ⟨hparams, hbusy, hready⟩ := h
  cases hready with
  | ended hphase =>
    rw [coreStep_idle hphase] at hstep
    cases hstep
    exact ⟨hparams, hbusy, .ended hphase⟩
  | fa hphase hwork =>
    rw [coreStep_fa hphase] at hstep
    cases hstep
    exact encodeInv_phaseFA hparams (hbusy (by simp [hphase])) hwork
  | tb hphase hroom hunwritten hcode hne =>
    rw [coreStep_tb hphase] at hstep
    cases hstep
    exact encodeInv_phaseTB hparams (hbusy (by simp [hphase])) hroom hunwritten hcode hne
  | cg hphase hroom hunwritten hcode htree =>
    rw [coreStep_cg hphase] at hstep
    cases hstep
    exact encodeInv_phaseCG hparams (hbusy (by simp [hphase])) hroom hunwritten hcode htree
  | ts hphase hroom hunwritten hcodes =>
    rw [coreStep_ts hphase] at hstep
    cases hstep
    exact encodeInv_phaseTS hparams (hbusy (by simp [hphase])) hroom hunwritten hcodes
  | en hphase _ _ _ =>
    rw [coreStep_en hphase] at hstep
    cases hstep
    exact ⟨(phaseEN_params s).symm ▸ hparams, fun hne => absurd (phaseEN_phase s) hne, .ended (phaseEN_phase s)⟩

/-- A run of ENCODE that reaches phase EN ends with that phase's step, and the state where the phase begins has its
tables and the table's bytes. -/
theorem encode_end_of_reaches_en {s m t : State} (hparams : s.params.Legal) (hm : Reaches .encode .en s m)
    (ht : EndOfRun .encode s t) : EncodeInv m ∧ t = m.phaseEN := by
  obtain ⟨-, hphase, j, hj⟩ := hm
  obtain ⟨-, hidle, k, hk⟩ := ht
  have hinv : EncodeInv m := coreRun_invariant encodeInv_coreStep (encodeInv_start hparams) hj
  have hinvt : EncodeInv t := coreRun_invariant encodeInv_coreStep (encodeInv_start hparams) hk
  have hended : t.phase = .idle := by
    by_contra hne
    rw [hinvt.busy hne] at hidle
    cases hidle
  refine ⟨hinv, ?_⟩
  obtain hle | hle := Nat.le_total j k
  case inl =>
    obtain ⟨d, rfl⟩ := Nat.exists_eq_add_of_le hle
    rw [coreRun_add hj] at hk
    cases d with
    | zero =>
      cases hk
      rw [hphase] at hended
      cases hended
    | succ d =>
      rw [coreRun_succ (coreStep_en hphase), coreRun_idle (phaseEN_phase m)] at hk
      cases hk
      rfl
  case inr =>
    obtain ⟨d, rfl⟩ := Nat.exists_eq_add_of_le hle
    rw [coreRun_add hk, coreRun_idle hended] at hj
    cases hj
    rw [hended] at hphase
    cases hphase

/-- What an ENCODE has in BYTE_OUT at its end, if it ends without error: the table of phase TS, and nothing of it
written over by phase EN. -/
theorem encode_keeps_table {s m t : State} (hparams : s.params.Legal) (hm : Reaches .encode .en s m)
    (ht : EndOfRun .encode s t) (herr : t.err = false) :
    UsableCodes m.work ∧ m.work.ft.length ≤ 65535 ∧ m.work.ft.length ≤ t.params.nMax ∧
    2 + 9 * m.work.ft.length ≤ t.byteOutLen.toNat ∧
    t.byteOut.readList 0 (2 + 9 * m.work.ft.length) = m.work.tableBytes := by
  obtain ⟨⟨hlegal, -, hready⟩, rfl⟩ := encode_end_of_reaches_en hparams hm ht
  obtain ⟨-, hphase, -⟩ := hm
  cases hready with
  | en _ hroom hcodes htable =>
    obtain ⟨hptr, hcnt, hbytes⟩ := htable
    obtain ⟨e, he⟩ | ⟨y, hy, hend⟩ := phaseEN_cases m
    · rw [he, State.raise_err] at herr
      cases herr
    · have hmax : m.work.ft.length ≤ 65535 := hroom.trans hlegal.2
      obtain ⟨hle, hkept⟩ := enRun_keeps hy hcnt (hptr.trans_le (by omega))
      dsimp only at hle hkept
      rw [hptr] at hle hkept
      refine ⟨hcodes, hmax, (phaseEN_params m).symm ▸ hroom, ?_, ?_⟩
      · rw [hend, State.complete_byteOutLen]
        exact hle
      · rw [hend, State.complete_byteOut, ← hbytes]
        exact Memory.readList_congr _ _ _ _ fun a _ ha => hkept a (by omega)
  | _ h => simp [h] at hphase

end Sys2Proof.Machine
end

