-- ==== Sys2Proof/Proofs/RecordReading.lean ====
section
/-! SUPPORT. Reading back a header and an entry just written (30_encoding.md R92 to R94). -/

namespace Sys2Proof

@[simp] theorem le16_fieldByte (v : BitVec 16) : le16 (fieldByte v 0) (fieldByte v 1) = v := by
  apply BitVec.eq_of_toNat_eq
  simp only [toNat_le16, fieldByte_eq_ofNat, BitVec.toNat_ofNat]
  omega

@[simp] theorem le32_fieldByte (v : BitVec 32) :
    le32 (fieldByte v 0) (fieldByte v 1) (fieldByte v 2) (fieldByte v 3) = v := by
  apply BitVec.eq_of_toNat_eq
  simp only [toNat_le32, fieldByte_eq_ofNat, BitVec.toNat_ofNat]
  omega

theorem decode_encode_hdr (n : BitVec 16) (rest : List Byte) :
    decode .hdr (encode (.hdr n) ++ rest) = .ok (.hdr n, rest) := by
  have hread : decode .hdr (encode (.hdr n) ++ rest) = .ok (.hdr (le16 (fieldByte n 0) (fieldByte n 1)), rest) := rfl
  rw [hread, le16_fieldByte]

theorem decode_encode_ent (sym : Sym) (l : BitVec 8) (p : BitVec 32) (rest : List Byte) :
    decode .ent (encode (.ent sym l p) ++ rest) = .ok (.ent sym l p, rest) := by
  have hplaces : encode (.ent sym l p) ++ rest =
      fieldByte sym 0 :: fieldByte sym 1 :: fieldByte sym 2 :: fieldByte sym 3 :: l ::
        fieldByte p 0 :: fieldByte p 1 :: fieldByte p 2 :: fieldByte p 3 :: rest := rfl
  rw [hplaces, decode_ent_cons, le32_fieldByte, le32_fieldByte]

end Sys2Proof
end

