-- ==== Sys2Proof/Proofs/EntryCheck.lean ====
section
/-! SUPPORT. `TD.CHECK` (45_table_deserializer.md R189): the faults of a table entry, and that no other entry is turned
away. -/

namespace Sys2Proof.Machine

theorem dmatch_isSome_iff (dtab : List DtEntry) (l : Nat) (p : BitVec 32) :
    (dmatch dtab l p).isSome ↔ ∃ e ∈ dtab, e.len.toNat = l ∧ e.pat = p := by
  simp [dmatch, List.find?_isSome]

theorem shiftRight_ne_zero_iff (p : BitVec 32) (l : Nat) : p >>> l ≠ 0 ↔ p.toNat / 2 ^ l ≠ 0 := by
  rw [← Nat.shiftRight_eq_div_pow, ← BitVec.toNat_ushiftRight]
  exact not_congr BitVec.toNat_inj.symm

/-- What R189 turns away: an illegal length, a set bit at or above the length, a key already in the table. -/
abbrev EntryFault (dtab : List DtEntry) (l : BitVec 8) (p : BitVec 32) : Prop :=
  l.toNat = 0 ∨ l.toNat > 32 ∨ (l.toNat < 32 ∧ p.toNat / 2 ^ l.toNat ≠ 0) ∨
    ∃ e ∈ dtab, e.len.toNat = l.toNat ∧ e.pat = p

/-- The three checks in the order in which `TD.CHECK` makes them, as one. -/
theorem tdCheck_cases (dtab : List DtEntry) (l : BitVec 8) (p : BitVec 32) :
    (EntryFault dtab l p ∧ tdCheck dtab l p = some .malformedTable) ∨
    (¬ EntryFault dtab l p ∧ tdCheck dtab l p = none) := by
  rw [EntryFault, ← shiftRight_ne_zero_iff, ← dmatch_isSome_iff, ← or_assoc, tdCheck]
  split
  next hlen => exact .inl ⟨.inl hlen, rfl⟩
  next hlen =>
    split
    next hbits => exact .inl ⟨.inr (.inl hbits), rfl⟩
    next hbits =>
      split
      next hkey => exact .inl ⟨.inr (.inr hkey), rfl⟩
      next hkey => exact .inr ⟨fun h => h.elim hlen fun h => h.elim hbits hkey, rfl⟩

/-- An entry at its place is turned away for its fault. -/
theorem exec_ent_of_fault {s : State} {sym : Sym} {l : BitVec 8} {p : BitVec 32} (hat : s.nextFormat = some .ent)
    (hfault : EntryFault s.work.dtab l p) : exec (.ent sym l p) s = .next (s.raise .malformedTable) := by
  obtain ⟨-, hcheck⟩ | ⟨hok, -⟩ := tdCheck_cases s.work.dtab l p
  · exact (execEnt_at hat sym l p).trans (by rw [hcheck])
  · exact absurd hfault hok

/-- An entry at its place without a fault is taken into the table. -/
theorem exec_ent_of_not_fault {s : State} {sym : Sym} {l : BitVec 8} {p : BitVec 32} (hat : s.nextFormat = some .ent)
    (hok : ¬ EntryFault s.work.dtab l p) :
    exec (.ent sym l p) s = .next { s with work := tdEntry sym l p s.work } := by
  obtain ⟨hfault, -⟩ | ⟨-, hcheck⟩ := tdCheck_cases s.work.dtab l p
  · exact absurd hfault hok
  · exact (execEnt_at hat sym l p).trans (by rw [hcheck])

end Sys2Proof.Machine
end

