-- ==== Sys2Proof/Proofs/TableReading.lean ====
section
/-! SUPPORT. Phase TD on the table of an encoder's file (45_table_deserializer.md R185 to R189), and FEED's copy of that
file (30_encoding.md R100). -/

namespace Sys2Proof.Machine

/-! ### FEED -/

theorem read_copyBytes_before {cap : Option Nat} {src dst : Memory 8} {a n j : Nat} (hj : j < a) :
    (copyBytes cap src dst a n).read j = dst.read j := by
  induction n generalizing dst a with
  | zero => rfl
  | succ n ih =>
    rw [copyBytes, ih (by omega)]
    split
    · exact Memory.read_write_other _ (by omega) _
    · rfl

/-- Bytes that fit are copied. -/
theorem read_copyBytes {cap : Option Nat} {src dst : Memory 8} {a n j : Nat} (hfit : fits cap (a + n) = true)
    (ha : a ≤ j) (hj : j < a + n) : (copyBytes cap src dst a n).read j = src.read j := by
  induction n generalizing dst a with
  | zero => omega
  | succ n ih =>
    rw [copyBytes, if_pos (fits_mono hfit (by omega))]
    obtain rfl | hlt := Nat.eq_or_lt_of_le ha
    · rw [read_copyBytes_before (Nat.lt_succ_self _), Memory.read_write_same]
    · exact ih (Nat.succ_add_eq_add_succ a n ▸ hfit) hlt (by omega)

/-- FEED copies the file to BYTE_IN, if it fits there. -/
theorem feed_byteIn_readList {s : State} {n : Nat} (hfit : fits s.params.byteInCap s.byteOutLen.toNat = true)
    (hn : n ≤ s.byteOutLen.toNat) : s.feed.byteIn.readList 0 n = s.byteOut.readList 0 n := by
  rw [State.feed_byteIn]
  exact Memory.readList_congr _ _ _ _ fun a ha hlt => read_copyBytes (by rwa [Nat.zero_add]) ha (by omega)

/-! ### One record of phase TD -/

/-- Where the bytes at the read pointer are those of an instruction, fetching and decoding comes to running it. -/
theorem runRecord_of_bytes {s : State} {i : Instr}
    (hfit : fits s.params.byteInCap (s.work.rdPtr.toNat + i.format.size) = true)
    (hbytes : s.byteIn.readList s.work.rdPtr.toNat i.format.size = encode i)
    (hdecode : decode i.format (encode i) = .ok (i, [])) : s.runRecord i.format = exec i s := by
  rw [State.runRecord, State.recordBytes, memRead_ok hfit, hbytes]
  simp only [hdecode]

/-- The table entry for an entry of FT and its index, by the codes of `w` (45_table_deserializer.md R192). -/
def Work.dtEntry (w : Work) (p : FtEntry × Nat) : DtEntry :=
  { len := (w.codeAt p.2).len, pat := (w.codeAt p.2).pat, sym := p.1.sym }

/-- The table entries for the entries of FT from index `i` on. -/
def Work.dtEntries (w : Work) (i : Nat) (es : List FtEntry) : List DtEntry := (es.zipIdx i).map w.dtEntry

@[simp] theorem Work.dtEntries_cons (w : Work) (i : Nat) (e : FtEntry) (es : List FtEntry) :
    w.dtEntries i (e :: es) = w.dtEntry (e, i) :: w.dtEntries (i + 1) es := rfl

@[simp] theorem Work.dtEntries_length (w : Work) (i : Nat) (es : List FtEntry) :
    (w.dtEntries i es).length = es.length := by
  rw [Work.dtEntries, List.length_map, List.length_zipIdx]

theorem Work.dtEntries_getElem? {w : Work} {es : List FtEntry} {k : Nat} {e : FtEntry} (i : Nat) (h : es[k]? = some e) :
    (w.dtEntries i es)[k]? = some (w.dtEntry (e, i + k)) := by
  rw [Work.dtEntries, List.getElem?_map, List.getElem?_zipIdx, h]
  rfl

/-- The keys of a table are legal and no two are equal (10_state.md R41). -/
structure LegalTable (dtab : List DtEntry) : Prop where
  legal : ∀ e ∈ dtab, LegalKey e.len e.pat
  distinct : dtab.Pairwise (fun a b => ¬ (a.len = b.len ∧ a.pat = b.pat))

/-- The codes of an ENCODE make a legal table (45_table_deserializer.md R192, 42_code_generator.md R155). -/
theorem legalTable_of_usableCodes {w : Work} (h : UsableCodes w) : LegalTable (w.dtEntries 0 w.ft) where
  legal e he := by
    obtain ⟨p, hp, rfl⟩ := List.mem_map.mp he
    exact h.legal p.2 (List.snd_lt_of_mem_zipIdx hp)
  distinct := by
    rw [List.pairwise_iff_getElem]
    intro i j hi hj hij
    have hlen : (w.dtEntries 0 w.ft).length = w.ft.length := w.dtEntries_length 0 w.ft
    have hne := h.distinct i j (hlen ▸ hi) (hlen ▸ hj) hij.ne
    rintro ⟨hl, hp⟩
    simp only [Work.dtEntries, List.getElem_map, List.getElem_zipIdx, Work.dtEntry, Nat.zero_add] at hl hp
    exact hne (codeEntry_eq_of_len_of_pat hl hp)

/-- Phase TD stands at the entries `es` of the table that `w` describes, the first of them number `i`; with what it has
read so far they make a legal table. -/
structure AtEntries (w : Work) (i : Nat) (es : List FtEntry) (s : State) : Prop where
  phase : s.phase = .td
  behindHeader : s.work.rdPtr ≠ 0
  left : s.work.tdI.toNat + es.length = s.work.tdM.toNat
  room : s.work.rdPtr.toNat + 9 * es.length < 2 ^ 35
  fit : fits s.params.byteInCap (s.work.rdPtr.toNat + 9 * es.length) = true
  bytes : s.byteIn.readList s.work.rdPtr.toNat (9 * es.length) = w.entriesBytes i es
  table : LegalTable (s.work.dtab ++ w.dtEntries i es)

/-- The first of the entries has none of the faults of R189. -/
theorem AtEntries.not_fault {w : Work} {i : Nat} {e : FtEntry} {es : List FtEntry} {s : State}
    (h : AtEntries w i (e :: es) s) :
    ¬ EntryFault s.work.dtab ((w.codeAt i).len.setWidth 8) (w.codeAt i).pat := by
  have hnew : w.dtEntry (e, i) ∈ w.dtEntries i (e :: es) := List.mem_cons_self
  obtain ⟨hone, hlen, hpat⟩ := h.table.legal _ (List.mem_append_right _ hnew)
  have hwidth : ((w.codeAt i).len.setWidth 8).toNat = (w.codeAt i).len.toNat := by
    rw [BitVec.toNat_setWidth]
    omega
  rw [EntryFault, hwidth]
  rintro (hzero | hlong | ⟨-, hbits⟩ | ⟨d, hd, hdlen, hdpat⟩)
  · exact absurd hone (by simp [Work.dtEntry, hzero])
  · exact absurd hlen (Nat.not_le_of_lt hlong)
  · exact hbits (Nat.div_eq_of_lt hpat)
  · exact (List.pairwise_append.mp h.table.distinct).2.2 d hd _ hnew ⟨BitVec.eq_of_toNat_eq hdlen, hdpat⟩

/-- Reading one entry moves the reader to the next and puts the entry's key and Symbol into DTAB. -/
theorem AtEntries.read_entry {w : Work} {i : Nat} {e : FtEntry} {es : List FtEntry} {s : State}
    (h : AtEntries w i (e :: es) s) :
    s.nextFormat = some .ent ∧ ∃ t, s.tdRecord .ent = .next t ∧ AtEntries w (i + 1) es t ∧
      t.work.dtab = s.work.dtab ++ [w.dtEntry (e, i)] := by
  have hok := h.not_fault
  obtain ⟨hphase, hbehind, hleft, hroom, hfit, hbytes, htable⟩ := h
  rw [List.length_cons] at hleft hroom hfit hbytes
  have hat : s.nextFormat = some .ent := nextFormat_ent.mpr ⟨hphase, hbehind, BitVec.lt_def.mpr (by omega)⟩
  rw [Nat.mul_succ, Nat.add_comm (9 * es.length), Memory.readList_append] at hbytes
  obtain ⟨hentry, hrest⟩ := List.append_inj hbytes (Memory.readList_length _ _ _)
  have hrun : s.tdRecord .ent = exec (entryRecord w e i) s :=
    (if_neg (by simp)).trans (runRecord_of_bytes (i := entryRecord w e i)
      (fits_mono hfit (by simp only [entryRecord, Instr.format, Format.size]; omega)) hentry
      (decode_encode_ent _ _ _ []))
  have hptr : (s.work.rdPtr + 9).toNat = s.work.rdPtr.toNat + 9 := by bv_omega
  have hidx : (s.work.tdI + 1).toNat = s.work.tdI.toNat + 1 := by bv_omega
  have hnew : DtEntry.mk (((w.codeAt i).len.setWidth 8).setWidth 6) (w.codeAt i).pat e.sym = w.dtEntry (e, i) := by
    rw [BitVec.setWidth_setWidth_of_le _ (by decide), BitVec.setWidth_eq]
    rfl
  refine ⟨hat, _, hrun.trans (exec_ent_of_not_fault hat hok),
    ⟨hphase, ?behind, ?left, ?room, ?fit, ?bytes, ?table⟩, ?dtab⟩
  case behind =>
    intro hzero
    have hlow : s.work.rdPtr.toNat + 9 = 0 := hptr.symm.trans (congrArg BitVec.toNat hzero)
    omega
  case left => exact (by omega : (s.work.tdI + 1).toNat + es.length = s.work.tdM.toNat)
  case room => exact hptr ▸ (by omega)
  case fit => exact hptr ▸ (by rwa [Nat.add_assoc, Nat.add_comm 9])
  case bytes => exact hptr ▸ hrest
  case table => simpa only [tdEntry, hnew, List.append_assoc, List.singleton_append, Work.dtEntries_cons] using htable
  case dtab => rw [tdEntry, hnew]

/-- Phase TD reads the entries to the last and goes on to phase DE (45_table_deserializer.md R185). -/
theorem AtEntries.read_all {w : Work} {i : Nat} {es : List FtEntry} {s : State} (h : AtEntries w i es s) :
    ∃ u, s.tdLoop es.length = .next u ∧ u.phase = .de ∧ u.work.dtab = s.work.dtab ++ w.dtEntries i es := by
  induction es generalizing i s with
  | nil => exact ⟨_, rfl, rfl, (List.append_nil _).symm⟩
  | cons e es ih =>
    obtain ⟨hat, t, hrecord, hnext, hdtab⟩ := h.read_entry
    obtain ⟨u, hu, hphase, hread⟩ := ih hnext
    refine ⟨u, ?_, hphase, ?_⟩
    · rw [List.length_cons, tdLoop_some hat, hrecord]
      exact (if_pos hnext.phase).trans hu
    · rw [hread, hdtab, List.append_assoc, List.singleton_append, Work.dtEntries_cons]

/-! ### The whole of phase TD -/

/-- Phase TD on a file that begins with the table `w` describes (45_table_deserializer.md R192). -/
theorem coreTD_reads_table {w : Work} {s : State} (hphase : s.phase = .td) (hptr : s.work.rdPtr = 0)
    (hidx : s.work.tdI = 0) (hdtab : s.work.dtab = []) (hmax : w.ft.length ≤ 65535)
    (hnMax : w.ft.length ≤ s.params.nMax) (hlen : 2 + 9 * w.ft.length ≤ s.byteInLen.toNat)
    (hfit : fits s.params.byteInCap s.byteInLen.toNat = true)
    (hbytes : s.byteIn.readList 0 (2 + 9 * w.ft.length) = w.tableBytes) (htable : LegalTable (w.dtEntries 0 w.ft)) :
    ∃ u, s.coreTD = .next u ∧ u.phase = .de ∧ u.work.dtab = w.dtEntries 0 w.ft := by
  have hsize : w.ftN.toNat = w.ft.length := Nat.mod_eq_of_lt (by omega)
  rw [Memory.readList_append] at hbytes
  obtain ⟨hheader, hentries⟩ := List.append_inj hbytes (Memory.readList_length _ _ _)
  have hat : s.nextFormat = some .hdr := nextFormat_hdr.mpr ⟨hphase, hptr⟩
  have hzero : s.work.rdPtr.toNat = 0 := congrArg BitVec.toNat hptr
  have hrun : s.tdRecord .hdr = exec (.hdr w.ftN) s :=
    (if_neg (by omega)).trans (runRecord_of_bytes (i := .hdr w.ftN)
      (fits_mono hfit (by rw [hzero, Nat.zero_add]; exact (Nat.le_add_right 2 _).trans hlen))
      (hzero.symm ▸ hheader) (decode_encode_hdr _ []))
  have hcheck : tdSizeCheck s.params.nMax s.byteInLen w.ftN = none := by
    rw [tdSizeCheck, hsize, if_neg (by omega), if_neg (by omega)]
  have hexec : exec (.hdr w.ftN) s = .next { s with work := tdHeader w.ftN s.work } :=
    (execHdr_at hat w.ftN).trans (by rw [hcheck])
  have hstart : AtEntries w 0 w.ft { s with work := tdHeader w.ftN s.work } := by
    refine ⟨hphase, (by decide : (2#35) ≠ 0), ?left, ?room, ?fit, hentries, ?table⟩
    case left => simp [hidx, hsize]
    case room => exact (by omega : 2 + 9 * w.ft.length < 2 ^ 35)
    case fit => exact fits_mono hfit hlen
    case table => simpa [hdtab] using htable
  obtain ⟨u, hu, hde, hread⟩ := hstart.read_all
  have hleft : (tdHeader w.ftN s.work).entriesLeft = w.ft.length := by simp [Work.entriesLeft, hidx, hsize]
  refine ⟨u, ?_, hde, ?_⟩
  · rw [coreTD_header hptr, hrun, hexec]
    refine (if_pos hphase).trans ?_
    dsimp only
    rw [hleft, hu]
  · rw [hread, tdHeader_dtab, hdtab, List.nil_append]

/-- A DECODE that starts on such a file reads the table in its first step. -/
theorem decode_reads_table {w : Work} {s : State} (hports : s.portsOk .decode = true)
    (hfit : s.inputFits .decode = true) (hmax : w.ft.length ≤ 65535) (hnMax : w.ft.length ≤ s.params.nMax)
    (hlen : 2 + 9 * w.ft.length ≤ s.byteInLen.toNat)
    (hbytes : s.byteIn.readList 0 (2 + 9 * w.ft.length) = w.tableBytes) (htable : LegalTable (w.dtEntries 0 w.ft)) :
    ∃ u, coreStep (s.start .decode) = .next u ∧ u.phase = .de ∧ u.work.dtab = w.dtEntries 0 w.ft := by
  rw [start_ok hports hfit, coreStep_td rfl]
  exact coreTD_reads_table rfl (by simp) (by simp) (by simp) hmax (by simpa using hnMax) (by simpa using hlen)
    (by simpa [State.inputFits] using hfit) (by simpa using hbytes) htable

end Sys2Proof.Machine
end

