-- ==== Sys2Proof/Proofs/TableDeserializer.lean ====
section
/-! The statements about unit TD (45_table_deserializer.md). -/

namespace Sys2Proof
open Machine

/-- Settles O48: the checks of `TD.CHECK` together say whether the entry has one of the faults of R189. -/
theorem entryChecks : Obligations.EntryChecks := by
  intro sym l p s hphase hptr hidx
  have hat : s.nextFormat = some .ent := nextFormat_ent.mpr ⟨hphase, hptr, hidx⟩
  exact ⟨exec_ent_of_fault hat, fun hok => ⟨_, exec_ent_of_not_fault hat hok, rfl, rfl, hphase⟩⟩

/-- Settles O51: codes of a tree are distinct and legal, so that TD takes every entry TS has written; and EN, FEED and
START leave the table's bytes as they are. -/
theorem tableRoundTrip : Obligations.TableRoundTrip := by
  intro s m t c hparams hm ht herr hfit hport2 hport3
  obtain ⟨hcodes, hmax, hnMax, hlen, hbytes⟩ := encode_keeps_table hparams hm ht herr
  have hfed : t.feed.byteIn.readList 0 (2 + 9 * m.work.ft.length) = m.work.tableBytes :=
    (feed_byteIn_readList hfit hlen).trans hbytes
  obtain ⟨u, hstep, hde, hdtab⟩ := decode_reads_table (s := { t.feed with cfg := c })
    (Bool.and_eq_true_iff.mpr ⟨hport2, hport3⟩) hfit hmax hnMax hlen hfed (legalTable_of_usableCodes hcodes)
  obtain ⟨-, hidle, -⟩ := ht
  have hcount : u.work.dtab.length = m.work.ft.length := by rw [hdtab, Work.dtEntries_length]
  refine ⟨u, ⟨hidle, hde, 1, coreRun_succ hstep⟩, hstep, ?_, hcount, fun i e he => ?_⟩
  · rw [Work.dtabN, BitVec.toNat_ofNat, hcount, Nat.mod_eq_of_lt (by omega)]
  · rw [hdtab, Work.dtEntries_getElem? 0 he, Nat.zero_add]
    rfl

end Sys2Proof
end

