-- ==== Sys2Proof/Proofs/Accumulator.lean ====
section
/-! SUPPORT. The reader and the accumulator of unit DE on one bit (46_decoder.md R201, R202), and what `DE.MATCH`
finds and does (R203). -/

namespace Sys2Proof.Machine

/-! ### The reader -/

/-- `DE.NEXTBIT` moves the reader one bit on, also across the end of a byte (46_decoder.md R201). -/
theorem deAdvance_position {w : Work} (h : w.rdPtr.toNat + 1 < 2 ^ 35) :
    8 * (deAdvance w).rdPtr.toNat + (deAdvance w).bitPos.toNat = 8 * w.rdPtr.toNat + w.bitPos.toNat + 1 := by
  rw [deAdvance]
  split
  next hlast => simp only [hlast]; bv_omega
  next hinside => dsimp only; bv_omega

theorem deAdvance_frame (w : Work) : deAdvance w = { w with
    rdPtr := (deAdvance w).rdPtr, bitPos := (deAdvance w).bitPos, bitsLeft := (deAdvance w).bitsLeft } := by
  unfold deAdvance; split <;> rfl

/-! ### The accumulator -/

theorem deAppend_of_lt {w : Work} (h : w.accLen.toNat < 32) (b : Bool) :
    deAppend b w = { w with
      accPat := (w.accPat <<< 1) ||| (BitVec.ofBool b).setWidth 32, accLen := w.accLen + 1 } :=
  if_pos (BitVec.lt_def.mpr h)

theorem deAppend_of_le {w : Work} (h : 32 ≤ w.accLen.toNat) (b : Bool) : deAppend b w = { w with accLen := 33 } :=
  if_neg (by bv_omega)

theorem deAppend_accLen_toNat {w : Work} (h : w.accLen.toNat < 32) (b : Bool) :
    (deAppend b w).accLen.toNat = w.accLen.toNat + 1 := by
  rw [deAppend_of_lt h]
  bv_omega

/-- Shifting a bit into a pattern puts it last into the bit-string (30_encoding.md R95). -/
theorem bitString_shiftLeft_or {l : Nat} (hl : l < 32) (p : BitVec 32) (b : Bool) :
    bitString (l + 1) ((p <<< 1) ||| (BitVec.ofBool b).setWidth 32) = bitString l p ++ [b] := by
  have hinit : ∀ i ∈ List.range l,
      ((p <<< 1) ||| (BitVec.ofBool b).setWidth 32).getLsbD (l + 1 - 1 - i) = p.getLsbD (l - 1 - i) := by
    intro i hi
    obtain ⟨j, rfl⟩ := Nat.exists_eq_add_of_lt (List.mem_range.mp hi)
    have hnew : i + j + 1 + 1 - 1 - i = j + 1 := by omega
    have hold : i + j + 1 - 1 - i = j := by omega
    have hkept : j + 1 < 32 := by omega
    rw [hnew, hold]
    simp [hkept, Nat.lt_of_succ_lt hkept, BitVec.getLsbD_eq_getElem]
  have hlast : ((p <<< 1) ||| (BitVec.ofBool b).setWidth 32).getLsbD (l + 1 - 1 - l) = b := by simp
  rw [bitString, List.range_succ, List.map_append, List.map_singleton, List.map_congr_left hinit, hlast, bitString]

/-! ### The key -/

/-- The accumulator is no key: it is empty, it is saturated, or no entry has its length and pattern
(46_decoder.md R203). -/
theorem deKey_eq_none_iff (w : Work) :
    deKey w = none ↔
      w.accLen = 0 ∨ 32 < w.accLen.toNat ∨ ∀ e ∈ w.dtab, ¬ (e.len = w.accLen ∧ e.pat = w.accPat) := by
  have hmatch : dmatch w.dtab w.accLen.toNat w.accPat = none ↔
      ∀ e ∈ w.dtab, ¬ (e.len = w.accLen ∧ e.pat = w.accPat) := by
    simp [dmatch, BitVec.toNat_inj]
  rw [deKey, ← hmatch]
  split
  next hlen =>
    obtain ⟨hpos, hle⟩ := hlen
    have hne : w.accLen ≠ 0 := by bv_omega
    have hnot : ¬ 32 < w.accLen.toNat := by bv_omega
    simp only [hne, hnot, false_or]
  next hlen =>
    have hout : w.accLen = 0 ∨ 32 < w.accLen.toNat := by bv_omega
    exact iff_of_true rfl (or_assoc.mp (.inl hout))

/-- What `dmatch` finds is an entry with the accumulator's length and pattern (10_state.md R41). -/
theorem mem_of_deKey_eq_some {w : Work} {e : DtEntry} (h : deKey w = some e) :
    e ∈ w.dtab ∧ e.len = w.accLen ∧ e.pat = w.accPat := by
  rw [deKey] at h
  split at h
  next =>
    have hfound := List.find?_some h
    rw [Bool.and_eq_true, decide_eq_true_eq, decide_eq_true_eq] at hfound
    exact ⟨List.mem_of_find?_eq_some h, BitVec.eq_of_toNat_eq hfound.1, hfound.2⟩
  next => cases h

/-- Keys being unique, the key the accumulator equals is the one found. -/
theorem deKey_eq_some_of_unique {w : Work} {e : DtEntry} (he : e ∈ w.dtab) (hpos : 1 ≤ w.accLen.toNat)
    (hle : w.accLen.toNat ≤ 32) (hlen : e.len = w.accLen) (hpat : e.pat = w.accPat)
    (hunique : ∀ e' ∈ w.dtab, e'.len = e.len → e'.pat = e.pat → e' = e) : deKey w = some e := by
  cases hkey : deKey w with
  | none =>
    obtain hzero | hlong | hmissing := (deKey_eq_none_iff w).mp hkey
    · exact absurd hpos (by simp [hzero])
    · exact absurd hle hlong.not_ge
    · exact absurd ⟨hlen, hpat⟩ (hmissing e he)
  | some e' =>
    obtain ⟨he', hlen', hpat'⟩ := mem_of_deKey_eq_some hkey
    rw [hunique e' he' (hlen'.trans hlen.symm) (hpat'.trans hpat.symm)]

/-! ### `DE.MATCH` -/

theorem deMatch_of_none {cap : Option Nat} {x : Emitter} (h : deKey x.1 = none) : deMatch cap x = .ok x := by
  rw [deMatch, h]

/-- With a key, `DE.MATCH` writes its Symbol or finds SYM_OUT full. -/
theorem deMatch_of_some {cap : Option Nat} {x : Emitter} {e : DtEntry} (h : deKey x.1 = some e) :
    (fits cap (x.1.outIdx.toNat + 1) = false → deMatch cap x = .error .ioError) ∧
    (fits cap (x.1.outIdx.toNat + 1) = true →
      deMatch cap x = .ok ({ x.1 with outIdx := x.1.outIdx + 1, accPat := 0, accLen := 0 },
        x.2.write x.1.outIdx.toNat e.sym)) := by
  obtain ⟨hnone, -⟩ | ⟨e', hkey, hfull, hm⟩ | ⟨e', hkey, hroom, hm⟩ := deMatch_cases cap x
  · rw [h] at hnone
    cases hnone
  · exact ⟨fun _ => hm, fun hroom => absurd (hfull.symm.trans hroom) Bool.false_ne_true⟩
  · cases Option.some.inj (h.symm.trans hkey)
    exact ⟨fun hfull => absurd (hfull.symm.trans hroom) Bool.false_ne_true, fun _ => hm⟩

end Sys2Proof.Machine
end

