-- ==== Sys2Proof/Proofs/Decoder.lean ====
section
/-! The statements about unit DE (46_decoder.md). -/

namespace Sys2Proof
open Machine

/-- Settles O52: the reader carries into the byte pointer at the end of a byte, and a bit shifted into the pattern
stands last in its bit-string. -/
theorem nextBitIsAppended : Obligations.NextBitIsAppended := by
  intro b byte w
  refine ⟨rfl, fun hleft hptr => ⟨deAdvance_position hptr, ?left, deAdvance_frame w⟩,
    fun hlt _ => ⟨deAppend_accLen_toNat hlt b, ?string, ?frame⟩, fun hle => deAppend_of_le hle b⟩
  case left =>
    rw [deAdvance_bitsLeft]
    bv_omega
  case string =>
    rw [deAppend_accLen_toNat hlt, deAppend_of_lt hlt]
    exact bitString_shiftLeft_or hlt w.accPat b
  case frame => rw [deAppend_of_lt hlt]

/-- Settles O53: the key the accumulator equals is the one `dmatch` finds, and `DE.MATCH` writes its Symbol. -/
theorem matchEmitsAndClears : Obligations.MatchEmitsAndClears := by
  intro cap x
  refine ⟨fun e he hpos hle hlen hpat hunique => ?key, fun hnone =>
    deMatch_of_none ((deKey_eq_none_iff x.1).mpr hnone)⟩
  case key =>
    obtain ⟨hfull, hroom⟩ := deMatch_of_some (cap := cap) (deKey_eq_some_of_unique he hpos hle hlen hpat hunique)
    exact ⟨hfull, fun hfits => ⟨_, hroom hfits, Memory.read_write_same _ _ _, fun a hne =>
      Memory.read_write_other _ hne _⟩⟩

end Sys2Proof
end

