-- ==== Sys2Proof/Proofs/EncodeOutcome.lean ====
section
/-! SUPPORT. The end of an ENCODE as a function of the state before START (47_commands.md R215, R217, R218), and the
tables it has built where phase EN begins. -/

namespace Sys2Proof.Machine

section Except
variable {ε α β : Type}

@[simp] theorem except_error_bind (e : ε) (f : α → Except ε β) : Except.error e >>= f = .error e := rfl

@[simp] theorem except_ok_bind (a : α) (f : α → Except ε β) : Except.ok a >>= f = f a := rfl

theorem except_bind_eq_ok_iff {x : Except ε α} {f : α → Except ε β} {b : β} :
    x >>= f = .ok b ↔ ∃ a, x = .ok a ∧ f a = .ok b := by
  cases x with
  | error e => exact ⟨nofun, nofun⟩
  | ok a => exact ⟨fun h => ⟨a, rfl, h⟩, fun ⟨_, ha, h⟩ => Except.ok.inj ha ▸ h⟩

end Except

/-! ### What an ENCODE computes -/

/-- START's checks (47_commands.md R217). -/
def State.startCheck (s : State) (op : Op) : Except ErrKind Unit :=
  if s.portsOk op = true ∧ s.inputFits op = true then .ok () else .error .ioError

/-- Phases TB and CG, which an empty FT skips (40_frequency_analyzer.md R120). -/
def buildCodes (w : Work) : Except ErrKind Work := if w.ft.length = 0 then .ok w else cgRun (tbRun w)

/-- What the units of an ENCODE leave in the working registers and in BYTE_OUT, or the first error. -/
def State.encodeRun (s : State) : Except ErrKind Writer := do
  s.startCheck .encode
  let w ← faRun s.params s.symIn s.inLen (Work.start .encode false)
  let v ← buildCodes w
  let z ← tsRun s.params.byteOutCap (v, s.byteOut)
  enRun s.params s.symIn s.inLen z

/-- The state an ENCODE without error ends in. -/
def State.encodeDone (s : State) (y : Writer) : State :=
  ({ s.startClear .encode with work := y.1, byteOut := y.2, encBits := y.1.bitTotal, byteOutLen := y.1.wrPtr,
                               encTabN := y.1.ftN } : State).complete

/-- The state an ENCODE ends in, by what its units have left or the first error. -/
def State.encodeOutcome (s : State) : Except ErrKind Writer → State
  | .error e => (s.startClear .encode).raise e
  | .ok y => s.encodeDone y

theorem encodeOutcome_phase (s : State) (r : Except ErrKind Writer) : (s.encodeOutcome r).phase = .idle := by
  cases r with
  | error e => exact State.raise_phase _ e
  | ok y => rfl

theorem startCheck_eq_ok_iff {s : State} {op : Op} :
    s.startCheck op = .ok () ↔ s.portsOk op = true ∧ s.inputFits op = true := by
  rw [State.startCheck]
  split
  next h => exact iff_of_true rfl h
  next h => exact iff_of_false nofun h

/-- The units of an ENCODE without error, one after another. -/
theorem encodeRun_eq_ok_iff {s : State} {y : Writer} : s.encodeRun = .ok y ↔
    s.startCheck .encode = .ok () ∧
    ∃ w, faRun s.params s.symIn s.inLen (Work.start .encode false) = .ok w ∧
    ∃ v, buildCodes w = .ok v ∧
    ∃ z, tsRun s.params.byteOutCap (v, s.byteOut) = .ok z ∧ enRun s.params s.symIn s.inLen z = .ok y := by
  simp only [State.encodeRun, except_bind_eq_ok_iff]
  exact ⟨fun ⟨_, h⟩ => h, fun h => ⟨(), h⟩⟩

/-! ### The states of its run -/

/-- An ENCODE with phase `p` to be done next: only the working registers and BYTE_OUT have changed since START. -/
def State.encoding (s : State) (p : Phase) (x : Writer) : State :=
  { s.startClear .encode with phase := p, work := x.1, byteOut := x.2 }

/-- An ENCODE between two steps: what the units before have computed from the state before START. -/
inductive EncodeAt (s : State) : State → Prop
  | fa (start : s.startCheck .encode = .ok ()) : EncodeAt s (s.encoding .fa (Work.start .encode false, s.byteOut))
  | tb {w : Work} (start : s.startCheck .encode = .ok ())
      (analysed : faRun s.params s.symIn s.inLen (Work.start .encode false) = .ok w) (nonempty : w.ft.length ≠ 0) :
      EncodeAt s (s.encoding .tb (w, s.byteOut))
  | cg {w : Work} (start : s.startCheck .encode = .ok ())
      (analysed : faRun s.params s.symIn s.inLen (Work.start .encode false) = .ok w) (nonempty : w.ft.length ≠ 0) :
      EncodeAt s (s.encoding .cg (tbRun w, s.byteOut))
  | ts {w v : Work} (start : s.startCheck .encode = .ok ())
      (analysed : faRun s.params s.symIn s.inLen (Work.start .encode false) = .ok w) (coded : buildCodes w = .ok v) :
      EncodeAt s (s.encoding .ts (v, s.byteOut))
  | en {w v : Work} {z : Writer} (start : s.startCheck .encode = .ok ())
      (analysed : faRun s.params s.symIn s.inLen (Work.start .encode false) = .ok w) (coded : buildCodes w = .ok v)
      (written : tsRun s.params.byteOutCap (v, s.byteOut) = .ok z) : EncodeAt s (s.encoding .en z)
  | ended : EncodeAt s (s.encodeOutcome s.encodeRun)

/-- FA leaves every register but FT and in_idx as START sets it. -/
theorem faRun_start {p : Params} {symIn : Memory 32} {inLen : BitVec 32} {w : Work}
    (h : faRun p symIn inLen (Work.start .encode false) = .ok w) :
    w = { Work.start .encode false with ft := w.ft, inIdx := w.inIdx } := faRun_frame h

/-- TB and CG keep FT and the registers they do not work on. -/
theorem buildCodes_frame {w v : Work} (h : buildCodes w = .ok v) :
    v = { w with node := v.node, pq := v.pq, root := v.root, stack := v.stack, code := v.code } := by
  rw [buildCodes] at h
  split at h
  next =>
    cases h
    rfl
  next =>
    rw [cgRun_frame h, tbRun_frame w]

/-- cur_op and len_en are START's wherever a phase can raise an error. -/
theorem op_of_tbRun {p : Params} {symIn : Memory 32} {inLen : BitVec 32} {w : Work}
    (h : faRun p symIn inLen (Work.start .encode false) = .ok w) :
    (tbRun w).curOp = .encode ∧ (tbRun w).lenEn = false := by
  rw [tbRun_frame w, faRun_start h]
  exact ⟨rfl, rfl⟩

theorem op_of_buildCodes {p : Params} {symIn : Memory 32} {inLen : BitVec 32} {w v : Work}
    (h : faRun p symIn inLen (Work.start .encode false) = .ok w) (hv : buildCodes w = .ok v) :
    v.curOp = .encode ∧ v.lenEn = false := by
  rw [buildCodes_frame hv, faRun_start h]
  exact ⟨rfl, rfl⟩

theorem op_of_tsRun {p : Params} {symIn : Memory 32} {inLen : BitVec 32} {cap : Option Nat} {m : Memory 8}
    {w v : Work} {z : Writer} (h : faRun p symIn inLen (Work.start .encode false) = .ok w) (hv : buildCodes w = .ok v)
    (hz : tsRun cap (v, m) = .ok z) : z.1.curOp = .encode ∧ z.1.lenEn = false := by
  have hop := op_of_buildCodes h hv
  rw [tsRun_frame hz]
  exact hop

/-- Everything phase FA can do. -/
theorem phaseFA_cases (s : State) :
    (∃ e, faRun s.params s.symIn s.inLen s.work = .error e ∧ s.phaseFA = s.raise e) ∨
    (∃ w, faRun s.params s.symIn s.inLen s.work = .ok w ∧
      s.phaseFA = ({ s with work := w } : State).toPhase (if w.ft.length = 0 then .ts else .tb)) := by
  rw [State.phaseFA]
  cases faRun s.params s.symIn s.inLen s.work with
  | error e => exact .inl ⟨e, rfl, rfl⟩
  | ok w => exact .inr ⟨w, rfl, rfl⟩

/-- Everything phase CG can do. -/
theorem phaseCG_cases (s : State) :
    (∃ e, cgRun s.work = .error e ∧ s.phaseCG = s.raise e) ∨
    (∃ w, cgRun s.work = .ok w ∧ s.phaseCG = ({ s with work := w } : State).toPhase .ts) := by
  rw [State.phaseCG]
  cases cgRun s.work with
  | error e => exact .inl ⟨e, rfl, rfl⟩
  | ok w => exact .inr ⟨w, rfl, rfl⟩

/-- Everything phase TS can do. -/
theorem phaseTS_cases (s : State) :
    (∃ e, tsRun s.params.byteOutCap (s.work, s.byteOut) = .error e ∧ s.phaseTS = s.raise e) ∨
    (∃ y, tsRun s.params.byteOutCap (s.work, s.byteOut) = .ok y ∧
      s.phaseTS = ({ s with work := y.1, byteOut := y.2 } : State).toPhase .en) := by
  rw [State.phaseTS]
  cases tsRun s.params.byteOutCap (s.work, s.byteOut) with
  | error e => exact .inl ⟨e, rfl, rfl⟩
  | ok y => exact .inr ⟨y, rfl, rfl⟩

/-- Phase EN ends the command with the outcome of `EN.RUN` (43_encoder_packer.md R160). -/
theorem phaseEN_outcome (s : State) :
    (∃ e, enRun s.params s.symIn s.inLen (s.work, s.byteOut) = .error e ∧ s.phaseEN = s.raise e) ∨
    (∃ y, enRun s.params s.symIn s.inLen (s.work, s.byteOut) = .ok y ∧
      s.phaseEN = ({ s with work := y.1, byteOut := y.2, encBits := y.1.bitTotal, byteOutLen := y.1.wrPtr,
                            encTabN := y.1.ftN } : State).complete) := by
  rw [State.phaseEN]
  cases enRun s.params s.symIn s.inLen (s.work, s.byteOut) with
  | error e => exact .inl ⟨e, rfl, rfl⟩
  | ok y => exact .inr ⟨y, rfl, rfl⟩

/-- An error of an ENCODE leaves nothing of what its phases have done (60_exceptions.md R245). -/
theorem raise_encoding {s : State} {x : Writer} (p : Phase) (e : ErrKind)
    (hop : x.1.curOp = .encode ∧ x.1.lenEn = false) : (s.encoding p x).raise e = (s.startClear .encode).raise e := by
  have hraise : ∀ u : State, u.work.curOp = .encode → u.work.lenEn = false → u.raise e =
      ((({ u with work := Work.start .encode false } : State).flagsError e).clearResults .encode).forgetOutput
        .encode := by
    intro u hu hlen
    rw [State.raise, State.dropWork, hu, hlen]
  rw [hraise _ hop.1 hop.2, hraise (s.startClear .encode) rfl rfl]
  rfl

theorem encodeAt_raise {s : State} {x : Writer} {p : Phase} {e : ErrKind} (hrun : s.encodeRun = .error e)
    (hop : x.1.curOp = .encode ∧ x.1.lenEn = false) : EncodeAt s ((s.encoding p x).raise e) := by
  have hend : (s.encoding p x).raise e = s.encodeOutcome s.encodeRun := by
    rw [raise_encoding p e hop, hrun]
    rfl
  exact hend ▸ .ended

theorem encodeAt_start (s : State) : EncodeAt s (s.start .encode) := by
  obtain ⟨hports, hfits, hstart⟩ | ⟨hfail, hstart⟩ := start_cases s .encode
  · exact hstart ▸ .fa (startCheck_eq_ok_iff.mpr ⟨hports, hfits⟩)
  · have hcheck : s.startCheck .encode = .error .ioError :=
      if_neg (by rwa [not_and_or, Bool.not_eq_true, Bool.not_eq_true])
    have hrun : s.encodeRun = .error .ioError := by simp [State.encodeRun, hcheck]
    have hend : s.start .encode = s.encodeOutcome s.encodeRun := by rw [hstart, hrun]; rfl
    exact hend ▸ .ended

/-- A step of an ENCODE leads on to the next of these states. -/
theorem encodeAt_coreStep (s u t : State) (h : EncodeAt s u) (hstep : coreStep u = .next t) : EncodeAt s t := by
  cases h with
  | fa hcheck =>
    obtain rfl := Host.Outcome.next.inj ((coreStep_fa rfl).symm.trans hstep)
    obtain ⟨e, he, hend⟩ | ⟨w, hw, hnext⟩ :=
      phaseFA_cases (s.encoding .fa (Work.start .encode false, s.byteOut))
    · replace he : faRun s.params s.symIn s.inLen (Work.start .encode false) = .error e := he
      exact hend ▸ encodeAt_raise (by simp [State.encodeRun, hcheck, he]) ⟨rfl, rfl⟩
    · rw [hnext]
      split
      next hempty => exact .ts hcheck hw (if_pos hempty)
      next hne => exact .tb hcheck hw hne
  | tb hcheck hw hne =>
    obtain rfl := Host.Outcome.next.inj ((coreStep_tb rfl).symm.trans hstep)
    exact .cg hcheck hw hne
  | @cg w hcheck hw hne =>
    obtain rfl := Host.Outcome.next.inj ((coreStep_cg rfl).symm.trans hstep)
    obtain ⟨e, he, hend⟩ | ⟨v, hv, hnext⟩ := phaseCG_cases (s.encoding .cg (tbRun w, s.byteOut))
    · have hbuild : buildCodes w = .error e := (if_neg hne).trans he
      exact hend ▸ encodeAt_raise (by simp [State.encodeRun, hcheck, hw, hbuild]) (op_of_tbRun hw)
    · exact hnext ▸ .ts hcheck hw ((if_neg hne).trans hv)
  | @ts w v hcheck hw hv =>
    obtain rfl := Host.Outcome.next.inj ((coreStep_ts rfl).symm.trans hstep)
    obtain ⟨e, he, hend⟩ | ⟨z, hz, hnext⟩ := phaseTS_cases (s.encoding .ts (v, s.byteOut))
    · replace he : tsRun s.params.byteOutCap (v, s.byteOut) = .error e := he
      exact hend ▸ encodeAt_raise (by simp [State.encodeRun, hcheck, hw, hv, he]) (op_of_buildCodes hw hv)
    · exact hnext ▸ .en hcheck hw hv hz
  | @en w v z hcheck hw hv hz =>
    obtain rfl := Host.Outcome.next.inj ((coreStep_en rfl).symm.trans hstep)
    obtain ⟨e, he, hend⟩ | ⟨y, hy, hend⟩ := phaseEN_outcome (s.encoding .en z)
    · replace he : enRun s.params s.symIn s.inLen z = .error e := he
      exact hend ▸ encodeAt_raise (by simp [State.encodeRun, hcheck, hw, hv, hz, he]) (op_of_tsRun hw hv hz)
    · have hrun : s.encodeRun = .ok y := encodeRun_eq_ok_iff.mpr ⟨hcheck, w, hw, v, hv, z, hz, hy⟩
      have hdone : (s.encoding .en z).phaseEN = s.encodeOutcome s.encodeRun := by rw [hend, hrun]; rfl
      exact hdone ▸ .ended
  | ended =>
    obtain rfl := Host.Outcome.next.inj ((coreStep_idle (encodeOutcome_phase s _)).symm.trans hstep)
    exact .ended

/-- The end of an ENCODE. -/
theorem encode_end {s t : State} (h : EndOfRun .encode s t) : t = s.encodeOutcome s.encodeRun := by
  obtain ⟨-, hidle, k, hk⟩ := h
  cases coreRun_invariant (encodeAt_coreStep s) (encodeAt_start s) hk with
  | ended => rfl
  | _ => cases hidle

/-- The tables of an ENCODE, where its phase EN begins. -/
theorem encode_reaches_en {s m : State} (h : Reaches .encode .en s m) :
    ∃ w, faRun s.params s.symIn s.inLen (Work.start .encode false) = .ok w ∧
    ∃ v, buildCodes w = .ok v ∧ ∃ z, tsRun s.params.byteOutCap (v, s.byteOut) = .ok z ∧ m = s.encoding .en z := by
  obtain ⟨-, hphase, k, hk⟩ := h
  cases coreRun_invariant (encodeAt_coreStep s) (encodeAt_start s) hk with
  | @en w v z _ hw hv hz => exact ⟨w, hw, v, hv, z, hz, rfl⟩
  | ended => cases (encodeOutcome_phase s _).symm.trans hphase
  | _ => cases hphase

end Sys2Proof.Machine
end

