-- ==== Sys2Proof/Proofs/FrequencyTable.lean ====
section
/-! SUPPORT. FT as a function of the input sequence, and that the order of the input does not matter to it
(40_frequency_analyzer.md R120 to R122). -/

namespace Sys2Proof.Machine

theorem Memory.read_eq_of_readList_eq {w : Nat} {m m' : Memory w} {a n : Nat}
    (h : m.readList a n = m'.readList a n) {j : Nat} (ha : a ≤ j) (hj : j < a + n) : m.read j = m'.read j := by
  obtain ⟨k, rfl⟩ := Nat.exists_eq_add_of_le ha
  have hk : k < n := by omega
  have hget := congrArg (·[k]?) h
  simpa only [Memory.readList_getElem? _ _ _ _ hk, Option.some.injEq] using hget

/-- FA reads nothing of SYM_IN but the input sequence. -/
theorem faLoop_congr {p : Params} {symIn symIn' : Memory 32} {inLen : BitVec 32}
    (h : ∀ a < inLen.toNat, symIn.read a = symIn'.read a) (n : Nat) (w : Work) :
    faLoop p symIn inLen n w = faLoop p symIn' inLen n w := by
  induction n generalizing w with
  | zero => rfl
  | succ n ih =>
    simp only [faLoop, ih]
    split
    next hlt => simp only [memReadOne, h _ (BitVec.lt_def.mp hlt)]
    next => rfl

/-- FT after one more input Symbol (40_frequency_analyzer.md R121). -/
def ftCount : List FtEntry → Sym → List FtEntry
  | [], x => [{ sym := x, cnt := 1 }]
  | e :: es, x =>
    if e.sym.slt x then e :: ftCount es x
    else if e.sym = x then { e with cnt := e.cnt + 1 } :: es
    else { sym := x, cnt := 1 } :: e :: es

/-- The place `ftPosition` finds is where `ftCount` counts the Symbol. -/
theorem ftCount_eq (x : Sym) (ft : List FtEntry) :
    (∀ e, ft[ftPosition x ft]? = some e → e.sym = x →
      ftCount ft x = ft.set (ftPosition x ft) { e with cnt := e.cnt + 1 }) ∧
    ((∀ e, ft[ftPosition x ft]? = some e → e.sym ≠ x) →
      ftCount ft x = ft.insertIdx (ftPosition x ft) { sym := x, cnt := 1 }) := by
  induction ft with
  | nil => exact ⟨nofun, fun _ => rfl⟩
  | cons d ds ih =>
    rw [ftCount, ftPosition]
    split
    next =>
      obtain ⟨hset, hinsert⟩ := ih
      simp only [List.getElem?_cons_succ, List.set_cons_succ, List.insertIdx_succ_cons]
      exact ⟨fun e he hx => by rw [hset e he hx], fun hnew => by rw [hinsert hnew]⟩
    next =>
      simp only [List.getElem?_cons_zero, Option.some.injEq, List.set_cons_zero, List.insertIdx_zero]
      refine ⟨fun e he hx => ?_, fun hnew => ?_⟩
      · subst he
        rw [if_pos hx]
      · rw [if_neg (hnew d rfl)]

theorem faInsert_ft {nMax j : Nat} {x : Sym} {w w' : Work} (h : faInsert nMax x w j = .ok w') :
    w'.ft = w.ft.insertIdx j { sym := x, cnt := 1 } := by
  rw [faInsert] at h
  split at h
  next => cases h
  next =>
    cases h
    rfl

theorem faCount_ft {nMax : Nat} {x : Sym} {w w' : Work} (h : faCount nMax x w = .ok w') :
    w'.ft = ftCount w.ft x := by
  obtain ⟨hset, hinsert⟩ := ftCount_eq x w.ft
  rw [faCount] at h
  split at h
  next e he =>
    split at h
    next hx =>
      cases h
      exact (hset e he hx).symm
    next hx =>
      rw [faInsert_ft h, hinsert]
      rintro e' he'
      cases he.symm.trans he'
      exact hx
  next he =>
    rw [faInsert_ft h, hinsert]
    rintro e' he'
    cases he.symm.trans he'

/-- FA folds the input sequence into FT, and in_idx ends at IN_LEN (40_frequency_analyzer.md R120). -/
theorem faLoop_ft {p : Params} {symIn : Memory 32} {inLen : BitVec 32} {n : Nat} {w w' : Work}
    (h : faLoop p symIn inLen n w = .ok w') (hn : w.inIdx.toNat + n = inLen.toNat) :
    w'.ft = (symIn.readList w.inIdx.toNat n).foldl ftCount w.ft ∧ w'.inIdx = inLen := by
  induction n generalizing w with
  | zero =>
    cases h
    exact ⟨rfl, BitVec.eq_of_toNat_eq hn⟩
  | succ n ih =>
    rw [faLoop, if_pos (BitVec.lt_def.mpr (by omega))] at h
    split at h
    next => cases h
    next x hx =>
      split at h
      next => cases h
      next w₁ h₁ =>
        have hidx : w₁.inIdx = w.inIdx := by rw [faCount_frame h₁]
        have hnext : (w₁.inIdx + 1).toNat = w.inIdx.toNat + 1 := by bv_omega
        obtain ⟨hft, hend⟩ := ih h (hnext ▸ by omega)
        have hread : symIn.read w.inIdx.toNat = x := by
          rw [memReadOne] at hx
          split at hx
          next => exact Except.ok.inj hx
          next => cases hx
        refine ⟨?_, hend⟩
        rw [hft, hnext, faCount_ft h₁, Memory.readList, hread, List.foldl_cons]

/-! ### The order of the input -/

theorem sym_trichotomy (x y : Sym) : x.slt y = true ∨ x = y ∨ y.slt x = true := by
  simp only [BitVec.slt, decide_eq_true_eq, ← BitVec.toInt_inj]
  omega

section
variable {e : FtEntry} {es : List FtEntry} {x y : Sym}

theorem ftCount_cons_of_slt (h : e.sym.slt x = true) : ftCount (e :: es) x = e :: ftCount es x := if_pos h

@[simp] theorem ftCount_cons_self : ftCount (e :: es) e.sym = { e with cnt := e.cnt + 1 } :: es := by
  rw [ftCount, if_neg (by simp [BitVec.slt]), if_pos rfl]

theorem ftCount_cons_of_sgt (h : x.slt e.sym = true) : ftCount (e :: es) x = { sym := x, cnt := 1 } :: e :: es := by
  have hlt : x.toInt < e.sym.toInt := of_decide_eq_true h
  have hnot : ¬ e.sym.slt x = true := fun h' => (of_decide_eq_true h' : e.sym.toInt < x.toInt).not_gt hlt
  have hne : e.sym ≠ x := by
    rintro rfl
    exact hlt.false
  rw [ftCount, if_neg hnot, if_neg hne]

/-- A smaller Symbol's place is before that of a larger one, whichever is counted first. -/
theorem ftCount_comm_of_slt (ft : List FtEntry) (h : x.slt y = true) :
    ftCount (ftCount ft x) y = ftCount (ftCount ft y) x := by
  have hafter : ∀ (c : BitVec 32) (es : List FtEntry),
      ftCount ({ sym := x, cnt := c } :: es) y = { sym := x, cnt := c } :: ftCount es y :=
    fun c es => ftCount_cons_of_slt (e := ⟨x, c⟩) h
  have hbefore : ∀ es : List FtEntry,
      ftCount ({ sym := y, cnt := 1 } :: es) x = { sym := x, cnt := 1 } :: { sym := y, cnt := 1 } :: es :=
    fun es => ftCount_cons_of_sgt (e := ⟨y, 1⟩) h
  induction ft with
  | nil => exact (hafter 1 []).trans (hbefore []).symm
  | cons e es ih =>
    obtain hex | rfl | hxe := sym_trichotomy e.sym x
    · have hey : e.sym.slt y = true := by
        simp only [BitVec.slt, decide_eq_true_eq] at hex h ⊢
        exact hex.trans h
      rw [ftCount_cons_of_slt hex, ftCount_cons_of_slt hey, ftCount_cons_of_slt hey, ftCount_cons_of_slt hex, ih]
    · rw [ftCount_cons_self, hafter, ftCount_cons_of_slt h, ftCount_cons_self]
    · rw [ftCount_cons_of_sgt hxe, hafter]
      obtain hey | rfl | hye := sym_trichotomy e.sym y
      · rw [ftCount_cons_of_slt hey, ftCount_cons_of_sgt hxe]
      · rw [ftCount_cons_self, ftCount_cons_of_sgt (e := ⟨e.sym, e.cnt + 1⟩) hxe]
      · rw [ftCount_cons_of_sgt hye, hbefore]

end

theorem ftCount_comm (ft : List FtEntry) (x y : Sym) : ftCount (ftCount ft x) y = ftCount (ftCount ft y) x := by
  obtain h | rfl | h := sym_trichotomy x y
  · exact ftCount_comm_of_slt ft h
  · rfl
  · exact (ftCount_comm_of_slt ft h).symm

/-- FA gives the same table for an input in any order, if it gives one (40_frequency_analyzer.md R122). -/
theorem faRun_perm {p : Params} {symIn symIn' : Memory 32} {inLen inLen' : BitVec 32} {w w' : Work}
    (h : (symIn.readList 0 inLen.toNat).Perm (symIn'.readList 0 inLen'.toNat))
    (hw : faRun p symIn inLen (Work.start .encode false) = .ok w)
    (hw' : faRun p symIn' inLen' (Work.start .encode false) = .ok w') : w = w' := by
  have hlen : inLen = inLen' := BitVec.eq_of_toNat_eq (by simpa using h.length_eq)
  obtain ⟨hft, hidx⟩ := faLoop_ft hw (by simp)
  obtain ⟨hft', hidx'⟩ := faLoop_ft hw' (by simp)
  have hfold : w.ft = w'.ft := by
    rw [hft, hft']
    exact h.foldl_eq' (fun x _ y _ ft => ftCount_comm ft x y) []
  rw [faRun_start hw, faRun_start hw', hidx, hidx', hlen, hfold]

end Sys2Proof.Machine
end

