-- ==== Sys2Proof/Proofs/UnitEquations.lean ====
section
/-! SUPPORT. The units that stop at the first error, as sequences of operations (44_table_serializer.md R175 to R177,
43_encoder_packer.md R160 to R164, 46_decoder.md R200, R203). -/

namespace Sys2Proof.Machine

section Writer
variable (cap : Option Nat) (x : Writer)

theorem putRecord_eq (i : Instr) : putRecord cap i x = (do
    let m ← memWrite cap x.2 x.1.wrPtr.toNat (encode i)
    .ok ({ x.1 with wrPtr := x.1.wrPtr + BitVec.ofNat 35 i.format.size }, m)) := by
  rw [putRecord]; cases memWrite cap x.2 x.1.wrPtr.toNat (encode i) <;> rfl

theorem tsEntries_cons (e : FtEntry) (es : List FtEntry) : tsEntries cap (e :: es) x = (do
    let y ← putRecord cap (entryRecord x.1 e x.1.tsI.toNat) x
    tsEntries cap es ({ y.1 with tsI := y.1.tsI + 1 }, y.2)) := by
  rw [tsEntries]; cases putRecord cap (entryRecord x.1 e x.1.tsI.toNat) x <;> rfl

theorem tsRun_eq : tsRun cap x = (do
    let y ← tsHeader cap x
    tsEntries cap (y.1.ft.drop y.1.tsI.toNat) y) := by
  rw [tsRun]; cases tsHeader cap x <;> rfl

/-- The eighth bit held completes a byte. -/
theorem pkPush_full {x : Writer} (h : x.1.pkCnt = 7) (b : Bool) : pkPush cap b x = (do
    let m ← memWrite cap x.2 x.1.wrPtr.toNat [packedByte x.1.pkByte b]
    .ok ({ x.1 with bitTotal := x.1.bitTotal + 1, wrPtr := x.1.wrPtr + 1, pkByte := 0, pkCnt := 0 }, m)) := by
  refine (if_pos h).trans ?_
  show _ = memWrite cap x.2 x.1.wrPtr.toNat (encode (.pay (packedByte x.1.pkByte b))) >>= _
  cases memWrite cap x.2 x.1.wrPtr.toNat (encode (.pay (packedByte x.1.pkByte b))) <;> rfl

theorem pkPush_notFull {x : Writer} (h : x.1.pkCnt ≠ 7) (b : Bool) : pkPush cap b x =
    .ok ({ x.1 with bitTotal := x.1.bitTotal + 1, pkByte := packedByte x.1.pkByte b, pkCnt := x.1.pkCnt + 1 }, x.2) :=
  if_neg h

theorem enShift_succ (p : BitVec 32) (l : Nat) : enShift cap p (l + 1) x =
    pkPush cap (p.getLsbD l) x >>= enShift cap p l := by
  rw [enShift]; cases pkPush cap (p.getLsbD l) x <;> rfl

theorem pkFlush_empty {x : Writer} (h : x.1.pkCnt = 0) : pkFlush cap x = .ok x := if_pos h

theorem pkFlush_held {x : Writer} (h : x.1.pkCnt ≠ 0) : pkFlush cap x = (do
    let m ← memWrite cap x.2 x.1.wrPtr.toNat [x.1.pkByte <<< (8 - x.1.pkCnt.toNat)]
    .ok ({ x.1 with wrPtr := x.1.wrPtr + 1, pkByte := 0, pkCnt := 0 }, m)) := by
  refine (if_neg h).trans ?_
  show _ = memWrite cap x.2 x.1.wrPtr.toNat (encode (.pay (x.1.pkByte <<< (8 - x.1.pkCnt.toNat)))) >>= _
  cases memWrite cap x.2 x.1.wrPtr.toNat (encode (.pay (x.1.pkByte <<< (8 - x.1.pkCnt.toNat)))) <;> rfl

theorem enSymbol_eq (sym : Sym) : enSymbol cap sym x = (do
    let i ← enLookup sym x.1.ft
    enShift cap (x.1.codeAt i).pat (x.1.codeAt i).len.toNat x) := by
  rw [enSymbol]; cases enLookup sym x.1.ft <;> rfl

theorem enLoop_succ {p : Params} {symIn : Memory 32} {inLen : BitVec 32} {n : Nat} {x : Writer}
    (h : x.1.inIdx < inLen) : enLoop p symIn inLen (n + 1) x = (do
    let sym ← memReadOne p.symInCap symIn x.1.inIdx.toNat
    let y ← enSymbol p.byteOutCap sym x
    enLoop p symIn inLen n ({ y.1 with inIdx := y.1.inIdx + 1 }, y.2)) := by
  rw [enLoop, if_pos h]
  cases memReadOne p.symInCap symIn x.1.inIdx.toNat with
  | error e => rfl
  | ok sym => simp only [except_ok_bind]; cases enSymbol p.byteOutCap sym x <;> rfl

theorem enLoop_end {p : Params} {symIn : Memory 32} {inLen : BitVec 32} (n : Nat) {x : Writer}
    (h : ¬ x.1.inIdx < inLen) : enLoop p symIn inLen n x = .ok x := by
  cases n with
  | zero => rfl
  | succ n => exact if_neg h

theorem enRun_eq (p : Params) (symIn : Memory 32) (inLen : BitVec 32) : enRun p symIn inLen x =
    enLoop p symIn inLen inLen.toNat ({ x.1 with inIdx := 0 }, x.2) >>= pkFlush p.byteOutCap := by
  rw [enRun]; cases enLoop p symIn inLen inLen.toNat ({ x.1 with inIdx := 0 }, x.2) <;> rfl

end Writer

section Emitter
variable (cap : Option Nat) (byte : Byte) (x : Emitter)

theorem deMatch_write {x : Emitter} {e : DtEntry} (h : deKey x.1 = some e) : deMatch cap x = (do
    let m ← memWrite cap x.2 x.1.outIdx.toNat [e.sym]
    .ok ({ x.1 with outIdx := x.1.outIdx + 1, accPat := 0, accLen := 0 }, m)) := by
  obtain ⟨hfull, hroom⟩ := deMatch_of_some (cap := cap) h
  cases hfit : fits cap (x.1.outIdx.toNat + 1) with
  | false => rw [hfull hfit, memWrite_full hfit]; rfl
  | true => rw [hroom hfit, memWrite_ok hfit]; rfl

theorem deBits_succ (n : Nat) : deBits cap byte (n + 1) x = deBit cap byte x >>= deBits cap byte n := by
  rw [deBits]; cases deBit cap byte x <;> rfl

end Emitter

end Sys2Proof.Machine
end

