-- ==== Sys2Proof/Proofs/SameOutput.lean ====
section
/-! SUPPORT. What a unit writes does not depend on what its output buffer held: started on equal registers, phases TS, EN
and DE end with equal registers and equal elements before the write pointer, or with the same error (47_commands.md
R224). -/

namespace Sys2Proof.Machine

/-- Equal registers, and equal elements before the write pointer `ptr`. -/
structure Alike {w : Nat} (ptr : Work → Nat) (x x' : Work × Memory w) : Prop where
  work : x.1 = x'.1
  cells : ∀ a < ptr x.1, x.2.read a = x'.2.read a

/-- The same error, or results that are alike. -/
inductive AlikeOutcome {w : Nat} (ptr : Work → Nat) :
    Except ErrKind (Work × Memory w) → Except ErrKind (Work × Memory w) → Prop
  | error (e : ErrKind) : AlikeOutcome ptr (.error e) (.error e)
  | ok {x x' : Work × Memory w} (h : Alike ptr x x') : AlikeOutcome ptr (.ok x) (.ok x')

theorem AlikeOutcome.bind {w : Nat} {ptr : Work → Nat} {r r' : Except ErrKind (Work × Memory w)}
    {f f' : Work × Memory w → Except ErrKind (Work × Memory w)} (h : AlikeOutcome ptr r r')
    (hf : ∀ x x', r = .ok x → Alike ptr x x' → AlikeOutcome ptr (f x) (f' x')) :
    AlikeOutcome ptr (r >>= f) (r' >>= f') := by
  cases h with
  | error e => exact .error e
  | ok h => exact hf _ _ rfl h

/-- One write behind equal elements leaves equal elements, its own among them. -/
theorem read_writeList_congr {w : Nat} {m m' : Memory w} {a : Nat} (vs : List (BitVec w))
    (h : ∀ b < a, m.read b = m'.read b) :
    ∀ b < a + vs.length, (m.writeList a vs).read b = (m'.writeList a vs).read b := by
  intro b hb
  obtain hlt | hge := Nat.lt_or_ge b a
  · rw [Memory.read_writeList_outside _ _ _ (.inl hlt), Memory.read_writeList_outside _ _ _ (.inl hlt), h b hlt]
  · obtain ⟨k, rfl⟩ := Nat.exists_eq_add_of_le hge
    have hk : k < vs.length := by omega
    rw [Memory.read_writeList_inside _ _ _ (List.getElem?_eq_getElem hk),
      Memory.read_writeList_inside _ _ _ (List.getElem?_eq_getElem hk)]

theorem memWrite_alike {w : Nat} {ptr : Work → Nat} {cap : Option Nat} {m m' : Memory w} {a : Nat}
    {vs : List (BitVec w)} {v : Work} (h : ∀ b < a, m.read b = m'.read b) (hv : ptr v ≤ a + vs.length) :
    AlikeOutcome ptr (memWrite cap m a vs >>= fun n => .ok (v, n)) (memWrite cap m' a vs >>= fun n => .ok (v, n)) := by
  cases hfit : fits cap (a + vs.length) with
  | false =>
    rw [memWrite_full hfit, memWrite_full hfit]
    exact .error _
  | true =>
    rw [memWrite_ok hfit, memWrite_ok hfit]
    exact .ok ⟨rfl, fun b hb => read_writeList_congr vs h b (hb.trans_le hv)⟩

theorem toNat_add_ofNat_le {w : Nat} (v : BitVec w) (n : Nat) : (v + BitVec.ofNat w n).toNat ≤ v.toNat + n := by
  rw [BitVec.toNat_add, BitVec.toNat_ofNat]
  exact (Nat.mod_le _ _).trans (Nat.add_le_add_left (Nat.mod_le _ _) _)

section Writer
variable {cap : Option Nat} {x x' : Writer}

/-- The elements before the write pointer of phases TS and EN. -/
abbrev Work.written (w : Work) : Nat := w.wrPtr.toNat

theorem encode_length (i : Instr) : (encode i).length = i.format.size := by
  cases i <;> rfl

theorem putRecord_alike (i : Instr) (h : Alike Work.written x x') :
    AlikeOutcome Work.written (putRecord cap i x) (putRecord cap i x') := by
  rw [putRecord_eq, putRecord_eq, ← h.work]
  exact memWrite_alike h.cells (encode_length i ▸ toNat_add_ofNat_le _ _)

theorem tsEntries_alike (es : List FtEntry) (h : Alike Work.written x x') :
    AlikeOutcome Work.written (tsEntries cap es x) (tsEntries cap es x') := by
  induction es generalizing x x' with
  | nil => exact .ok h
  | cons e es ih =>
    rw [tsEntries_cons, tsEntries_cons, ← h.work]
    exact (putRecord_alike _ h).bind fun y y' _ hy => ih ⟨by rw [hy.work], hy.cells⟩

theorem tsRun_alike (h : Alike Work.written x x') : AlikeOutcome Work.written (tsRun cap x) (tsRun cap x') := by
  rw [tsRun_eq, tsRun_eq, tsHeader, tsHeader, ← h.work]
  exact (putRecord_alike _ h).bind fun y y' _ hy => hy.work ▸ tsEntries_alike _ hy

theorem pkPush_alike (b : Bool) (h : Alike Work.written x x') :
    AlikeOutcome Work.written (pkPush cap b x) (pkPush cap b x') := by
  by_cases hcnt : x.1.pkCnt = 7
  · rw [pkPush_full cap hcnt, pkPush_full cap (h.work ▸ hcnt), ← h.work]
    exact memWrite_alike h.cells (toNat_add_ofNat_le _ 1)
  · rw [pkPush_notFull cap hcnt, pkPush_notFull cap (h.work ▸ hcnt), ← h.work]
    exact .ok ⟨rfl, h.cells⟩

theorem enShift_alike (p : BitVec 32) (l : Nat) (h : Alike Work.written x x') :
    AlikeOutcome Work.written (enShift cap p l x) (enShift cap p l x') := by
  induction l generalizing x x' with
  | zero => exact .ok h
  | succ l ih =>
    rw [enShift_succ, enShift_succ]
    exact (pkPush_alike _ h).bind fun y y' _ hy => ih hy

theorem pkFlush_alike (h : Alike Work.written x x') :
    AlikeOutcome Work.written (pkFlush cap x) (pkFlush cap x') := by
  by_cases hcnt : x.1.pkCnt = 0
  · rw [pkFlush_empty cap hcnt, pkFlush_empty cap (h.work ▸ hcnt)]
    exact .ok h
  · rw [pkFlush_held cap hcnt, pkFlush_held cap (h.work ▸ hcnt), ← h.work]
    exact memWrite_alike h.cells (toNat_add_ofNat_le _ 1)

theorem enSymbol_alike (sym : Sym) (h : Alike Work.written x x') :
    AlikeOutcome Work.written (enSymbol cap sym x) (enSymbol cap sym x') := by
  rw [enSymbol_eq, enSymbol_eq, ← h.work]
  cases enLookup sym x.1.ft with
  | error e => exact .error e
  | ok i => exact enShift_alike _ _ h

/-- EN reads nothing of SYM_IN but the input sequence. -/
theorem enLoop_alike {p : Params} {symIn symIn' : Memory 32} {inLen : BitVec 32}
    (hin : ∀ a < inLen.toNat, symIn.read a = symIn'.read a) (n : Nat) (h : Alike Work.written x x') :
    AlikeOutcome Work.written (enLoop p symIn inLen n x) (enLoop p symIn' inLen n x') := by
  induction n generalizing x x' with
  | zero => exact .ok h
  | succ n ih =>
    by_cases hlt : x.1.inIdx < inLen
    · rw [enLoop_succ hlt, enLoop_succ (h.work ▸ hlt), memReadOne, memReadOne, hin _ (BitVec.lt_def.mp hlt),
        ← h.work]
      split
      next => exact (enSymbol_alike _ h).bind fun y y' _ hy => ih ⟨by rw [hy.work], hy.cells⟩
      next => exact .error _
    · rw [enLoop_end _ hlt, enLoop_end _ (h.work ▸ hlt)]
      exact .ok h

theorem enRun_alike {p : Params} {symIn symIn' : Memory 32} {inLen : BitVec 32}
    (hin : ∀ a < inLen.toNat, symIn.read a = symIn'.read a) (h : Alike Work.written x x') :
    AlikeOutcome Work.written (enRun p symIn inLen x) (enRun p symIn' inLen x') := by
  have hstart : Alike Work.written ({ x.1 with inIdx := 0 }, x.2) ({ x'.1 with inIdx := 0 }, x'.2) :=
    ⟨by rw [h.work], h.cells⟩
  rw [enRun_eq, enRun_eq]
  exact (enLoop_alike hin _ hstart).bind fun y y' _ hy => pkFlush_alike hy

end Writer

section Emitter
variable {cap : Option Nat} {x x' : Emitter}

/-- The elements before the write pointer of phase DE. -/
abbrev Work.emitted (w : Work) : Nat := w.outIdx.toNat

theorem deMatch_alike (h : Alike Work.emitted x x') : AlikeOutcome Work.emitted (deMatch cap x) (deMatch cap x') := by
  cases hkey : deKey x.1 with
  | none =>
    rw [deMatch_of_none hkey, deMatch_of_none (h.work ▸ hkey)]
    exact .ok h
  | some e =>
    rw [deMatch_write cap hkey, deMatch_write cap (h.work ▸ hkey), ← h.work]
    exact memWrite_alike h.cells (toNat_add_ofNat_le _ 1)

theorem deBits_alike (byte : Byte) (n : Nat) (h : Alike Work.emitted x x') :
    AlikeOutcome Work.emitted (deBits cap byte n x) (deBits cap byte n x') := by
  induction n generalizing x x' with
  | zero => exact .ok h
  | succ n ih =>
    have hbit : Alike Work.emitted (deAppend (payloadBit byte x.1) (deAdvance x.1), x.2)
        (deAppend (payloadBit byte x'.1) (deAdvance x'.1), x'.2) := by
      refine ⟨by rw [h.work], fun a ha => h.cells a ?_⟩
      rwa [Work.emitted, deAppend_outIdx, deAdvance_outIdx] at ha
    rw [deBits_succ, deBits_succ]
    exact (deMatch_alike hbit).bind fun y y' _ hy => ih hy

end Emitter

end Sys2Proof.Machine
end

