-- ==== Sys2Proof/Proofs/DecodeOutcome.lean ====
section
/-! SUPPORT. The end of a DECODE as a function of the state before START (47_commands.md R216 to R218): its records
change the working registers and SYM_OUT only, until an error discards them. -/

namespace Sys2Proof.Machine

/-! ### What a DECODE computes -/

/-- A DECODE in phase `p`: only the working registers and SYM_OUT have changed since START. -/
def State.reading (s : State) (p : Phase) (x : Emitter) : State :=
  { s.startClear .decode with phase := p, work := x.1, symOut := x.2 }

/-- What a record does to the working registers and SYM_OUT, or its error. -/
def State.recordEffect (s : State) (x : Emitter) : Instr → Except ErrKind Emitter
  | .hdr m =>
    match tdSizeCheck s.params.nMax s.byteInLen m with
    | some e => .error e
    | none => .ok (tdHeader m x.1, x.2)
  | .ent sym l p =>
    match tdCheck x.1.dtab l p with
    | some e => .error e
    | none => .ok (tdEntry sym l p x.1, x.2)
  | .pay byte => deBits s.params.symOutCap byte (bitsOfByte x.1) x
  | .encode => .ok x
  | .decode => .ok x

/-- Fetch the record of format `f` at the read pointer, decode it, take its effect. -/
def State.recordRun (s : State) (f : Format) (x : Emitter) : Except ErrKind Emitter := do
  let bytes ← memRead s.params.byteInCap s.byteIn x.1.rdPtr.toNat f.size
  match decode f bytes with
  | .ok (i, _) => s.recordEffect x i
  | .error _ => .ok x

/-- The header of the file, if there is one (45_table_deserializer.md R186). -/
def State.headerRun (s : State) : Except ErrKind Emitter :=
  if s.byteInLen.toNat < 2 then .error .malformedTable
  else s.recordRun .hdr (Work.start .decode (s.cfg = 1), s.symOut)

/-- At most `n` entries of the table (45_table_deserializer.md R185). -/
def State.entriesRun (s : State) : Nat → Emitter → Except ErrKind Emitter
  | 0, x => .ok x
  | n + 1, x => if x.1.tdI < x.1.tdM then s.recordRun .ent x >>= s.entriesRun n else .ok x

/-- Phase TD. -/
def State.tableRun (s : State) : Except ErrKind Emitter := do
  let y ← s.headerRun
  s.entriesRun y.1.entriesLeft y

/-- At most `n` payload bytes (46_decoder.md R200). -/
def State.bytesRun (s : State) : Nat → Emitter → Except ErrKind Emitter
  | 0, x => .ok x
  | n + 1, x => if x.1.bitsLeft = 0 then .ok x else s.recordRun .pay x >>= s.bytesRun n

/-- The check of `DE.FINISH` (46_decoder.md R204). -/
def finishCheck (x : Emitter) : Except ErrKind Emitter :=
  if x.1.accLen ≠ 0 ∧ x.1.lenEn = true then .error .ambiguousTrailingBits else .ok x

/-- Phase DE on the table that phase TD has read. -/
def State.payloadResult (s : State) (z : Emitter) : Except ErrKind Emitter := do
  let w ← (s.reading .de z).deStart
  let y ← s.bytesRun w.payloadLeft (w, z.2)
  finishCheck y

/-- What the units of a DECODE leave in the working registers and in SYM_OUT, or the first error. -/
def State.decodeRun (s : State) : Except ErrKind Emitter := do
  s.startCheck .decode
  let z ← s.tableRun
  s.payloadResult z

/-- The state a DECODE without error ends in. -/
def State.decodeDone (s : State) (y : Emitter) : State :=
  ({ s.startClear .decode with work := y.1, symOut := y.2, symOutLen := y.1.outIdx, decTabN := y.1.dtabN,
                               residLen := y.1.accLen, trail := y.1.accLen ≠ 0 } : State).complete

/-- The state a DECODE ends in, by what its units have left or the first error. -/
def State.decodeOutcome (s : State) : Except ErrKind Emitter → State
  | .error e => (s.startClear .decode).raise e
  | .ok y => s.decodeDone y

theorem decodeOutcome_phase (s : State) (r : Except ErrKind Emitter) : (s.decodeOutcome r).phase = .idle := by
  cases r with
  | error e => exact State.raise_phase _ e
  | ok y => rfl

/-! ### One record -/

/-- cur_op and len_en as START latches them. -/
structure DecodeOp (s : State) (w : Work) : Prop where
  curOp : w.curOp = .decode
  lenEn : w.lenEn = (s.cfg = 1 : Bool)

/-- An error of a DECODE leaves nothing of what its phases have done (60_exceptions.md R245). -/
theorem raise_reading {s : State} {x : Emitter} (p : Phase) (e : ErrKind) (hop : DecodeOp s x.1) :
    (s.reading p x).raise e = (s.startClear .decode).raise e := by
  have hraise : ∀ u : State, u.work.curOp = .decode → u.work.lenEn = (s.cfg = 1 : Bool) → u.raise e =
      ((({ u with work := Work.start .decode (s.cfg = 1) } : State).flagsError e).clearResults .decode).forgetOutput
        .decode := by
    intro u hu hlen
    rw [State.raise, State.dropWork, hu, hlen]
  rw [hraise _ hop.curOp hop.lenEn, hraise (s.startClear .decode) rfl rfl]
  rfl

/-- The step a result of the units stands for. -/
def State.outcome (s : State) (p : Phase) : Except ErrKind Emitter → Host.Outcome State Fault Refusal
  | .error e => .next ((s.startClear .decode).raise e)
  | .ok y => .next (s.reading p y)

theorem exec_reading {s : State} {p : Phase} {x : Emitter} {i : Instr}
    (hat : (s.reading p x).nextFormat = some i.format) (hop : DecodeOp s x.1) :
    exec i (s.reading p x) = s.outcome p (s.recordEffect x i) := by
  cases i with
  | encode => exact absurd hat nextFormat_ne_cmd
  | decode => exact absurd hat nextFormat_ne_cmd
  | hdr m =>
    refine (execHdr_at hat m).trans ?_
    rw [State.recordEffect]
    change (match tdSizeCheck s.params.nMax s.byteInLen m with | some e => _ | none => _) = _
    cases tdSizeCheck s.params.nMax s.byteInLen m with
    | some e => exact congrArg _ (raise_reading p e hop)
    | none => rfl
  | ent sym l q =>
    refine (execEnt_at hat sym l q).trans ?_
    rw [State.recordEffect]
    change (match tdCheck x.1.dtab l q with | some e => _ | none => _) = _
    cases tdCheck x.1.dtab l q with
    | some e => exact congrArg _ (raise_reading p e hop)
    | none => rfl
  | pay byte =>
    refine (execPay_at hat byte).trans ?_
    rw [State.recordEffect]
    change (match deBits s.params.symOutCap byte (bitsOfByte x.1) x with | .error e => _ | .ok y => _) = _
    cases deBits s.params.symOutCap byte (bitsOfByte x.1) x with
    | error e => exact congrArg _ (raise_reading p e hop)
    | ok y => rfl

theorem runRecord_reading {s : State} {p : Phase} {x : Emitter} {f : Format}
    (hat : (s.reading p x).nextFormat = some f) (hop : DecodeOp s x.1) :
    (s.reading p x).runRecord f = s.outcome p (s.recordRun f x) := by
  obtain ⟨hfull, hrun⟩ | ⟨i, hfit, hdecode, rfl, hrun⟩ := runRecord_cases (s.reading p x) f
  · replace hfull : fits s.params.byteInCap (x.1.rdPtr.toNat + f.size) = false := hfull
    rw [hrun, raise_reading p _ hop, State.recordRun, memRead_full hfull]
    rfl
  · replace hfit : fits s.params.byteInCap (x.1.rdPtr.toNat + i.format.size) = true := hfit
    replace hdecode : decode i.format (s.byteIn.readList x.1.rdPtr.toNat i.format.size) = .ok (i, []) := hdecode
    rw [hrun, exec_reading hat hop, State.recordRun, memRead_ok hfit, except_ok_bind]
    simp only [hdecode]

theorem whileIn_outcome {s : State} {p : Phase} (hp : p ≠ .idle) (r : Except ErrKind Emitter)
    (k : State → Host.Outcome State Fault Refusal) :
    whileIn p (s.outcome p r) k =
      match r with
      | .error e => .next ((s.startClear .decode).raise e)
      | .ok y => k (s.reading p y) := by
  cases r with
  | error e => exact if_neg (fun h => hp (h.symm.trans (State.raise_phase _ e)))
  | ok y => exact if_pos rfl

/-! ### Phase TD -/

/-- Phase TD behind the header: it has changed only the reader's registers and DTAB, whose entries it has counted, and
the rest of the table lies inside the file. -/
structure InTable (s : State) (x : Emitter) : Prop where
  frame : x = ({ Work.start .decode (s.cfg = 1) with
    rdPtr := x.1.rdPtr, tdM := x.1.tdM, tdI := x.1.tdI, dtab := x.1.dtab }, s.symOut)
  pointer : x.1.rdPtr.toNat = 2 + 9 * x.1.tdI.toNat
  read : x.1.dtab.length = x.1.tdI.toNat
  left : x.1.tdI.toNat ≤ x.1.tdM.toNat
  file : 2 + 9 * x.1.tdM.toNat ≤ s.byteInLen.toNat

theorem InTable.op {s : State} {x : Emitter} (h : InTable s x) : DecodeOp s x.1 := by
  rw [h.frame]
  exact ⟨rfl, rfl⟩

/-- What a record read without error says. -/
theorem recordRun_eq_ok {s : State} {f : Format} {x y : Emitter} (h : s.recordRun f x = .ok y) :
    ∃ i, i.format = f ∧ s.recordEffect x i = .ok y := by
  obtain ⟨bytes, hbytes, heffect⟩ := except_bind_eq_ok_iff.mp h
  have hlen : bytes.length = f.size := by
    rw [memRead] at hbytes
    split at hbytes
    next =>
      cases hbytes
      exact Memory.readList_length _ _ _
    next => cases hbytes
  obtain ⟨i, hi, hf⟩ := decode_of_size hlen
  rw [hi] at heffect
  exact ⟨i, hf, heffect⟩

/-- The header leads to the first entry. -/
theorem inTable_of_headerRun {s : State} {y : Emitter} (h : s.headerRun = .ok y) : InTable s y := by
  rw [State.headerRun] at h
  split at h
  next => cases h
  next =>
    obtain ⟨i, hf, heffect⟩ := recordRun_eq_ok h
    cases i with
    | hdr m =>
      rw [State.recordEffect] at heffect
      split at heffect
      next => cases heffect
      next hcheck =>
        cases heffect
        refine ⟨rfl, rfl, rfl, Nat.zero_le _, ?_⟩
        rw [tdSizeCheck] at hcheck
        split at hcheck
        next => cases hcheck
        next hfile => exact Nat.le_of_not_gt hfile
    | _ => cases hf

/-- An entry leads to the next, or behind the table. -/
theorem InTable.recordRun {s : State} {x y : Emitter} (hx : InTable s x) (hlt : x.1.tdI < x.1.tdM)
    (h : s.recordRun .ent x = .ok y) : InTable s y := by
  obtain ⟨hframe, hpointer, hread, hleft, hfile⟩ := hx
  obtain ⟨i, hf, heffect⟩ := recordRun_eq_ok h
  cases i with
  | ent sym l p =>
    rw [State.recordEffect] at heffect
    split at heffect
    next => cases heffect
    next =>
      cases heffect
      have hlt' := BitVec.lt_def.mp hlt
      have hidx : (x.1.tdI + 1).toNat = x.1.tdI.toNat + 1 := by bv_omega
      refine ⟨by rw [hframe]; rfl, ?_, ?_, hidx ▸ hlt', hfile⟩
      · show (x.1.rdPtr + 9).toNat = 2 + 9 * (x.1.tdI + 1).toNat
        bv_omega
      · show (x.1.dtab ++ [_]).length = (x.1.tdI + 1).toNat
        rw [List.length_append, hread, hidx]
        rfl
  | _ => cases hf

theorem InTable.entriesRun {s : State} {n : Nat} {x y : Emitter} (hx : InTable s x)
    (h : s.entriesRun n x = .ok y) : InTable s y := by
  induction n generalizing x with
  | zero =>
    cases h
    exact hx
  | succ n ih =>
    rw [State.entriesRun] at h
    split at h
    next hlt =>
      obtain ⟨z, hz, hrest⟩ := except_bind_eq_ok_iff.mp h
      exact ih (hx.recordRun hlt hz) hrest
    next =>
      cases h
      exact hx

theorem inTable_of_tableRun {s : State} {y : Emitter} (h : s.tableRun = .ok y) : InTable s y := by
  obtain ⟨z, hz, hrest⟩ := except_bind_eq_ok_iff.mp h
  exact (inTable_of_headerRun hz).entriesRun hrest

theorem tdLoop_reading {s : State} (n : Nat) {x : Emitter} (hx : InTable s x) :
    (s.reading .td x).tdLoop n = s.outcome .de (s.entriesRun n x) := by
  induction n generalizing x with
  | zero => rfl
  | succ n ih =>
    have hbehind : x.1.rdPtr ≠ 0 := by
      intro hzero
      have hzero' : x.1.rdPtr.toNat = 0 := congrArg BitVec.toNat hzero
      have hpointer := hx.pointer
      omega
    rw [State.entriesRun]
    by_cases hlt : x.1.tdI < x.1.tdM
    · have hat : (s.reading .td x).nextFormat = some .ent := nextFormat_ent.mpr ⟨rfl, hbehind, hlt⟩
      have hrecord : (s.reading .td x).tdRecord .ent = s.outcome .td (s.recordRun .ent x) :=
        (if_neg (by simp)).trans (runRecord_reading hat hx.op)
      rw [tdLoop_some hat, hrecord, whileIn_outcome (by decide), if_pos hlt]
      cases hr : s.recordRun .ent x with
      | error e => rfl
      | ok y => exact ih (hx.recordRun hlt hr)
    · have hat : (s.reading .td x).nextFormat = none := by
        rw [State.nextFormat]
        exact (if_neg hbehind).trans (if_neg hlt)
      rw [tdLoop_none hat, if_neg hlt]
      rfl

/-- Phase TD is one step to phase DE, or to the end. -/
theorem coreStep_reading_td (s : State) :
    coreStep (s.reading .td (Work.start .decode (s.cfg = 1), s.symOut)) = s.outcome .de s.tableRun := by
  have hat : (s.reading .td (Work.start .decode (s.cfg = 1), s.symOut)).nextFormat = some .hdr :=
    nextFormat_hdr.mpr ⟨rfl, rfl⟩
  have hrecord : (s.reading .td (Work.start .decode (s.cfg = 1), s.symOut)).tdRecord .hdr =
      s.outcome .td s.headerRun := by
    rw [State.headerRun]
    split
    next hshort => exact (if_pos ⟨rfl, hshort⟩).trans (congrArg _ (raise_reading .td _ ⟨rfl, rfl⟩))
    next hlong => exact (if_neg (fun h => hlong h.2)).trans (runRecord_reading hat ⟨rfl, rfl⟩)
  rw [coreStep_td rfl, coreTD_header rfl, hrecord, whileIn_outcome (by decide), State.tableRun]
  cases hy : s.headerRun with
  | error e => rfl
  | ok y => exact tdLoop_reading _ (inTable_of_headerRun hy)

/-! ### Phase DE -/

theorem DecodeOp.recordRun {s : State} {x y : Emitter} (hop : DecodeOp s x.1) (h : s.recordRun .pay x = .ok y) :
    DecodeOp s y.1 := by
  obtain ⟨i, hf, heffect⟩ := recordRun_eq_ok h
  cases i with
  | pay byte =>
    rw [deBits_frame heffect]
    exact ⟨hop.curOp, hop.lenEn⟩
  | _ => cases hf

theorem deFinish_reading {s : State} {x : Emitter} (hop : DecodeOp s x.1) :
    (s.reading .de x).deFinish = s.decodeOutcome (finishCheck x) := by
  rw [finishCheck]
  split
  next hresid => exact (if_pos hresid).trans (raise_reading .de _ hop)
  next hnone => exact if_neg hnone

theorem deLoop_reading {s : State} (n : Nat) {x : Emitter} (hop : DecodeOp s x.1) :
    (s.reading .de x).deLoop n = .next (s.decodeOutcome (s.bytesRun n x >>= finishCheck)) := by
  induction n generalizing x with
  | zero => exact congrArg _ (deFinish_reading hop)
  | succ n ih =>
    rw [State.bytesRun]
    by_cases hnone : x.1.bitsLeft = 0
    · have hat : (s.reading .de x).nextFormat = none := if_pos hnone
      rw [deLoop_none hat, if_pos hnone, deFinish_reading hop]
      rfl
    · have hat : (s.reading .de x).nextFormat = some .pay := nextFormat_pay.mpr ⟨rfl, hnone⟩
      rw [deLoop_some hat, runRecord_reading hat hop, whileIn_outcome (by decide), if_neg hnone]
      cases hr : s.recordRun .pay x with
      | error e => rfl
      | ok y => exact ih (hop.recordRun hr)

/-- The start of `DE.RUN` keeps all registers but bits_left. -/
theorem deStart_frame {s : State} {w : Work} (h : s.deStart = .ok w) : w = { s.work with bitsLeft := w.bitsLeft } := by
  obtain ⟨-, -, hs⟩ | ⟨-, -, hs⟩ | ⟨-, hs⟩ := deStart_cases s <;> cases hs.symm.trans h <;> rfl

/-- Phase DE is one step to the end. -/
theorem coreStep_reading_de {s : State} {z : Emitter} (hop : DecodeOp s z.1) :
    coreStep (s.reading .de z) = .next (s.decodeOutcome (s.payloadResult z)) := by
  rw [coreStep_de rfl, State.payloadResult]
  obtain ⟨e, hstart, hstep⟩ | ⟨w, hstart, hstep⟩ := coreDE_cases (s.reading .de z)
  · rw [hstep, hstart, raise_reading .de e hop]
    rfl
  · have hop' : DecodeOp s w := by
      rw [deStart_frame hstart]
      exact ⟨hop.curOp, hop.lenEn⟩
    rw [hstep, hstart]
    exact deLoop_reading w.payloadLeft (x := (w, z.2)) hop'

/-! ### The run -/

/-- A DECODE between two steps. -/
inductive DecodeAt (s : State) : State → Prop
  | td (start : s.startCheck .decode = .ok ()) :
      DecodeAt s (s.reading .td (Work.start .decode (s.cfg = 1), s.symOut))
  | de {z : Emitter} (start : s.startCheck .decode = .ok ()) (table : s.tableRun = .ok z) :
      DecodeAt s (s.reading .de z)
  | ended : DecodeAt s (s.decodeOutcome s.decodeRun)

theorem decodeAt_start (s : State) : DecodeAt s (s.start .decode) := by
  obtain ⟨hports, hfits, hstart⟩ | ⟨hfail, hstart⟩ := start_cases s .decode
  · exact hstart ▸ .td (startCheck_eq_ok_iff.mpr ⟨hports, hfits⟩)
  · have hcheck : s.startCheck .decode = .error .ioError :=
      if_neg (by rwa [not_and_or, Bool.not_eq_true, Bool.not_eq_true])
    have hrun : s.decodeRun = .error .ioError := by rw [State.decodeRun, hcheck]; rfl
    have hend : s.start .decode = s.decodeOutcome s.decodeRun := by rw [hstart, hrun]; rfl
    exact hend ▸ .ended

/-- A step of a DECODE leads on to phase DE, and from there to the end. -/
theorem decodeAt_coreStep (s u : State) (h : DecodeAt s u) : ∃ t, coreStep u = .next t ∧ DecodeAt s t ∧
    t.phase ≠ .td ∧ (u.phase ≠ .td → t = s.decodeOutcome s.decodeRun) := by
  have hended : (s.decodeOutcome s.decodeRun).phase ≠ .td := by simp [decodeOutcome_phase]
  cases h with
  | td hcheck =>
    rw [coreStep_reading_td]
    cases hz : s.tableRun with
    | error e =>
      have hrun : s.decodeRun = .error e := by rw [State.decodeRun, hcheck, hz]; rfl
      have hend : s.outcome .de (.error e) = .next (s.decodeOutcome s.decodeRun) := by rw [hrun]; rfl
      exact ⟨_, hend, .ended, hended, fun _ => rfl⟩
    | ok z => exact ⟨_, rfl, .de hcheck hz, nofun, fun hne => absurd rfl hne⟩
  | @de z hcheck hz =>
    have hrun : s.decodeRun = s.payloadResult z := by rw [State.decodeRun, hcheck, hz]; rfl
    exact ⟨_, hrun ▸ coreStep_reading_de (inTable_of_tableRun hz).op, .ended, hended, fun _ => rfl⟩
  | ended => exact ⟨_, coreStep_idle (decodeOutcome_phase s _), .ended, hended, fun _ => rfl⟩

/-- The end of a DECODE. -/
theorem decode_end {s t : State} (h : EndOfRun .decode s t) : t = s.decodeOutcome s.decodeRun := by
  obtain ⟨-, hidle, k, hk⟩ := h
  have hstep : ∀ u v, DecodeAt s u → coreStep u = .next v → DecodeAt s v := by
    intro u v hu hv
    obtain ⟨v', hv', hat, -⟩ := decodeAt_coreStep s u hu
    cases hv.symm.trans hv'
    exact hat
  cases coreRun_invariant hstep (decodeAt_start s) hk with
  | ended => rfl
  | _ => cases hidle

/-- Two steps after START a DECODE has ended. -/
theorem decode_ends {s : State} (h : s.busy = false) : EndOfRun .decode s (s.decodeOutcome s.decodeRun) := by
  obtain ⟨u, hu, hat, hne, -⟩ := decodeAt_coreStep s _ (decodeAt_start s)
  obtain ⟨t, ht, -, -, hend⟩ := decodeAt_coreStep s u hat
  obtain rfl := hend hne
  refine ⟨h, ?_, 2, (coreRun_succ hu).trans (coreRun_succ ht)⟩
  cases s.decodeRun with
  | error e => exact State.raise_busy _ e
  | ok y => rfl

end Sys2Proof.Machine
end

