-- ==== Sys2Proof/Proofs/PayloadReader.lean ====
section
/-! SUPPORT. Where the reader of phase DE stands (46_decoder.md R200, R201). -/

namespace Sys2Proof.Machine

theorem deMatch_frame {cap : Option Nat} {x y : Emitter} (h : deMatch cap x = .ok y) :
    y.1 = { x.1 with accPat := y.1.accPat, accLen := y.1.accLen, outIdx := y.1.outIdx } := by
  obtain ⟨-, hm⟩ | ⟨e, -, -, hm⟩ | ⟨e, -, -, hm⟩ := deMatch_cases cap x <;> cases hm.symm.trans h <;> rfl

/-- Each bit moves the reader one on. -/
theorem deBits_reader {cap : Option Nat} {byte : Byte} {n : Nat} {x y : Emitter} (h : deBits cap byte n x = .ok y)
    (hn : n ≤ x.1.bitsLeft.toNat) (hroom : 8 * x.1.rdPtr.toNat + x.1.bitPos.toNat + n ≤ 2 ^ 38 - 8) :
    8 * y.1.rdPtr.toNat + y.1.bitPos.toNat = 8 * x.1.rdPtr.toNat + x.1.bitPos.toNat + n ∧
    y.1.bitsLeft.toNat = x.1.bitsLeft.toNat - n := by
  induction n generalizing x with
  | zero =>
    cases h
    exact ⟨rfl, rfl⟩
  | succ n ih =>
    rw [deBits_succ] at h
    obtain ⟨z, hz, hrest⟩ := except_bind_eq_ok_iff.mp h
    have hframe := deMatch_frame hz
    have hptr : z.1.rdPtr = (deAdvance x.1).rdPtr := by rw [hframe, deAppend_rdPtr]
    have hpos : z.1.bitPos = (deAdvance x.1).bitPos := by rw [hframe, deAppend_bitPos]
    have hleft : z.1.bitsLeft = x.1.bitsLeft - 1 := by rw [hframe, deAppend_bitsLeft, deAdvance_bitsLeft]
    have hstep := deAdvance_position (w := x.1) (by omega)
    rw [← hptr, ← hpos] at hstep
    have hleft' : z.1.bitsLeft.toNat = x.1.bitsLeft.toNat - 1 := by bv_omega
    obtain ⟨hplace, hend⟩ := ih hrest (by omega) (by omega)
    omega

/-- Phase DE, the bits left being those of the file behind the reader. -/
structure InPayload (s : State) (w : Work) : Prop where
  bits : 8 * w.rdPtr.toNat + w.bitPos.toNat + w.bitsLeft.toNat ≤ 8 * s.byteInLen.toNat

theorem InPayload.inside {s : State} {w : Work} (h : InPayload s w) (hne : w.bitsLeft ≠ 0) :
    w.rdPtr.toNat + 1 ≤ s.byteInLen.toNat := by
  have hbits := h.bits
  have hpos : w.bitsLeft.toNat ≠ 0 := fun hzero => hne (BitVec.eq_of_toNat_eq hzero)
  omega

theorem InPayload.recordRun {s : State} {x y : Emitter} (hx : InPayload s x.1)
    (h : s.recordRun .pay x = .ok y) : InPayload s y.1 := by
  have hbits := hx.bits
  have hlen : s.byteInLen.toNat < 2 ^ 35 := s.byteInLen.isLt
  have hle : bitsOfByte x.1 ≤ x.1.bitsLeft.toNat := Nat.min_le_right _ _
  obtain ⟨i, hf, heffect⟩ := recordRun_eq_ok h
  cases i with
  | pay byte =>
    obtain ⟨hplace, hleft⟩ := deBits_reader heffect hle (by omega)
    exact ⟨by omega⟩
  | _ => cases hf

theorem inPayload_of_deStart {s : State} {z : Emitter} {w : Work} (hz : InTable s z)
    (h : (s.reading .de z).deStart = .ok w) : InPayload s w := by
  have havail : (s.reading .de z).avail = 8 * (s.byteInLen.toNat - z.1.rdPtr.toNat) := rfl
  have hlen : s.byteInLen.toNat < 2 ^ 35 := s.byteInLen.isLt
  have hleft : w.bitsLeft.toNat ≤ 8 * (s.byteInLen.toNat - z.1.rdPtr.toNat) := by
    obtain ⟨-, -, hs⟩ | ⟨-, hle, hs⟩ | ⟨-, hs⟩ := deStart_cases (s.reading .de z) <;> cases hs.symm.trans h
    · exact hle
    · exact havail ▸ (BitVec.toNat_ofNat ..).trans_le (Nat.mod_le _ _)
  have hptr : w.rdPtr = z.1.rdPtr := by rw [deStart_frame h]; rfl
  have hpos : w.bitPos.toNat = 0 := by rw [deStart_frame h]; exact hz.frame ▸ rfl
  have hpointer := hz.pointer
  have hin := hz.left
  have hfile := hz.file
  refine ⟨?_⟩
  rw [hptr, hpos]
  omega

end Sys2Proof.Machine
end

