-- ==== Sys2Proof/Proofs/Determinism.lean ====
section
/-! SUPPORT. Runs on equal inputs give equal results, whatever else the state before START held (47_commands.md R224). -/

namespace Sys2Proof.Machine

theorem startCheck_congr {s s' : State} {op : Op} (hports : s.portsOk op = s'.portsOk op)
    (hfits : s.inputFits op = s'.inputFits op) : s.startCheck op = s'.startCheck op := by
  rw [State.startCheck, State.startCheck, hports, hfits]

/-! ### ENCODE -/

/-- What ENCODE's results depend on besides the pins. -/
structure SameEncodeInput (s s' : State) : Prop where
  params : s.params = s'.params
  inLen : s.inLen = s'.inLen
  symbols : s.inputSymbols = s'.inputSymbols

theorem SameEncodeInput.read {s s' : State} (h : SameEncodeInput s s') :
    ∀ a < s.inLen.toNat, s.symIn.read a = s'.symIn.read a := by
  obtain ⟨-, hlen, hsyms⟩ := h
  intro a ha
  rw [State.inputSymbols, State.inputSymbols, ← hlen] at hsyms
  exact Memory.read_eq_of_readList_eq hsyms (Nat.zero_le a) (by omega)

theorem SameEncodeInput.faRun_eq {s s' : State} (h : SameEncodeInput s s') (w : Work) :
    faRun s.params s.symIn s.inLen w = faRun s'.params s'.symIn s'.inLen w := by
  rw [← h.params, ← h.inLen]
  exact faLoop_congr h.read _ w

theorem encodeRun_alike {s s' : State} (h : SameEncodeInput s s') (hports : s.portOk = s'.portOk) :
    AlikeOutcome Work.written s.encodeRun s'.encodeRun := by
  have hcheck : s.startCheck .encode = s'.startCheck .encode :=
    startCheck_congr (by rw [State.portsOk, State.portsOk, hports])
      (by rw [State.inputFits, State.inputFits, h.params, h.inLen])
  rw [State.encodeRun, State.encodeRun, hcheck, ← h.faRun_eq, ← h.params, ← h.inLen]
  cases s'.startCheck .encode with
  | error e => exact .error e
  | ok =>
    cases hw : faRun s.params s.symIn s.inLen (Work.start .encode false) with
    | error e => exact .error e
    | ok w =>
      simp only [except_ok_bind]
      cases hv : buildCodes w with
      | error e => exact .error e
      | ok v =>
        have hstart : Alike Work.written (v, s.byteOut) (v, s'.byteOut) := by
          refine ⟨rfl, fun a ha => absurd ha ?_⟩
          rw [Work.written, buildCodes_frame hv, faRun_start hw]
          exact Nat.not_lt_zero a
        exact (tsRun_alike hstart).bind fun z z' _ hz => enRun_alike h.read hz

/-- Alike outcomes are the same to the host: STATUS, ERR_CODE, the result registers and the file. -/
theorem encodeOutcome_same {s s' : State} {r r' : Except ErrKind Writer} (h : AlikeOutcome Work.written r r') :
    (s.encodeOutcome r).statusWord = (s'.encodeOutcome r').statusWord ∧
    (s.encodeOutcome r).errCode = (s'.encodeOutcome r').errCode ∧
    (s.encodeOutcome r).encTabN = (s'.encodeOutcome r').encTabN ∧
    (s.encodeOutcome r).encBits = (s'.encodeOutcome r').encBits ∧
    (s.encodeOutcome r).byteOutLen = (s'.encodeOutcome r').byteOutLen ∧
    (s.encodeOutcome r).outputFile = (s'.encodeOutcome r').outputFile := by
  cases h with
  | error e =>
    simp [State.encodeOutcome, State.statusWord, State.outputFile, Memory.readList]
  | @ok y y' hy =>
    have hfile : y.2.readList 0 y.1.wrPtr.toNat = y'.2.readList 0 y.1.wrPtr.toNat :=
      Memory.readList_congr _ _ _ _ fun a _ ha => hy.cells a (by rwa [Nat.zero_add] at ha)
    simp [State.encodeOutcome, State.encodeDone, State.statusWord, State.outputFile, ← hy.work, hfile]

/-- The tree and the codes are the same where phase EN begins. -/
theorem encode_same_tables {s s' m m' : State} (h : SameEncodeInput s s') (hm : Reaches .encode .en s m)
    (hm' : Reaches .encode .en s' m') :
    m.work.node = m'.work.node ∧ m.work.root = m'.work.root ∧ m.work.code = m'.work.code := by
  obtain ⟨w, hw, v, hv, z, hz, rfl⟩ := encode_reaches_en hm
  obtain ⟨w', hw', v', hv', z', hz', rfl⟩ := encode_reaches_en hm'
  rw [h.faRun_eq] at hw
  obtain rfl := Except.ok.inj (hw.symm.trans hw')
  obtain rfl := Except.ok.inj (hv.symm.trans hv')
  show z.1.node = z'.1.node ∧ z.1.root = z'.1.root ∧ z.1.code = z'.1.code
  rw [tsRun_frame hz, tsRun_frame hz']
  exact ⟨rfl, rfl, rfl⟩

/-! ### DECODE -/

/-- What DECODE's results depend on besides the pins: DEC_BITS in length mode only. -/
structure SameDecodeInput (s s' : State) : Prop where
  params : s.params = s'.params
  byteInLen : s.byteInLen = s'.byteInLen
  file : s.inputFile = s'.inputFile
  cfg : s.cfg = s'.cfg
  decBits : s.cfg = 1 → s.decBits = s'.decBits

theorem SameDecodeInput.readList_eq {s s' : State} (h : SameDecodeInput s s') {a n : Nat}
    (hin : a + n ≤ s.byteInLen.toNat) : s.byteIn.readList a n = s'.byteIn.readList a n := by
  obtain ⟨-, hlen, hfile, -, -⟩ := h
  rw [State.inputFile, State.inputFile, ← hlen] at hfile
  exact Memory.readList_congr _ _ _ _ fun i _ hi => Memory.read_eq_of_readList_eq hfile (Nat.zero_le i) (by omega)

theorem recordEffect_alike {s s' : State} (h : SameDecodeInput s s') {x x' : Emitter} (hx : Alike Work.emitted x x')
    (i : Instr) : AlikeOutcome Work.emitted (s.recordEffect x i) (s'.recordEffect x' i) := by
  cases i with
  | encode => exact .ok hx
  | decode => exact .ok hx
  | hdr m =>
    rw [State.recordEffect, State.recordEffect, ← h.params, ← h.byteInLen, ← hx.work]
    split
    next e _ => exact .error e
    next => exact .ok ⟨rfl, hx.cells⟩
  | ent sym l p =>
    rw [State.recordEffect, State.recordEffect, ← hx.work]
    split
    next e _ => exact .error e
    next => exact .ok ⟨rfl, hx.cells⟩
  | pay byte =>
    rw [State.recordEffect, State.recordEffect, ← h.params, ← hx.work]
    exact deBits_alike byte _ hx

/-- A record inside the file is the same record. -/
theorem recordRun_alike {s s' : State} (h : SameDecodeInput s s') {x x' : Emitter} (hx : Alike Work.emitted x x')
    {f : Format} (hin : x.1.rdPtr.toNat + f.size ≤ s.byteInLen.toNat) :
    AlikeOutcome Work.emitted (s.recordRun f x) (s'.recordRun f x') := by
  rw [State.recordRun, State.recordRun, ← hx.work, memRead, memRead, ← h.params, ← h.readList_eq hin]
  split
  next =>
    simp only [except_ok_bind]
    split
    next i _ _ => exact recordEffect_alike h hx i
    next => exact .ok hx
  next => exact .error _

theorem headerRun_alike {s s' : State} (h : SameDecodeInput s s') :
    AlikeOutcome Work.emitted s.headerRun s'.headerRun := by
  rw [State.headerRun, State.headerRun, ← h.byteInLen, ← h.cfg]
  split
  next => exact .error _
  next hlong =>
    have hstart : Alike Work.emitted (Work.start .decode (s.cfg = 1), s.symOut)
        (Work.start .decode (s.cfg = 1), s'.symOut) := ⟨rfl, fun a ha => absurd ha (Nat.not_lt_zero a)⟩
    exact recordRun_alike h hstart (f := .hdr) (Nat.le_of_not_lt hlong)

theorem entriesRun_alike {s s' : State} (h : SameDecodeInput s s') (n : Nat) {x x' : Emitter}
    (hx : Alike Work.emitted x x') (hplace : InTable s x) :
    AlikeOutcome Work.emitted (s.entriesRun n x) (s'.entriesRun n x') := by
  induction n generalizing x x' with
  | zero => exact .ok hx
  | succ n ih =>
    rw [State.entriesRun, State.entriesRun, ← hx.work]
    split
    next hlt =>
      have hin : x.1.rdPtr.toNat + Format.ent.size ≤ s.byteInLen.toNat := by
        have hlt' := BitVec.lt_def.mp hlt
        have hpointer := hplace.pointer
        have hfile := hplace.file
        rw [Format.size]
        omega
      exact (recordRun_alike h hx hin).bind fun y y' hy halike => ih halike (hplace.recordRun hlt hy)
    next => exact .ok hx

theorem tableRun_alike {s s' : State} (h : SameDecodeInput s s') :
    AlikeOutcome Work.emitted s.tableRun s'.tableRun :=
  (headerRun_alike h).bind fun _ _ hy halike =>
    halike.work ▸ entriesRun_alike h _ halike (inTable_of_headerRun hy)

theorem bytesRun_alike {s s' : State} (h : SameDecodeInput s s') (n : Nat) {x x' : Emitter}
    (hx : Alike Work.emitted x x') (hplace : InPayload s x.1) :
    AlikeOutcome Work.emitted (s.bytesRun n x) (s'.bytesRun n x') := by
  induction n generalizing x x' with
  | zero => exact .ok hx
  | succ n ih =>
    rw [State.bytesRun, State.bytesRun, ← hx.work]
    split
    next => exact .ok hx
    next hne =>
      have hin : x.1.rdPtr.toNat + Format.pay.size ≤ s.byteInLen.toNat := hplace.inside hne
      exact (recordRun_alike h hx hin).bind fun y y' hy halike => ih halike (hplace.recordRun hy)

theorem finishCheck_alike {x x' : Emitter} (h : Alike Work.emitted x x') :
    AlikeOutcome Work.emitted (finishCheck x) (finishCheck x') := by
  rw [finishCheck, finishCheck, ← h.work]
  split
  next => exact .error _
  next => exact .ok h

/-- DEC_BITS counts in length mode only (46_decoder.md R200). -/
theorem deStart_congr {u u' : State} (hwork : u.work = u'.work) (hlen : u.byteInLen = u'.byteInLen)
    (hbits : u.work.lenEn = true → u.decBits = u'.decBits) : u.deStart = u'.deStart := by
  rw [State.deStart, State.deStart, State.avail, State.avail, ← hwork, ← hlen]
  split
  next hmode => rw [hbits hmode]
  next => rfl

theorem decodeRun_alike {s s' : State} (h : SameDecodeInput s s') (hports : s.portOk = s'.portOk) :
    AlikeOutcome Work.emitted s.decodeRun s'.decodeRun := by
  have hcheck : s.startCheck .decode = s'.startCheck .decode :=
    startCheck_congr (by rw [State.portsOk, State.portsOk, hports])
      (by rw [State.inputFits, State.inputFits, h.params, h.byteInLen])
  rw [State.decodeRun, State.decodeRun, hcheck]
  cases s'.startCheck .decode with
  | error e => exact .error e
  | ok =>
    refine (tableRun_alike h).bind fun z z' htable hz => ?_
    have hplace := inTable_of_tableRun htable
    have hmode : z.1.lenEn = true → s.decBits = s'.decBits := fun hlen =>
      h.decBits (of_decide_eq_true (hplace.op.lenEn.symm.trans hlen))
    have hdeStart : (s.reading .de z).deStart = (s'.reading .de z').deStart :=
      deStart_congr hz.work h.byteInLen hmode
    rw [State.payloadResult, State.payloadResult, ← hdeStart]
    cases hw : (s.reading .de z).deStart with
    | error e => exact .error e
    | ok w =>
      have hout : w.outIdx = z.1.outIdx := by rw [deStart_frame hw]; rfl
      have hstart : Alike Work.emitted (w, z.2) (w, z'.2) := ⟨rfl, fun a ha => hz.cells a (by rwa [Work.emitted, hout] at ha)⟩
      exact (bytesRun_alike h _ hstart (inPayload_of_deStart hplace hw)).bind
        fun y y' _ hy => finishCheck_alike hy

/-- Alike outcomes are the same to the host: STATUS, ERR_CODE, the result registers and the output sequence. -/
theorem decodeOutcome_same {s s' : State} {r r' : Except ErrKind Emitter} (h : AlikeOutcome Work.emitted r r') :
    (s.decodeOutcome r).statusWord = (s'.decodeOutcome r').statusWord ∧
    (s.decodeOutcome r).errCode = (s'.decodeOutcome r').errCode ∧
    (s.decodeOutcome r).decTabN = (s'.decodeOutcome r').decTabN ∧
    (s.decodeOutcome r).residLen = (s'.decodeOutcome r').residLen ∧
    (s.decodeOutcome r).symOutLen = (s'.decodeOutcome r').symOutLen ∧
    (s.decodeOutcome r).outputSymbols = (s'.decodeOutcome r').outputSymbols := by
  cases h with
  | error e => simp [State.decodeOutcome, State.statusWord, State.outputSymbols, Memory.readList]
  | @ok y y' hy =>
    have hsyms : y.2.readList 0 y.1.outIdx.toNat = y'.2.readList 0 y.1.outIdx.toNat :=
      Memory.readList_congr _ _ _ _ fun a _ ha => hy.cells a (by rwa [Nat.zero_add] at ha)
    simp [State.decodeOutcome, State.decodeDone, State.statusWord, State.outputSymbols, ← hy.work, hsyms]

end Sys2Proof.Machine
end

