-- ==== Sys2Proof/Proofs/EncodedTable.lean ====
section
/-! SUPPORT. The table at the front of the file of an ENCODE without error (47_commands.md R215). -/

namespace Sys2Proof.Machine

/-- An ENCODE that ends without error has run all its units. -/
theorem encode_ok {s t : State} (h : EndOfRun .encode s t) (herr : t.err = false) :
    ∃ y, s.encodeRun = .ok y ∧ t = s.encodeDone y := by
  obtain rfl := encode_end h
  cases hrun : s.encodeRun with
  | error e =>
    rw [hrun] at herr
    cases (State.raise_err _ e).symm.trans herr
  | ok y => exact ⟨y, rfl, rfl⟩

theorem Memory.take_readList {w : Nat} (m : Memory w) {n k : Nat} (a : Nat) (h : n ≤ k) :
    (m.readList a k).take n = m.readList a n := by
  obtain ⟨d, rfl⟩ := Nat.exists_eq_add_of_le h
  rw [Memory.readList_append, List.take_left' (Memory.readList_length _ _ _)]

/-- What CG leaves has the registers of TS and EN as START sets them. -/
theorem buildCodes_start {p : Params} {symIn : Memory 32} {inLen : BitVec 32} {w v : Work}
    (hw : faRun p symIn inLen (Work.start .encode false) = .ok w) (hv : buildCodes w = .ok v) :
    v.ft = w.ft ∧ Unwritten v ∧ v.pkByte = 0 ∧ v.bitTotal = 0 := by
  rw [buildCodes_frame hv, faRun_start hw]
  exact ⟨rfl, ⟨rfl, rfl, rfl⟩, rfl, rfl⟩

/-- TS writes the table from CG's codes, and EN leaves it as it is. -/
theorem encode_writes_table {p : Params} {symIn : Memory 32} {inLen : BitVec 32} {m : Memory 8} {w v : Work}
    {z y : Writer} (hparams : p.Legal) (hw : faRun p symIn inLen (Work.start .encode false) = .ok w)
    (hv : buildCodes w = .ok v) (hz : tsRun p.byteOutCap (v, m) = .ok z) (hy : enRun p symIn inLen z = .ok y) :
    v.ft.length ≤ p.nMax ∧ z.1.wrPtr.toNat = 2 + 9 * v.ft.length ∧ y.1.ft = v.ft ∧
    2 + 9 * v.ft.length ≤ y.1.wrPtr.toNat ∧ y.2.readList 0 (2 + 9 * v.ft.length) = v.tableBytes := by
  obtain ⟨hft, ⟨hidx, hptr, hcnt⟩, -, -⟩ := buildCodes_start hw hv
  have hroom : v.ft.length ≤ p.nMax := hft ▸ faRun_ft_length_le hw (Nat.zero_le _)
  obtain ⟨hend, hbytes⟩ := tsRun_writes hz hptr hidx (hroom.trans hparams.2)
  dsimp only at hend hbytes
  have hcnt' : z.1.pkCnt = 0 := by rw [tsRun_frame hz]; exact hcnt
  have hft' : y.1.ft = v.ft := by rw [enRun_frame hy, tsRun_frame hz]
  obtain ⟨hle, hkept⟩ := enRun_keeps hy hcnt' (by have := hparams.2; omega)
  rw [hend] at hle hkept
  exact ⟨hroom, hend, hft', hle, hbytes ▸ Memory.readList_congr _ _ _ _ fun a _ ha => hkept a (by omega)⟩

/-- The table of an ENCODE's file is that of its FT and codes. -/
theorem encodeDone_table {s : State} {y : Writer} (hparams : s.params.Legal) (h : s.encodeRun = .ok y) :
    ∃ w v, faRun s.params s.symIn s.inLen (Work.start .encode false) = .ok w ∧ buildCodes w = .ok v ∧
      (s.encodeDone y).encTabN = v.ftN ∧
      (s.encodeDone y).outputFile.take (2 + 9 * (s.encodeDone y).encTabN.toNat) = v.tableBytes := by
  obtain ⟨-, w, hw, v, hv, z, hz, hy⟩ := encodeRun_eq_ok_iff.mp h
  obtain ⟨hroom, -, hft, hle, hbytes⟩ := encode_writes_table hparams hw hv hz hy
  have hcount : (s.encodeDone y).encTabN = v.ftN := by
    show y.1.ftN = v.ftN
    rw [Work.ftN, Work.ftN, hft]
  have hsize : v.ftN.toNat = v.ft.length := Nat.mod_eq_of_lt (by have := hparams.2; omega)
  refine ⟨w, v, hw, hv, hcount, ?_⟩
  rw [hcount, hsize, ← hbytes]
  exact Memory.take_readList _ _ hle

end Sys2Proof.Machine
end

