-- ==== Sys2Proof/Proofs/EmptyInput.lean ====
section
/-! SUPPORT. ENCODE of nothing, and DECODE of the file it gives (47_commands.md R222). -/

namespace Sys2Proof.Machine

/-! ### ENCODE -/

theorem coreStep_encoding_ts {s : State} {x z : Writer} (hz : tsRun s.params.byteOutCap x = .ok z) :
    coreStep (s.encoding .ts x) = .next (s.encoding .en z) := by
  obtain ⟨e, he, -⟩ | ⟨y, hy, hnext⟩ := phaseTS_cases (s.encoding .ts x)
  · cases hz.symm.trans he
  · obtain rfl := Except.ok.inj (hz.symm.trans hy)
    rw [coreStep_ts rfl, hnext]
    rfl

theorem coreStep_encoding_en {s : State} {z y : Writer} (hy : enRun s.params s.symIn s.inLen z = .ok y) :
    coreStep (s.encoding .en z) = .next (s.encodeDone y) := by
  obtain ⟨e, he, -⟩ | ⟨y', hy', hnext⟩ := phaseEN_outcome (s.encoding .en z)
  · cases hy.symm.trans he
  · obtain rfl := Except.ok.inj (hy.symm.trans hy')
    rw [coreStep_en rfl, hnext]
    rfl

/-- The two bytes of an empty table written to BYTE_OUT. -/
def emptyTable (m : Memory 8) : Writer :=
  ({ Work.start .encode false with wrPtr := 2 }, m.writeList 0 [0x00#8, 0x00#8])

/-- TS writes an empty table as its size alone (44_table_serializer.md R176). -/
theorem tsRun_empty {cap : Option Nat} (h : fits cap 2 = true) (m : Memory 8) :
    tsRun cap (Work.start .encode false, m) = .ok (emptyTable m) := by
  have hwrite : memWrite cap m 0 (encode (.hdr 0)) = .ok (m.writeList 0 [0x00#8, 0x00#8]) := memWrite_ok h
  have hheader : tsHeader cap (Work.start .encode false, m) = .ok (emptyTable m) := by
    refine (putRecord_eq cap _ _).trans ?_
    show memWrite cap m 0 (encode (.hdr 0)) >>= _ = _
    rw [hwrite]
    rfl
  rw [tsRun_eq, hheader]
  rfl

/-- FA and EN do nothing on an empty input. -/
theorem faRun_empty (p : Params) (symIn : Memory 32) (w : Work) (h : w.inIdx = 0) : faRun p symIn 0 w = .ok w := by
  rw [faRun, h]
  rfl

theorem enRun_empty (p : Params) (symIn : Memory 32) {x : Writer} (hcnt : x.1.pkCnt = 0) :
    enRun p symIn 0 x = .ok ({ x.1 with inIdx := 0 }, x.2) := by
  rw [enRun_eq]
  exact pkFlush_empty _ hcnt

theorem fits_zero (cap : Option Nat) : fits cap 0 = true := by
  cases cap with
  | none => rfl
  | some c => exact decide_eq_true (Nat.zero_le c)

/-- The run of ENCODE on nothing: phases FA, TS and EN, and an empty table as the file. -/
theorem encode_empty {s : State} (hbusy : s.busy = false) (hports : s.portsOk .encode = true) (hlen : s.inLen = 0)
    (hfit : fits s.params.byteOutCap 2 = true) :
    coreStep (s.start .encode) = .next (s.encoding .ts (Work.start .encode false, s.byteOut)) ∧
    EndOfRun .encode s (s.encodeDone (emptyTable s.byteOut)) := by
  have hin : s.inputFits .encode = true := by
    rw [State.inputFits, hlen]
    exact fits_zero _
  have hstart : s.start .encode = s.encoding .fa (Work.start .encode false, s.byteOut) := start_ok hports hin
  have hfa : coreStep (s.start .encode) = .next (s.encoding .ts (Work.start .encode false, s.byteOut)) := by
    have hrun : faRun s.params s.symIn s.inLen (Work.start .encode false) = .ok (Work.start .encode false) :=
      hlen ▸ faRun_empty _ _ _ rfl
    obtain ⟨e, he, -⟩ | ⟨w, hw, hnext⟩ := phaseFA_cases (s.encoding .fa (Work.start .encode false, s.byteOut))
    · cases hrun.symm.trans he
    · obtain rfl := Except.ok.inj (hrun.symm.trans hw)
      rw [hstart, coreStep_fa rfl, hnext]
      rfl
  have hen : enRun s.params s.symIn s.inLen (emptyTable s.byteOut) = .ok (emptyTable s.byteOut) := by
    rw [hlen]
    exact enRun_empty _ _ rfl
  refine ⟨hfa, hbusy, rfl, 3, ?_⟩
  rw [coreRun_succ hfa, coreRun_succ (coreStep_encoding_ts (tsRun_empty hfit _)),
    coreRun_succ (coreStep_encoding_en hen)]
  rfl

/-! ### DECODE -/

/-- Without payload bits, phase DE goes straight to `DE.FINISH`. -/
theorem payloadResult_of_no_bits {s : State} {z : Emitter} {w : Work} (hstart : (s.reading .de z).deStart = .ok w)
    (hnone : w.bitsLeft = 0) : s.payloadResult z = finishCheck (w, z.2) := by
  have hleft : w.payloadLeft = 0 := if_pos hnone
  rw [State.payloadResult, hstart, except_ok_bind, hleft]
  rfl

/-- The working registers of DECODE and SYM_OUT behind the header of an empty table. -/
def State.emptyRead (s : State) : Emitter := ({ Work.start .decode (s.cfg = 1) with rdPtr := 2 }, s.symOut)

/-- Phase TD reads the header of an empty table and no entry (45_table_deserializer.md R185). -/
theorem tableRun_empty {s : State} (hfit : fits s.params.byteInCap 2 = true) (hlen : s.byteInLen = 2)
    (hfile : s.inputFile = [0x00#8, 0x00#8]) : s.tableRun = .ok s.emptyRead := by
  have hread : memRead s.params.byteInCap s.byteIn 0 2 = .ok [0x00#8, 0x00#8] := by
    rw [State.inputFile, hlen] at hfile
    exact hfile ▸ memRead_ok hfit
  have hsize : tdSizeCheck s.params.nMax s.byteInLen 0 = none := by
    rw [hlen]
    rfl
  have hheader : s.headerRun = .ok s.emptyRead := by
    rw [State.headerRun, if_neg (by rw [hlen]; decide), State.recordRun]
    show memRead s.params.byteInCap s.byteIn 0 2 >>= _ = _
    rw [hread]
    show s.recordEffect _ (.hdr 0) = _
    rw [State.recordEffect, hsize]
    rfl
  rw [State.tableRun, hheader]
  rfl

/-- No bits are left behind such a table, in either mode (46_decoder.md R205, R206). -/
theorem deStart_empty {s : State} (hlen : s.byteInLen = 2) (hbits : s.cfg = 1 → s.decBits = 0) :
    (s.reading .de s.emptyRead).deStart = .ok s.emptyRead.1 := by
  obtain ⟨hmode, hlt, -⟩ | ⟨hmode, -, hok⟩ | ⟨-, hok⟩ := deStart_cases (s.reading .de s.emptyRead)
  · have hzero : s.decBits = 0 := hbits (of_decide_eq_true hmode)
    exact absurd (hzero ▸ hlt : _ < (0#38).toNat) (Nat.not_lt_zero _)
  · have hzero : s.decBits = 0 := hbits (of_decide_eq_true hmode)
    rw [hok]
    exact congrArg (fun b => Except.ok { s.emptyRead.1 with bitsLeft := b }) hzero
  · have hzero : 8 * (s.byteInLen.toNat - 2) = 0 := by rw [hlen]; rfl
    rw [hok]
    exact congrArg (fun n => Except.ok { s.emptyRead.1 with bitsLeft := BitVec.ofNat 38 n }) hzero

/-- The run of DECODE on the file of an empty table. -/
theorem decodeRun_empty {s : State} (hports : s.portsOk .decode = true) (hfit : fits s.params.byteInCap 2 = true)
    (hlen : s.byteInLen = 2) (hfile : s.inputFile = [0x00#8, 0x00#8]) (hbits : s.cfg = 1 → s.decBits = 0) :
    s.decodeRun = .ok s.emptyRead := by
  have hcheck : s.startCheck .decode = .ok () :=
    startCheck_eq_ok_iff.mpr ⟨hports, by rw [State.inputFits, hlen]; exact hfit⟩
  rw [State.decodeRun, hcheck, tableRun_empty hfit hlen hfile, except_ok_bind, except_ok_bind,
    payloadResult_of_no_bits (deStart_empty hlen hbits) rfl]
  rfl

end Sys2Proof.Machine
end

