-- ==== Sys2Proof/Proofs/BitStrings.lean ====
section
/-! SUPPORT. Bit-strings of patterns (30_encoding.md R95), codes of which one begins another, and packed bytes
(30_encoding.md R96). -/

namespace Sys2Proof.Machine

/-! ### Bit-strings -/

@[simp] theorem bitString_length (l : Nat) (p : BitVec 32) : (bitString l p).length = l := by
  simp [bitString]

theorem bitString_getElem {l i : Nat} {p : BitVec 32} (h : i < (bitString l p).length) :
    (bitString l p)[i] = p.getLsbD (l - 1 - i) := by
  simp [bitString]

/-- The bit `EN.SHIFT` pushes first is the first of the string (43_encoder_packer.md R162). -/
theorem bitString_succ (l : Nat) (p : BitVec 32) : bitString (l + 1) p = p.getLsbD l :: bitString l p := by
  rw [bitString, List.range_succ_eq_map, List.map_cons, List.map_map, bitString]
  refine congrArg _ (List.map_congr_left fun i _ => ?_)
  rw [Function.comp_apply, Nat.succ_eq_add_one, Nat.add_sub_cancel, Nat.sub_sub, Nat.add_comm]

theorem getLsbD_of_toNat_lt {p : BitVec 32} {l k : Nat} (h : p.toNat < 2 ^ l) (hk : l ≤ k) : p.getLsbD k = false :=
  Nat.testBit_lt_two_pow (h.trans_le (Nat.pow_le_pow_right (by decide) hk))

/-- A pattern whose string begins another's is the upper part of it. -/
theorem pat_eq_div_of_begins {l l' : Nat} {p p' : BitVec 32} (hp : p.toNat < 2 ^ l) (hp' : p'.toNat < 2 ^ l')
    (h : bitString l p <+: bitString l' p') : l ≤ l' ∧ p.toNat = p'.toNat / 2 ^ (l' - l) := by
  have hle : l ≤ l' := by simpa using h.length_le
  refine ⟨hle, ?_⟩
  rw [← Nat.shiftRight_eq_div_pow, ← BitVec.toNat_ushiftRight]
  congr 1
  refine BitVec.eq_of_getLsbD_eq fun k _ => ?_
  rw [BitVec.getLsbD_ushiftRight]
  obtain hlt | hge := Nat.lt_or_ge k l
  · have hi : l - 1 - k < (bitString l p).length := by simp; omega
    have hbit := h.getElem hi
    rwa [bitString_getElem, bitString_getElem, show l - 1 - (l - 1 - k) = k by omega,
      show l' - 1 - (l - 1 - k) = l' - l + k by omega] at hbit
  · rw [getLsbD_of_toNat_lt hp hge, getLsbD_of_toNat_lt hp' (by omega)]

/-- Patterns within their length are told apart by their strings. -/
theorem pat_eq_of_bitString_eq {l : Nat} {p p' : BitVec 32} (hp : p.toNat < 2 ^ l) (hp' : p'.toNat < 2 ^ l)
    (h : bitString l p = bitString l p') : p = p' := by
  obtain ⟨-, hdiv⟩ := pat_eq_div_of_begins hp hp' (h ▸ List.prefix_rfl)
  rw [Nat.sub_self, Nat.pow_zero, Nat.div_one] at hdiv
  exact BitVec.eq_of_toNat_eq hdiv

/-- A code that begins another has the other's interval inside its own: neither comes before the other. -/
theorem not_codeBefore_of_begins {c c' : CodeEntry} (hc : LegalKey c.len c.pat) (hc' : LegalKey c'.len c'.pat)
    (h : bitString c.len.toNat c.pat <+: bitString c'.len.toNat c'.pat) : ¬ CodeBefore c c' ∧ ¬ CodeBefore c' c := by
  obtain ⟨-, -, hpat⟩ := hc
  obtain ⟨-, hlen', hpat'⟩ := hc'
  obtain ⟨hle, hdiv⟩ := pat_eq_div_of_begins hpat hpat' h
  have hsplit : 2 ^ (32 - c.len.toNat) = 2 ^ (c'.len.toNat - c.len.toNat) * 2 ^ (32 - c'.len.toNat) := by
    rw [← Nat.pow_add]
    congr 1
    omega
  have hfirst : codeFirst c ≤ codeFirst c' := by
    rw [codeFirst, codeFirst, hdiv, hsplit, ← Nat.mul_assoc]
    exact Nat.mul_le_mul_right _ (Nat.div_mul_le_self _ _)
  have hlast : codeFirst c' < codeEnd c := by
    rw [codeFirst, codeEnd, hdiv, hsplit, ← Nat.mul_assoc]
    exact Nat.mul_lt_mul_of_pos_right (Nat.lt_mul_of_div_lt (Nat.lt_succ_self _) (Nat.two_pow_pos _))
      (Nat.two_pow_pos _)
  exact ⟨Nat.not_le_of_lt hlast, fun hb => absurd (codeFirst_lt_codeEnd c') (Nat.not_lt_of_le (hb.trans hfirst))⟩

/-! ### Packed bytes -/

theorem payloadByte_congr {bits bits' : List Bool} {q q' : Nat}
    (h : ∀ j < 8, bits.getD (8 * q + j) false = bits'.getD (8 * q' + j) false) :
    payloadByte bits q = payloadByte bits' q' :=
  List.foldl_ext _ _ _ fun acc j hj => by rw [h j (List.mem_range.mp hj)]

/-- Bit 8q + j of the bitstream is bit 7 - j of payload byte q (30_encoding.md R96). -/
theorem getLsbD_payloadByte (bits : List Bool) (q : Nat) {j : Nat} (hj : j < 8) :
    (payloadByte bits q).getLsbD (7 - j) = bits.getD (8 * q + j) false := by
  have hrange : List.range 8 = [0, 1, 2, 3, 4, 5, 6, 7] := rfl
  rw [payloadByte, hrange]
  interval_cases j <;> simp [BitVec.getLsbD_eq_getElem]

/-- The whole bytes of a bitstream do not change when bits are appended. -/
theorem payloadByte_append {bits : List Bool} {q : Nat} (h : q < bits.length / 8) (more : List Bool) :
    payloadByte (bits ++ more) q = payloadByte bits q := by
  refine payloadByte_congr fun j hj => ?_
  rw [List.getD_append _ _ _ _ (by omega)]

/-- A bit appended stands in the byte in progress, behind those it holds. -/
theorem payloadByte_concat (bits : List Bool) (b : Bool) : payloadByte (bits ++ [b]) (bits.length / 8) =
    payloadByte bits (bits.length / 8) ||| (BitVec.ofBool b).setWidth 8 <<< (7 - bits.length % 8) := by
  have hlen : 8 * (bits.length / 8) + bits.length % 8 = bits.length := Nat.div_add_mod _ _
  refine BitVec.eq_of_getLsbD_eq fun i hi => ?_
  obtain ⟨j, hj, rfl⟩ : ∃ j, j < 8 ∧ i = 7 - j := ⟨7 - i, by omega, by omega⟩
  rw [BitVec.getLsbD_or, getLsbD_payloadByte _ _ hj, getLsbD_payloadByte _ _ hj, BitVec.getLsbD_shiftLeft]
  obtain hlt | heq | hgt := Nat.lt_trichotomy j (bits.length % 8)
  · have hold : 8 * (bits.length / 8) + j < bits.length := by omega
    have hzero : ((BitVec.ofBool b).setWidth 8).getLsbD (7 - j - (7 - bits.length % 8)) = false := by
      rw [BitVec.getLsbD_setWidth, BitVec.getLsbD_of_ge _ _ (by omega), Bool.and_false]
    rw [List.getD_append _ _ _ _ hold, hzero, Bool.and_false, Bool.or_false]
  · have hin : 7 - bits.length % 8 < 8 := by omega
    rw [heq, hlen]
    simp [hin]
  · have hout : bits.length + 1 ≤ 8 * (bits.length / 8) + j := by omega
    rw [List.getD_eq_default _ _ (by simpa using hout), List.getD_eq_default _ _ (by omega)]
    simp
    omega

theorem payloadByte_drop (bits : List Bool) (q : Nat) : payloadByte (bits.drop 8) q = payloadByte bits (q + 1) := by
  refine payloadByte_congr fun j _ => ?_
  rw [List.getD_eq_getElem?_getD, List.getD_eq_getElem?_getD, List.getElem?_drop]
  congr 2
  omega

/-- The first byte takes eight bits, or all there are. -/
theorem ceil8_drop {bits : List Bool} (h : bits ≠ []) : ceil8 bits.length = ceil8 (bits.drop 8).length + 1 := by
  have hpos := List.length_pos_iff.mpr h
  rw [List.length_drop, ceil8, ceil8]
  omega

theorem packBits_cons {bits : List Bool} (h : bits ≠ []) :
    packBits bits = payloadByte bits 0 :: packBits (bits.drop 8) := by
  rw [packBits, ceil8_drop h, List.range_succ_eq_map, List.map_cons, List.map_map, packBits]
  refine congrArg _ (List.map_congr_left fun q _ => ?_)
  exact (payloadByte_drop bits q).symm

end Sys2Proof.Machine
end

