-- ==== Sys2Proof/Proofs/PrefixCodes.lean ====
section
/-! SUPPORT. The codes CG finds: legal, and none begins another (42_code_generator.md R155). -/

namespace Sys2Proof.Machine

/-- With nothing pending, CODE lists the code of every leaf. -/
theorem WalkInv.codeAt_mem {w : Work} (h : WalkInv w) (hnil : w.stack = []) (hmax : w.ft.length ≤ 65535) {i : Nat}
    (hi : i < w.ft.length) : (i, w.codeAt i) ∈ w.code := by
  have hidx := leafIndex_toNat hi hmax
  obtain hfound | ⟨e, he, -⟩ := h.covered (BitVec.ofNat 17 i) (hidx.symm ▸ hi)
  · rw [hidx] at hfound
    obtain ⟨c, hc⟩ := Option.isSome_iff_exists.mp hfound
    rw [Work.codeAt, hc]
    exact cellsFind_mem hc
  · rw [hnil] at he
    cases he

/-- The codes of two leaves stand for intervals of which one comes before the other. -/
theorem cgRun_codes_apart {w w' : Work} (htree : CodeTree w) (hcode : w.code = []) (hmax : w.ft.length ≤ 65535)
    (h : cgRun w = .ok w') {i j : Nat} (hi : i < w'.ft.length) (hj : j < w'.ft.length) (hne : i ≠ j) :
    CodeBefore (w'.codeAt i) (w'.codeAt j) ∨ CodeBefore (w'.codeAt j) (w'.codeAt i) := by
  have hft : w'.ft = w.ft := by rw [cgRun_frame h]
  rw [cgRun] at h
  split at h
  next hleaf =>
    have hroot : ∀ i, i < w.ft.length → w.root.toNat = i := fun i hi => by
      have hidx := leafIndex_toNat hi hmax
      rw [(htree.covered (BitVec.ofNat 17 i) (hidx.symm ▸ hi)).eq_of_leaf hleaf, hidx]
    rw [hft] at hi hj
    exact absurd ((hroot i hi).symm.trans (hroot j hj)) hne
  next hinternal =>
    rw [cgWalk] at h
    have hstart := walkInv_start htree hcode hinternal
    have htree₀ : CodeTree { w with stack := [{ node := w.root, pat := 0, len := 0 }] } :=
      ⟨htree.leaves, htree.covered⟩
    have hinv : CodeTree w' ∧ WalkInv w' := cgLoop_invariant cgTurn_walkInv h ⟨htree₀, hstart⟩
    have hnil : w'.stack = [] := cgLoop_stack_eq_nil (by simp) (turnsLeft_root_le w.root) h
    exact hinv.2.apart _ (hinv.2.codeAt_mem hnil (hft ▸ hmax) hi) _ (hinv.2.codeAt_mem hnil (hft ▸ hmax) hj) hne

/-- CODE holds a legal code for every entry of FT, and none begins another. -/
structure PrefixCodes (w : Work) : Prop where
  usable : UsableCodes w
  apart : ∀ i j, i < w.ft.length → j < w.ft.length → w.codeBits i <+: w.codeBits j → i = j

/-- The codes of an ENCODE that has found them. -/
theorem prefixCodes_buildCodes {p : Params} {symIn : Memory 32} {inLen : BitVec 32} {w v : Work} (hparams : p.Legal)
    (hw : faRun p symIn inLen (Work.start .encode false) = .ok w) (hv : buildCodes w = .ok v) : PrefixCodes v := by
  have hmax : w.ft.length ≤ 65535 := (faRun_ft_length_le hw (Nat.zero_le _)).trans hparams.2
  have hft : v.ft = w.ft := (buildCodes_start hw hv).1
  rw [buildCodes] at hv
  split at hv
  next hempty =>
    rw [← hft] at hempty
    exact ⟨⟨fun i hi => absurd hi (by omega), fun i _ hi => absurd hi (by omega)⟩,
      fun i _ hi => absurd hi (by omega)⟩
  next hne =>
    have htree : CodeTree (tbRun w) := codeTree_tbRun (Nat.one_le_iff_ne_zero.mpr hne) hmax
    have hcode : (tbRun w).code = [] := by rw [tbRun_frame w, faRun_start hw]; rfl
    have hmax' : (tbRun w).ft.length ≤ 65535 := by rw [tbRun_frame w]; exact hmax
    have husable := cgRun_usableCodes htree hcode hmax' hv
    refine ⟨husable, fun i j hi hj hbegins => ?_⟩
    by_contra hij
    obtain ⟨hnot, hnot'⟩ := not_codeBefore_of_begins (husable.legal i hi) (husable.legal j hj) hbegins
    exact (cgRun_codes_apart htree hcode hmax' hv hi hj hij).elim hnot hnot'

end Sys2Proof.Machine
end

