-- ==== Sys2Proof/Proofs/PayloadWriting.lean ====
section
/-! SUPPORT. The bits phase EN packs behind the table: the codes of the input sequence, one after another
(43_encoder_packer.md R160 to R164, 47_commands.md R215). -/

namespace Sys2Proof.Machine

/-! ### The packer -/

/-- Behind the last bit there are only zeros (30_encoding.md R96). -/
theorem payloadByte_beyond {bits : List Bool} {q : Nat} (h : bits.length ≤ 8 * q) : payloadByte bits q = 0 := by
  refine BitVec.eq_of_getLsbD_eq fun i hi => ?_
  obtain ⟨j, hj, rfl⟩ : ∃ j, j < 8 ∧ i = 7 - j := ⟨7 - i, by omega, by omega⟩
  rw [getLsbD_payloadByte _ _ hj, List.getD_eq_default _ _ (by omega)]
  exact BitVec.getLsbD_zero.symm

/-- A bit pushed doubles the bits held and stands behind them (43_encoder_packer.md R163). -/
theorem packedByte_toNat {byte : Byte} (h : byte.toNat < 2 ^ 7) (b : Bool) :
    (packedByte byte b).toNat = 2 * byte.toNat + b.toNat := by
  have hbit : ((BitVec.ofBool b).setWidth 8).toNat = b.toNat := by cases b <;> rfl
  rw [packedByte, BitVec.toNat_or, hbit, BitVec.toNat_shiftLeft, Nat.shiftLeft_eq, Nat.mod_eq_of_lt (by omega),
    ← Nat.shiftLeft_eq, ← Nat.shiftLeft_add_eq_or_of_lt b.toNat_lt, Nat.shiftLeft_eq]
  omega

section Push
variable {cap : Option Nat} {b : Bool} {base : Nat} {bits : List Bool} {x : Writer} (hx : Packed base bits x)
include hx

/-- The byte in progress with the bit pushed, left-aligned, is the payload byte. -/
theorem packedByte_aligned :
    packedByte x.1.pkByte b <<< (7 - bits.length % 8) = payloadByte (bits ++ [b]) (bits.length / 8) := by
  have hshift : 8 - bits.length % 8 = 1 + (7 - bits.length % 8) := by omega
  rw [payloadByte_concat, ← hx.rest, hx.count, packedByte, BitVec.shiftLeft_or_distrib, hshift, BitVec.shiftLeft_add]

theorem read_of_packed : ∀ q < bits.length / 8, x.2.read (base + q) = payloadByte (bits ++ [b]) q := fun q hq => by
  rw [hx.written q hq, payloadByte_append hq]

/-- A push appends its bit. -/
theorem packed_pkPush {y : Writer} (h : pkPush cap b x = .ok y) (hbits : bits.length + 1 < 2 ^ 37)
    (hptr : base + (bits.length + 1) / 8 < 2 ^ 35) : Packed base (bits ++ [b]) y := by
  have haligned := packedByte_aligned (b := b) hx
  have hkept := read_of_packed (b := b) hx
  obtain ⟨hcount, htotal, hpointer, -, hupper, -⟩ := hx
  have hlen : (bits ++ [b]).length = bits.length + 1 := by simp
  have htotal' : (x.1.bitTotal + 1).toNat = (bits ++ [b]).length := by bv_omega
  by_cases hfull : x.1.pkCnt = 7
  · have hseven : bits.length % 8 = 7 := by rw [← hcount, hfull]; rfl
    rw [pkPush_full cap hfull] at h
    obtain ⟨m, hm, hy⟩ := except_bind_eq_ok_iff.mp h
    obtain rfl := (memWrite_inv hm).1
    cases hy
    have hdiv : (bits ++ [b]).length / 8 = bits.length / 8 + 1 := by omega
    refine ⟨by rw [hlen]; exact (by omega : 0 = (bits.length + 1) % 8), htotal', ?_, fun q hq => ?_, Nat.one_pos, ?_⟩
    · rw [hdiv]
      show (x.1.wrPtr + 1).toNat = _
      bv_omega
    · rw [hdiv] at hq
      rw [hpointer]
      obtain hlt | rfl := Nat.lt_succ_iff_lt_or_eq.mp hq
      · exact (Memory.read_write_other _ (by omega) _).trans (hkept q hlt)
      · rw [hseven] at haligned
        exact (Memory.read_write_same _ _ _).trans (haligned ▸ (BitVec.shiftLeft_zero _).symm)
    · rw [payloadByte_beyond (by omega)]
      rfl
  · have hsmall : x.1.pkCnt.toNat < 7 := by bv_omega
    have hnext : (x.1.pkCnt + 1).toNat = bits.length % 8 + 1 := by bv_omega
    have hdiv : (bits ++ [b]).length / 8 = bits.length / 8 := by omega
    have hheld : x.1.pkByte.toNat < 2 ^ 6 := hupper.trans_le (Nat.pow_le_pow_right (by decide) (by omega))
    rw [pkPush_notFull cap hfull] at h
    cases h
    refine ⟨hnext.trans (by omega), htotal', hdiv ▸ hpointer, hdiv ▸ hkept, ?_, ?_⟩
    · show (packedByte x.1.pkByte b).toNat < 2 ^ (x.1.pkCnt + 1).toNat
      have hb : b.toNat < 2 := b.toNat_lt
      rw [packedByte_toNat (hheld.trans (by decide)), hnext, Nat.pow_succ, ← hcount]
      omega
    · rw [hdiv]
      show packedByte x.1.pkByte b <<< (8 - (x.1.pkCnt + 1).toNat) = _
      rw [hnext, ← haligned]
      congr 1
      omega

end Push

theorem packed_enShift {cap : Option Nat} {p : BitVec 32} {l base : Nat} {bits : List Bool} {x y : Writer}
    (hx : Packed base bits x) (h : enShift cap p l x = .ok y) (hbits : bits.length + l < 2 ^ 37)
    (hptr : base + (bits.length + l) / 8 < 2 ^ 35) : Packed base (bits ++ bitString l p) y := by
  induction l generalizing bits x with
  | zero =>
    cases h
    rwa [show bitString 0 p = [] from rfl, List.append_nil]
  | succ l ih =>
    rw [enShift_succ] at h
    obtain ⟨z, hz, hrest⟩ := except_bind_eq_ok_iff.mp h
    have hnext : Packed base (bits ++ [p.getLsbD l]) z := packed_pkPush hx hz (by omega) (by omega)
    have hlen : (bits ++ [p.getLsbD l]).length = bits.length + 1 := by simp
    rw [bitString_succ, ← List.singleton_append, ← List.append_assoc]
    exact ih hnext hrest (by omega) (by omega)

/-- The last byte is written with zeros behind its bits (43_encoder_packer.md R164). -/
theorem packed_pkFlush {cap : Option Nat} {base : Nat} {bits : List Bool} {x y : Writer} (hx : Packed base bits x)
    (h : pkFlush cap x = .ok y) (hptr : base + ceil8 bits.length < 2 ^ 35) :
    y.1.bitTotal.toNat = bits.length ∧ y.1.wrPtr.toNat = base + ceil8 bits.length ∧
    y.2.readList base (ceil8 bits.length) = packBits bits := by
  obtain ⟨hcount, htotal, hpointer, hwritten, -, hrest⟩ := hx
  rw [ceil8] at hptr ⊢
  have hread : ∀ m : Memory 8, (∀ q < (bits.length + 7) / 8, m.read (base + q) = payloadByte bits q) →
      m.readList base ((bits.length + 7) / 8) = packBits bits := by
    intro m hm
    refine List.ext_getElem? fun q => ?_
    by_cases hq : q < (bits.length + 7) / 8
    · rw [Memory.readList_getElem? _ _ _ _ hq, hm q hq, packBits, ceil8, List.getElem?_map, List.getElem?_range hq]
      rfl
    · rw [List.getElem?_eq_none (by simpa using hq), List.getElem?_eq_none (by simpa [packBits, ceil8] using hq)]
  by_cases hempty : x.1.pkCnt = 0
  · have hwhole : bits.length % 8 = 0 := by rw [← hcount, hempty]; rfl
    have hceil : (bits.length + 7) / 8 = bits.length / 8 := by omega
    rw [pkFlush_empty cap hempty] at h
    cases h
    exact ⟨htotal, hceil ▸ hpointer, hread _ (hceil ▸ hwritten)⟩
  · have hheld : bits.length % 8 ≠ 0 := by bv_omega
    have hceil : (bits.length + 7) / 8 = bits.length / 8 + 1 := by omega
    rw [pkFlush_held cap hempty] at h
    obtain ⟨m, hm, hy⟩ := except_bind_eq_ok_iff.mp h
    obtain rfl := (memWrite_inv hm).1
    cases hy
    have hnext : (x.1.wrPtr + 1).toNat = base + (bits.length + 7) / 8 := by bv_omega
    refine ⟨htotal, hnext, hread _ fun q hq => ?_⟩
    rw [hceil] at hq
    rw [hpointer, hrest]
    obtain hlt | rfl := Nat.lt_succ_iff_lt_or_eq.mp hq
    · exact (Memory.read_write_other _ (by omega) _).trans (hwritten q hlt)
    · exact Memory.read_write_same _ _ _

/-! ### The codes of the input sequence -/

theorem enLookup_eq_ok {x : Sym} {ft : List FtEntry} {i : Nat} (h : enLookup x ft = .ok i) :
    ∃ e, ft[i]? = some e ∧ e.sym = x := by
  rw [enLookup] at h
  split at h
  next j hj =>
    cases h
    obtain ⟨hlt, hsym, -⟩ := List.findIdx?_eq_some_iff_getElem.mp hj
    exact ⟨ft[i], List.getElem?_eq_getElem hlt, of_decide_eq_true hsym⟩
  next => cases h

theorem codeOf_of_enLookup {w : Work} {x : Sym} {i : Nat} (h : enLookup x w.ft = .ok i) : w.codeOf x = w.codeBits i := by
  rw [Work.codeOf, h]

section Codes
variable {w : Work} (hcodes : UsableCodes w) {base : Nat} {bits : List Bool} {x y : Writer}
  (hft : x.1.ft = w.ft) (hcode : x.1.code = w.code) (hx : Packed base bits x)
include hcodes hft hcode hx

/-- A Symbol appends its code, of at most 32 bits (43_encoder_packer.md R160). -/
theorem packed_enSymbol {cap : Option Nat} {sym : Sym} (h : enSymbol cap sym x = .ok y)
    (hbits : bits.length + 32 < 2 ^ 37) (hptr : base + (bits.length + 32) / 8 < 2 ^ 35) :
    (∃ i, enLookup sym w.ft = .ok i) ∧ (w.codeOf sym).length ≤ 32 ∧ Packed base (bits ++ w.codeOf sym) y := by
  have hat : ∀ i, x.1.codeAt i = w.codeAt i := fun i => by rw [Work.codeAt, Work.codeAt, hcode]
  rw [enSymbol_eq, hft] at h
  obtain ⟨i, hi, hshift⟩ := except_bind_eq_ok_iff.mp h
  rw [hat] at hshift
  obtain ⟨e, he, -⟩ := enLookup_eq_ok hi
  obtain ⟨-, hlen, -⟩ := hcodes.legal i (List.getElem?_eq_some_iff.mp he).1
  rw [codeOf_of_enLookup hi, Work.codeBits]
  exact ⟨⟨i, hi⟩, (bitString_length _ _).trans_le hlen, packed_enShift hx hshift (by omega) (by omega)⟩

theorem packed_enLoop {p : Params} {symIn : Memory 32} {inLen : BitVec 32} {n : Nat}
    (h : enLoop p symIn inLen n x = .ok y) (hn : x.1.inIdx.toNat + n = inLen.toNat)
    (hbits : bits.length + 32 * n < 2 ^ 37) (hptr : base + (bits.length + 32 * n) / 8 < 2 ^ 35) :
    (∀ sym ∈ symIn.readList x.1.inIdx.toNat n, ∃ i, enLookup sym w.ft = .ok i) ∧
    (w.bitstream (symIn.readList x.1.inIdx.toNat n)).length ≤ 32 * n ∧
    Packed base (bits ++ w.bitstream (symIn.readList x.1.inIdx.toNat n)) y := by
  induction n generalizing bits x with
  | zero =>
    cases h
    exact ⟨nofun, le_rfl, by simpa [Memory.readList, Work.bitstream] using hx⟩
  | succ n ih =>
    rw [enLoop_succ (BitVec.lt_def.mpr (by omega))] at h
    obtain ⟨sym, hsym, hrest⟩ := except_bind_eq_ok_iff.mp h
    obtain ⟨z, hz, hloop⟩ := except_bind_eq_ok_iff.mp hrest
    obtain ⟨hfound, hlen, hpacked⟩ := packed_enSymbol hcodes hft hcode hx hz (by omega) (by omega)
    have hread : symIn.read x.1.inIdx.toNat = sym := by
      rw [memReadOne] at hsym
      split at hsym
      next => exact Except.ok.inj hsym
      next => cases hsym
    have hidx : z.1.inIdx = x.1.inIdx := by rw [enSymbol_frame hz]
    have hnext : (z.1.inIdx + 1).toNat = x.1.inIdx.toNat + 1 := by bv_omega
    have hlen' : (bits ++ w.codeOf sym).length = bits.length + (w.codeOf sym).length := List.length_append
    obtain ⟨hall, htotal, hend⟩ := ih (x := ({ z.1 with inIdx := z.1.inIdx + 1 }, z.2))
      ((by rw [enSymbol_frame hz] : z.1.ft = x.1.ft).trans hft)
      ((by rw [enSymbol_frame hz] : z.1.code = x.1.code).trans hcode)
      ⟨hpacked.count, hpacked.total, hpacked.pointer, hpacked.written, hpacked.upper, hpacked.rest⟩ hloop
      (hnext ▸ by omega) (by omega) (by omega)
    dsimp only at hall htotal hend
    rw [hnext] at hall htotal hend
    have hstream : ∀ syms, w.bitstream (sym :: syms) = w.codeOf sym ++ w.bitstream syms := fun _ => rfl
    rw [Memory.readList, hread, hstream, List.length_append, ← List.append_assoc]
    exact ⟨List.forall_mem_cons.mpr ⟨hfound, hall⟩, by omega, hend⟩

end Codes

/-- Phase EN packs the bitstream of the input sequence behind the table (47_commands.md R215). -/
theorem enRun_writes {p : Params} {symIn : Memory 32} {inLen : BitVec 32} {w : Work} {x y : Writer}
    (hcodes : UsableCodes w) (hft : x.1.ft = w.ft) (hcode : x.1.code = w.code) (hcnt : x.1.pkCnt = 0)
    (hbyte : x.1.pkByte = 0) (htotal : x.1.bitTotal = 0) (hptr : x.1.wrPtr.toNat ≤ 2 + 9 * 65535)
    (h : enRun p symIn inLen x = .ok y) :
    (∀ sym ∈ symIn.readList 0 inLen.toNat, ∃ i, enLookup sym w.ft = .ok i) ∧
    y.1.bitTotal.toNat = (w.bitstream (symIn.readList 0 inLen.toNat)).length ∧
    y.1.wrPtr.toNat = x.1.wrPtr.toNat + ceil8 (w.bitstream (symIn.readList 0 inLen.toNat)).length ∧
    y.2.readList x.1.wrPtr.toNat (ceil8 (w.bitstream (symIn.readList 0 inLen.toNat)).length) =
      packBits (w.bitstream (symIn.readList 0 inLen.toNat)) := by
  have hlen : inLen.toNat < 2 ^ 32 := inLen.isLt
  have hstart : Packed x.1.wrPtr.toNat [] ({ x.1 with inIdx := 0 }, x.2) := by
    refine ⟨by rw [hcnt]; rfl, by rw [htotal]; rfl, rfl, nofun, ?_, ?_⟩
    · show x.1.pkByte.toNat < _
      rw [hbyte]
      exact Nat.two_pow_pos _
    · show x.1.pkByte <<< _ = _
      rw [hbyte, payloadByte_beyond (Nat.zero_le _)]
      exact BitVec.zero_shiftLeft _
  rw [enRun_eq] at h
  obtain ⟨z, hz, hflush⟩ := except_bind_eq_ok_iff.mp h
  obtain ⟨hall, hbits, hpacked⟩ := packed_enLoop (base := x.1.wrPtr.toNat)
    (x := ({ x.1 with inIdx := 0 }, x.2)) (n := inLen.toNat) hcodes hft hcode hstart hz (Nat.zero_add _)
    (by rw [List.length_nil]; omega) (by rw [List.length_nil]; omega)
  replace hbits : (w.bitstream (symIn.readList 0 inLen.toNat)).length ≤ 32 * inLen.toNat := hbits
  rw [List.nil_append] at hpacked
  exact ⟨hall, packed_pkFlush hpacked hflush (by rw [ceil8]; omega)⟩

end Sys2Proof.Machine
end

