-- ==== Sys2Proof/Proofs/PayloadReading.lean ====
section
/-! SUPPORT. Phase DE on the codes of a table of which none begins another: it emits the Symbols whose codes the payload
is made of, or finds SYM_OUT full (46_decoder.md R200 to R203, 47_commands.md R220). -/

namespace Sys2Proof.Machine

/-- The key of a table entry as a bit-string (10_state.md R41). -/
def entryBits (e : DtEntry) : List Bool := bitString e.len.toNat e.pat

@[simp] theorem entryBits_length (e : DtEntry) : (entryBits e).length = e.len.toNat := bitString_length _ _

/-- The keys are legal, and none begins another. -/
structure PrefixTable (dtab : List DtEntry) : Prop where
  legal : ∀ e ∈ dtab, LegalKey e.len e.pat
  apart : ∀ e ∈ dtab, ∀ e' ∈ dtab, entryBits e <+: entryBits e' → e = e'

/-- DE on its way through a payload that is the keys of the entries `es`: it has emitted the Symbols of the first out_idx
of them, and the accumulator and the bits `rest` to come are the keys of the others, the accumulator being less than the
first. -/
structure Decoding (dtab es : List DtEntry) (rest : List Bool) (x : Emitter) : Prop where
  table : x.1.dtab = dtab
  count : x.1.outIdx.toNat ≤ es.length
  output : x.2.readList 0 x.1.outIdx.toNat = (es.take x.1.outIdx.toNat).map DtEntry.sym
  stream : bitString x.1.accLen.toNat x.1.accPat ++ rest = ((es.drop x.1.outIdx.toNat).map entryBits).flatten
  pattern : x.1.accPat.toNat < 2 ^ x.1.accLen.toNat
  less : ∀ e, es[x.1.outIdx.toNat]? = some e → x.1.accLen.toNat < e.len.toNat

/-- Moving the reader changes nothing of this. -/
theorem Decoding.deAdvance {dtab es : List DtEntry} {rest : List Bool} {x : Emitter} (h : Decoding dtab es rest x) :
    Decoding dtab es rest (deAdvance x.1, x.2) := by
  obtain ⟨htable, hcount, houtput, hstream, hpattern, hless⟩ := h
  constructor <;> simpa only [deAdvance_dtab, deAdvance_outIdx, deAdvance_accLen, deAdvance_accPat]

/-- With all bits read, all Symbols are out and the accumulator is empty. -/
theorem Decoding.finished {dtab es : List DtEntry} {x : Emitter} (h : Decoding dtab es [] x) :
    x.1.outIdx.toNat = es.length ∧ x.1.accLen = 0 ∧ x.2.readList 0 es.length = es.map DtEntry.sym := by
  obtain ⟨-, hcount, houtput, hstream, -, hless⟩ := h
  rw [List.append_nil] at hstream
  have hend : x.1.outIdx.toNat = es.length := by
    by_contra hne
    have hlt : x.1.outIdx.toNat < es.length := by omega
    have hpart := hless _ (List.getElem?_eq_getElem hlt)
    have hlen := congrArg List.length hstream
    rw [List.drop_eq_getElem_cons hlt, List.map_cons, List.flatten_cons, List.length_append, bitString_length,
      entryBits_length] at hlen
    omega
  rw [hend, List.take_length] at houtput
  rw [hend, List.drop_length] at hstream
  refine ⟨hend, BitVec.eq_of_toNat_eq ?_, houtput⟩
  simpa using congrArg List.length hstream

theorem fits_eq_false_of_le {cap : Option Nat} {m n : Nat} (h : fits cap m = false) (hmn : m ≤ n) :
    fits cap n = false := by
  cases hn : fits cap n with
  | false => rfl
  | true => exact absurd (h.symm.trans (fits_mono hn hmn)) Bool.false_ne_true

/-- A bit appended stands last in the accumulator's string, whose pattern still fits its length
(46_decoder.md R202). -/
theorem deAppend_string {w : Work} (hlt : w.accLen.toNat < 32) (hpat : w.accPat.toNat < 2 ^ w.accLen.toNat) (b : Bool) :
    bitString (deAppend b w).accLen.toNat (deAppend b w).accPat = bitString w.accLen.toNat w.accPat ++ [b] ∧
    (deAppend b w).accPat.toNat < 2 ^ (deAppend b w).accLen.toNat := by
  refine ⟨?_, ?_⟩
  · rw [deAppend_accLen_toNat hlt, deAppend_of_lt hlt]
    exact bitString_shiftLeft_or hlt w.accPat b
  · rw [deAppend_of_lt hlt]
    exact childEntry_pat_lt (e := ⟨0, w.accPat, w.accLen⟩) hlt hpat 0 b

/-- DE with a bit just appended: the accumulator is the key of `e`, the entry to be emitted next, or the beginning of
it. -/
structure AtKey (dtab es : List DtEntry) (rest : List Bool) (x : Emitter) (e : DtEntry) : Prop where
  table : x.1.dtab = dtab
  entry : es[x.1.outIdx.toNat]? = some e
  output : x.2.readList 0 x.1.outIdx.toNat = (es.take x.1.outIdx.toNat).map DtEntry.sym
  stream : bitString x.1.accLen.toNat x.1.accPat ++ rest =
    entryBits e ++ ((es.drop (x.1.outIdx.toNat + 1)).map entryBits).flatten
  pattern : x.1.accPat.toNat < 2 ^ x.1.accLen.toNat
  begins : bitString x.1.accLen.toNat x.1.accPat <+: entryBits e

/-- A key equal to the accumulator is that of `e`, as it begins it. -/
theorem AtKey.eq_of_key {dtab es : List DtEntry} {rest : List Bool} {x : Emitter} {e e' : DtEntry}
    (htable : PrefixTable dtab) (hmem : e ∈ dtab) (h : AtKey dtab es rest x e) (hmem' : e' ∈ dtab)
    (hlen : e'.len = x.1.accLen) (hpat : e'.pat = x.1.accPat) : e' = e := by
  refine htable.apart e' hmem' e hmem ?_
  rw [entryBits, hlen, hpat]
  exact h.begins

section Bits
variable {dtab es : List DtEntry} (htable : PrefixTable dtab) (hknown : ∀ e ∈ es, e ∈ dtab) (hes : es.length < 2 ^ 38)
  {cap : Option Nat} {rest : List Bool} {x : Emitter}
include htable hknown

/-- While bits come there is an entry to be emitted next, and the bit belongs to its key. -/
theorem Decoding.append {b : Bool} (h : Decoding dtab es (b :: rest) x) :
    ∃ e, AtKey dtab es rest (deAppend b x.1, x.2) e := by
  obtain ⟨hdtab, -, houtput, hstream, hpattern, hless⟩ := h
  have hlt : x.1.outIdx.toNat < es.length := by
    by_contra hge
    rw [List.drop_eq_nil_of_le (Nat.le_of_not_lt hge)] at hstream
    simp at hstream
  have he := List.getElem?_eq_getElem hlt
  obtain ⟨-, hlen, -⟩ := htable.legal _ (hknown _ (List.mem_of_getElem? he))
  have hpart := hless _ he
  obtain ⟨hstring, hpattern'⟩ := deAppend_string (hpart.trans_le hlen) hpattern b
  rw [List.drop_eq_getElem_cons hlt, List.map_cons, List.flatten_cons, List.append_cons, ← hstring] at hstream
  refine ⟨es[x.1.outIdx.toNat], (deAppend_dtab b x.1).trans hdtab, ?_, ?_, ?_, hpattern', ?begins⟩
  case begins =>
    refine List.prefix_of_prefix_length_le (List.prefix_append _ rest) (hstream ▸ List.prefix_append _ _) ?_
    rw [bitString_length, entryBits_length, deAppend_accLen_toNat (hpart.trans_le hlen)]
    exact hpart
  all_goals dsimp only; rw [deAppend_outIdx]
  · exact he
  · exact houtput
  · exact hstream

/-- A beginning of the next key is no key. -/
theorem AtKey.deMatch_part {e : DtEntry} (h : AtKey dtab es rest x e) (hpart : x.1.accLen.toNat < e.len.toNat) :
    deMatch cap x = .ok x ∧ Decoding dtab es rest x := by
  have hmem : e ∈ dtab := hknown e (List.mem_of_getElem? h.entry)
  have hnone : deKey x.1 = none := by
    refine (deKey_eq_none_iff _).mpr (.inr (.inr fun e' he' hmatch => hpart.ne ?_))
    rw [← h.eq_of_key htable hmem (h.table ▸ he') hmatch.1 hmatch.2, hmatch.1]
  refine ⟨deMatch_of_none hnone, h.table, ?_, h.output, ?_, h.pattern, fun e' he' => ?_⟩
  · exact (List.getElem?_eq_some_iff.mp h.entry).1.le
  · obtain ⟨hlt, rfl⟩ := List.getElem?_eq_some_iff.mp h.entry
    rw [List.drop_eq_getElem_cons hlt, List.map_cons, List.flatten_cons]
    exact h.stream
  · rwa [Option.some.inj (he'.symm.trans h.entry)]

include hes

/-- On the whole of the next key, its Symbol goes out. -/
theorem AtKey.deMatch_key {e : DtEntry} (h : AtKey dtab es rest x e) (hfull : x.1.accLen.toNat = e.len.toNat) :
    (fits cap es.length = false ∧ deMatch cap x = .error .ioError) ∨
    (∃ y, deMatch cap x = .ok y ∧ Decoding dtab es rest y) := by
  have hmem : e ∈ dtab := hknown e (List.mem_of_getElem? h.entry)
  obtain ⟨hone, hlen, hpat⟩ := htable.legal e hmem
  have hlt : x.1.outIdx.toNat < es.length := (List.getElem?_eq_some_iff.mp h.entry).1
  have hsame : bitString x.1.accLen.toNat x.1.accPat = entryBits e := h.begins.eq_of_length (by simpa using hfull)
  have hrest : rest = ((es.drop (x.1.outIdx.toNat + 1)).map entryBits).flatten :=
    List.append_cancel_left (hsame ▸ h.stream)
  have hfound : deKey x.1 = some e := by
    refine deKey_eq_some_of_unique (h.table ▸ hmem) (by omega) (by omega) (BitVec.eq_of_toNat_eq hfull.symm) ?_
      fun e' he' hl hp => htable.apart e' (h.table ▸ he') e hmem (by rw [entryBits, entryBits, hl, hp])
    exact pat_eq_of_bitString_eq hpat (hfull ▸ h.pattern) (hsame.symm.trans (by rw [hfull]))
  obtain ⟨hnoRoom, hroom⟩ := deMatch_of_some (cap := cap) (x := x) hfound
  cases hfit : fits cap (x.1.outIdx.toNat + 1) with
  | false => exact .inl ⟨fits_eq_false_of_le hfit hlt, hnoRoom hfit⟩
  | true =>
    have hnext : (x.1.outIdx + 1).toNat = x.1.outIdx.toNat + 1 := by bv_omega
    have hkept : (x.2.write x.1.outIdx.toNat e.sym).readList 0 x.1.outIdx.toNat = x.2.readList 0 x.1.outIdx.toNat :=
      Memory.readList_congr _ _ _ _ fun a _ ha => Memory.read_write_other _ (by omega) _
    refine .inr ⟨_, hroom hfit, h.table, hnext ▸ hlt, ?_, ?_, Nat.one_pos, ?_⟩
    · show (x.2.write x.1.outIdx.toNat e.sym).readList 0 (x.1.outIdx + 1).toNat =
        (es.take (x.1.outIdx + 1).toNat).map DtEntry.sym
      rw [hnext, Memory.readList_append, hkept, h.output, List.take_add_one, h.entry, List.map_append, Nat.zero_add]
      exact congrArg (_ ++ [·]) (Memory.read_write_same _ _ _)
    · exact hrest.trans (by rw [hnext])
    · exact fun e' he' => (htable.legal e' (hknown e' (List.mem_of_getElem? he'))).1

/-- One bit more: it completes the next key, whose Symbol goes out, or leads on to it. -/
theorem Decoding.deMatch {b : Bool} (h : Decoding dtab es (b :: rest) x) :
    (fits cap es.length = false ∧ deMatch cap (deAppend b x.1, x.2) = .error .ioError) ∨
    (∃ y, deMatch cap (deAppend b x.1, x.2) = .ok y ∧ Decoding dtab es rest y) := by
  obtain ⟨e, he⟩ := h.append htable hknown
  obtain hpart | hfull := Nat.lt_or_eq_of_le (by simpa using he.begins.length_le)
  · exact .inr ⟨_, he.deMatch_part htable hknown hpart⟩
  · exact he.deMatch_key htable hknown hes hfull

/-- Bits of the byte at the read pointer, one after another. -/
theorem Decoding.deBits {byte : Byte} {bits : List Bool} (h : Decoding dtab es (bits ++ rest) x)
    (hpos : x.1.bitPos.toNat + bits.length ≤ 8)
    (hbyte : ∀ j (hj : j < bits.length), byte.getLsbD (7 - (x.1.bitPos.toNat + j)) = bits[j]) :
    (fits cap es.length = false ∧ deBits cap byte bits.length x = .error .ioError) ∨
    (∃ y, deBits cap byte bits.length x = .ok y ∧ Decoding dtab es rest y) := by
  induction bits generalizing x with
  | nil => exact .inr ⟨x, rfl, h⟩
  | cons b bits ih =>
    rw [List.length_cons] at hpos
    have hb : payloadBit byte x.1 = b := hbyte 0 (Nat.zero_lt_succ _)
    rw [List.length_cons, deBits_succ, deBit, hb]
    obtain ⟨hfull, herr⟩ | ⟨z, hz, hnext⟩ := h.deAdvance.deMatch htable hknown hes (cap := cap)
    · exact .inl ⟨hfull, by rw [herr]; rfl⟩
    · rw [hz, except_ok_bind]
      by_cases hnil : bits = []
      · subst hnil
        exact .inr ⟨z, rfl, hnext⟩
      · have hmore := List.length_pos_iff.mpr hnil
        have hinside : x.1.bitPos ≠ 7 := by bv_omega
        have hstep : z.1.bitPos.toNat = x.1.bitPos.toNat + 1 := by
          rw [deMatch_frame hz, deAppend_bitPos, Machine.deAdvance, if_neg hinside]
          bv_omega
        refine ih hnext (by omega) fun j hj => ?_
        rw [hstep, Nat.add_assoc, Nat.add_comm 1]
        exact hbyte (j + 1) (Nat.succ_lt_succ hj)

end Bits

/-! ### The payload, byte by byte -/

theorem bytesRun_end (s : State) (n : Nat) {x : Emitter} (h : x.1.bitsLeft = 0) : s.bytesRun n x = .ok x := by
  cases n with
  | zero => rfl
  | succ n => exact if_pos h

/-- A payload byte at the read pointer is taken as PAY. -/
theorem recordRun_pay {s : State} {x : Emitter} {byte : Byte} (hfit : fits s.params.byteInCap (x.1.rdPtr.toNat + 1) = true)
    (hread : s.byteIn.read x.1.rdPtr.toNat = byte) :
    s.recordRun .pay x = Machine.deBits s.params.symOutCap byte (bitsOfByte x.1) x := by
  have hbytes : memRead s.params.byteInCap s.byteIn x.1.rdPtr.toNat Format.pay.size = .ok [byte] :=
    hread ▸ memRead_ok hfit
  rw [State.recordRun, hbytes]
  rfl

section Payload
variable {s : State} {dtab es : List DtEntry} (htable : PrefixTable dtab) (hknown : ∀ e ∈ es, e ∈ dtab)
  (hes : es.length < 2 ^ 38) {rest : List Bool} {x : Emitter}
include htable hknown hes

/-- Phase DE on one byte of a payload packed from the keys of entries of the table: its bits are the first eight of those
to come, or all of them. -/
theorem recordRun_decodes (h : Decoding dtab es rest x) (hpos : x.1.bitPos = 0)
    (hleft : x.1.bitsLeft.toNat = rest.length) (hroom : x.1.rdPtr.toNat + 1 < 2 ^ 35)
    (hfit : fits s.params.byteInCap (x.1.rdPtr.toNat + 1) = true)
    (hbyte : s.byteIn.read x.1.rdPtr.toNat = payloadByte rest 0) :
    (fits s.params.symOutCap es.length = false ∧ s.recordRun .pay x = .error .ioError) ∨
    (∃ y, s.recordRun .pay x = .ok y ∧ Decoding dtab es (rest.drop 8) y ∧
      8 * y.1.rdPtr.toNat + y.1.bitPos.toNat = 8 * x.1.rdPtr.toNat + min 8 rest.length ∧
      y.1.bitsLeft.toNat = (rest.drop 8).length) := by
  have hzero : x.1.bitPos.toNat = 0 := congrArg BitVec.toNat hpos
  have htake : (rest.take 8).length = min 8 rest.length := List.length_take
  have hbits : bitsOfByte x.1 = (rest.take 8).length := by rw [bitsOfByte, hzero, hleft, htake]
  have hsplit : Decoding dtab es (rest.take 8 ++ rest.drop 8) x := (List.take_append_drop 8 rest).symm ▸ h
  have hsame : ∀ j (hj : j < (rest.take 8).length),
      (payloadByte rest 0).getLsbD (7 - (x.1.bitPos.toNat + j)) = (rest.take 8)[j] := by
    intro j hj
    rw [hzero, Nat.zero_add, getLsbD_payloadByte _ _ (by omega), Nat.mul_zero, Nat.zero_add,
      List.getD_eq_getElem _ _ (by omega), List.getElem_take]
  rw [recordRun_pay hfit hbyte, hbits]
  obtain hfull | ⟨y, hy, hnext⟩ := hsplit.deBits htable hknown hes (cap := s.params.symOutCap) (by omega) hsame
  · exact .inl hfull
  · obtain ⟨hplace, hleft'⟩ := deBits_reader hy (by omega) (by omega)
    refine .inr ⟨y, hy, hnext, by rw [hplace, htake, hzero, Nat.add_zero], ?_⟩
    rw [hleft', hleft, htake, List.length_drop]
    omega

/-- Phase DE on a payload in BYTE_IN that is packed from the keys of entries of the table. -/
theorem bytesRun_decodes {n : Nat} (h : Decoding dtab es rest x) (hn : ceil8 rest.length ≤ n) (hpos : x.1.bitPos = 0)
    (hleft : x.1.bitsLeft.toNat = rest.length) (hroom : x.1.rdPtr.toNat + ceil8 rest.length < 2 ^ 35)
    (hfit : fits s.params.byteInCap (x.1.rdPtr.toNat + ceil8 rest.length) = true)
    (hbytes : s.byteIn.readList x.1.rdPtr.toNat (ceil8 rest.length) = packBits rest) :
    (fits s.params.symOutCap es.length = false ∧ s.bytesRun n x = .error .ioError) ∨
    (∃ y, s.bytesRun n x = .ok y ∧ Decoding dtab es [] y) := by
  induction n generalizing rest x with
  | zero =>
    have hnil : rest = [] := List.length_eq_zero_iff.mp (by rw [ceil8] at hn; omega)
    exact .inr ⟨x, rfl, hnil ▸ h⟩
  | succ n ih =>
    by_cases hnil : rest = []
    case pos =>
      have hzero : x.1.bitsLeft = 0 := BitVec.eq_of_toNat_eq (by rw [hleft, hnil]; rfl)
      exact .inr ⟨x, bytesRun_end s _ hzero, hnil ▸ h⟩
    case neg =>
      have hlen := List.length_pos_iff.mpr hnil
      have hceil := ceil8_drop hnil
      have hne : x.1.bitsLeft ≠ 0 := by bv_omega
      rw [hceil, packBits_cons hnil, Memory.readList] at hbytes
      obtain ⟨hbyte, hbytes'⟩ := List.cons_eq_cons.mp hbytes
      rw [State.bytesRun, if_neg hne]
      obtain ⟨hfull, herr⟩ | ⟨y, hy, hnext, hplace, hleft'⟩ := recordRun_decodes htable hknown hes h hpos hleft
        (by omega) (fits_mono hfit (by omega)) hbyte
      · exact .inl ⟨hfull, by rw [herr]; rfl⟩
      rw [hy, except_ok_bind]
      obtain hlast | hmore := le_or_gt rest.length 8
      · rw [List.drop_eq_nil_of_le hlast] at hnext hleft'
        exact .inr ⟨y, bytesRun_end s n (BitVec.eq_of_toNat_eq hleft'), hnext⟩
      · have hptr : y.1.rdPtr.toNat = x.1.rdPtr.toNat + 1 := by bv_omega
        refine ih hnext (by omega) (by bv_omega) hleft' (by omega) ?_ ?_
        · rwa [hptr, Nat.add_assoc, Nat.add_comm 1, ← hceil]
        · rwa [hptr]

end Payload

end Sys2Proof.Machine
end

