-- ==== Sys2Proof/Proofs/RoundTrip.lean ====
section
/-! SUPPORT. DECODE in length mode of the file an ENCODE has written (47_commands.md R220). -/

namespace Sys2Proof.Machine

/-! ### The file of an ENCODE -/

/-- What an ENCODE of `s` leaves in `y`, in terms of the FT and the codes of `v` (47_commands.md R215). -/
structure FileOf (s : State) (v : Work) (y : Writer) : Prop where
  codes : PrefixCodes v
  room : v.ft.length ≤ s.params.nMax
  count : y.1.ftN = v.ftN
  known : ∀ sym ∈ s.inputSymbols, ∃ i, enLookup sym v.ft = .ok i
  bits : y.1.bitTotal.toNat = (v.bitstream s.inputSymbols).length
  size : y.1.wrPtr.toNat = 2 + 9 * v.ft.length + ceil8 (v.bitstream s.inputSymbols).length
  table : y.2.readList 0 (2 + 9 * v.ft.length) = v.tableBytes
  payload : y.2.readList (2 + 9 * v.ft.length) (ceil8 (v.bitstream s.inputSymbols).length) =
    packBits (v.bitstream s.inputSymbols)

theorem encodeRun_writes {s : State} {y : Writer} (hparams : s.params.Legal) (h : s.encodeRun = .ok y) :
    ∃ v, FileOf s v y := by
  obtain ⟨-, w, hw, v, hv, z, hz, hy⟩ := encodeRun_eq_ok_iff.mp h
  obtain ⟨hroom, hptr, hft, -, htable⟩ := encode_writes_table hparams hw hv hz hy
  obtain ⟨-, ⟨-, -, hcnt⟩, hbyte, htotal⟩ := buildCodes_start hw hv
  have hcodes := prefixCodes_buildCodes hparams hw hv
  have hframe := tsRun_frame hz
  obtain ⟨hknown, hbits, hsize, hpayload⟩ := enRun_writes hcodes.usable (by rw [hframe]) (by rw [hframe])
    (by rw [hframe]; exact hcnt) (by rw [hframe]; exact hbyte) (by rw [hframe]; exact htotal)
    (by have := hparams.2; omega) hy
  rw [hptr] at hsize hpayload
  exact ⟨v, hcodes, hroom, by rw [Work.ftN, Work.ftN, hft], hknown, hbits, hsize, htable, hpayload⟩

/-! ### Its table -/

/-- A table of codes of which none begins another. -/
theorem PrefixCodes.prefixTable {w : Work} (h : PrefixCodes w) : PrefixTable (w.dtEntries 0 w.ft) where
  legal := (legalTable_of_usableCodes h.usable).legal
  apart e he e' he' hbegins := by
    obtain ⟨⟨x, i⟩, hp, rfl⟩ := List.mem_map.mp he
    obtain ⟨⟨x', i'⟩, hp', rfl⟩ := List.mem_map.mp he'
    obtain rfl : i = i' := h.apart i i' (List.snd_lt_of_mem_zipIdx hp) (List.snd_lt_of_mem_zipIdx hp') hbegins
    have hx := List.mem_zipIdx_iff_getElem?.mp hp
    have hx' := List.mem_zipIdx_iff_getElem?.mp hp'
    obtain rfl : x = x' := Option.some.inj (hx.symm.trans hx')
    rfl

/-- A bitstream is the keys of entries of the table with the input's Symbols. -/
theorem exists_entries_of_bitstream {w : Work} {syms : List Sym} (h : ∀ sym ∈ syms, ∃ i, enLookup sym w.ft = .ok i) :
    ∃ es : List DtEntry, (∀ e ∈ es, e ∈ w.dtEntries 0 w.ft) ∧ es.map DtEntry.sym = syms ∧
      (es.map entryBits).flatten = w.bitstream syms := by
  induction syms with
  | nil => exact ⟨[], nofun, rfl, rfl⟩
  | cons sym syms ih =>
    obtain ⟨hsym, hsyms⟩ := List.forall_mem_cons.mp h
    obtain ⟨i, hi⟩ := hsym
    obtain ⟨x, hx, rfl⟩ := enLookup_eq_ok hi
    obtain ⟨es, hknown, hmap, hbits⟩ := ih hsyms
    have hentry : w.dtEntry (x, i) ∈ w.dtEntries 0 w.ft :=
      List.mem_map_of_mem (List.mem_zipIdx_iff_getElem?.mpr hx)
    refine ⟨w.dtEntry (x, i) :: es, List.forall_mem_cons.mpr ⟨hentry, hknown⟩, congrArg (x.sym :: ·) hmap, ?_⟩
    rw [List.map_cons, List.flatten_cons, hbits, Work.bitstream, Work.bitstream, List.map_cons, List.flatten_cons,
      codeOf_of_enLookup hi]
    rfl

/-- Phase TD on a file that begins with the table `w` describes. -/
theorem tableRun_reads_table {w : Work} {s : State} (hfit : fits s.params.byteInCap s.byteInLen.toNat = true)
    (hmax : w.ft.length ≤ 65535) (hnMax : w.ft.length ≤ s.params.nMax) (hlen : 2 + 9 * w.ft.length ≤ s.byteInLen.toNat)
    (hbytes : s.byteIn.readList 0 (2 + 9 * w.ft.length) = w.tableBytes) (htable : LegalTable (w.dtEntries 0 w.ft)) :
    ∃ z, s.tableRun = .ok z ∧ InTable s z ∧ z.1.dtab = w.dtEntries 0 w.ft := by
  obtain ⟨u, hu, hphase, hdtab⟩ := coreTD_reads_table (w := w)
    (s := s.reading .td (Work.start .decode (s.cfg = 1), s.symOut)) rfl rfl rfl rfl hmax hnMax hlen hfit hbytes htable
  have hstep := (coreStep_td rfl).symm.trans (coreStep_reading_td s)
  rw [hu] at hstep
  cases hz : s.tableRun with
  | error e =>
    rw [hz] at hstep
    obtain rfl := Host.Outcome.next.inj hstep
    cases (State.raise_phase _ e).symm.trans hphase
  | ok z =>
    rw [hz] at hstep
    obtain rfl := Host.Outcome.next.inj hstep
    exact ⟨z, rfl, inTable_of_tableRun hz, hdtab⟩

/-! ### Its payload -/

/-- Phase DE in length mode on a payload packed from the keys of entries of the table. -/
theorem payloadResult_decodes {s : State} {z : Emitter} {es : List DtEntry} (hmode : s.cfg = 1) (hz : InTable s z)
    (htable : PrefixTable z.1.dtab) (hknown : ∀ e ∈ es, e ∈ z.1.dtab) (hes : es.length < 2 ^ 38)
    (hbits : s.decBits.toNat = ((es.map entryBits).flatten).length)
    (hsize : s.byteInLen.toNat = z.1.rdPtr.toNat + ceil8 ((es.map entryBits).flatten).length)
    (hfit : fits s.params.byteInCap s.byteInLen.toNat = true)
    (hbytes : s.byteIn.readList z.1.rdPtr.toNat (ceil8 ((es.map entryBits).flatten).length) =
      packBits (es.map entryBits).flatten) :
    (fits s.params.symOutCap es.length = false ∧ s.payloadResult z = .error .ioError) ∨
    (∃ y, s.payloadResult z = .ok y ∧ Decoding z.1.dtab es [] y) := by
  set rest := (es.map entryBits).flatten with hrest
  have hframe := hz.frame
  have hpos : z.1.bitPos = 0 := by rw [hframe]; rfl
  have hidx : z.1.outIdx = 0 := by rw [hframe]; rfl
  have hacc : z.1.accLen = 0 := by rw [hframe]; rfl
  have hpat : z.1.accPat = 0 := by rw [hframe]; rfl
  have hlenEn : z.1.lenEn = true := hz.op.lenEn.trans (decide_eq_true hmode)
  have havail : s.decBits.toNat ≤ (s.reading .de z).avail := by
    show s.decBits.toNat ≤ 8 * (s.byteInLen.toNat - z.1.rdPtr.toNat)
    rw [hbits, hsize, Nat.add_sub_cancel_left, ceil8]
    omega
  have hstart : (s.reading .de z).deStart = .ok { z.1 with bitsLeft := s.decBits } :=
    (if_pos hlenEn).trans (if_neg (Nat.not_lt_of_le havail))
  have hleft : ceil8 rest.length ≤ Work.payloadLeft { z.1 with bitsLeft := s.decBits } := by
    rw [Work.payloadLeft, ceil8]
    dsimp only
    split
    next hnone =>
      rw [hnone] at hbits
      rw [← hbits]
      rfl
    next => omega
  have hbegin : Decoding z.1.dtab es rest ({ z.1 with bitsLeft := s.decBits }, z.2) := by
    refine ⟨rfl, ?_, ?_, ?_, ?_, ?_⟩ <;> dsimp only <;> simp only [hidx, hacc, hpat]
    · exact Nat.zero_le _
    · rfl
    · exact hrest
    · decide
    · exact fun e he => (htable.legal e (hknown e (List.mem_of_getElem? he))).1
  rw [State.payloadResult, hstart, except_ok_bind]
  obtain ⟨hfull, herr⟩ | ⟨y, hy, hend⟩ := bytesRun_decodes htable hknown hes hbegin hleft hpos hbits
    (hsize ▸ s.byteInLen.isLt) (hsize ▸ hfit) hbytes
  · exact .inl ⟨hfull, by rw [herr]; rfl⟩
  · obtain ⟨-, hnone, -⟩ := hend.finished
    refine .inr ⟨y, ?_, hend⟩
    rw [hy]
    exact if_neg fun h => h.1 hnone

/-! ### The round trip -/

/-- A DECODE in length mode, in `d`, of the file an ENCODE of `s` has written. -/
theorem decodeRun_of_file {s d : State} {v : Work} {x : Writer} (hlegal : s.params.Legal) (hfile : FileOf s v x)
    (hparams : d.params = s.params) (hmode : d.cfg = 1) (hlen : d.byteInLen = x.1.wrPtr)
    (hbits : d.decBits.toNat = x.1.bitTotal.toNat) (hstart : d.startCheck .decode = .ok ())
    (hbytes : ∀ n ≤ x.1.wrPtr.toNat, d.byteIn.readList 0 n = x.2.readList 0 n) :
    (fits s.params.symOutCap s.inLen.toNat = false ∧ d.decodeRun = .error .ioError) ∨
    (∃ y, d.decodeRun = .ok y ∧ y.1.outIdx.toNat = s.inLen.toNat ∧ y.1.accLen = 0 ∧ y.1.dtabN = v.ftN ∧
      y.2.readList 0 s.inLen.toNat = s.inputSymbols) := by
  obtain ⟨hcodes, hroom, -, hknown, htotal, hsize, htable, hpayload⟩ := hfile
  obtain ⟨-, hfit⟩ := startCheck_eq_ok_iff.mp hstart
  have hmax := hlegal.2
  obtain ⟨z, hz, hin, hdtab⟩ := tableRun_reads_table (w := v) (s := d) hfit (by omega) (hparams ▸ hroom)
    (by rw [hlen]; omega) ((hbytes _ (by omega)).trans htable) (legalTable_of_usableCodes hcodes.usable)
  have hptr : z.1.rdPtr.toNat = 2 + 9 * v.ft.length := by
    rw [hin.pointer, ← hin.read, hdtab, Work.dtEntries_length]
  obtain ⟨es, hes, hsyms, hstream⟩ := exists_entries_of_bitstream hknown
  have hcount : es.length = s.inLen.toNat := by
    rw [← List.length_map (f := DtEntry.sym), hsyms, State.inputSymbols, Memory.readList_length]
  have hpart : d.byteIn.readList (2 + 9 * v.ft.length) (ceil8 (v.bitstream s.inputSymbols).length) =
      x.2.readList (2 + 9 * v.ft.length) (ceil8 (v.bitstream s.inputSymbols).length) := by
    have hall := hbytes _ le_rfl
    rw [hsize, Memory.readList_append d.byteIn, Memory.readList_append x.2, Nat.zero_add] at hall
    exact (List.append_inj hall (by simp only [Memory.readList_length])).2
  have hresult : d.decodeRun = d.payloadResult z := by
    rw [State.decodeRun, hstart, hz]
    rfl
  rw [hresult, ← hcount, ← hparams]
  obtain ⟨hfull, herr⟩ | ⟨y, hy, hend⟩ := payloadResult_decodes (es := es) hmode hin (hdtab ▸ hcodes.prefixTable)
    (hdtab ▸ hes) (by omega) (by rw [hbits, htotal, hstream]) (by rw [hlen, hsize, hptr, hstream]) hfit
    (by rw [hptr, hstream, hpart, hpayload])
  · exact .inl ⟨hfull, herr⟩
  · obtain ⟨hidx, hacc, hout⟩ := hend.finished
    refine .inr ⟨y, hy, hidx, hacc, ?_, hout.trans hsyms⟩
    rw [Work.dtabN, hend.table, hdtab, Work.dtEntries_length, Work.ftN]

end Sys2Proof.Machine
end

