-- ==== Sys2Proof/Proofs/Commands.lean ====
section
/-! The statements about the commands (47_commands.md). -/

namespace Sys2Proof
open Machine

/-- Settles O8: both command words mean a `command`, which a busy core ignores, and the host's move of writing CMD runs
one of the two. -/
theorem commandWhileBusyIsIgnored : Obligations.CommandWhileBusyIsIgnored := by
  intro s hbusy
  have hexec : ∀ (u : State) (op : BitVec 1), u.busy = true → exec (decodeCommand op) u = .next u := by
    intro u op hu
    rw [decodeCommand]
    split
    · exact congrArg _ (command_busy hu .encode)
    · exact congrArg _ (command_busy hu .decode)
  refine ⟨hexec s 0 hbusy, hexec s 1 hbusy, fun v rest => ?_⟩
  rw [step_cons rfl]
  exact hexec { s with script := rest } (BitVec.ofNat 1 v) hbusy

/-- Settles O24: the end of a run is a function of START's state that reads no more than the inputs; and FT, on which the
tree and the codes depend, does not see the order of the input. -/
theorem runsAreDeterministic : Obligations.RunsAreDeterministic := by
  refine ⟨?encode, ?tables, ?decode, ?order⟩
  case encode =>
    intro s s' t t' hparams hports hlen hsyms ht ht'
    rw [encode_end ht, encode_end ht']
    exact encodeOutcome_same (encodeRun_alike ⟨hparams, hlen, hsyms⟩ hports)
  case tables =>
    intro s s' m m' hparams hlen hsyms hm hm'
    exact encode_same_tables ⟨hparams, hlen, hsyms⟩ hm hm'
  case decode =>
    intro s s' t t' hparams hports hlen hfile hcfg hbits ht ht'
    rw [decode_end ht, decode_end ht']
    exact decodeOutcome_same (decodeRun_alike ⟨hparams, hlen, hfile, hcfg, hbits⟩ hports)
  case order =>
    intro s s' t t' hparams hlegal hperm ht ht' herr herr'
    obtain ⟨y, hy, rfl⟩ := encode_ok ht herr
    obtain ⟨y', hy', rfl⟩ := encode_ok ht' herr'
    obtain ⟨w, v, hw, hv, hcount, hbytes⟩ := encodeDone_table hlegal hy
    obtain ⟨w', v', hw', hv', hcount', hbytes'⟩ := encodeDone_table (hparams ▸ hlegal) hy'
    obtain rfl := faRun_perm hperm hw (hparams ▸ hw')
    obtain rfl := Except.ok.inj (hv.symm.trans hv')
    exact ⟨hcount.trans hcount'.symm, hbytes.trans hbytes'.symm⟩

/-- Settles O22: FA leaves FT empty, TS writes its size and EN nothing; TD reads that size back, and DE has no bits. -/
theorem emptyInput : Obligations.EmptyInput := by
  refine ⟨fun s hbusy hport0 hport1 hlen hfit => ?_, fun s hbusy hport2 hport3 hfit hlen hfile hbits => ?_⟩
  · obtain ⟨hstep, hend⟩ := encode_empty hbusy (Bool.and_eq_true_iff.mpr ⟨hport0, hport1⟩) hlen hfit
    exact ⟨_, _, hstep, rfl, hend, rfl, rfl, rfl, rfl, Memory.readList_writeList s.byteOut 0 [0x00#8, 0x00#8]⟩
  · have hrun := decodeRun_empty (Bool.and_eq_true_iff.mpr ⟨hport2, hport3⟩) hfit hlen hfile hbits
    refine ⟨_, decode_ends hbusy, ?_⟩
    rw [hrun]
    exact ⟨rfl, rfl, rfl, rfl, rfl⟩

/-- Settles O25: TD reads the table of codes of which none begins another, so that DE finds in the payload the codes EN has
put there and no others; only START's checks and a full SYM_OUT stand against it. -/
theorem roundTripLengthMode : Obligations.RoundTripLengthMode := by
  intro s t u hlegal ht herr hu
  obtain ⟨x, hx, rfl⟩ := encode_ok ht herr
  obtain ⟨v, hfile⟩ := encodeRun_writes hlegal hx
  obtain rfl := decode_end hu
  set d : State := { (s.encodeDone x).feed with cfg := 1 }
  have hparams : d.params = s.params := rfl
  by_cases hcheck : d.portsOk .decode = true ∧ d.inputFits .decode = true
  case neg =>
    have hrun : d.decodeRun = .error .ioError := by rw [State.decodeRun, State.startCheck, if_neg hcheck]; rfl
    rw [hrun]
    refine ⟨fun hne => absurd (State.raise_errCode _ _) hne, fun _ => ?_⟩
    obtain hports | hfit := not_and_or.mp hcheck
    · refine .inr (.inr fun hall => hports ?_)
      show (s.portOk.getLsbD 2 && s.portOk.getLsbD 3) = true
      rw [hall]
      rfl
    · exact .inr (.inl (Bool.eq_false_of_not_eq_true hfit))
  case pos =>
    have hbits : d.decBits.toNat = x.1.bitTotal.toNat := by
      show (x.1.bitTotal.setWidth 38).toNat = _
      rw [BitVec.toNat_setWidth]
      omega
    obtain ⟨hfull, hrun⟩ | ⟨y, hrun, hidx, hacc, hcount, hout⟩ := decodeRun_of_file hlegal hfile hparams rfl rfl hbits
      (startCheck_eq_ok_iff.mpr hcheck) (fun n hn => feed_byteIn_readList (s := s.encodeDone x) hcheck.2 hn)
    · rw [hrun]
      exact ⟨fun hne => absurd (State.raise_errCode _ _) hne, fun _ => .inl hfull⟩
    · rw [hrun]
      refine ⟨fun _ => ⟨rfl, hidx, ?_, hcount.trans hfile.count.symm, hacc, decide_eq_false (not_not.mpr hacc)⟩, nofun⟩
      show y.2.readList 0 y.1.outIdx.toNat = _
      rw [hidx]
      exact hout

end Sys2Proof
end

