-- ==== Sys2Proof/Proofs/RecordWriting.lean ====
section
/-! The statements about reading and writing instructions (30_encoding.md sections 1 and 2). -/

namespace Sys2Proof
open Machine

/-- The two bytes written for an assembled field are those it was assembled from (30_encoding.md R93). -/
theorem bytesLe16_le16 (b0 b1 : Byte) : bytesLe16 (le16 b0 b1) = [b0, b1] := by
  have hbyte (k : Nat) : fieldByte (le16 b0 b1) k = BitVec.ofNat 8 ((b0.toNat + 256 * b1.toNat) / 256 ^ k) := by
    rw [fieldByte_eq_ofNat, toNat_le16]
  have h0 : fieldByte (le16 b0 b1) 0 = b0 := by rw [hbyte]; bv_omega
  have h1 : fieldByte (le16 b0 b1) 1 = b1 := by rw [hbyte]; bv_omega
  rw [bytesLe16, h0, h1]

/-- The four bytes written for an assembled field are those it was assembled from (30_encoding.md R93). -/
theorem bytesLe32_le32 (b0 b1 b2 b3 : Byte) : bytesLe32 (le32 b0 b1 b2 b3) = [b0, b1, b2, b3] := by
  have hbyte (k : Nat) : fieldByte (le32 b0 b1 b2 b3) k =
      BitVec.ofNat 8 ((b0.toNat + 2 ^ 8 * b1.toNat + 2 ^ 16 * b2.toNat + 2 ^ 24 * b3.toNat) / 256 ^ k) := by
    rw [fieldByte_eq_ofNat, toNat_le32]
  have h0 : fieldByte (le32 b0 b1 b2 b3) 0 = b0 := by rw [hbyte]; bv_omega
  have h1 : fieldByte (le32 b0 b1 b2 b3) 1 = b1 := by rw [hbyte]; bv_omega
  have h2 : fieldByte (le32 b0 b1 b2 b3) 2 = b2 := by rw [hbyte]; bv_omega
  have h3 : fieldByte (le32 b0 b1 b2 b3) 3 = b3 := by rw [hbyte]; bv_omega
  rw [bytesLe32, h0, h1, h2, h3]

/-- Settles O1: a command word and a payload byte are their own byte; a header and an entry are assembled from the bytes
written for their fields. -/
theorem decodeOfEncode : Obligations.DecodeOfEncode := by
  intro i rest
  cases i with
  | encode => rfl
  | decode => rfl
  | hdr m => exact decode_encode_hdr m rest
  | ent sym l p => exact decode_encode_ent sym l p rest
  | pay byte => rfl

/-- What reading a record says of the bytes it was read from (30_encoding.md R92, R94, R96). -/
theorem decode_record_cases {f : Format} {bs rest : List Byte} {i : Instr} (hf : f ≠ .cmd)
    (h : decode f bs = .ok (i, rest)) :
    (∃ b0 b1, f = .hdr ∧ bs = b0 :: b1 :: rest ∧ i = .hdr (le16 b0 b1)) ∨
    (∃ s0 s1 s2 s3 c q0 q1 q2 q3, f = .ent ∧ bs = s0 :: s1 :: s2 :: s3 :: c :: q0 :: q1 :: q2 :: q3 :: rest ∧
      i = .ent (le32 s0 s1 s2 s3) c (le32 q0 q1 q2 q3)) ∨
    (∃ b, f = .pay ∧ bs = b :: rest ∧ i = .pay b) := by
  unfold decode at h
  split at h
  next => exact absurd rfl hf
  next b0 b1 _ =>
    cases h
    exact .inl ⟨b0, b1, rfl, rfl, rfl⟩
  next s0 s1 s2 s3 c q0 q1 q2 q3 _ =>
    cases h
    exact .inr (.inl ⟨s0, s1, s2, s3, c, q0, q1, q2, q3, rfl, rfl, rfl⟩)
  next b _ =>
    cases h
    exact .inr (.inr ⟨b, rfl, rfl, rfl⟩)
  next => cases h

/-- Settles O2: the fields of a record read are assembled from its bytes, which are written again as they were. -/
theorem encodeOfDecodedRecord : Obligations.EncodeOfDecodedRecord := by
  intro f bs i rest hf h
  obtain ⟨b0, b1, rfl, rfl, rfl⟩ | ⟨s0, s1, s2, s3, c, q0, q1, q2, q3, rfl, rfl, rfl⟩ | ⟨b, rfl, rfl, rfl⟩ :=
    decode_record_cases hf h
  · exact ⟨rfl, by rw [encode, bytesLe16_le16]; rfl⟩
  · exact ⟨rfl, by rw [encode, bytesLe32_le32, bytesLe32_le32]; rfl⟩
  · exact ⟨rfl, rfl⟩

/-- Settles O3, by reading the words. -/
theorem wordsOfTheSpecDecode : Obligations.WordsOfTheSpecDecode := by
  unfold Obligations.WordsOfTheSpecDecode
  decide

/-! ### Keys -/

/-- The number a bit-string spells, first bit most significant (30_encoding.md R95). -/
theorem foldl_bitString (l : Nat) (p : BitVec 32) (a : Nat) :
    (bitString l p).foldl (fun a b => 2 * a + b.toNat) a = 2 ^ l * a + p.toNat % 2 ^ l := by
  induction l generalizing a with
  | zero => simp [bitString, Nat.mod_one]
  | succ l ih =>
    have hbit : (p.getLsbD l).toNat = p.toNat / 2 ^ l % 2 := by
      rw [BitVec.getLsbD, Nat.testBit_eq_decide_div_mod_eq]
      rcases Nat.mod_two_eq_zero_or_one (p.toNat / 2 ^ l) with h | h <;> simp [h]
    rw [bitString_succ, List.foldl_cons, ih, hbit, Nat.mod_pow_succ, Nat.pow_succ]
    ring

/-- Two keys are equal exactly when their strings are (30_encoding.md R95). -/
theorem bitString_eq_iff {l l' : Nat} {p p' : BitVec 32} (hp : p.toNat < 2 ^ l) (hp' : p'.toNat < 2 ^ l') :
    bitString l p = bitString l' p' ↔ l = l' ∧ p = p' := by
  refine ⟨fun h => ?_, fun ⟨hl, hpat⟩ => hl ▸ hpat ▸ rfl⟩
  obtain rfl : l = l' := by simpa using congrArg List.length h
  exact ⟨rfl, pat_eq_of_bitString_eq hp hp' h⟩

/-- On a table of legal keys, `dmatch` compares strings (10_state.md R41). -/
theorem dmatch_eq_find?_bitString {dtab : List DtEntry} {l : Nat} {p : BitVec 32}
    (hlegal : ∀ e ∈ dtab, LegalKey e.len e.pat) (hp : p.toNat < 2 ^ l) :
    dmatch dtab l p = dtab.find? (fun e => bitString e.len.toNat e.pat = bitString l p) := by
  refine List.find?_congr fun e he => ?_
  obtain ⟨-, -, hpat⟩ := hlegal e he
  simp only [bitString_eq_iff hpat hp, Bool.decide_and]

/-- Settles O5: the fold is Horner's rule, and patterns within their length are told apart by their strings. -/
theorem keyIsItsBitString : Obligations.KeyIsItsBitString := by
  refine ⟨fun l p _ hp => ?_, fun dtab l p hlegal _ _ hp => dmatch_eq_find?_bitString hlegal hp⟩
  rw [foldl_bitString, Nat.mul_zero, Nat.zero_add, Nat.mod_eq_of_lt hp]

end Sys2Proof
end

