-- ==== Sys2Proof/Proofs/SymbolCounts.lean ====
section
/-! SUPPORT. FT after some Symbols of the input is the table of their counts, sorted by signed Symbol, and FA fails only
on too many distinct ones (40_frequency_analyzer.md R120 to R123). -/

namespace Sys2Proof.Machine

theorem slt_iff_toInt_lt (x y : Sym) : x.slt y = true ↔ x.toInt < y.toInt := by
  rw [BitVec.slt, decide_eq_true_eq]

theorem ne_of_slt {x y : Sym} (h : x.slt y = true) : x ≠ y := by
  rintro rfl
  exact ((slt_iff_toInt_lt x x).mp h).false

theorem slt_trans {x y z : Sym} (h : x.slt y = true) (h' : y.slt z = true) : x.slt z = true := by
  rw [slt_iff_toInt_lt] at *
  exact h.trans h'

/-! ### One Symbol more -/

/-- FT is in strictly ascending order of signed Symbol (10_state.md R36). -/
abbrev FtSorted (ft : List FtEntry) : Prop := ft.Pairwise (fun a b => a.sym.slt b.sym)

/-- The keys after a Symbol is counted are the old ones and that Symbol. -/
theorem mem_keys_ftCount (ft : List FtEntry) (x y : Sym) :
    y ∈ (ftCount ft x).map FtEntry.sym ↔ y = x ∨ y ∈ ft.map FtEntry.sym := by
  induction ft with
  | nil => simp [ftCount]
  | cons e es ih =>
    obtain h | rfl | h := sym_trichotomy e.sym x
    · rw [ftCount_cons_of_slt h, List.map_cons, List.mem_cons, ih, List.map_cons, List.mem_cons]
      exact or_left_comm
    · rw [ftCount_cons_self, List.map_cons, List.map_cons, List.mem_cons, or_self_left]
    · rw [ftCount_cons_of_sgt h, List.map_cons, List.mem_cons]

/-- Where the entries after a Symbol is counted come from. -/
theorem mem_ftCount {ft : List FtEntry} {x : Sym} (hsorted : FtSorted ft) {d : FtEntry} (hd : d ∈ ftCount ft x) :
    (d ∈ ft ∧ d.sym ≠ x) ∨ (∃ e ∈ ft, e.sym = x ∧ d = { e with cnt := e.cnt + 1 }) ∨
    (d = { sym := x, cnt := 1 } ∧ x ∉ ft.map FtEntry.sym) := by
  induction ft with
  | nil =>
    rw [ftCount, List.mem_singleton] at hd
    exact .inr (.inr ⟨hd, List.not_mem_nil⟩)
  | cons e es ih =>
    obtain ⟨hfirst, hrest⟩ := List.pairwise_cons.mp hsorted
    obtain h | rfl | h := sym_trichotomy e.sym x
    · rw [ftCount_cons_of_slt h] at hd
      obtain rfl | hd := List.mem_cons.mp hd
      · exact .inl ⟨List.mem_cons_self, ne_of_slt h⟩
      · obtain ⟨hold, hne⟩ | ⟨e', he', hx, rfl⟩ | ⟨rfl, hnew⟩ := ih hrest hd
        · exact .inl ⟨List.mem_cons_of_mem _ hold, hne⟩
        · exact .inr (.inl ⟨e', List.mem_cons_of_mem _ he', hx, rfl⟩)
        · exact .inr (.inr ⟨rfl, List.not_mem_cons_of_ne_of_not_mem (ne_of_slt h).symm hnew⟩)
    · rw [ftCount_cons_self] at hd
      obtain rfl | hd := List.mem_cons.mp hd
      · exact .inr (.inl ⟨e, List.mem_cons_self, rfl, rfl⟩)
      · exact .inl ⟨List.mem_cons_of_mem _ hd, (ne_of_slt (hfirst d hd)).symm⟩
    · have hafter : ∀ y ∈ (e :: es).map FtEntry.sym, x.slt y = true :=
        List.forall_mem_map.mpr (List.forall_mem_cons.mpr ⟨h, fun d hd => slt_trans h (hfirst d hd)⟩)
      rw [ftCount_cons_of_sgt h] at hd
      obtain rfl | hd := List.mem_cons.mp hd
      · exact .inr (.inr ⟨rfl, fun hx => ne_of_slt (hafter x hx) rfl⟩)
      · exact .inl ⟨hd, (ne_of_slt (hafter d.sym (List.mem_map_of_mem hd))).symm⟩

theorem ftSorted_ftCount {ft : List FtEntry} (hsorted : FtSorted ft) (x : Sym) : FtSorted (ftCount ft x) := by
  induction ft with
  | nil => exact List.pairwise_singleton _ _
  | cons e es ih =>
    obtain ⟨hfirst, hrest⟩ := List.pairwise_cons.mp hsorted
    obtain h | rfl | h := sym_trichotomy e.sym x
    · rw [ftCount_cons_of_slt h]
      have hkeys : ∀ y ∈ (ftCount es x).map FtEntry.sym, e.sym.slt y = true := by
        intro y hy
        obtain rfl | hy := (mem_keys_ftCount es x y).mp hy
        · exact h
        · exact List.forall_mem_map (P := fun y => e.sym.slt y = true) |>.mpr hfirst y hy
      exact List.pairwise_cons.mpr ⟨fun d hd => hkeys d.sym (List.mem_map_of_mem hd), ih hrest⟩
    · rw [ftCount_cons_self]
      exact List.pairwise_cons.mpr ⟨hfirst, hrest⟩
    · rw [ftCount_cons_of_sgt h]
      refine List.pairwise_cons.mpr ⟨List.forall_mem_cons.mpr ⟨h, fun d hd => ?_⟩, hsorted⟩
      exact slt_trans h (hfirst d hd)

/-! ### The table of the Symbols counted -/

/-- FT is the table of the Symbols counted so far (40_frequency_analyzer.md R120, R122). -/
structure FtOf (seen : List Sym) (ft : List FtEntry) : Prop where
  sorted : FtSorted ft
  keys : ∀ x, x ∈ ft.map FtEntry.sym ↔ x ∈ seen
  counts : ∀ e ∈ ft, e.cnt.toNat = seen.count e.sym

theorem ftOf_nil : FtOf [] [] := ⟨.nil, fun _ => Iff.rfl, nofun⟩

/-- Counting one Symbol more, as long as the counts fit their width (00_scope.md R7). -/
theorem FtOf.ftCount {seen : List Sym} {ft : List FtEntry} (h : FtOf seen ft) (hlen : seen.length + 1 < 2 ^ 32)
    (x : Sym) : FtOf (x :: seen) (ftCount ft x) := by
  refine ⟨ftSorted_ftCount h.sorted x, fun y => ?_, fun d hd => ?_⟩
  · rw [mem_keys_ftCount, h.keys, List.mem_cons]
  · obtain ⟨hold, hne⟩ | ⟨e, he, rfl, rfl⟩ | ⟨rfl, hnew⟩ := mem_ftCount h.sorted hd
    · rw [h.counts d hold, List.count_cons_of_ne hne.symm]
    · have hcount := h.counts e he
      have hle : seen.count e.sym ≤ seen.length := List.count_le_length
      rw [List.count_cons_self, ← hcount]
      show (e.cnt + 1).toNat = _
      bv_omega
    · rw [h.keys] at hnew
      rw [List.count_cons_self, List.count_eq_zero_of_not_mem hnew]
      rfl

theorem FtOf.perm {seen seen' : List Sym} {ft : List FtEntry} (h : FtOf seen ft) (hperm : seen.Perm seen') :
    FtOf seen' ft :=
  ⟨h.sorted, fun x => (h.keys x).trans hperm.mem_iff, fun e he => (h.counts e he).trans (hperm.count_eq _)⟩

/-- FA folds the Symbols in one by one. -/
theorem FtOf.foldl {seen syms : List Sym} {ft : List FtEntry} (h : FtOf seen ft)
    (hlen : seen.length + syms.length < 2 ^ 32) : FtOf (seen ++ syms) (syms.foldl Machine.ftCount ft) := by
  induction syms generalizing seen ft with
  | nil => rwa [List.append_nil]
  | cons x syms ih =>
    rw [List.length_cons] at hlen
    have hnext := ih (h.ftCount (by omega) x) (by rw [List.length_cons]; omega)
    exact hnext.perm (List.perm_middle.symm)

theorem FtOf.keys_perm_dedup {seen : List Sym} {ft : List FtEntry} (h : FtOf seen ft) :
    (ft.map FtEntry.sym).Perm seen.dedup := by
  have hnodup : (ft.map FtEntry.sym).Nodup := List.pairwise_map.mpr (h.sorted.imp ne_of_slt)
  exact (List.perm_ext_iff_of_nodup hnodup (List.nodup_dedup _)).mpr fun x => (h.keys x).trans List.mem_dedup.symm

/-- FT has an entry for each distinct Symbol. -/
theorem FtOf.length_eq {seen : List Sym} {ft : List FtEntry} (h : FtOf seen ft) : ft.length = seen.dedup.length := by
  rw [← h.keys_perm_dedup.length_eq, List.length_map]

/-- The counts of FT add up to the number of Symbols. -/
theorem FtOf.sum_counts {seen : List Sym} {ft : List FtEntry} (h : FtOf seen ft) :
    (ft.map fun e => e.cnt.toNat).sum = seen.length := by
  have hcounts : (ft.map fun e => e.cnt.toNat) = (ft.map FtEntry.sym).map fun x => seen.count x := by
    rw [List.map_map]
    exact List.map_congr_left h.counts
  rw [hcounts, (h.keys_perm_dedup.map _).sum_eq, List.sum_map_count_dedup_eq_length]

theorem FtOf.one_le_cnt {seen : List Sym} {ft : List FtEntry} (h : FtOf seen ft) : ∀ e ∈ ft, 1 ≤ e.cnt.toNat :=
  fun e he => h.counts e he ▸ List.one_le_count_iff.mpr ((h.keys _).mp (List.mem_map_of_mem he))

/-! ### The run of FA -/

/-- After FA.RUN, FT is the table of the input sequence. -/
theorem ftOf_faRun {p : Params} {symIn : Memory 32} {inLen : BitVec 32} {lenEn : Bool} {w : Work}
    (h : faRun p symIn inLen (Work.start .encode lenEn) = .ok w) : FtOf (symIn.readList 0 inLen.toNat) w.ft := by
  obtain ⟨hft, -⟩ := faLoop_ft h (by simp)
  rw [hft]
  exact ftOf_nil.foldl (by simp only [List.length_nil, Nat.zero_add]; exact (Memory.readList_length ..).trans_lt inLen.isLt)

/-- A key's place in FT is where `FA.COUNT` looks for it (40_frequency_analyzer.md R121). -/
theorem getElem?_ftPosition {ft : List FtEntry} {x : Sym} (hsorted : FtSorted ft) (hx : x ∈ ft.map FtEntry.sym) :
    ∃ e, ft[ftPosition x ft]? = some e ∧ e.sym = x := by
  induction ft with
  | nil => cases hx
  | cons e es ih =>
    obtain ⟨hfirst, hrest⟩ := List.pairwise_cons.mp hsorted
    rw [List.map_cons, List.mem_cons] at hx
    rw [ftPosition]
    split
    next hlt => exact ih hrest (hx.resolve_left (ne_of_slt hlt).symm)
    next hge =>
      refine ⟨e, rfl, ?_⟩
      obtain rfl | hx := hx
      · rfl
      · obtain ⟨d, hd, rfl⟩ := List.mem_map.mp hx
        exact absurd (hfirst d hd) hge

theorem faInsert_cases (nMax : Nat) (x : Sym) (w : Work) (j : Nat) :
    (w.ft.length = nMax ∧ faInsert nMax x w j = .error .tableTooLarge) ∨
    (∃ w', faInsert nMax x w j = .ok w') := by
  rw [faInsert]
  split
  next hfull => exact .inl ⟨hfull, rfl⟩
  next => exact .inr ⟨_, rfl⟩

/-- `FA.COUNT` fails only for a new Symbol at a full FT (40_frequency_analyzer.md R121, R123). -/
theorem faCount_cases {seen : List Sym} (nMax : Nat) (x : Sym) {w : Work} (h : FtOf seen w.ft) :
    (w.ft.length = nMax ∧ x ∉ seen ∧ faCount nMax x w = .error .tableTooLarge) ∨
    (∃ w', faCount nMax x w = .ok w') := by
  have hnew : (∀ e, w.ft[ftPosition x w.ft]? = some e → e.sym ≠ x) → x ∉ seen := fun hother hx =>
    have ⟨e, he, hsym⟩ := getElem?_ftPosition h.sorted ((h.keys x).mpr hx)
    hother e he hsym
  rw [faCount]
  split
  next e he =>
    split
    next => exact .inr ⟨_, rfl⟩
    next hne =>
      exact (faInsert_cases nMax x w _).imp_left fun ⟨hfull, herr⟩ =>
        ⟨hfull, hnew fun e' he' => Option.some.inj (he.symm.trans he') ▸ hne, herr⟩
  next he =>
    exact (faInsert_cases nMax x w _).imp_left fun ⟨hfull, herr⟩ =>
      ⟨hfull, hnew fun e' he' => (nomatch he.symm.trans he'), herr⟩

/-- With the input in its buffer, FA fails only on more than N_MAX distinct Symbols (40_frequency_analyzer.md R123). -/
theorem faLoop_cases {p : Params} {symIn : Memory 32} {inLen : BitVec 32} {n : Nat} {seen : List Sym} {w : Work}
    (hfit : fits p.symInCap inLen.toNat = true) (hn : w.inIdx.toNat + n = inLen.toNat)
    (h : FtOf seen w.ft) (hlen : seen.length + n < 2 ^ 32) :
    (∃ w', faLoop p symIn inLen n w = .ok w') ∨
    (faLoop p symIn inLen n w = .error .tableTooLarge ∧
      p.nMax < (symIn.readList w.inIdx.toNat n ++ seen).dedup.length) := by
  induction n generalizing seen w with
  | zero => exact .inl ⟨w, rfl⟩
  | succ n ih =>
    have hread : memReadOne p.symInCap symIn w.inIdx.toNat = .ok (symIn.read w.inIdx.toNat) :=
      memReadOne_ok (fits_mono hfit (by omega))
    have hstep : faLoop p symIn inLen (n + 1) w =
        (faCount p.nMax (symIn.read w.inIdx.toNat) w >>=
          fun w' => faLoop p symIn inLen n { w' with inIdx := w'.inIdx + 1 }) := by
      rw [faLoop, if_pos (BitVec.lt_def.mpr (by omega)), hread]
      dsimp only
      cases faCount p.nMax (symIn.read w.inIdx.toNat) w <;> rfl
    rw [hstep, Memory.readList]
    set x := symIn.read w.inIdx.toNat
    obtain ⟨hfull, hnew, herr⟩ | ⟨w₁, h₁⟩ := faCount_cases p.nMax x h
    · refine .inr ⟨by rw [herr, except_error_bind], ?_⟩
      have hsub : (x :: seen.dedup) ⊆ (x :: symIn.readList (w.inIdx.toNat + 1) n ++ seen).dedup := by
        intro y hy
        simp only [List.mem_dedup, List.mem_cons, List.mem_append] at hy ⊢
        tauto
      have hnodup : (x :: seen.dedup).Nodup :=
        List.nodup_cons.mpr ⟨fun hx => hnew (List.mem_dedup.mp hx), List.nodup_dedup seen⟩
      have hle := (hnodup.subperm hsub).length_le
      rwa [List.length_cons, ← h.length_eq, hfull] at hle
    · have hidx : w₁.inIdx = w.inIdx := by rw [faCount_frame h₁]
      have hnext : (w₁.inIdx + 1).toNat = w.inIdx.toNat + 1 := by bv_omega
      have hcounted : FtOf (x :: seen) w₁.ft := faCount_ft h₁ ▸ h.ftCount (by omega) x
      have hperm : (symIn.readList (w.inIdx.toNat + 1) n ++ x :: seen).Perm
          (x :: symIn.readList (w.inIdx.toNat + 1) n ++ seen) := List.perm_middle
      have hrest := ih (w := { w₁ with inIdx := w₁.inIdx + 1 }) (hnext ▸ by omega) hcounted
        (by rw [List.length_cons]; omega)
      rw [h₁, except_ok_bind]
      dsimp only at hrest
      rwa [hnext, hperm.dedup.length_eq] at hrest

/-- FA.RUN from START succeeds or finds too many distinct Symbols. -/
theorem faRun_start_cases {p : Params} {symIn : Memory 32} {inLen : BitVec 32} (lenEn : Bool)
    (hfit : fits p.symInCap inLen.toNat = true) :
    (∃ w, faRun p symIn inLen (Work.start .encode lenEn) = .ok w ∧
      (symIn.readList 0 inLen.toNat).dedup.length ≤ p.nMax) ∨
    (faRun p symIn inLen (Work.start .encode lenEn) = .error .tableTooLarge ∧
      p.nMax < (symIn.readList 0 inLen.toNat).dedup.length) := by
  have hlen : inLen.toNat < 2 ^ 32 := inLen.isLt
  obtain ⟨w, hw⟩ | ⟨herr, hmany⟩ := faLoop_cases (symIn := symIn) (n := inLen.toNat)
    (w := Work.start .encode lenEn) hfit (Nat.zero_add _) ftOf_nil (by rwa [List.length_nil, Nat.zero_add])
  · have hrun : faRun p symIn inLen (Work.start .encode lenEn) = .ok w := hw
    exact .inl ⟨w, hrun, (ftOf_faRun hrun).length_eq ▸ faRun_ft_length_le hrun (Nat.zero_le _)⟩
  · exact .inr ⟨herr, by rwa [List.append_nil] at hmany⟩

/-- FA.RUN that succeeds has read the whole input inside SYM_IN. -/
theorem fits_of_faLoop {p : Params} {symIn : Memory 32} {inLen : BitVec 32} {n : Nat} {w w' : Work}
    (h : faLoop p symIn inLen n w = .ok w') (hn : w.inIdx.toNat + n = inLen.toNat)
    (hw : fits p.symInCap w.inIdx.toNat = true) : fits p.symInCap inLen.toNat = true := by
  induction n generalizing w with
  | zero => rwa [← hn]
  | succ n ih =>
    rw [faLoop, if_pos (BitVec.lt_def.mpr (by omega))] at h
    split at h
    next => cases h
    next x hx =>
      split at h
      next => cases h
      next w₁ h₁ =>
        have hidx : w₁.inIdx = w.inIdx := by rw [faCount_frame h₁]
        have hnext : (w₁.inIdx + 1).toNat = w.inIdx.toNat + 1 := by bv_omega
        have hroom : fits p.symInCap (w.inIdx.toNat + 1) = true := by
          rw [memReadOne] at hx
          split at hx
          next hroom => exact hroom
          next => cases hx
        exact ih h (hnext ▸ by omega) (hnext ▸ hroom)

end Sys2Proof.Machine
end

