-- ==== Sys2Proof/Proofs/FrequencyAnalyzer.lean ====
section
/-! The statements about unit FA (40_frequency_analyzer.md). -/

namespace Sys2Proof
open Machine

/-- Settles O32: FT is the table of the input's Symbols, whose counts are at least 1. -/
theorem frequencyTableIsSorted : Obligations.FrequencyTableIsSorted := by
  intro p symIn inLen lenEn w h
  have hft := ftOf_faRun h
  exact ⟨hft.sorted.imp (slt_iff_toInt_lt _ _).mp, hft.one_le_cnt⟩

/-- Settles O33: FT is the table of the input's Symbols, each under its number of occurrences. -/
theorem frequencyTableCounts : Obligations.FrequencyTableCounts := by
  intro p symIn inLen lenEn w h
  have hft := ftOf_faRun h
  refine ⟨hft.counts, fun x hx => List.mem_map.mp ((hft.keys x).mpr hx), ?_⟩
  rw [hft.sum_counts, Memory.readList_length]

/-- Settles O34: the number of distinct Symbols decides whether FA succeeds, and counting two Symbols in either order
gives the same table. -/
theorem frequencyTableIgnoresOrder : Obligations.FrequencyTableIgnoresOrder := by
  intro p a b inLen lenEn w hperm h
  have hfit : fits p.symInCap inLen.toNat = true := fits_of_faLoop h (by simp) (fits_zero _)
  have hfew : (b.readList 0 inLen.toNat).dedup.length ≤ p.nMax := by
    rw [← hperm.dedup.length_eq, ← (ftOf_faRun h).length_eq]
    exact faRun_ft_length_le h (Nat.zero_le _)
  obtain ⟨w', h', -⟩ | ⟨-, hmany⟩ := faRun_start_cases (symIn := b) lenEn hfit
  · refine ⟨w', h', ?_⟩
    rw [(faLoop_ft h' (by simp)).1, (faLoop_ft h (by simp)).1]
    exact (hperm.foldl_eq' (fun x _ y _ ft => ftCount_comm ft x y) []).symm
  · omega

/-- Settles O35: FT has an entry for each distinct Symbol, and `FA.COUNT` fails for a new one at N_MAX entries. -/
theorem tooManySymbols : Obligations.TooManySymbols := by
  intro p symIn inLen lenEn hfit
  obtain ⟨w, hw, hfew⟩ | ⟨herr, hmany⟩ := faRun_start_cases (symIn := symIn) lenEn hfit
  · exact iff_of_false (by rw [hw]; nofun) hfew.not_gt
  · exact iff_of_true herr hmany

end Sys2Proof
end

