-- ==== Sys2Proof/Proofs/WalkEnd.lean ====
section
/-! SUPPORT. The end of `CG.RUN` for any contents of NODE (42_code_generator.md R150 to R154): nothing pending, legal
codes, or CodeTooLong. -/

namespace Sys2Proof.Machine

/-- The codes recorded are legal, and those pending become so at a leaf. -/
structure LegalWalk (w : Work) : Prop where
  pending : ∀ e ∈ w.stack, e.len.toNat ≤ 32 ∧ e.pat.toNat < 2 ^ e.len.toNat ∧
    ((w.nodeAt e.node).leaf = true → 1 ≤ e.len.toNat)
  codes : ∀ c ∈ w.code, LegalKey c.2.len c.2.pat

theorem cgTurn_legalWalk (w w' : Work) (h : LegalWalk w) (hturn : cgTurn w = .ok w') : LegalWalk w' := by
  obtain ⟨hpending, hcodes⟩ := h
  obtain ⟨-, rfl⟩ | ⟨e, rest, hs, hcase⟩ := cgTurn_cases hturn
  · exact ⟨hpending, hcodes⟩
  · rw [hs] at hpending
    obtain ⟨⟨hlen, hpat, hone⟩, hrest⟩ := List.forall_mem_cons.mp hpending
    obtain ⟨hleaf, rfl⟩ | ⟨-, hne, rfl⟩ := hcase
    · refine ⟨hrest, fun c hc => ?_⟩
      obtain rfl | hc := cellsSet_mem hc
      · exact ⟨hone hleaf, hlen, hpat⟩
      · exact hcodes c hc
    · have hlt : e.len.toNat < 32 := by bv_omega
      have hchild : ∀ (k : NodeIdx) (c : Bool), (childEntry k e c).len.toNat ≤ 32 ∧
          (childEntry k e c).pat.toNat < 2 ^ (childEntry k e c).len.toNat ∧
          ((w.nodeAt (childEntry k e c).node).leaf = true → 1 ≤ (childEntry k e c).len.toNat) := by
        intro k c
        refine ⟨?_, childEntry_pat_lt hlt hpat k c, fun _ => ?_⟩ <;> rw [childEntry_len_toNat hlt] <;> omega
      exact ⟨List.forall_mem_cons.mpr ⟨hchild _ _, List.forall_mem_cons.mpr ⟨hchild _ _, hrest⟩⟩, hcodes⟩

theorem cgTurn_error {w : Work} {e : ErrKind} (h : cgTurn w = .error e) : e = .codeTooLong := by
  unfold cgTurn at h
  split at h
  next => cases h
  next =>
    split at h
    next => cases h
    next =>
      split at h
      next => exact (Except.error.inj h).symm
      next => cases h

theorem cgLoop_error {n : Nat} {w : Work} {e : ErrKind} (h : cgLoop n w = .error e) : e = .codeTooLong := by
  induction n generalizing w with
  | zero => cases h
  | succ n ih =>
    rw [cgLoop] at h
    split at h
    next => cases h
    next =>
      split at h
      next e' he =>
        obtain rfl := Except.error.inj h
        exact cgTurn_error he
      next w₁ _ => exact ih h

/-- Everything `CG.RUN` can do (42_code_generator.md R150). -/
theorem cgRun_cases (w : Work) :
    ((w.nodeAt w.root).leaf = true ∧ cgRun w = .ok (cgSingle w)) ∨
    ((w.nodeAt w.root).leaf = false ∧
      cgRun w = cgLoop cgTurns { w with stack := [{ node := w.root, pat := 0, len := 0 }] }) := by
  rw [cgRun]
  split
  next hleaf => exact .inl ⟨hleaf, rfl⟩
  next hinternal => exact .inr ⟨Bool.eq_false_of_not_eq_true hinternal, rfl⟩

/-- The only error of phase CG (42_code_generator.md R154). -/
theorem cgRun_error {w : Work} {e : ErrKind} (h : cgRun w = .error e) : e = .codeTooLong := by
  obtain ⟨-, hrun⟩ | ⟨-, hrun⟩ := cgRun_cases w
  · cases hrun.symm.trans h
  · exact cgLoop_error (hrun.symm.trans h)

/-- Phase CG leaves STACK as empty as it found it (42_code_generator.md R156). -/
theorem cgRun_stack {w w' : Work} (h : cgRun w = .ok w') (hs : w.stack = []) : w'.stack = [] := by
  obtain ⟨-, hrun⟩ | ⟨-, hrun⟩ := cgRun_cases w
  · obtain rfl := Except.ok.inj (hrun.symm.trans h)
    exact hs
  · exact cgLoop_stack_eq_nil (by simp) (turnsLeft_root_le w.root) (hrun.symm.trans h)

/-- Phase CG records legal codes (10_state.md R40). -/
theorem cgRun_legal {w w' : Work} (h : cgRun w = .ok w') (hcodes : ∀ c ∈ w.code, LegalKey c.2.len c.2.pat) :
    ∀ c ∈ w'.code, LegalKey c.2.len c.2.pat := by
  obtain ⟨-, hrun⟩ | ⟨hinternal, hrun⟩ := cgRun_cases w
  · obtain rfl := Except.ok.inj (hrun.symm.trans h)
    intro c hc
    obtain rfl | hc := cellsSet_mem hc
    · decide
    · exact hcodes c hc
  · have hstart : LegalWalk { w with stack := [{ node := w.root, pat := 0, len := 0 }] } := by
      refine ⟨fun e he => ?_, hcodes⟩
      obtain rfl := List.mem_singleton.mp he
      exact ⟨Nat.zero_le 32, Nat.zero_lt_one, fun hleaf => absurd (hinternal.symm.trans hleaf) Bool.false_ne_true⟩
    exact (cgLoop_invariant cgTurn_legalWalk (hrun.symm.trans h) hstart).codes

end Sys2Proof.Machine
end

