-- ==== Sys2Proof/Proofs/CodeWalks.lean ====
section
/-! The statements about `CG.RUN` for any contents of NODE (42_code_generator.md). -/

namespace Sys2Proof
open Machine

/-- Settles O41: a turn pops a leaf or raises CodeTooLong at depth 32, so that the turns of a full tree of that depth
suffice; and each child's pattern is within its length. -/
theorem walkEnds : Obligations.WalkEnds := by
  intro w
  exact ⟨fun w' h hs => ⟨cgRun_stack h hs, cgRun_legal h⟩, fun e h => cgRun_error h⟩

end Sys2Proof
end

