-- ==== Sys2Proof/Proofs/CoreSteps.lean ====
section
/-! SUPPORT. What a step of the core can do (00_scope.md R10, 10_state.md R45): it always answers, it keeps its inputs, and
the inductions over the records of phases TD and DE. -/

namespace Sys2Proof.Machine

/-! ### Records -/

/-- What a record of format `f` at the read pointer can do (45_table_deserializer.md R186 to R189, 46_decoder.md R200). -/
inductive RecordStep (s : State) : Format → State → Prop
  | error (f : Format) (e : ErrKind) : RecordStep s f (s.raise e)
  | header (m : BitVec 16) (check : tdSizeCheck s.params.nMax s.byteInLen m = none) :
      RecordStep s .hdr { s with work := tdHeader m s.work }
  | entry (sym : Sym) (l : BitVec 8) (p : BitVec 32) (check : tdCheck s.work.dtab l p = none) :
      RecordStep s .ent { s with work := tdEntry sym l p s.work }
  | payload (byte : Byte) (y : Emitter)
      (bits : deBits s.params.symOutCap byte (bitsOfByte s.work) (s.work, s.symOut) = .ok y) :
      RecordStep s .pay { s with work := y.1, symOut := y.2 }

theorem exec_recordStep {s : State} {i : Instr} (h : s.nextFormat = some i.format) :
    ∃ t, exec i s = .next t ∧ RecordStep s i.format t := by
  obtain ⟨e, hx⟩ | ⟨m, rfl, hc, hx⟩ | ⟨sym, l, p, rfl, hc, hx⟩ | ⟨byte, y, rfl, hy, hx⟩ := exec_record_cases h
  · exact ⟨_, hx, .error _ e⟩
  · exact ⟨_, hx, .header m hc⟩
  · exact ⟨_, hx, .entry sym l p hc⟩
  · exact ⟨_, hx, .payload byte y hy⟩

theorem runRecord_recordStep {s : State} {f : Format} (h : s.nextFormat = some f) :
    ∃ t, s.runRecord f = .next t ∧ RecordStep s f t := by
  obtain ⟨-, hrun⟩ | ⟨i, -, -, rfl, hrun⟩ := runRecord_cases s f
  · exact ⟨_, hrun, .error f _⟩
  · rw [hrun]
    exact exec_recordStep h

theorem tdRecord_recordStep {s : State} {f : Format} (h : s.nextFormat = some f) :
    ∃ t, s.tdRecord f = .next t ∧ RecordStep s f t := by
  obtain ⟨-, -, hrun⟩ | ⟨-, hrun⟩ := tdRecord_cases s f
  · exact ⟨_, hrun, .error f _⟩
  · rw [hrun]
    exact runRecord_recordStep h

/-! ### A step of the core always answers -/

theorem whileIn_total {p : Phase} {o : Host.Outcome State Fault Refusal} {u : State}
    {k : State → Host.Outcome State Fault Refusal} (ho : o = .next u) (hk : ∃ t, k u = .next t) :
    ∃ t, whileIn p o k = .next t := by
  rw [ho, whileIn]
  split
  · exact hk
  · exact ⟨u, rfl⟩

theorem tdLoop_total (n : Nat) (s : State) : ∃ t, s.tdLoop n = .next t := by
  induction n generalizing s with
  | zero => exact ⟨_, rfl⟩
  | succ n ih =>
    cases hf : s.nextFormat with
    | none => exact ⟨_, tdLoop_none hf⟩
    | some f =>
      obtain ⟨u, hu, -⟩ := tdRecord_recordStep hf
      rw [tdLoop_some hf]
      exact whileIn_total hu (ih u)

theorem deLoop_total (n : Nat) (s : State) : ∃ t, s.deLoop n = .next t := by
  induction n generalizing s with
  | zero => exact ⟨_, rfl⟩
  | succ n ih =>
    cases hf : s.nextFormat with
    | none => exact ⟨_, deLoop_none hf⟩
    | some f =>
      obtain ⟨u, hu, -⟩ := runRecord_recordStep hf
      rw [deLoop_some hf]
      exact whileIn_total hu (ih u)

theorem coreTD_total {s : State} (hphase : s.phase = .td) : ∃ t, s.coreTD = .next t := by
  by_cases hptr : s.work.rdPtr = 0
  · obtain ⟨u, hu, -⟩ := tdRecord_recordStep (nextFormat_hdr.mpr ⟨hphase, hptr⟩)
    rw [coreTD_header hptr]
    exact whileIn_total hu (tdLoop_total _ u)
  · rw [coreTD_entries hptr]
    exact tdLoop_total _ s

theorem coreDE_total (s : State) : ∃ t, s.coreDE = .next t := by
  obtain ⟨e, -, hstep⟩ | ⟨w, -, hstep⟩ := coreDE_cases s
  · exact ⟨_, hstep⟩
  · rw [hstep]
    exact deLoop_total _ _

/-- A step of the core always answers a next state (60_exceptions.md R252). -/
theorem coreStep_total (s : State) : ∃ t, coreStep s = .next t := by
  cases h : s.phase with
  | idle => exact ⟨_, coreStep_idle h⟩
  | fa => exact ⟨_, coreStep_fa h⟩
  | tb => exact ⟨_, coreStep_tb h⟩
  | cg => exact ⟨_, coreStep_cg h⟩
  | ts => exact ⟨_, coreStep_ts h⟩
  | en => exact ⟨_, coreStep_en h⟩
  | td => exact coreStep_td h ▸ coreTD_total h
  | de => exact coreStep_de h ▸ coreDE_total s

theorem coreRun_total (k : Nat) (s : State) : ∃ t, coreRun k s = .next t := by
  induction k generalizing s with
  | zero => exact ⟨s, rfl⟩
  | succ k ih =>
    obtain ⟨u, hu⟩ := coreStep_total s
    rw [coreRun_succ hu]
    exact ih u

/-! ### The inductions over phases TD and DE -/

/-- The loop of `TD.RUN` with the number of records it may still read: it ends where none is left to read. -/
theorem tdLoop_count_induct {P : Nat → State → Prop} {Q : State → Prop}
    (hrecord : ∀ n u f v, P (n + 1) u → u.nextFormat = some f → RecordStep u f v →
      (v.phase = .td → P n v) ∧ (v.phase ≠ .td → Q v))
    (hend : ∀ n u, P n u → n = 0 ∨ u.nextFormat = none → Q (u.toPhase .de)) {n : Nat} {s t : State} (hs : P n s)
    (h : s.tdLoop n = .next t) : Q t := by
  induction n generalizing s with
  | zero =>
    cases h
    exact hend 0 s hs (.inl rfl)
  | succ n ih =>
    cases hf : s.nextFormat with
    | none =>
      rw [tdLoop_none hf] at h
      cases h
      exact hend _ s hs (.inr hf)
    | some f =>
      rw [tdLoop_some hf] at h
      obtain ⟨u, hu, hcase⟩ := whileIn_next h
      obtain ⟨u', hu', hstep⟩ := tdRecord_recordStep hf
      obtain rfl := Host.Outcome.next.inj (hu.symm.trans hu')
      obtain ⟨hin, hout⟩ := hrecord n s f u hs hf hstep
      obtain ⟨hp, hk⟩ | ⟨hp, rfl⟩ := hcase
      · exact ih (hin hp) hk
      · exact hout hp

/-- Phase TD: the header, if the reader stands there, and then the entries. -/
theorem coreTD_induct {P : Nat → State → Prop} {Q : State → Prop} {s t : State} (hphase : s.phase = .td)
    (hheader : ∀ u, s.work.rdPtr = 0 → RecordStep s .hdr u →
      (u.phase = .td → P u.work.entriesLeft u) ∧ (u.phase ≠ .td → Q u))
    (hentries : s.work.rdPtr ≠ 0 → P s.work.entriesLeft s)
    (hrecord : ∀ n u f v, P (n + 1) u → u.nextFormat = some f → RecordStep u f v →
      (v.phase = .td → P n v) ∧ (v.phase ≠ .td → Q v))
    (hend : ∀ n u, P n u → n = 0 ∨ u.nextFormat = none → Q (u.toPhase .de)) (h : s.coreTD = .next t) : Q t := by
  by_cases hptr : s.work.rdPtr = 0
  · rw [coreTD_header hptr] at h
    obtain ⟨u, hu, hcase⟩ := whileIn_next h
    obtain ⟨u', hu', hstep⟩ := tdRecord_recordStep (nextFormat_hdr.mpr ⟨hphase, hptr⟩)
    obtain rfl := Host.Outcome.next.inj (hu.symm.trans hu')
    obtain ⟨hin, hout⟩ := hheader u hptr hstep
    obtain ⟨hp, hk⟩ | ⟨hp, rfl⟩ := hcase
    · exact tdLoop_count_induct hrecord hend (hin hp) hk
    · exact hout hp
  · rw [coreTD_entries hptr] at h
    exact tdLoop_count_induct hrecord hend (hentries hptr) h

/-- Phase DE: the start, the payload bytes and `DE.FINISH`. -/
theorem coreDE_induct {P : State → Prop} {Q : State → Prop} {s t : State} (hraise : ∀ e, Q (s.raise e))
    (hstart : ∀ w, s.deStart = .ok w → P { s with work := w })
    (hrecord : ∀ u f v, P u → u.nextFormat = some f → RecordStep u f v →
      (v.phase = .de → P v) ∧ (v.phase ≠ .de → Q v))
    (hend : ∀ u, P u → Q u.deFinish) (h : s.coreDE = .next t) : Q t := by
  obtain ⟨e, -, hstep⟩ | ⟨w, hw, hstep⟩ := coreDE_cases s
  · obtain rfl := Host.Outcome.next.inj (hstep.symm.trans h)
    exact hraise e
  · refine deLoop_induct (fun u f v hu hf hv => ?_) hend (hstart w hw) (hstep.symm.trans h)
    obtain ⟨v', hv', hrec⟩ := runRecord_recordStep hf
    obtain rfl := Host.Outcome.next.inj (hv.symm.trans hv')
    exact hrecord u f v hu hf hrec

/-- A record of phase TD or DE leaves its phase by an error only. -/
theorem RecordStep.phase_cases {s t : State} {f : Format} (h : RecordStep s f t) :
    t.phase = s.phase ∨ ∃ e, t = s.raise e := by
  cases h with
  | error f e => exact .inr ⟨e, rfl⟩
  | _ => exact .inl rfl

/-- What the records and the end of phase TD keep, the phase keeps. -/
theorem coreTD_keeps {P : State → Prop}
    (hrecord : ∀ u f v, u.phase = .td → P u → u.nextFormat = some f → RecordStep u f v → P v)
    (hend : ∀ u, u.phase = .td → P u → P (u.toPhase .de)) {s t : State} (hphase : s.phase = .td) (hs : P s)
    (h : s.coreTD = .next t) : P t :=
  coreTD_induct (P := fun _ u => u.phase = .td ∧ P u) hphase
    (fun u hptr hu =>
      have hP := hrecord s .hdr u hphase hs (nextFormat_hdr.mpr ⟨hphase, hptr⟩) hu
      ⟨fun hp => ⟨hp, hP⟩, fun _ => hP⟩)
    (fun _ => ⟨hphase, hs⟩)
    (fun _ u f v hu hf hv =>
      have hP := hrecord u f v hu.1 hu.2 hf hv
      ⟨fun hp => ⟨hp, hP⟩, fun _ => hP⟩)
    (fun _ u hu _ => hend u hu.1 hu.2) h

/-- What the start, the records and the end of phase DE keep, the phase keeps. -/
theorem coreDE_keeps {P : State → Prop} {s t : State} (hraise : ∀ e, P (s.raise e))
    (hstart : ∀ w, s.deStart = .ok w → P { s with work := w })
    (hrecord : ∀ u f v, u.phase = .de → P u → u.nextFormat = some f → RecordStep u f v → P v)
    (hend : ∀ u, u.phase = .de → P u → P u.deFinish) (hphase : s.phase = .de) (h : s.coreDE = .next t) : P t :=
  coreDE_induct (P := fun u => u.phase = .de ∧ P u) hraise (fun w hw => ⟨hphase, hstart w hw⟩)
    (fun u f v hu hf hv =>
      have hP := hrecord u f v hu.1 hu.2 hf hv
      ⟨fun hp => ⟨hp, hP⟩, fun _ => hP⟩)
    (fun u hu => hend u hu.1 hu.2) h

/-- Everything `DE.FINISH` can do (46_decoder.md R204). -/
theorem deFinish_cases (s : State) :
    (s.work.accLen ≠ 0 ∧ s.work.lenEn = true ∧ s.deFinish = s.raise .ambiguousTrailingBits) ∨
    (¬ (s.work.accLen ≠ 0 ∧ s.work.lenEn = true) ∧
      s.deFinish = ({ s with symOutLen := s.work.outIdx, decTabN := s.work.dtabN, residLen := s.work.accLen,
                             trail := s.work.accLen ≠ 0 } : State).complete) := by
  by_cases h : s.work.accLen ≠ 0 ∧ s.work.lenEn = true
  · exact .inl ⟨h.1, h.2, if_pos h⟩
  · exact .inr ⟨h, if_neg h⟩

/-! ### The core keeps its inputs -/

/-- What no step of the core changes: the host's registers and buffers, the pins, the parameters and the model's host
(10_state.md R22, R25, R29, R30, R34; 20_memory.md R61, R63). -/
structure CoreInputs where
  cfg : BitVec 1
  inLen : BitVec 32
  byteInLen : BitVec 35
  decBits : BitVec 38
  symIn : Memory 32
  byteIn : Memory 8
  portOk : BitVec 4
  params : Params
  script : List HostMove
  hostData : BitVec 38

/-- The inputs of the core in a state. -/
def State.inputs (s : State) : CoreInputs :=
  { cfg := s.cfg, inLen := s.inLen, byteInLen := s.byteInLen, decBits := s.decBits, symIn := s.symIn, byteIn := s.byteIn,
    portOk := s.portOk, params := s.params, script := s.script, hostData := s.hostData }

@[simp] theorem State.raise_inputs (s : State) (e : ErrKind) : (s.raise e).inputs = s.inputs := by
  simp [State.inputs]

theorem RecordStep.inputs {s t : State} {f : Format} (h : RecordStep s f t) : t.inputs = s.inputs := by
  cases h with
  | error f e => exact State.raise_inputs s e
  | _ => rfl

theorem deFinish_inputs (s : State) : s.deFinish.inputs = s.inputs := by
  obtain ⟨-, -, hend⟩ | ⟨-, hend⟩ := deFinish_cases s
  · rw [hend, State.raise_inputs]
  · rw [hend]
    rfl

theorem coreStep_inputs {s t : State} (h : coreStep s = .next t) : t.inputs = s.inputs := by
  cases hp : s.phase with
  | idle =>
    obtain rfl := Host.Outcome.next.inj ((coreStep_idle hp).symm.trans h)
    rfl
  | fa =>
    obtain rfl := Host.Outcome.next.inj ((coreStep_fa hp).symm.trans h)
    obtain ⟨e, -, hend⟩ | ⟨w, -, hend⟩ := phaseFA_cases s
    · rw [hend, State.raise_inputs]
    · rw [hend]
      rfl
  | tb =>
    obtain rfl := Host.Outcome.next.inj ((coreStep_tb hp).symm.trans h)
    rfl
  | cg =>
    obtain rfl := Host.Outcome.next.inj ((coreStep_cg hp).symm.trans h)
    obtain ⟨e, -, hend⟩ | ⟨w, -, hend⟩ := phaseCG_cases s
    · rw [hend, State.raise_inputs]
    · rw [hend]
      rfl
  | ts =>
    obtain rfl := Host.Outcome.next.inj ((coreStep_ts hp).symm.trans h)
    obtain ⟨e, -, hend⟩ | ⟨y, -, hend⟩ := phaseTS_cases s
    · rw [hend, State.raise_inputs]
    · rw [hend]
      rfl
  | en =>
    obtain rfl := Host.Outcome.next.inj ((coreStep_en hp).symm.trans h)
    obtain ⟨e, -, hend⟩ | ⟨y, -, hend⟩ := phaseEN_outcome s
    · rw [hend, State.raise_inputs]
    · rw [hend]
      rfl
  | td =>
    exact coreTD_keeps (P := fun u => u.inputs = s.inputs) (fun u f v _ hu _ hv => hv.inputs.trans hu)
      (fun u _ hu => hu) hp rfl ((coreStep_td hp).symm.trans h)
  | de =>
    exact coreDE_keeps (P := fun u => u.inputs = s.inputs) (State.raise_inputs s) (fun w _ => rfl)
      (fun u f v _ hu _ hv => hv.inputs.trans hu) (fun u _ hu => (deFinish_inputs u).trans hu) hp
      ((coreStep_de hp).symm.trans h)

/-! ### Where the phases lead -/

/-- The end of a command: PHASE IDLE, DONE set and BUSY clear (47_commands.md R218, 60_exceptions.md R245). -/
structure Ended (s : State) : Prop where
  phase : s.phase = .idle
  done : s.done = true
  busy : s.busy = false

theorem ended_raise (s : State) (e : ErrKind) : Ended (s.raise e) :=
  ⟨State.raise_phase s e, State.raise_done s e, State.raise_busy s e⟩

theorem ended_complete (s : State) : Ended s.complete := ⟨rfl, rfl, rfl⟩

theorem ended_phaseEN (s : State) : Ended s.phaseEN := by
  obtain ⟨e, -, hend⟩ | ⟨y, -, hend⟩ := phaseEN_outcome s
  · exact hend ▸ ended_raise s e
  · exact hend ▸ ended_complete _

theorem ended_deFinish (s : State) : Ended s.deFinish := by
  obtain ⟨-, -, hend⟩ | ⟨-, hend⟩ := deFinish_cases s
  · exact hend ▸ ended_raise s _
  · exact hend ▸ ended_complete _

/-- Phase FA leads to phase TS exactly with an empty FT (40_frequency_analyzer.md R120). -/
theorem phaseFA_phase (s : State) : (s.phaseFA.phase = .ts ∧ s.phaseFA.work.ft = []) ∨
    (s.phaseFA.phase = .tb ∧ s.phaseFA.work.ft ≠ []) ∨ Ended s.phaseFA := by
  obtain ⟨e, -, hend⟩ | ⟨w, -, hnext⟩ := phaseFA_cases s
  · exact .inr (.inr (hend ▸ ended_raise s e))
  · rw [hnext]
    split
    next hempty => exact .inl ⟨rfl, List.length_eq_zero_iff.mp hempty⟩
    next hne => exact .inr (.inl ⟨rfl, fun hnil => hne (List.length_eq_zero_iff.mpr hnil)⟩)

theorem phaseCG_phase (s : State) : s.phaseCG.phase = .ts ∨ Ended s.phaseCG := by
  obtain ⟨e, -, hend⟩ | ⟨w, -, hnext⟩ := phaseCG_cases s
  · exact .inr (hend ▸ ended_raise s e)
  · exact .inl (hnext ▸ rfl)

theorem phaseTS_phase (s : State) : s.phaseTS.phase = .en ∨ Ended s.phaseTS := by
  obtain ⟨e, -, hend⟩ | ⟨y, -, hnext⟩ := phaseTS_cases s
  · exact .inr (hend ▸ ended_raise s e)
  · exact .inl (hnext ▸ rfl)

/-- Phase TD leads to phase DE or to the end (45_table_deserializer.md R185). -/
theorem coreTD_phase {s t : State} (hphase : s.phase = .td) (h : s.coreTD = .next t) : t.phase = .de ∨ Ended t := by
  have hrecord : ∀ u f v, u.phase = .td → RecordStep u f v →
      (v.phase = .td → v.phase = .td) ∧ (v.phase ≠ .td → v.phase = .de ∨ Ended v) := by
    intro u f v hu hv
    refine ⟨id, fun hne => ?_⟩
    obtain hsame | ⟨e, rfl⟩ := hv.phase_cases
    · exact absurd (hsame.trans hu) hne
    · exact .inr (ended_raise u e)
  exact coreTD_induct (P := fun _ u => u.phase = .td) (Q := fun u => u.phase = .de ∨ Ended u) hphase
    (fun u _ hu => hrecord s _ u hphase hu) (fun _ => hphase) (fun _ u f v hu _ hv => hrecord u f v hu hv)
    (fun _ u _ _ => .inl rfl) h

/-- Phase DE leads to the end (46_decoder.md R204). -/
theorem coreDE_ended {s t : State} (hphase : s.phase = .de) (h : s.coreDE = .next t) : Ended t := by
  refine coreDE_induct (P := fun u => u.phase = .de) (ended_raise s) (fun _ _ => hphase) (fun u f v hu _ hv => ?_)
    (fun u _ => ended_deFinish u) h
  refine ⟨id, fun hne => ?_⟩
  obtain hsame | ⟨e, rfl⟩ := hv.phase_cases
  · exact absurd (hsame.trans hu) hne
  · exact ended_raise u e

end Sys2Proof.Machine
end

