-- ==== Sys2Proof/Proofs/CoreStatements.lean ====
section
/-! The statements about every step of the core (00_scope.md R10, 10_state.md R45, 60_exceptions.md R252). -/

namespace Sys2Proof
open Machine

/-- Settles O9: a record at the read pointer always has a meaning, so that no step of the core stops; of the host's moves
only the accesses of buffers can. -/
theorem onlyHostBufferMovesStop : Obligations.OnlyHostBufferMovesStop := by
  refine ⟨coreStep_total, fun s hmoves => ?_⟩
  cases hs : s.script with
  | nil => exact step_nil hs ▸ coreStep_total s
  | cons m rest =>
    obtain ⟨hwrite, hread, hfeed⟩ := hmoves m rest hs
    rw [step_cons hs]
    cases m with
    | writeReg k v =>
      show ∃ t, State.hostWriteReg _ k v = .next t
      rw [State.hostWriteReg, decodeCommand]
      split
      · split <;> exact ⟨_, rfl⟩
      · exact ⟨_, rfl⟩
    | readReg k =>
      obtain ⟨-, -, h⟩ | ⟨-, h⟩ := hostReadReg_cases { s with script := rest } k
      · exact ⟨_, h⟩
      · exact ⟨_, h⟩
    | writeBuf b i v => exact absurd rfl (hwrite b i v)
    | readBuf b i => exact absurd rfl (hread b i)
    | pins v => exact ⟨_, rfl⟩
    | reset => exact ⟨_, rfl⟩
    | feed => exact absurd rfl hfeed
    | core => exact coreStep_total _
    | waitDone =>
      show ∃ t, State.hostWait _ = .next t
      rw [State.hostWait]
      split
      · exact ⟨_, rfl⟩
      · exact coreStep_total _

/-- Settles O14: an error, the end of a command and the updates of each phase all leave them alone. -/
theorem coreKeepsItsInputs : Obligations.CoreKeepsItsInputs := by
  intro s t h
  have hsame := coreStep_inputs h
  exact ⟨congrArg CoreInputs.cfg hsame, congrArg CoreInputs.inLen hsame, congrArg CoreInputs.byteInLen hsame,
    congrArg CoreInputs.decBits hsame, congrArg CoreInputs.symIn hsame, congrArg CoreInputs.byteIn hsame,
    congrArg CoreInputs.portOk hsame, congrArg CoreInputs.params hsame, congrArg CoreInputs.script hsame,
    congrArg CoreInputs.hostData hsame⟩

/-- Settles O15: each phase ends in an error, in the end of the command, or with the phase it sets. -/
theorem phaseSuccessors : Obligations.PhaseSuccessors := by
  intro s t h
  cases hp : s.phase with
  | idle =>
    obtain rfl := Host.Outcome.next.inj ((coreStep_idle hp).symm.trans h)
    simp
  | fa =>
    obtain rfl := Host.Outcome.next.inj ((coreStep_fa hp).symm.trans h)
    obtain ⟨hphase, hft⟩ | ⟨hphase, hft⟩ | ⟨hphase, hdone, hbusy⟩ := phaseFA_phase s
    · simp [hphase, hft]
    · simp [hphase, hft]
    · simp [hphase, hdone, hbusy]
  | tb =>
    obtain rfl := Host.Outcome.next.inj ((coreStep_tb hp).symm.trans h)
    simp [State.phaseTB]
  | cg =>
    obtain rfl := Host.Outcome.next.inj ((coreStep_cg hp).symm.trans h)
    obtain hphase | ⟨hphase, hdone, hbusy⟩ := phaseCG_phase s
    · simp [hphase]
    · simp [hphase, hdone, hbusy]
  | ts =>
    obtain rfl := Host.Outcome.next.inj ((coreStep_ts hp).symm.trans h)
    obtain hphase | ⟨hphase, hdone, hbusy⟩ := phaseTS_phase s
    · simp [hphase]
    · simp [hphase, hdone, hbusy]
  | en =>
    obtain rfl := Host.Outcome.next.inj ((coreStep_en hp).symm.trans h)
    obtain ⟨hphase, hdone, hbusy⟩ := ended_phaseEN s
    simp [hphase, hdone, hbusy]
  | td =>
    obtain hphase | ⟨hphase, hdone, hbusy⟩ := coreTD_phase hp ((coreStep_td hp).symm.trans h)
    · simp [hphase]
    · simp [hphase, hdone, hbusy]
  | de =>
    obtain ⟨hphase, hdone, hbusy⟩ := coreDE_ended hp ((coreStep_de hp).symm.trans h)
    simp [hphase, hdone, hbusy]

end Sys2Proof
end

