-- ==== Sys2Proof/Proofs/StepCases.lean ====
section
/-! SUPPORT. What a step of the machine can do (00_scope.md R8, R10): a step of the core, a command word, reset, or a host
move that leaves the core's own state alone. -/

namespace Sys2Proof.Machine

/-- What a step can do, by whose state it changes. The host writes its registers and the buffers only while BUSY = 0
(10_state.md R20, 93_implementation_defined.md U4). -/
inductive StepCase (s : State) : State → Prop
  | core {t : State} (script : List HostMove) (h : coreStep { s with script := script } = .next t) : StepCase s t
  | command (script : List HostMove) (op : Op) : StepCase s (({ s with script := script } : State).command op)
  | reset (script : List HostMove) : StepCase s ({ s with script := script } : State).rst
  | quiet (script : List HostMove) (portOk : BitVec 4) (hostData : BitVec 38) (fresh : Nat) :
      StepCase s { s with script := script, portOk := portOk, hostData := hostData, fresh := fresh }
  | registers (script : List HostMove) (cfg : BitVec 1) (inLen : BitVec 32) (byteInLen : BitVec 35) (decBits : BitVec 38)
      (idle : s.busy = false) :
      StepCase s { s with script := script, cfg := cfg, inLen := inLen, byteInLen := byteInLen, decBits := decBits }
  | buffer (script : List HostMove) (b : BufId) (i : Nat) (v : BitVec 32) (idle : s.busy = false) :
      StepCase s (({ s with script := script } : State).writeBuf b i v)
  | feed (script : List HostMove) (idle : s.busy = false) : StepCase s ({ s with script := script } : State).feed

theorem stepCase_writeReg {s t : State} {rest : List HostMove} {k v : Nat}
    (h : State.hostWriteReg { s with script := rest } k v = .next t) : StepCase s t := by
  rw [State.hostWriteReg] at h
  split at h
  next =>
    rw [decodeCommand] at h
    split at h
    · obtain rfl := Host.Outcome.next.inj h
      exact .command rest .encode
    · obtain rfl := Host.Outcome.next.inj h
      exact .command rest .decode
  next =>
    obtain rfl := Host.Outcome.next.inj h
    clear h
    unfold State.writeReg
    split
    next => exact .quiet rest s.portOk s.hostData s.fresh
    next hidle =>
      replace hidle : s.busy = false := Bool.eq_false_of_not_eq_true hidle
      split
      · exact .registers rest _ s.inLen s.byteInLen s.decBits hidle
      · exact .registers rest s.cfg _ s.byteInLen s.decBits hidle
      · exact .registers rest s.cfg s.inLen _ s.decBits hidle
      · exact .registers rest s.cfg s.inLen s.byteInLen _ hidle
      · exact .quiet rest s.portOk s.hostData s.fresh

theorem stepCase_readReg {s t : State} {rest : List HostMove} {k : Nat}
    (h : State.hostReadReg { s with script := rest } k = .next t) : StepCase s t := by
  obtain ⟨-, -, hread⟩ | ⟨-, hread⟩ := hostReadReg_cases { s with script := rest } k <;>
    obtain rfl := Host.Outcome.next.inj (hread.symm.trans h)
  · exact .quiet rest s.portOk _ (s.fresh + 1)
  · exact .quiet rest s.portOk _ s.fresh

theorem stepCase_writeBuf {s t : State} {rest : List HostMove} {b : BufId} {i : Nat} {v : BitVec 32}
    (h : State.hostWriteBuf { s with script := rest } b i v = .next t) : StepCase s t := by
  rw [State.hostWriteBuf] at h
  split at h
  next => cases h
  next hidle =>
    split at h
    next =>
      obtain rfl := Host.Outcome.next.inj h
      exact .buffer rest b i v (Bool.eq_false_of_not_eq_true hidle)
    next => cases h

theorem stepCase_readBuf {s t : State} {rest : List HostMove} {b : BufId} {i : Nat}
    (h : State.hostReadBuf { s with script := rest } b i = .next t) : StepCase s t := by
  rw [State.hostReadBuf] at h
  split at h
  next => cases h
  next =>
    split at h <;> obtain rfl := Host.Outcome.next.inj h
    · exact .quiet rest s.portOk _ (s.fresh + 1)
    · exact .quiet rest s.portOk _ s.fresh

theorem stepCase_feed {s t : State} {rest : List HostMove}
    (h : State.hostFeed { s with script := rest } = .next t) : StepCase s t := by
  rw [State.hostFeed] at h
  split at h
  next => cases h
  next hidle =>
    obtain rfl := Host.Outcome.next.inj h
    exact .feed rest (Bool.eq_false_of_not_eq_true hidle)

theorem stepCase_wait {s t : State} {rest : List HostMove}
    (h : State.hostWait { s with script := rest } = .next t) : StepCase s t := by
  rw [State.hostWait] at h
  split at h
  next =>
    obtain rfl := Host.Outcome.next.inj h
    exact .quiet rest s.portOk s.hostData s.fresh
  next => exact .core (.waitDone :: rest) h

/-- Everything a step can do. -/
theorem step_stepCase {s t : State} (h : step s = .next t) : StepCase s t := by
  cases hs : s.script with
  | nil =>
    have hsame : ({ s with script := [] } : State) = s := by rw [← hs]
    exact .core [] (by rw [hsame, ← step_nil hs, h])
  | cons m rest =>
    rw [step_cons hs] at h
    cases m with
    | writeReg k v => exact stepCase_writeReg h
    | readReg k => exact stepCase_readReg h
    | writeBuf b i v => exact stepCase_writeBuf h
    | readBuf b i => exact stepCase_readBuf h
    | pins v =>
      obtain rfl := Host.Outcome.next.inj h
      exact .quiet rest v s.hostData s.fresh
    | reset =>
      obtain rfl := Host.Outcome.next.inj h
      exact .reset rest
    | feed => exact stepCase_feed h
    | core => exact .core rest h
    | waitDone => exact stepCase_wait h

/-- A command word starts its command or is ignored (47_commands.md R217, R219). -/
theorem command_cases (s : State) (op : Op) :
    (s.busy = true ∧ s.command op = s) ∨ (s.busy = false ∧ s.command op = s.start op) := by
  cases hb : s.busy with
  | true => exact .inl ⟨rfl, command_busy hb op⟩
  | false => exact .inr ⟨rfl, command_idle hb op⟩

end Sys2Proof.Machine
end

