-- ==== Sys2Proof/Proofs/StatusInvariant.lean ====
section
/-! SUPPORT. Every step keeps the relations of the flags (10_state.md R23, R24, R45). -/

namespace Sys2Proof.Machine

/-- The command a phase belongs to (10_state.md R45). -/
def Phase.command : Phase → Option Op
  | .idle => none
  | .fa | .tb | .cg | .ts | .en => some .encode
  | .td | .de => some .decode

theorem Phase.mem_encode_iff (p : Phase) : p ∈ [Phase.fa, .tb, .cg, .ts, .en] ↔ p.command = some .encode := by
  cases p <;> decide

theorem Phase.mem_decode_iff (p : Phase) : p ∈ [Phase.td, .de] ↔ p.command = some .decode := by
  cases p <;> decide

theorem Phase.ne_idle_of_command {p : Phase} {op : Op} (h : p.command = some op) : p ≠ .idle := by
  rintro rfl
  cases h

/-- A running command is the one its phase belongs to. -/
theorem StatusInv.curOp {s : State} (h : StatusInv s) {op : Op} (hp : s.phase.command = some op) :
    s.work.curOp = op := by
  cases op with
  | encode => exact h.encodePhase ((Phase.mem_encode_iff _).mpr hp)
  | decode => exact h.decodePhase ((Phase.mem_decode_iff _).mpr hp)

/-- A running command has raised no error and is not done. -/
theorem StatusInv.running {s : State} (h : StatusInv s) (hp : s.phase ≠ .idle) :
    s.busy = true ∧ s.done = false ∧ s.err = false ∧ s.trail = false ∧ s.errCode = 0 := by
  have hbusy := h.busyPhase.mpr hp
  have hdone : s.done = false := Bool.eq_false_of_not_eq_true fun hd => h.notBoth ⟨hbusy, hd⟩
  have herr : s.err = false := Bool.eq_false_of_not_eq_true fun he =>
    absurd (hdone.symm.trans (h.errDone he)) Bool.false_ne_true
  have htrail : s.trail = false := Bool.eq_false_of_not_eq_true fun ht =>
    absurd (hdone.symm.trans (h.trailDone ht).1) Bool.false_ne_true
  exact ⟨hbusy, hdone, herr, htrail, h.errCode.1.mpr herr⟩

/-- What the relations speak of. -/
structure StatusView where
  busy : Bool
  done : Bool
  err : Bool
  trail : Bool
  errCode : BitVec 3
  phase : Phase
  curOp : Op

def State.status (s : State) : StatusView :=
  { busy := s.busy, done := s.done, err := s.err, trail := s.trail, errCode := s.errCode, phase := s.phase,
    curOp := s.work.curOp }

theorem StatusInv.congr {s t : State} (h : StatusInv s) (hst : t.status = s.status) : StatusInv t := by
  have hbusy : t.busy = s.busy := congrArg StatusView.busy hst
  have hdone : t.done = s.done := congrArg StatusView.done hst
  have herr : t.err = s.err := congrArg StatusView.err hst
  have htrail : t.trail = s.trail := congrArg StatusView.trail hst
  have hcode : t.errCode = s.errCode := congrArg StatusView.errCode hst
  have hphase : t.phase = s.phase := congrArg StatusView.phase hst
  have hop : t.work.curOp = s.work.curOp := congrArg StatusView.curOp hst
  obtain ⟨h₁, h₂, h₃, h₄, h₅, h₆, h₇⟩ := h
  constructor <;> simp only [hbusy, hdone, herr, htrail, hcode, hphase, hop] <;> assumption

/-- A command goes on to another phase of its own. -/
theorem StatusInv.toPhase {s : State} (h : StatusInv s) {op : Op} {p : Phase} (hs : s.phase.command = some op)
    (hp : p.command = some op) : StatusInv (s.toPhase p) := by
  obtain ⟨hbusy, hdone, herr, htrail, hcode⟩ := h.running (Phase.ne_idle_of_command hs)
  have hop := h.curOp hs
  refine ⟨iff_of_true hbusy (Phase.ne_idle_of_command hp), fun hb => absurd (hdone.symm.trans hb.2) Bool.false_ne_true,
    h.errDone, h.trailDone, h.errCode, fun hmem => ?_, fun hmem => ?_⟩
  · have hcmd := (Phase.mem_encode_iff p).mp hmem
    exact hop.trans (Option.some.inj (hp.symm.trans hcmd))
  · have hcmd := (Phase.mem_decode_iff p).mp hmem
    exact hop.trans (Option.some.inj (hp.symm.trans hcmd))

/-- With PHASE IDLE and DONE set only the error's own relations are left. -/
theorem statusInv_of_ended {s : State} (h : Ended s) (htrail : s.trail = true → s.err = false)
    (hcode : (s.errCode = 0 ↔ s.err = false) ∧ s.errCode ≠ 7) : StatusInv s := by
  obtain ⟨hphase, hdone, hbusy⟩ := h
  refine ⟨?_, fun hb => absurd (hbusy.symm.trans hb.1) Bool.false_ne_true, fun _ => hdone,
    fun ht => ⟨hdone, htrail ht⟩, hcode, ?_, ?_⟩ <;> rw [hphase]
  · exact iff_of_false (by simp [hbusy]) (by simp)
  · exact nofun
  · exact nofun

/-- The code of an error is neither 0 nor 7 (60_exceptions.md R240). -/
theorem errKind_code_ne (e : ErrKind) : e.code ≠ 0 ∧ e.code ≠ 7 := by
  cases e <;> decide

theorem statusInv_raise (s : State) (e : ErrKind) : StatusInv (s.raise e) := by
  obtain ⟨hzero, hseven⟩ := errKind_code_ne e
  refine statusInv_of_ended (ended_raise s e) (by simp) ?_
  rw [State.raise_errCode, State.raise_err]
  exact ⟨iff_of_false hzero nofun, hseven⟩

theorem statusInv_complete {s : State} (herr : s.err = false) (hcode : s.errCode = 0) : StatusInv s.complete :=
  statusInv_of_ended (ended_complete s) (fun _ => herr) (by simp [herr, hcode])

/-- A START that passes its checks (47_commands.md R217). -/
theorem statusInv_start (s : State) (op : Op) : StatusInv (s.start op) := by
  obtain ⟨-, -, hstart⟩ | ⟨-, hstart⟩ := start_cases s op <;> rw [hstart]
  · cases op <;> constructor <;> simp [Op.firstPhase]
  · exact statusInv_raise _ _

theorem statusInv_rst (s : State) : StatusInv s.rst := by
  constructor <;> simp [State.rst, State.powerOn]

/-! ### The core -/

theorem StatusInv.recordStep {s t : State} {f : Format} (h : StatusInv s) (ht : RecordStep s f t) : StatusInv t := by
  cases ht with
  | error f e => exact statusInv_raise s e
  | header m _ => exact h.congr rfl
  | entry sym l p _ => exact h.congr rfl
  | payload byte y hy =>
    refine h.congr ?_
    rw [deBits_frame hy]
    rfl

theorem StatusInv.deFinish {s : State} (h : StatusInv s) (hphase : s.phase = .de) : StatusInv s.deFinish := by
  obtain ⟨-, -, herr, -, hcode⟩ := h.running (by simp [hphase])
  obtain ⟨-, -, hend⟩ | ⟨-, hend⟩ := deFinish_cases s <;> rw [hend]
  · exact statusInv_raise s _
  · exact statusInv_complete herr hcode

theorem coreStep_statusInv {s t : State} (h : StatusInv s) (hstep : coreStep s = .next t) : StatusInv t := by
  cases hp : s.phase with
  | idle =>
    obtain rfl := Host.Outcome.next.inj ((coreStep_idle hp).symm.trans hstep)
    exact h
  | fa =>
    obtain rfl := Host.Outcome.next.inj ((coreStep_fa hp).symm.trans hstep)
    obtain ⟨e, -, hend⟩ | ⟨w, hw, hnext⟩ := phaseFA_cases s
    · exact hend ▸ statusInv_raise s e
    · have hkept : StatusInv { s with work := w } := h.congr (by rw [faRun_frame hw]; rfl)
      rw [hnext]
      exact hkept.toPhase (op := .encode) (congrArg _ hp) (by split <;> rfl)
  | tb =>
    obtain rfl := Host.Outcome.next.inj ((coreStep_tb hp).symm.trans hstep)
    have hkept : StatusInv { s with work := tbRun s.work } := h.congr (by rw [tbRun_frame]; rfl)
    exact hkept.toPhase (op := .encode) (congrArg _ hp) rfl
  | cg =>
    obtain rfl := Host.Outcome.next.inj ((coreStep_cg hp).symm.trans hstep)
    obtain ⟨e, -, hend⟩ | ⟨w, hw, hnext⟩ := phaseCG_cases s
    · exact hend ▸ statusInv_raise s e
    · have hkept : StatusInv { s with work := w } := h.congr (by rw [cgRun_frame hw]; rfl)
      exact hnext ▸ hkept.toPhase (op := .encode) (congrArg _ hp) rfl
  | ts =>
    obtain rfl := Host.Outcome.next.inj ((coreStep_ts hp).symm.trans hstep)
    obtain ⟨e, -, hend⟩ | ⟨y, hy, hnext⟩ := phaseTS_cases s
    · exact hend ▸ statusInv_raise s e
    · have hkept : StatusInv { s with work := y.1, byteOut := y.2 } := h.congr (by rw [tsRun_frame hy]; rfl)
      exact hnext ▸ hkept.toPhase (op := .encode) (congrArg _ hp) rfl
  | en =>
    obtain rfl := Host.Outcome.next.inj ((coreStep_en hp).symm.trans hstep)
    obtain ⟨-, -, herr, -, hcode⟩ := h.running (by simp [hp])
    obtain ⟨e, -, hend⟩ | ⟨y, -, hend⟩ := phaseEN_outcome s
    · exact hend ▸ statusInv_raise s e
    · exact hend ▸ statusInv_complete herr hcode
  | td =>
    exact coreTD_keeps (P := StatusInv) (fun u f v _ hu _ hv => hu.recordStep hv)
      (fun u hphase hu => hu.toPhase (op := .decode) (congrArg _ hphase) rfl) hp h ((coreStep_td hp).symm.trans hstep)
  | de =>
    refine coreDE_keeps (P := StatusInv) (statusInv_raise s) (fun w hw => h.congr ?_)
      (fun u f v _ hu _ hv => hu.recordStep hv) (fun u hphase hu => hu.deFinish hphase) hp
      ((coreStep_de hp).symm.trans hstep)
    rw [deStart_frame hw]
    rfl

/-- Every step keeps the relations of the flags. -/
theorem step_statusInv {s t : State} (h : StatusInv s) (hstep : step s = .next t) : StatusInv t := by
  cases step_stepCase hstep with
  | core script hcore =>
    have hs : StatusInv { s with script := script } := h.congr rfl
    exact coreStep_statusInv hs hcore
  | command script op =>
    obtain ⟨-, hcmd⟩ | ⟨-, hcmd⟩ := command_cases { s with script := script } op <;> rw [hcmd]
    · exact h.congr rfl
    · exact statusInv_start _ op
  | reset script => exact statusInv_rst _
  | quiet => exact h.congr rfl
  | registers => exact h.congr rfl
  | buffer script b i v _ => cases b <;> exact h.congr rfl
  | feed script _ => exact h.congr rfl

end Sys2Proof.Machine
end

