-- ==== Sys2Proof/Proofs/StoreInvariant.lean ====
section
/-! SUPPORT. Every step keeps the buffers and CODE in canonical form (20_memory.md section 1; the form is the model's,
log 4). -/

namespace Sys2Proof.Machine

/-! ### The units -/

theorem memWrite_wf {w : Nat} {cap : Option Nat} {m m' : Memory w} {a : Nat} {vs : List (BitVec w)} (hm : m.wf)
    (h : memWrite cap m a vs = .ok m') : m'.wf := by
  rw [(memWrite_inv h).1]
  exact Memory.writeList_wf hm a vs

theorem cgTurn_code_wf (w w' : Work) (hw : CellsWf w.code) (h : cgTurn w = .ok w') : CellsWf w'.code := by
  obtain ⟨-, rfl⟩ | ⟨e, rest, -, ⟨-, rfl⟩ | ⟨-, -, rfl⟩⟩ := cgTurn_cases h
  · exact hw
  · exact cellsSet_wf _ _ hw
  · exact hw

theorem cgRun_code_wf {w w' : Work} (hw : CellsWf w.code) (h : cgRun w = .ok w') : CellsWf w'.code := by
  obtain ⟨-, hrun⟩ | ⟨-, hrun⟩ := cgRun_cases w
  · obtain rfl := Except.ok.inj (hrun.symm.trans h)
    exact cellsSet_wf _ _ hw
  · exact cgLoop_invariant (P := fun v => CellsWf v.code) cgTurn_code_wf (hrun.symm.trans h) hw

section Writer
variable {cap : Option Nat} {x y : Writer} (hx : x.2.wf)
include hx

theorem putRecord_wf {i : Instr} (h : putRecord cap i x = .ok y) : y.2.wf := by
  rw [putRecord_inv h]
  exact Memory.writeList_wf hx _ _

theorem tsEntries_wf {es : List FtEntry} (h : tsEntries cap es x = .ok y) : y.2.wf := by
  induction es generalizing x with
  | nil =>
    cases h
    exact hx
  | cons e es ih =>
    rw [tsEntries_cons] at h
    obtain ⟨z, hz, hrest⟩ := except_bind_eq_ok_iff.mp h
    have hz' : z.2.wf := putRecord_wf hx hz
    exact ih (x := ({ z.1 with tsI := z.1.tsI + 1 }, z.2)) hz' hrest

theorem tsRun_wf (h : tsRun cap x = .ok y) : y.2.wf := by
  rw [tsRun_eq] at h
  obtain ⟨z, hz, hrest⟩ := except_bind_eq_ok_iff.mp h
  exact tsEntries_wf (putRecord_wf hx hz) hrest

theorem pkPush_wf {b : Bool} (h : pkPush cap b x = .ok y) : y.2.wf := by
  by_cases hcnt : x.1.pkCnt = 7
  · rw [pkPush_full cap hcnt] at h
    obtain ⟨m, hm, hy⟩ := except_bind_eq_ok_iff.mp h
    cases hy
    exact memWrite_wf hx hm
  · rw [pkPush_notFull cap hcnt] at h
    cases h
    exact hx

theorem enShift_wf {p : BitVec 32} {l : Nat} (h : enShift cap p l x = .ok y) : y.2.wf := by
  induction l generalizing x with
  | zero =>
    cases h
    exact hx
  | succ l ih =>
    rw [enShift_succ] at h
    obtain ⟨z, hz, hrest⟩ := except_bind_eq_ok_iff.mp h
    exact ih (pkPush_wf hx hz) hrest

theorem enSymbol_wf {sym : Sym} (h : enSymbol cap sym x = .ok y) : y.2.wf := by
  rw [enSymbol_eq] at h
  obtain ⟨i, -, hshift⟩ := except_bind_eq_ok_iff.mp h
  exact enShift_wf hx hshift

theorem enLoop_wf {p : Params} {symIn : Memory 32} {inLen : BitVec 32} {n : Nat}
    (h : enLoop p symIn inLen n x = .ok y) : y.2.wf := by
  induction n generalizing x with
  | zero =>
    cases h
    exact hx
  | succ n ih =>
    by_cases hlt : x.1.inIdx < inLen
    · rw [enLoop_succ hlt] at h
      obtain ⟨sym, -, hrest⟩ := except_bind_eq_ok_iff.mp h
      obtain ⟨z, hz, hloop⟩ := except_bind_eq_ok_iff.mp hrest
      have hz' : z.2.wf := enSymbol_wf hx hz
      exact ih (x := ({ z.1 with inIdx := z.1.inIdx + 1 }, z.2)) hz' hloop
    · rw [enLoop_end _ hlt] at h
      cases h
      exact hx

theorem pkFlush_wf (h : pkFlush cap x = .ok y) : y.2.wf := by
  by_cases hcnt : x.1.pkCnt = 0
  · rw [pkFlush_empty cap hcnt] at h
    cases h
    exact hx
  · rw [pkFlush_held cap hcnt] at h
    obtain ⟨m, hm, hy⟩ := except_bind_eq_ok_iff.mp h
    cases hy
    exact memWrite_wf hx hm

theorem enRun_wf {p : Params} {symIn : Memory 32} {inLen : BitVec 32} (h : enRun p symIn inLen x = .ok y) : y.2.wf := by
  rw [enRun_eq] at h
  obtain ⟨z, hz, hflush⟩ := except_bind_eq_ok_iff.mp h
  exact pkFlush_wf (enLoop_wf (x := ({ x.1 with inIdx := 0 }, x.2)) hx hz) hflush

end Writer

theorem deMatch_wf {cap : Option Nat} {x y : Emitter} (hx : x.2.wf) (h : deMatch cap x = .ok y) : y.2.wf := by
  obtain ⟨-, hm⟩ | ⟨e, -, -, hm⟩ | ⟨e, -, -, hm⟩ := deMatch_cases cap x <;> cases hm.symm.trans h
  · exact hx
  · exact Memory.write_wf hx _ _

theorem deBits_wf {cap : Option Nat} {byte : Byte} {n : Nat} {x y : Emitter} (hx : x.2.wf)
    (h : deBits cap byte n x = .ok y) : y.2.wf := by
  induction n generalizing x with
  | zero =>
    cases h
    exact hx
  | succ n ih =>
    rw [deBits_succ] at h
    obtain ⟨z, hz, hrest⟩ := except_bind_eq_ok_iff.mp h
    exact ih (deMatch_wf (x := (deAppend (payloadBit byte x.1) (deAdvance x.1), x.2)) hx hz) hrest

/-! ### The steps -/

theorem storeInv_raise {s : State} (h : StoreInv s) (e : ErrKind) : StoreInv (s.raise e) := by
  obtain ⟨hsymIn, hbyteOut, hbyteIn, hsymOut, -⟩ := h
  constructor
  · rwa [State.raise_symIn]
  · rw [State.raise_byteOut]
    cases s.work.curOp
    · exact Memory.forget_wf _ _
    · exact hbyteOut
  · rwa [State.raise_byteIn]
  · rw [State.raise_symOut]
    cases s.work.curOp
    · exact hsymOut
    · exact Memory.forget_wf _ _
  · rw [State.raise_work]
    exact .nil

theorem StoreInv.complete {s : State} (h : StoreInv s) : StoreInv s.complete := by
  refine ⟨h.symIn, h.byteOut, h.byteIn, h.symOut, ?_⟩
  rw [State.complete_work, CellsWf, Work.forgetArrays_code_keys]
  exact h.code

/-- The working registers change, CODE staying in canonical form. -/
theorem StoreInv.withWork {s : State} (h : StoreInv s) {w : Work} (hcode : CellsWf w.code) :
    StoreInv { s with work := w } := ⟨h.symIn, h.byteOut, h.byteIn, h.symOut, hcode⟩

theorem StoreInv.recordStep {s t : State} {f : Format} (h : StoreInv s) (ht : RecordStep s f t) : StoreInv t := by
  cases ht with
  | error f e => exact storeInv_raise h e
  | header m _ => exact h.withWork h.code
  | entry sym l p _ => exact h.withWork h.code
  | payload byte y hy =>
    refine ⟨h.symIn, h.byteOut, h.byteIn, deBits_wf (x := (s.work, s.symOut)) h.symOut hy, ?_⟩
    rw [deBits_frame hy]
    exact h.code

theorem StoreInv.deFinish {s : State} (h : StoreInv s) : StoreInv s.deFinish := by
  obtain ⟨-, -, hend⟩ | ⟨-, hend⟩ := deFinish_cases s <;> rw [hend]
  · exact storeInv_raise h _
  · exact StoreInv.complete ⟨h.symIn, h.byteOut, h.byteIn, h.symOut, h.code⟩

theorem coreStep_storeInv {s t : State} (h : StoreInv s) (hstep : coreStep s = .next t) : StoreInv t := by
  cases hp : s.phase with
  | idle =>
    obtain rfl := Host.Outcome.next.inj ((coreStep_idle hp).symm.trans hstep)
    exact h
  | fa =>
    obtain rfl := Host.Outcome.next.inj ((coreStep_fa hp).symm.trans hstep)
    obtain ⟨e, -, hend⟩ | ⟨w, hw, hnext⟩ := phaseFA_cases s
    · exact hend ▸ storeInv_raise h e
    · have hcode : CellsWf w.code := by rw [faRun_frame hw]; exact h.code
      rw [hnext]
      exact ⟨h.symIn, h.byteOut, h.byteIn, h.symOut, hcode⟩
  | tb =>
    obtain rfl := Host.Outcome.next.inj ((coreStep_tb hp).symm.trans hstep)
    have hcode : CellsWf (tbRun s.work).code := by rw [tbRun_frame]; exact h.code
    exact ⟨h.symIn, h.byteOut, h.byteIn, h.symOut, hcode⟩
  | cg =>
    obtain rfl := Host.Outcome.next.inj ((coreStep_cg hp).symm.trans hstep)
    obtain ⟨e, -, hend⟩ | ⟨w, hw, hnext⟩ := phaseCG_cases s
    · exact hend ▸ storeInv_raise h e
    · exact hnext ▸ ⟨h.symIn, h.byteOut, h.byteIn, h.symOut, cgRun_code_wf h.code hw⟩
  | ts =>
    obtain rfl := Host.Outcome.next.inj ((coreStep_ts hp).symm.trans hstep)
    obtain ⟨e, -, hend⟩ | ⟨y, hy, hnext⟩ := phaseTS_cases s
    · exact hend ▸ storeInv_raise h e
    · have hcode : CellsWf y.1.code := by rw [tsRun_frame hy]; exact h.code
      exact hnext ▸ ⟨h.symIn, tsRun_wf (x := (s.work, s.byteOut)) h.byteOut hy, h.byteIn, h.symOut, hcode⟩
  | en =>
    obtain rfl := Host.Outcome.next.inj ((coreStep_en hp).symm.trans hstep)
    obtain ⟨e, -, hend⟩ | ⟨y, hy, hend⟩ := phaseEN_outcome s
    · exact hend ▸ storeInv_raise h e
    · have hcode : CellsWf y.1.code := by rw [enRun_frame hy]; exact h.code
      rw [hend]
      exact StoreInv.complete ⟨h.symIn, enRun_wf (x := (s.work, s.byteOut)) h.byteOut hy, h.byteIn, h.symOut, hcode⟩
  | td =>
    exact coreTD_keeps (P := StoreInv) (fun u f v _ hu _ hv => hu.recordStep hv)
      (fun u _ hu => ⟨hu.symIn, hu.byteOut, hu.byteIn, hu.symOut, hu.code⟩) hp h ((coreStep_td hp).symm.trans hstep)
  | de =>
    refine coreDE_keeps (P := StoreInv) (storeInv_raise h) (fun w hw => h.withWork ?_)
      (fun u f v _ hu _ hv => hu.recordStep hv) (fun u _ hu => hu.deFinish) hp ((coreStep_de hp).symm.trans hstep)
    rw [deStart_frame hw]
    exact h.code

theorem StoreInv.start {s : State} (h : StoreInv s) (op : Op) : StoreInv (s.start op) := by
  have hclear : StoreInv (s.startClear op) := by
    refine ⟨?_, ?_, ?_, ?_, ?_⟩
    · rw [State.startClear_symIn]; exact h.symIn
    · rw [State.startClear_byteOut]; exact h.byteOut
    · rw [State.startClear_byteIn]; exact h.byteIn
    · rw [State.startClear_symOut]; exact h.symOut
    · rw [State.startClear_work]; exact .nil
  obtain ⟨-, -, hstart⟩ | ⟨-, hstart⟩ := start_cases s op <;> rw [hstart]
  · exact ⟨hclear.symIn, hclear.byteOut, hclear.byteIn, hclear.symOut, hclear.code⟩
  · exact storeInv_raise hclear _

theorem StoreInv.writeBuf {s : State} (h : StoreInv s) (b : BufId) (i : Nat) (v : BitVec 32) :
    StoreInv (s.writeBuf b i v) := by
  obtain ⟨hsymIn, hbyteOut, hbyteIn, hsymOut, hcode⟩ := h
  cases b with
  | symIn => exact ⟨Memory.write_wf hsymIn _ _, hbyteOut, hbyteIn, hsymOut, hcode⟩
  | byteOut => exact ⟨hsymIn, Memory.write_wf hbyteOut _ _, hbyteIn, hsymOut, hcode⟩
  | byteIn => exact ⟨hsymIn, hbyteOut, Memory.write_wf hbyteIn _ _, hsymOut, hcode⟩
  | symOut => exact ⟨hsymIn, hbyteOut, hbyteIn, Memory.write_wf hsymOut _ _, hcode⟩

/-- Every step keeps the canonical form. -/
theorem step_storeInv {s t : State} (h : StoreInv s) (hstep : step s = .next t) : StoreInv t := by
  obtain ⟨hsymIn, hbyteOut, hbyteIn, hsymOut, hcode⟩ := h
  cases step_stepCase hstep with
  | core script hcore =>
    exact coreStep_storeInv (s := { s with script := script }) ⟨hsymIn, hbyteOut, hbyteIn, hsymOut, hcode⟩ hcore
  | command script op =>
    have hs : StoreInv { s with script := script } := ⟨hsymIn, hbyteOut, hbyteIn, hsymOut, hcode⟩
    obtain ⟨-, hcmd⟩ | ⟨-, hcmd⟩ := command_cases { s with script := script } op <;> rw [hcmd]
    · exact hs
    · exact hs.start op
  | reset script =>
    exact ⟨Memory.forget_wf s.symIn _, Memory.forget_wf s.byteOut _, Memory.forget_wf s.byteIn _,
      Memory.forget_wf s.symOut _, .nil⟩
  | quiet => exact ⟨hsymIn, hbyteOut, hbyteIn, hsymOut, hcode⟩
  | registers => exact ⟨hsymIn, hbyteOut, hbyteIn, hsymOut, hcode⟩
  | buffer script b i v _ =>
    exact StoreInv.writeBuf (s := { s with script := script }) ⟨hsymIn, hbyteOut, hbyteIn, hsymOut, hcode⟩ b i v
  | feed script _ => exact ⟨hsymIn, hbyteOut, copyBytes_wf _ _ hbyteIn _ _, hsymOut, hcode⟩

end Sys2Proof.Machine
end

