-- ==== Sys2Proof/Proofs/TableProgress.lean ====
section
/-! SUPPORT. What the records of phase TD have read so far (45_table_deserializer.md R185 to R189), and that the
accumulator of phase DE keeps within its bound (10_state.md R43). -/

namespace Sys2Proof.Machine

/-! ### The table -/

/-- An entry without a fault leaves the table legal. -/
theorem LegalTable.concat {dtab : List DtEntry} (h : LegalTable dtab) {l : BitVec 8} {p : BitVec 32} (sym : Sym)
    (hcheck : tdCheck dtab l p = none) :
    (1 ≤ l.toNat ∧ l.toNat ≤ 32 ∧ p.toNat < 2 ^ l.toNat) ∧
      LegalTable (dtab ++ [{ len := l.setWidth 6, pat := p, sym := sym }]) := by
  obtain ⟨-, hbad⟩ | ⟨hok, -⟩ := tdCheck_cases dtab l p
  · cases hcheck.symm.trans hbad
  · have hlegal : 1 ≤ l.toNat ∧ l.toNat ≤ 32 ∧ p.toNat < 2 ^ l.toNat := by
      refine ⟨Nat.one_le_iff_ne_zero.mpr fun hz => hok (.inl hz),
        Nat.le_of_not_lt fun hl => hok (.inr (.inl hl)), ?_⟩
      obtain hlt | hge := Nat.lt_or_ge l.toNat 32
      · have hdiv : p.toNat / 2 ^ l.toNat = 0 := by
          by_contra hne
          exact hok (.inr (.inr (.inl ⟨hlt, hne⟩)))
        exact (Nat.div_eq_zero_iff_lt (Nat.two_pow_pos _)).mp hdiv
      · exact p.isLt.trans_le (Nat.pow_le_pow_right (by decide) hge)
    obtain ⟨hone, hlen, hpat⟩ := hlegal
    have hwidth : (l.setWidth 6).toNat = l.toNat := by
      rw [BitVec.toNat_setWidth]
      omega
    refine ⟨⟨hone, hlen, hpat⟩, fun e he => ?_, List.pairwise_append.mpr ⟨h.distinct, List.pairwise_singleton _ _, ?_⟩⟩
    · obtain he | he := List.mem_append.mp he
      · exact h.legal e he
      · obtain rfl := List.mem_singleton.mp he
        simp only [LegalKey, hwidth]
        exact ⟨hone, hlen, hpat⟩
    · intro e he e' he'
      obtain rfl := List.mem_singleton.mp he'
      rintro ⟨hl, hp⟩
      exact hok (.inr (.inr (.inr ⟨e, he, (congrArg BitVec.toNat hl).trans hwidth, hp⟩)))

/-- Phase TD of `s` behind the header: what it has changed, and what it has read of the table. -/
structure TableSoFar (s u : State) : Prop where
  frame : u = { s with work := { s.work with
    tdM := u.work.tdM, tdI := u.work.tdI, rdPtr := u.work.rdPtr, dtab := u.work.dtab } }
  pointer : u.work.rdPtr.toNat = 2 + 9 * u.work.tdI.toNat
  read : u.work.dtab.length = u.work.tdI.toNat
  left : u.work.tdI.toNat ≤ u.work.tdM.toNat
  file : 2 + 9 * u.work.tdM.toNat ≤ s.byteInLen.toNat
  room : u.work.tdM.toNat ≤ s.params.nMax
  table : LegalTable u.work.dtab

/-- A table size that passes `TD.SIZECHECK` fits the file and the core (45_table_deserializer.md R187). -/
theorem tdSizeCheck_eq_none {nMax : Nat} {byteInLen : BitVec 35} {m : BitVec 16}
    (h : tdSizeCheck nMax byteInLen m = none) : 2 + 9 * m.toNat ≤ byteInLen.toNat ∧ m.toNat ≤ nMax := by
  rw [tdSizeCheck] at h
  split at h
  next => cases h
  next hfile =>
    split at h
    next => cases h
    next hroom => exact ⟨Nat.le_of_not_gt hfile, Nat.le_of_not_gt hroom⟩

/-- The header of a table that is still empty. -/
theorem tableSoFar_header {s : State} {m : BitVec 16} (hidx : s.work.tdI = 0) (hdtab : s.work.dtab = [])
    (hcheck : tdSizeCheck s.params.nMax s.byteInLen m = none) :
    TableSoFar s { s with work := tdHeader m s.work } := by
  obtain ⟨hfile, hroom⟩ := tdSizeCheck_eq_none hcheck
  refine ⟨rfl, ?_, ?_, ?_, hfile, hroom, ?_⟩ <;> dsimp only [tdHeader] <;> simp only [hidx, hdtab]
  · rfl
  · rfl
  · exact Nat.zero_le _
  · exact ⟨nofun, .nil⟩

theorem TableSoFar.behind {s u : State} (h : TableSoFar s u) : u.work.rdPtr ≠ 0 := by
  intro hzero
  have hzero' : u.work.rdPtr.toNat = 0 := congrArg BitVec.toNat hzero
  have hpointer := h.pointer
  omega

/-- An entry more. -/
theorem TableSoFar.entry {s u : State} (h : TableSoFar s u) (hlt : u.work.tdI < u.work.tdM) {sym : Sym} {l : BitVec 8}
    {p : BitVec 32} (hcheck : tdCheck u.work.dtab l p = none) :
    TableSoFar s { u with work := tdEntry sym l p u.work } := by
  obtain ⟨hframe, hpointer, hread, hleft, hfile, hroom, htable⟩ := h
  have hlt' := BitVec.lt_def.mp hlt
  have hidx : (u.work.tdI + 1).toNat = u.work.tdI.toNat + 1 := by bv_omega
  refine ⟨by rw [hframe]; rfl, ?_, ?_, hidx ▸ hlt', hfile, hroom, (htable.concat sym hcheck).2⟩
  · show (u.work.rdPtr + 9).toNat = 2 + 9 * (u.work.tdI + 1).toNat
    bv_omega
  · show (u.work.dtab ++ [_]).length = (u.work.tdI + 1).toNat
    rw [List.length_append, hread, hidx]
    rfl

/-- Phase TD that has begun with the START values ends in an error or behind a table that is whole
(45_table_deserializer.md R185). -/
theorem coreTD_ends {s t : State} (hphase : s.phase = .td) (hwork : s.work = Work.start .decode s.work.lenEn)
    (h : s.coreTD = .next t) :
    (∃ u e, t = State.raise u e ∧ u = { s with work := u.work }) ∨
    (∃ u, TableSoFar s u ∧ u.work.tdI = u.work.tdM ∧ t = u.toPhase .de) := by
  have hidx : s.work.tdI = 0 := by rw [hwork]; rfl
  have hdtab : s.work.dtab = [] := by rw [hwork]; rfl
  have hptr : s.work.rdPtr = 0 := by rw [hwork]; rfl
  refine coreTD_induct (P := fun n u => TableSoFar s u ∧ n = u.work.entriesLeft)
    (Q := fun t => (∃ u e, t = State.raise u e ∧ u = { s with work := u.work }) ∨
      (∃ u, TableSoFar s u ∧ u.work.tdI = u.work.tdM ∧ t = u.toPhase .de))
    hphase (fun u _ hu => ?header) (fun hne => absurd hptr hne) (fun n u f v hu hf hv => ?entry)
    (fun n u hu hend => ?ended) h
  case header =>
    cases hu with
    | error _ e => exact ⟨fun hp => absurd hp (by simp), fun _ => .inl ⟨s, e, rfl, rfl⟩⟩
    | header m hcheck => exact ⟨fun _ => ⟨tableSoFar_header hidx hdtab hcheck, rfl⟩, fun hne => absurd hphase hne⟩
  case entry =>
    obtain ⟨hsoFar, hcount⟩ := hu
    have hphase' : u.phase = .td := by rw [hsoFar.frame]; exact hphase
    have hsame : u = { s with work := u.work } := by rw [hsoFar.frame]
    cases hv with
    | error _ e => exact ⟨fun hp => absurd hp (by simp), fun _ => .inl ⟨u, e, rfl, hsame⟩⟩
    | header m _ => exact absurd (nextFormat_hdr.mp hf).2 hsoFar.behind
    | entry sym l p hcheck =>
      obtain ⟨-, -, hlt⟩ := nextFormat_ent.mp hf
      refine ⟨fun _ => ⟨hsoFar.entry hlt hcheck, ?_⟩, fun hne => absurd hphase' hne⟩
      have hlt' := BitVec.lt_def.mp hlt
      have hidx' : (u.work.tdI + 1).toNat = u.work.tdI.toNat + 1 := by bv_omega
      rw [Work.entriesLeft] at hcount
      show n = u.work.tdM.toNat - (u.work.tdI + 1).toNat
      omega
    | payload => exact absurd ((nextFormat_pay.mp hf).1.symm.trans hphase') (by decide)
  case ended =>
    obtain ⟨hsoFar, hcount⟩ := hu
    have hphase' : u.phase = .td := by rw [hsoFar.frame]; exact hphase
    have hle := hsoFar.left
    refine .inr ⟨u, hsoFar, BitVec.eq_of_toNat_eq (Nat.le_antisymm hle ?_), rfl⟩
    obtain rfl | hnone := hend
    · rw [Work.entriesLeft] at hcount
      omega
    · refine Nat.le_of_not_lt fun hlt => ?_
      have hsome := nextFormat_ent.mpr ⟨hphase', hsoFar.behind, BitVec.lt_def.mpr hlt⟩
      cases hnone.symm.trans hsome

/-! ### The accumulator -/

/-- acc_len is at most 33, and up to 32 the pattern fits it (10_state.md R43). -/
structure AccFits (w : Work) : Prop where
  length : w.accLen.toNat ≤ 33
  pattern : w.accLen.toNat ≤ 32 → w.accPat.toNat < 2 ^ w.accLen.toNat

theorem AccFits.deAppend {w : Work} (h : AccFits w) (b : Bool) : AccFits (deAppend b w) := by
  obtain hlt | hge := Nat.lt_or_ge w.accLen.toNat 32
  · have hpat := (deAppend_string hlt (h.pattern (by omega)) b).2
    refine ⟨?_, fun _ => hpat⟩
    rw [deAppend_accLen_toNat hlt]
    omega
  · rw [deAppend_of_le hge]
    exact ⟨le_rfl, fun hle => absurd (show 33 ≤ 32 from hle) (Nat.not_succ_le_self 32)⟩

theorem AccFits.deMatch {cap : Option Nat} {x y : Emitter} (hx : AccFits x.1) (h : deMatch cap x = .ok y) :
    AccFits y.1 := by
  obtain ⟨-, hm⟩ | ⟨e, -, -, hm⟩ | ⟨e, -, -, hm⟩ := deMatch_cases cap x <;> cases hm.symm.trans h
  · exact hx
  · exact ⟨Nat.zero_le _, fun _ => Nat.one_pos⟩

theorem AccFits.deBits {cap : Option Nat} {byte : Byte} {n : Nat} {x y : Emitter} (hx : AccFits x.1)
    (h : deBits cap byte n x = .ok y) : AccFits y.1 := by
  induction n generalizing x with
  | zero =>
    cases h
    exact hx
  | succ n ih =>
    rw [deBits_succ] at h
    obtain ⟨z, hz, hrest⟩ := except_bind_eq_ok_iff.mp h
    have hadvanced : AccFits (deAdvance x.1) := by
      refine ⟨?_, ?_⟩ <;> rw [deAdvance_accLen]
      · exact hx.length
      · rw [deAdvance_accPat]
        exact hx.pattern
    exact ih (AccFits.deMatch (x := (Machine.deAppend (payloadBit byte x.1) (deAdvance x.1), x.2))
      (hadvanced.deAppend _) hz) hrest

/-- Phase DE of `s`: what its payload bytes have changed. -/
structure PayloadSoFar (s u : State) : Prop where
  frame : u = { s with
    symOut := u.symOut,
    work := { s.work with
      rdPtr := u.work.rdPtr, bitPos := u.work.bitPos, bitsLeft := u.work.bitsLeft,
      accPat := u.work.accPat, accLen := u.work.accLen, outIdx := u.work.outIdx } }
  acc : AccFits u.work

/-- Phase DE ends in an error or in `DE.FINISH` (46_decoder.md R204). -/
theorem coreDE_ends {s t : State} (hphase : s.phase = .de) (hacc : AccFits s.work) (h : s.coreDE = .next t) :
    ∃ u, PayloadSoFar s u ∧ ((∃ e, t = u.raise e) ∨ t = u.deFinish) := by
  refine coreDE_induct (P := PayloadSoFar s)
    (Q := fun t => ∃ u, PayloadSoFar s u ∧ ((∃ e, t = u.raise e) ∨ t = u.deFinish))
    (fun e => ⟨s, ⟨rfl, hacc⟩, .inl ⟨e, rfl⟩⟩) (fun w hw => ?start) (fun u f v hu hf hv => ?record)
    (fun u hu => ⟨u, hu, .inr rfl⟩) h
  case start =>
    rw [deStart_frame hw]
    exact ⟨rfl, hacc.length, hacc.pattern⟩
  case record =>
    have hphase' : u.phase = .de := by rw [hu.frame]; exact hphase
    cases hv with
    | error _ e => exact ⟨fun hp => absurd hp (by simp), fun _ => ⟨u, hu, .inl ⟨e, rfl⟩⟩⟩
    | header m _ => exact absurd ((nextFormat_hdr.mp hf).1.symm.trans hphase') (by decide)
    | entry sym l p _ => exact absurd ((nextFormat_ent.mp hf).1.symm.trans hphase') (by decide)
    | payload byte y hy =>
      refine ⟨fun _ => ⟨?_, hu.acc.deBits (x := (u.work, u.symOut)) hy⟩, fun hne => absurd hphase' hne⟩
      rw [deBits_frame hy, hu.frame]

end Sys2Proof.Machine
end

