-- ==== Sys2Proof/Proofs/LegalStates.lean ====
section
/-! SUPPORT. Every step keeps what the core's tables hold and where its reader stands (10_state.md R36 to R43,
45_table_deserializer.md R185, 46_decoder.md R200). -/

namespace Sys2Proof.Machine

/-! ### What the phases leave in the tables -/

/-- What `TableInv` says of the working registers of a command in progress. -/
structure WorkTables (p : Params) (w : Work) : Prop where
  ftSorted : w.ft.Pairwise (fun a b => a.sym.slt b.sym)
  ftCounts : ∀ e ∈ w.ft, 1 ≤ e.cnt.toNat
  ftRoom : w.ft.length ≤ p.nMax
  dtabRoom : w.dtab.length ≤ p.nMax
  stack : w.stack = []
  codes : ∀ c ∈ w.code, LegalKey c.2.len c.2.pat
  dtab : LegalTable w.dtab
  acc : AccFits w

theorem TableInv.running {s : State} (h : TableInv s) (hp : s.phase ≠ .idle) : WorkTables s.params s.work :=
  ⟨h.ftSorted hp, h.ftCounts hp, h.ftRoom, h.dtabRoom, h.stack, h.codes hp, ⟨h.keys hp, h.keysDistinct hp⟩,
    ⟨h.accLen, h.accPat⟩⟩

theorem WorkTables.tableInv {s : State} (h : WorkTables s.params s.work) (hparams : s.params.Legal)
    (hfa : s.phase = .fa → s.work = Work.start .encode false) : TableInv s :=
  ⟨hparams, fun _ => h.ftSorted, fun _ => h.ftCounts, h.ftRoom, h.dtabRoom, hfa, h.stack, fun _ => h.codes,
    fun _ => h.dtab.legal, fun _ => h.dtab.distinct, h.acc.length, h.acc.pattern⟩

theorem workTables_start (p : Params) (op : Op) (lenEn : Bool) : WorkTables p (Work.start op lenEn) :=
  ⟨.nil, nofun, Nat.zero_le _, Nat.zero_le _, rfl, nofun, ⟨nofun, .nil⟩, ⟨Nat.zero_le _, fun _ => Nat.one_pos⟩⟩

/-- The registers `WorkTables` speaks of are what it depends on. -/
theorem WorkTables.congr {p : Params} {w w' : Work} (h : WorkTables p w) (hft : w'.ft = w.ft) (hdtab : w'.dtab = w.dtab)
    (hstack : w'.stack = w.stack) (hcode : w'.code = w.code) (hlen : w'.accLen = w.accLen)
    (hpat : w'.accPat = w.accPat) : WorkTables p w' := by
  obtain ⟨h₁, h₂, h₃, h₄, h₅, h₆, h₇, ⟨h₈, h₉⟩⟩ := h
  refine ⟨?_, ?_, ?_, ?_, ?_, ?_, ?_, ?_, ?_⟩ <;> simp only [hft, hdtab, hstack, hcode, hlen, hpat] <;> assumption

/-- An idle core: only the counts of its arrays and the accumulator are left to say. -/
theorem WorkTables.tableInv_of_idle {s : State} {p : Params} {w : Work} (h : WorkTables p w) (hparams : s.params.Legal)
    (hp : s.params = p) (hidle : s.phase = .idle) (hft : s.work.ft.length = w.ft.length)
    (hdtab : s.work.dtab.length = w.dtab.length) (hstack : s.work.stack = w.stack) (hlen : s.work.accLen = w.accLen)
    (hpat : s.work.accPat = w.accPat) : TableInv s := by
  subst hp
  refine ⟨hparams, fun hne => absurd hidle hne, fun hne => absurd hidle hne, hft ▸ h.ftRoom, hdtab ▸ h.dtabRoom,
    fun hfa => ?_, hstack.trans h.stack, fun hne => absurd hidle hne, fun hne => absurd hidle hne,
    fun hne => absurd hidle hne, hlen ▸ h.acc.length, hlen ▸ hpat ▸ h.acc.pattern⟩
  cases hidle.symm.trans hfa

theorem tableInv_raise {s : State} (hparams : s.params.Legal) (e : ErrKind) : TableInv (s.raise e) := by
  refine (workTables_start s.params s.work.curOp s.work.lenEn).tableInv_of_idle ?_ (State.raise_params s e)
    (State.raise_phase s e) ?_ ?_ ?_ ?_ ?_
  · rwa [State.raise_params]
  all_goals rw [State.raise_work]

theorem WorkTables.tableInv_complete {s : State} (h : WorkTables s.params s.work) (hparams : s.params.Legal) :
    TableInv s.complete :=
  h.tableInv_of_idle hparams rfl rfl (by simp) (by simp) rfl rfl rfl

theorem WorkTables.tableInv_deFinish {s : State} (h : WorkTables s.params s.work) (hparams : s.params.Legal) :
    TableInv s.deFinish := by
  obtain ⟨-, -, hend⟩ | ⟨-, hend⟩ := deFinish_cases s <;> rw [hend]
  · exact tableInv_raise hparams _
  · exact WorkTables.tableInv_complete h hparams

/-- After FA, FT is sorted and its counts are at least 1 (40_frequency_analyzer.md R122). -/
theorem workTables_faRun {p : Params} {symIn : Memory 32} {inLen : BitVec 32} {w : Work}
    (h : faRun p symIn inLen (Work.start .encode false) = .ok w) : WorkTables p w := by
  have hft := ftOf_faRun h
  have hroom : w.ft.length ≤ p.nMax := faRun_ft_length_le h (Nat.zero_le _)
  have hframe := faRun_start h
  refine ⟨hft.sorted, hft.one_le_cnt, hroom, ?_, ?_, ?_, ?_, ?_⟩ <;> rw [hframe]
  · exact Nat.zero_le _
  · rfl
  · exact nofun
  · exact ⟨nofun, .nil⟩
  · exact ⟨Nat.zero_le _, fun _ => Nat.one_pos⟩

theorem WorkTables.cgRun {p : Params} {w w' : Work} (h : WorkTables p w) (hrun : cgRun w = .ok w') :
    WorkTables p w' := by
  have hframe := cgRun_frame hrun
  obtain ⟨h₁, h₂, h₃, h₄, h₅, h₆, h₇, h₈⟩ := h
  have hstack := cgRun_stack hrun h₅
  have hcodes := cgRun_legal hrun h₆
  refine ⟨?_, ?_, ?_, ?_, hstack, hcodes, ?_, ?_⟩ <;> rw [hframe]
  · exact h₁
  · exact h₂
  · exact h₃
  · exact h₄
  · exact h₇
  · exact ⟨h₈.length, h₈.pattern⟩

/-- A table that is whole is one the core has room for. -/
theorem TableSoFar.workTables {s u : State} (h : TableSoFar s u) (hs : WorkTables s.params s.work) :
    WorkTables s.params u.work := by
  have hframe := h.frame
  obtain ⟨h₁, h₂, h₃, -, h₅, h₆, -, h₈⟩ := hs
  refine ⟨?_, ?_, ?_, h.read.trans_le (h.left.trans h.room), ?_, ?_, h.table, ?_⟩ <;> rw [hframe]
  · exact h₁
  · exact h₂
  · exact h₃
  · exact h₅
  · exact h₆
  · exact ⟨h₈.length, h₈.pattern⟩

theorem PayloadSoFar.workTables {s u : State} (h : PayloadSoFar s u) (hs : WorkTables s.params s.work) :
    WorkTables s.params u.work := by
  have hframe := h.frame
  obtain ⟨h₁, h₂, h₃, h₄, h₅, h₆, h₇, -⟩ := hs
  refine ⟨?_, ?_, ?_, ?_, ?_, ?_, ?_, h.acc⟩ <;> rw [hframe]
  · exact h₁
  · exact h₂
  · exact h₃
  · exact h₄
  · exact h₅
  · exact h₆
  · exact h₇

/-! ### Where the reader stands -/

theorem inputFits_congr {s t : State} (h : t.inputs = s.inputs) (op : Op) : t.inputFits op = s.inputFits op := by
  have hparams : t.params = s.params := congrArg CoreInputs.params h
  have hinLen : t.inLen = s.inLen := congrArg CoreInputs.inLen h
  have hbyteInLen : t.byteInLen = s.byteInLen := congrArg CoreInputs.byteInLen h
  cases op <;> rw [State.inputFits, State.inputFits, hparams]
  · rw [hinLen]
  · rw [hbyteInLen]

theorem readerInv_of_idle {s : State} (h : s.phase = .idle) : ReaderInv s := by
  constructor <;> rw [h] <;> exact nofun

theorem readerInv_of_encode {s : State} (hp : s.phase.command = some .encode) (hfit : s.inputFits .encode = true) :
    ReaderInv s := by
  have hnot : ∀ p, p.command = some Op.decode → s.phase ≠ p := by
    rintro p hdec rfl
    cases hp.symm.trans hdec
  exact ⟨fun _ => hfit, fun hmem => absurd rfl (hnot s.phase ((Phase.mem_decode_iff _).mp hmem)),
    fun htd => absurd htd (hnot .td rfl), fun hde => absurd hde (hnot .de rfl), fun hde => absurd hde (hnot .de rfl)⟩

/-- A phase of ENCODE that goes on to the next keeps its input inside the buffer. -/
theorem ReaderInv.encode_next {s t : State} (h : ReaderInv s) (hs : s.phase.command = some .encode)
    (ht : t.phase.command = some .encode) (hin : t.inputs = s.inputs) : ReaderInv t :=
  readerInv_of_encode ht ((inputFits_congr hin _).trans (h.encodeFits ((Phase.mem_encode_iff _).mpr hs)))

/-- Phase DE begins behind a whole table, its own registers at their START values. -/
theorem TableSoFar.readerInv {s u : State} (h : TableSoFar s u) (hwhole : u.work.tdI = u.work.tdM)
    (hwork : s.work = Work.start .decode s.work.lenEn) (hfit : s.inputFits .decode = true) :
    ReaderInv (u.toPhase .de) := by
  have hframe := h.frame
  have hin : u.inputs = s.inputs := by rw [hframe]; rfl
  have hlen : u.byteInLen = s.byteInLen := congrArg CoreInputs.byteInLen hin
  have hidx : u.work.tdI.toNat = u.work.tdM.toNat := congrArg BitVec.toNat hwhole
  have hpointer := h.pointer
  have hfile := h.file
  refine ⟨nofun, fun _ => (inputFits_congr hin _).trans hfit, nofun, fun _ => ⟨?_, ?_, ?_, hwhole⟩, fun _ => ?_⟩
  · exact hidx ▸ hpointer
  · rw [State.toPhase_work, State.toPhase_byteInLen, hlen]
    omega
  · exact h.read.trans hidx
  · rw [State.toPhase_work, hframe, hwork]
    exact ⟨rfl, rfl, rfl, rfl, rfl⟩

/-! ### The steps -/

/-- The tables and the reader after a step of the core. -/
theorem coreStep_tables {s t : State} (h : Inv s) (hstep : coreStep s = .next t) : TableInv t ∧ ReaderInv t := by
  have hlegal := h.table.params
  have hin := coreStep_inputs hstep
  have hraise : ∀ (u : State) e, u.params = s.params → TableInv (u.raise e) ∧ ReaderInv (u.raise e) := fun u e hu =>
    ⟨tableInv_raise (hu ▸ hlegal) e, readerInv_of_idle (State.raise_phase u e)⟩
  cases hp : s.phase with
  | idle =>
    obtain rfl := Host.Outcome.next.inj ((coreStep_idle hp).symm.trans hstep)
    exact ⟨h.table, h.reader⟩
  | fa =>
    obtain rfl := Host.Outcome.next.inj ((coreStep_fa hp).symm.trans hstep)
    obtain ⟨e, -, hend⟩ | ⟨w, hw, hnext⟩ := phaseFA_cases s
    · exact hend ▸ hraise s e rfl
    · rw [h.table.faFresh hp] at hw
      rw [hnext] at hin ⊢
      refine ⟨WorkTables.tableInv (workTables_faRun hw) hlegal ?_, h.reader.encode_next (congrArg _ hp) ?_ hin⟩
      · intro hfa
        rw [State.toPhase_phase] at hfa
        split at hfa <;> cases hfa
      · rw [State.toPhase_phase]
        split <;> rfl
  | tb =>
    obtain rfl := Host.Outcome.next.inj ((coreStep_tb hp).symm.trans hstep)
    have hwork : WorkTables s.params (tbRun s.work) := by
      refine (h.table.running (by simp [hp])).congr ?_ ?_ ?_ ?_ ?_ ?_ <;> rw [tbRun_frame]
    exact ⟨WorkTables.tableInv hwork hlegal nofun, h.reader.encode_next (congrArg _ hp) rfl hin⟩
  | cg =>
    obtain rfl := Host.Outcome.next.inj ((coreStep_cg hp).symm.trans hstep)
    obtain ⟨e, -, hend⟩ | ⟨w, hw, hnext⟩ := phaseCG_cases s
    · exact hend ▸ hraise s e rfl
    · have hwork := (h.table.running (by simp [hp])).cgRun hw
      rw [hnext] at hin ⊢
      exact ⟨WorkTables.tableInv hwork hlegal nofun, h.reader.encode_next (congrArg _ hp) rfl hin⟩
  | ts =>
    obtain rfl := Host.Outcome.next.inj ((coreStep_ts hp).symm.trans hstep)
    obtain ⟨e, -, hend⟩ | ⟨y, hy, hnext⟩ := phaseTS_cases s
    · exact hend ▸ hraise s e rfl
    · have hwork : WorkTables s.params y.1 := by
        refine (h.table.running (by simp [hp])).congr ?_ ?_ ?_ ?_ ?_ ?_ <;> rw [tsRun_frame hy]
      rw [hnext] at hin ⊢
      exact ⟨WorkTables.tableInv hwork hlegal nofun, h.reader.encode_next (congrArg _ hp) rfl hin⟩
  | en =>
    obtain rfl := Host.Outcome.next.inj ((coreStep_en hp).symm.trans hstep)
    obtain ⟨e, -, hend⟩ | ⟨y, hy, hend⟩ := phaseEN_outcome s
    · exact hend ▸ hraise s e rfl
    · have hwork : WorkTables s.params y.1 := by
        refine (h.table.running (by simp [hp])).congr ?_ ?_ ?_ ?_ ?_ ?_ <;> rw [enRun_frame hy]
      rw [hend]
      exact ⟨WorkTables.tableInv_complete hwork hlegal, readerInv_of_idle rfl⟩
  | td =>
    have hwork := h.reader.tdFresh hp
    have htables := h.table.running (by simp [hp])
    have hfit := h.reader.decodeFits (by simp [hp])
    obtain ⟨u, e, rfl, hu⟩ | ⟨u, hsoFar, hwhole, rfl⟩ := coreTD_ends hp hwork ((coreStep_td hp).symm.trans hstep)
    · exact hraise u e (by rw [hu])
    · have hparams : u.params = s.params := by rw [hsoFar.frame]
      have hnext : WorkTables u.params u.work := hparams ▸ hsoFar.workTables htables
      exact ⟨WorkTables.tableInv hnext (hparams ▸ hlegal) nofun, hsoFar.readerInv hwhole hwork hfit⟩
  | de =>
    have htables := h.table.running (by simp [hp])
    obtain ⟨u, hsoFar, hend⟩ := coreDE_ends hp htables.acc ((coreStep_de hp).symm.trans hstep)
    have hparams : u.params = s.params := by rw [hsoFar.frame]
    obtain ⟨e, rfl⟩ | rfl := hend
    · exact hraise u e hparams
    · have hnext : WorkTables u.params u.work := hparams ▸ hsoFar.workTables htables
      exact ⟨hnext.tableInv_deFinish (hparams ▸ hlegal), readerInv_of_idle (ended_deFinish u).phase⟩

/-- The state START(op) answers is legal (47_commands.md R217). -/
theorem start_tables {s : State} (hlegal : s.params.Legal) (op : Op) :
    TableInv (s.start op) ∧ ReaderInv (s.start op) := by
  have hclear : (s.startClear op).params.Legal := (State.startClear_params s op).symm ▸ hlegal
  have htables : WorkTables (s.startClear op).params (s.startClear op).work := by
    rw [State.startClear_work]
    exact workTables_start _ _ _
  obtain ⟨-, hfit, hstart⟩ | ⟨-, hstart⟩ := start_cases s op <;> rw [hstart]
  · refine ⟨WorkTables.tableInv htables hclear fun hfa => ?_, ?_⟩
    · cases op
      · exact State.startClear_work s .encode
      · cases hfa
    · cases op
      · exact readerInv_of_encode rfl hfit
      · exact ⟨nofun, fun _ => hfit, fun _ => State.startClear_work s .decode, nofun, nofun⟩
  · exact ⟨tableInv_raise hclear _, readerInv_of_idle (State.raise_phase _ _)⟩

/-- A host move that leaves the core's own state alone keeps the tables and the reader, the declared lengths changing
only while the core is idle. -/
theorem Inv.tables_congr {s t : State} (h : Inv s) (hphase : t.phase = s.phase) (hwork : t.work = s.work)
    (hparams : t.params = s.params)
    (hlens : s.phase ≠ .idle → t.inLen = s.inLen ∧ t.byteInLen = s.byteInLen) : TableInv t ∧ ReaderInv t := by
  have hfits : s.phase ≠ .idle → ∀ op, t.inputFits op = s.inputFits op := by
    intro hne op
    obtain ⟨hin, hbyteIn⟩ := hlens hne
    cases op <;> rw [State.inputFits, State.inputFits, hparams]
    · rw [hin]
    · rw [hbyteIn]
  obtain ⟨-, -, ⟨h₁, h₂, h₃, h₄, h₅, h₆, h₇, h₈, h₉, h₁₀, h₁₁, h₁₂⟩, ⟨r₁, r₂, r₃, r₄, r₅⟩⟩ := h
  refine ⟨?_, ?_⟩
  · constructor <;> simp only [hphase, hwork, hparams] <;> assumption
  · refine ⟨?_, ?_, ?_, ?_, ?_⟩ <;> rw [hphase]
    · exact fun hmem => (hfits (Phase.ne_idle_of_command ((Phase.mem_encode_iff _).mp hmem)) _).trans (r₁ hmem)
    · exact fun hmem => (hfits (Phase.ne_idle_of_command ((Phase.mem_decode_iff _).mp hmem)) _).trans (r₂ hmem)
    · exact hwork ▸ r₃
    · intro hde
      rw [hwork, (hlens (by simp [hde])).2]
      exact r₄ hde
    · exact hwork ▸ r₅

/-- The tables and the reader after a step. -/
theorem step_tables {s t : State} (h : Inv s) (hstep : step s = .next t) : TableInv t ∧ ReaderInv t := by
  have hidle : s.busy = false → s.phase = .idle := fun hb => by
    by_contra hne
    exact absurd (hb.symm.trans (h.status.busyPhase.mpr hne)) Bool.false_ne_true
  cases step_stepCase hstep with
  | core script hcore =>
    obtain ⟨htable, hreader⟩ := h.tables_congr (t := { s with script := script }) rfl rfl rfl fun _ => ⟨rfl, rfl⟩
    have hstore := h.store
    exact coreStep_tables (s := { s with script := script })
      ⟨h.status.congr rfl, ⟨hstore.symIn, hstore.byteOut, hstore.byteIn, hstore.symOut, hstore.code⟩, htable, hreader⟩
      hcore
  | command script op =>
    obtain ⟨-, hcmd⟩ | ⟨-, hcmd⟩ := command_cases { s with script := script } op <;> rw [hcmd]
    · exact h.tables_congr rfl rfl rfl fun _ => ⟨rfl, rfl⟩
    · exact start_tables (s := { s with script := script }) h.table.params op
  | reset script =>
    exact ⟨WorkTables.tableInv (workTables_start _ _ _) h.table.params nofun, readerInv_of_idle rfl⟩
  | quiet => exact h.tables_congr rfl rfl rfl fun _ => ⟨rfl, rfl⟩
  | registers script cfg inLen byteInLen decBits hb =>
    exact h.tables_congr rfl rfl rfl fun hne => absurd (hidle hb) hne
  | buffer script b i v hb => cases b <;> exact h.tables_congr rfl rfl rfl fun hne => absurd (hidle hb) hne
  | feed script hb => exact h.tables_congr rfl rfl rfl fun hne => absurd (hidle hb) hne

end Sys2Proof.Machine
end

