-- ==== Sys2Proof/Proofs/Invariants.lean ====
section
/-! The statements about the legal states of the machine (10_state.md, 20_memory.md section 1). -/

namespace Sys2Proof
open Machine

/-- Settles O57: at reset every register is 0 and no array entry is valid. -/
theorem resetIsLegal : Obligations.ResetIsLegal := by
  have hlegal : State.reset.params.Legal := by decide
  refine ⟨⟨?_, ?_, ?_, ?_, ?_, ?_, ?_⟩, ⟨.nil, .nil, .nil, .nil, .nil⟩,
    WorkTables.tableInv (workTables_start _ _ _) hlegal nofun, readerInv_of_idle rfl⟩
  all_goals decide

/-- Settles O58: a phase goes on within its command, and the flags change only at START, at the end of a command and at
reset. -/
theorem stepKeepsStatus : Obligations.StepKeepsStatus := fun _ _ h hstep => step_statusInv h hstep

/-- Settles O59: every store goes through the write that keeps the indices rising. -/
theorem stepKeepsCanonicalForm : Obligations.StepKeepsCanonicalForm := fun _ _ h hstep => step_storeInv h hstep

/-- Settles O60: each unit establishes what it leaves in its own table and keeps the others'; the reader of phase DE
stands where the records of phase TD have led it. -/
theorem stepKeepsLegalStates : Obligations.StepKeepsLegalStates := by
  intro s t h hstep
  obtain ⟨htable, hreader⟩ := step_tables h hstep
  exact ⟨step_statusInv h.status hstep, step_storeInv h.store hstep, htable, hreader⟩

end Sys2Proof
end

