-- ==== Sys2Proof/Proofs/HostMoves.lean ====
section
/-! SUPPORT. What the host's moves do to registers and buffers (10_state.md R20, 20_memory.md R70, R72), and what START
leaves unchanged (47_commands.md R217). -/

namespace Sys2Proof.Machine

/-- The command word is bit 0 of the value written (10_state.md R21). -/
theorem decodeCommand_ofNat (v : Nat) : decodeCommand (BitVec.ofNat 1 v) = if v % 2 = 0 then .encode else .decode := by
  have hbit : BitVec.ofNat 1 v = 0 ↔ v % 2 = 0 := by
    rw [← BitVec.toNat_inj, BitVec.toNat_ofNat]
    rfl
  rw [decodeCommand]
  exact if_congr hbit rfl rfl

theorem exec_encode (s : State) : exec .encode s = .next (s.command .encode) := rfl

theorem exec_decode (s : State) : exec .decode s = .next (s.command .decode) := rfl

/-- A planned move is taken off the plan and carried out (00_scope.md R8). -/
theorem step_move (s : State) (m : HostMove) (rest : List HostMove) :
    step { s with script := m :: rest } = hostStep m { s with script := rest } := rfl

/-! ### Buffers -/

theorem readBuf_writeBuf_same (s : State) (b : BufId) (i : Nat) (v : BitVec 32) :
    (s.writeBuf b i v).readBuf b i = match b with
      | .symIn => v.setWidth 38
      | .byteOut => (v.setWidth 8).setWidth 38
      | .byteIn => (v.setWidth 8).setWidth 38
      | .symOut => v.setWidth 38 := by
  cases b <;> exact congrArg (BitVec.setWidth 38) (Memory.read_write_same _ i _)

theorem readBuf_writeBuf_other (s : State) {b b' : BufId} {i j : Nat} (v : BitVec 32) (h : b' ≠ b ∨ j ≠ i) :
    (s.writeBuf b i v).readBuf b' j = s.readBuf b' j := by
  by_cases hb : b' = b
  · subst hb
    have hj : j ≠ i := h.resolve_left (not_not.mpr rfl)
    cases b' <;> exact congrArg (BitVec.setWidth 38) (Memory.read_write_other _ hj _)
  · cases b <;> cases b' <;> simp [State.writeBuf, State.readBuf] at hb ⊢

/-- A write of a buffer changes no part of the state but the buffers. -/
theorem writeBuf_frame (s : State) (b : BufId) (i : Nat) (v : BitVec 32) :
    s.writeBuf b i v = { s with
      symIn := (s.writeBuf b i v).symIn, byteOut := (s.writeBuf b i v).byteOut,
      byteIn := (s.writeBuf b i v).byteIn, symOut := (s.writeBuf b i v).symOut } := by
  cases b <;> rfl

theorem hostReadBuf_idle {s : State} {b : BufId} {i : Nat} (hbusy : s.busy = false)
    (hfit : fits (s.capOf b) (i + 1) = true) : s.hostReadBuf b i = .next { s with hostData := s.readBuf b i } := by
  rw [State.hostReadBuf, if_neg (by simp [hfit]), if_neg (by simp [hbusy])]

theorem hostReadBuf_busy {s : State} {b : BufId} {i : Nat} (hbusy : s.busy = true)
    (hfit : fits (s.capOf b) (i + 1) = true) : s.hostReadBuf b i = .next (s.readAny b.width) := by
  rw [State.hostReadBuf, if_neg (by simp [hfit]), if_pos hbusy]

theorem hostWriteBuf_idle {s : State} {b : BufId} {i : Nat} (hbusy : s.busy = false)
    (hfit : fits (s.capOf b) (i + 1) = true) (v : BitVec 32) : s.hostWriteBuf b i v = .next (s.writeBuf b i v) := by
  rw [State.hostWriteBuf, if_neg (by simp [hbusy]), if_pos hfit]

/-! ### Registers -/

theorem writeReg_ignored {s : State} {k : Nat} (v : Nat) (h : s.busy = true ∨ k ∉ [1, 4, 8, 9]) : s.writeReg k v = s := by
  unfold State.writeReg
  obtain hbusy | hk := h
  · exact if_pos hbusy
  · simp only [List.mem_cons, List.not_mem_nil, or_false, not_or] at hk
    obtain ⟨h1, h4, h8, h9⟩ := hk
    split
    · rfl
    · split
      · exact absurd rfl h1
      · exact absurd rfl h4
      · exact absurd rfl h8
      · exact absurd rfl h9
      · rfl

/-- An idle core's RW registers take the bits of their width (10_state.md R20). -/
theorem writeReg_idle {s : State} (hbusy : s.busy = false) (v : Nat) :
    s.writeReg 1 v = { s with cfg := BitVec.ofNat 1 v } ∧ s.writeReg 4 v = { s with inLen := BitVec.ofNat 32 v } ∧
    s.writeReg 8 v = { s with byteInLen := BitVec.ofNat 35 v } ∧
    s.writeReg 9 v = { s with decBits := BitVec.ofNat 38 v } := by
  have hidle : ¬ s.busy = true := Bool.not_eq_true _ ▸ hbusy
  exact ⟨if_neg hidle, if_neg hidle, if_neg hidle, if_neg hidle⟩

/-- The value of a register no wider than the host's word reads as it is. -/
theorem toNat_hostWord {w : Nat} (v : BitVec w) (h : w ≤ 38) : (v.setWidth 38).toNat = v.toNat :=
  BitVec.toNat_setWidth_of_le h

/-- The fields of STATUS stand at their bits (10_state.md R23). -/
theorem readReg_status (s : State) :
    (s.readReg 2).getLsbD 0 = s.busy ∧ (s.readReg 2).getLsbD 1 = s.done ∧ (s.readReg 2).getLsbD 2 = s.err ∧
    (s.readReg 2).getLsbD 3 = s.trail ∧ (s.readReg 2).extractLsb' 4 4 = s.phase.code := by
  show ((s.statusWord.setWidth 38).getLsbD 0 = s.busy ∧ (s.statusWord.setWidth 38).getLsbD 1 = s.done ∧
    (s.statusWord.setWidth 38).getLsbD 2 = s.err ∧ (s.statusWord.setWidth 38).getLsbD 3 = s.trail ∧
    (s.statusWord.setWidth 38).extractLsb' 4 4 = s.phase.code)
  unfold State.statusWord
  generalize s.phase.code = c, s.busy = b, s.done = d, s.err = e, s.trail = r
  revert c b d e r
  decide

theorem statusWord_eq_zero {s : State} (hphase : s.phase = .idle) (htrail : s.trail = false) (herr : s.err = false)
    (hdone : s.done = false) (hbusy : s.busy = false) : s.statusWord = 0 := by
  rw [State.statusWord, hphase, htrail, herr, hdone, hbusy]
  decide

/-! ### START -/

/-- START changes no input (47_commands.md R217). -/
theorem command_inputs (s : State) (op : Op) : (s.command op).inputs = s.inputs := by
  have hclear : (s.startClear op).inputs = s.inputs := by cases op <;> rfl
  obtain ⟨-, h⟩ | ⟨-, h⟩ := command_cases s op
  · rw [h]
  · obtain ⟨-, -, hstart⟩ | ⟨-, hstart⟩ := start_cases s op <;> rw [h, hstart]
    · exact hclear
    · exact (State.raise_inputs _ _).trans hclear

/-- START(0) leaves the results of DECODE and SYM_OUT alone, and BYTE_OUT too unless it fails. -/
theorem command_encode_outputs (s : State) :
    (s.command .encode).symOutLen = s.symOutLen ∧ (s.command .encode).decTabN = s.decTabN ∧
    (s.command .encode).residLen = s.residLen ∧ (s.command .encode).symOut = s.symOut ∧
    ((s.command .encode).byteOut = s.byteOut ∨ (s.busy = false ∧ (s.command .encode).err = true)) := by
  obtain ⟨-, h⟩ | ⟨hbusy, h⟩ := command_cases s .encode
  · rw [h]
    exact ⟨rfl, rfl, rfl, rfl, .inl rfl⟩
  · obtain ⟨-, -, hstart⟩ | ⟨-, hstart⟩ := start_cases s .encode <;> rw [h, hstart]
    · exact ⟨rfl, rfl, rfl, rfl, .inl rfl⟩
    · exact ⟨rfl, rfl, rfl, rfl, .inr ⟨hbusy, rfl⟩⟩

/-- START(1) leaves the results of ENCODE and BYTE_OUT alone, and SYM_OUT too unless it fails. -/
theorem command_decode_outputs (s : State) :
    (s.command .decode).byteOutLen = s.byteOutLen ∧ (s.command .decode).encBits = s.encBits ∧
    (s.command .decode).encTabN = s.encTabN ∧ (s.command .decode).byteOut = s.byteOut ∧
    ((s.command .decode).symOut = s.symOut ∨ (s.busy = false ∧ (s.command .decode).err = true)) := by
  obtain ⟨-, h⟩ | ⟨hbusy, h⟩ := command_cases s .decode
  · rw [h]
    exact ⟨rfl, rfl, rfl, rfl, .inl rfl⟩
  · obtain ⟨-, -, hstart⟩ | ⟨-, hstart⟩ := start_cases s .decode <;> rw [h, hstart]
    · exact ⟨rfl, rfl, rfl, rfl, .inl rfl⟩
    · exact ⟨rfl, rfl, rfl, rfl, .inr ⟨hbusy, rfl⟩⟩

/-- A START whose checks fail ends at once with IOError. -/
theorem command_fails {s : State} {op : Op} (hbusy : s.busy = false)
    (h : s.portsOk op = false ∨ s.inputFits op = false) : s.command op = (s.startClear op).raise .ioError :=
  (command_idle hbusy op).trans (start_fails h)

theorem command_starts {s : State} {op : Op} (hbusy : s.busy = false) (hports : s.portsOk op = true)
    (hfit : s.inputFits op = true) : s.command op = { s.startClear op with phase := op.firstPhase } :=
  (command_idle hbusy op).trans (start_ok hports hfit)

end Sys2Proof.Machine
end

