-- ==== Sys2Proof/Proofs/HostStatements.lean ====
section
/-! The statements about START, `raise`, reset and the host's moves (47_commands.md section 1, 60_exceptions.md section 2,
70_reset_and_hazards.md section 1, 10_state.md section 1, 20_memory.md section 3). -/

namespace Sys2Proof
open Machine

/-- Settles O6: the host's write of register 0 runs the command word of its value. -/
theorem stepRunsTheCommandWord : Obligations.StepRunsTheCommandWord := by
  intro s v rest hscript
  rw [step_cons hscript, ← decodeCommand_ofNat]
  rfl

/-- Settles O10: with its checks passed START clears and sets what R217 names and takes up phase FA. -/
theorem encodeStarts : Obligations.EncodeStarts := by
  intro s hbusy hport0 hport1 hfit
  exact congrArg Host.Outcome.next (command_starts (op := .encode) hbusy (Bool.and_eq_true_iff.mpr ⟨hport0, hport1⟩) hfit)

/-- Settles O11: with its checks passed START clears and sets what R217 names and takes up phase TD. -/
theorem decodeStarts : Obligations.DecodeStarts := by
  intro s hbusy hport2 hport3 hfit
  exact congrArg Host.Outcome.next (command_starts (op := .decode) hbusy (Bool.and_eq_true_iff.mpr ⟨hport2, hport3⟩) hfit)

/-- Settles O12: each of the three causes is one of START's checks, which raises IOError. -/
theorem startFailsWithIOError : Obligations.StartFailsWithIOError := by
  refine ⟨fun s hbusy hcause => ?_, fun s hbusy hcause => ?_⟩
  · have hcheck : s.portsOk .encode = false ∨ s.inputFits .encode = false := by
      obtain h | h | h := hcause
      · exact .inl (by rw [State.portsOk, h, Bool.false_and])
      · exact .inl (by rw [State.portsOk, h, Bool.and_false])
      · exact .inr h
    exact ⟨_, congrArg Host.Outcome.next (command_fails hbusy hcheck), rfl, rfl, rfl, rfl, rfl, rfl, rfl, rfl, rfl⟩
  · have hcheck : s.portsOk .decode = false ∨ s.inputFits .decode = false := by
      obtain h | h | h := hcause
      · exact .inl (by rw [State.portsOk, h, Bool.false_and])
      · exact .inl (by rw [State.portsOk, h, Bool.and_false])
      · exact .inr h
    exact ⟨_, congrArg Host.Outcome.next (command_fails hbusy hcheck), rfl, rfl, rfl, rfl, rfl, rfl, rfl, rfl, rfl⟩

/-- Settles O13: no command word changes an input, and only a START that fails makes its own output buffer any value. -/
theorem commandFrame : Obligations.CommandFrame := by
  refine ⟨fun s t h => ?_, fun s t h => ?_⟩
  · obtain rfl := Host.Outcome.next.inj ((exec_encode s).symm.trans h)
    have hin := command_inputs s .encode
    obtain ⟨hlen, htab, hresid, hout, hown⟩ := command_encode_outputs s
    exact ⟨congrArg CoreInputs.cfg hin, congrArg CoreInputs.inLen hin, congrArg CoreInputs.byteInLen hin,
      congrArg CoreInputs.decBits hin, hlen, htab, hresid, congrArg CoreInputs.portOk hin,
      congrArg CoreInputs.params hin, congrArg CoreInputs.script hin, congrArg CoreInputs.hostData hin,
      fun a => congrArg (Memory.read · a) (congrArg CoreInputs.symIn hin),
      fun a => congrArg (Memory.read · a) (congrArg CoreInputs.byteIn hin),
      fun a => congrArg (Memory.read · a) hout, hown.imp_left fun h a => congrArg (Memory.read · a) h⟩
  · obtain rfl := Host.Outcome.next.inj ((exec_decode s).symm.trans h)
    have hin := command_inputs s .decode
    obtain ⟨hlen, hbits, htab, hout, hown⟩ := command_decode_outputs s
    exact ⟨congrArg CoreInputs.cfg hin, congrArg CoreInputs.inLen hin, congrArg CoreInputs.byteInLen hin,
      congrArg CoreInputs.decBits hin, hlen, hbits, htab, congrArg CoreInputs.portOk hin,
      congrArg CoreInputs.params hin, congrArg CoreInputs.script hin, congrArg CoreInputs.hostData hin,
      fun a => congrArg (Memory.read · a) (congrArg CoreInputs.symIn hin),
      fun a => congrArg (Memory.read · a) (congrArg CoreInputs.byteIn hin),
      fun a => congrArg (Memory.read · a) hout, hown.imp_left fun h a => congrArg (Memory.read · a) h⟩

/-- Settles O27: `raise` sets the flags, the command's own results and its output buffer, whichever command it is. -/
theorem raiseEffect : Obligations.RaiseEffect := by
  intro s e
  simp +contextual

/-- Settles O28: reset is power-on but for the buffers, the pins and what the host plans. -/
theorem resetValues : Obligations.ResetValues := by
  refine ⟨fun s rest => ⟨({ s with script := rest } : State).rst, step_move s .reset rest,
    statusWord_eq_zero rfl rfl rfl rfl rfl, ?_⟩, statusWord_eq_zero rfl rfl rfl rfl rfl, ?_⟩
  · exact ⟨rfl, rfl, rfl, rfl, rfl, rfl, rfl, rfl, rfl, rfl, rfl, rfl, rfl, rfl, rfl, rfl, rfl, rfl, rfl⟩
  · exact ⟨rfl, rfl, rfl, rfl, rfl, rfl, rfl, rfl, rfl, rfl, rfl, rfl, rfl, rfl⟩

/-- Settles O29: a busy core and every number but 1, 4, 8 and 9 ignore the write; those four take the bits of their width. -/
theorem hostRegisterWrites : Obligations.HostRegisterWrites := by
  intro s k v rest hk
  have hstep : step { s with script := .writeReg k v :: rest } = .next (State.writeReg { s with script := rest } k v) := by
    rw [step_move]
    exact if_neg hk
  refine ⟨_, hstep, fun h => writeReg_ignored v h, fun hbusy => ?_⟩
  obtain ⟨h1, h4, h8, h9⟩ := writeReg_idle (s := { s with script := rest }) hbusy v
  refine ⟨?_, ?_, ?_, ?_⟩ <;> rintro rfl
  · rw [h1]
    exact ⟨rfl, (toNat_hostWord _ (by decide)).trans (BitVec.toNat_ofNat v 1)⟩
  · rw [h4]
    exact ⟨rfl, (toNat_hostWord _ (by decide)).trans (BitVec.toNat_ofNat v 32)⟩
  · rw [h8]
    exact ⟨rfl, (toNat_hostWord _ (by decide)).trans (BitVec.toNat_ofNat v 35)⟩
  · rw [h9]
    exact ⟨rfl, BitVec.toNat_ofNat v 38⟩

/-- Settles O30: an idle register and one that is no result read as they are, a result while BUSY = 1 as a free value of
its width. -/
theorem hostRegisterReads : Obligations.HostRegisterReads := by
  refine ⟨fun s k rest h => ?plain, fun s => ⟨rfl, fun k hk => ?absent⟩, fun s => ?values, fun s => ?status,
    fun s k w rest hbusy hk => ?busy⟩
  case plain =>
    obtain ⟨hbusy, hres, -⟩ | ⟨-, hread⟩ := hostReadReg_cases { s with script := rest } k
    · obtain h | h := h
      · exact absurd (h.symm.trans hbusy) nofun
      · exact absurd (h.symm.trans hres) nofun
    · exact ⟨_, (step_move s _ rest).trans hread, rfl, rfl⟩
  case absent =>
    obtain ⟨j, rfl⟩ := Nat.exists_eq_add_of_le' hk
    rfl
  case values =>
    exact ⟨toNat_hostWord _ (by decide), toNat_hostWord _ (by decide), toNat_hostWord _ (by decide),
      toNat_hostWord _ (by decide), toNat_hostWord _ (by decide), toNat_hostWord _ (by decide),
      toNat_hostWord _ (by decide), rfl, rfl, toNat_hostWord _ (by decide), toNat_hostWord _ (by decide)⟩
  case status =>
    obtain ⟨hb, hd, he, ht, hp⟩ := readReg_status s
    refine ⟨hb, hd, he, ht, hp, ?_⟩
    simp only [State.readReg, BitVec.toNat_setWidth]
    omega
  case busy =>
    have hres : isResultReg k = true ∧ regWidth k = w := by
      simp only [List.mem_cons, Prod.mk.injEq, List.not_mem_nil, or_false] at hk
      obtain ⟨rfl, rfl⟩ | ⟨rfl, rfl⟩ | ⟨rfl, rfl⟩ | ⟨rfl, rfl⟩ | ⟨rfl, rfl⟩ | ⟨rfl, rfl⟩ := hk <;> exact ⟨rfl, rfl⟩
    obtain ⟨hkind, rfl⟩ := hres
    exact ⟨_, (step_move s _ rest).trans (if_pos ⟨hbusy, hkind⟩), rfl, readAny_hostData_lt _ _⟩

/-- Settles O31: an access of an element the buffer has is a read or a write of that element, and while BUSY = 1 a write is
refused and a read gives a free value. -/
theorem hostBufferAccesses : Obligations.HostBufferAccesses := by
  refine ⟨fun s b i v rest hbusy hfit => ?write, fun s b i rest hbusy hfit => ?read,
    fun s b i v rest hbusy => ?busyWrite, fun s b i rest hbusy hfit => ?busyRead⟩
  case write =>
    refine ⟨_, (step_move s _ rest).trans (hostWriteBuf_idle (s := { s with script := rest }) hbusy hfit v),
      (readBuf_writeBuf_same _ b i v).trans ?_, fun b' j h => readBuf_writeBuf_other _ v h, writeBuf_frame _ b i v⟩
    cases b <;> rfl
  case read =>
    exact ⟨_, (step_move s _ rest).trans (hostReadBuf_idle (s := { s with script := rest }) hbusy hfit), rfl, rfl⟩
  case busyWrite => exact (step_move s _ rest).trans (if_pos hbusy)
  case busyRead =>
    refine ⟨_, (step_move s _ rest).trans (hostReadBuf_busy (s := { s with script := rest }) hbusy hfit), rfl, ?_⟩
    have hlt := readAny_hostData_lt { s with script := rest } b.width
    cases b <;> exact hlt

end Sys2Proof
end

