-- ==== Sys2Proof/Proofs/RecordMeanings.lean ====
section
/-! SUPPORT. What a record does where the reader stands at it, and that running it first and then the phase again is what
the phase does (45_table_deserializer.md R185 to R189, 46_decoder.md R200). -/

namespace Sys2Proof.Machine

/-- A record has a meaning only where the reader stands at a record of its format (30_encoding.md R91). -/
theorem recordStep_of_exec {i : Instr} {s t : State} (hi : i.format ≠ .cmd) (h : exec i s = .next t) :
    s.nextFormat = some i.format ∧ RecordStep s i.format t := by
  have hat : s.nextFormat = some i.format := by
    by_contra hnot
    cases i with
    | encode => exact hi rfl
    | decode => exact hi rfl
    | hdr m => cases (if_neg hnot : execHdr m s = _).symm.trans h
    | ent sym l p => cases (if_neg hnot : execEnt sym l p s = _).symm.trans h
    | pay byte => cases (if_neg hnot : execPay byte s = _).symm.trans h
  obtain ⟨u, hu, hstep⟩ := exec_recordStep hat
  obtain rfl := Host.Outcome.next.inj (hu.symm.trans h)
  exact ⟨hat, hstep⟩

/-! ### The header -/

theorem exec_hdr_of_fault {s : State} {m : BitVec 16} {e : ErrKind} (hat : s.nextFormat = some .hdr)
    (hcheck : tdSizeCheck s.params.nMax s.byteInLen m = some e) : exec (.hdr m) s = .next (s.raise e) := by
  simp only [exec, execHdr_at hat, hcheck]

theorem exec_hdr_of_none {s : State} {m : BitVec 16} (hat : s.nextFormat = some .hdr)
    (hcheck : tdSizeCheck s.params.nMax s.byteInLen m = none) :
    exec (.hdr m) s = .next { s with work := tdHeader m s.work } := by
  simp only [exec, execHdr_at hat, hcheck]

/-- An error ends the phase at once (60_exceptions.md R245). -/
theorem whileIn_raise {p : Phase} (hp : p ≠ .idle) (s : State) (e : ErrKind)
    (k : State → Host.Outcome State Fault Refusal) : whileIn p (.next (s.raise e)) k = .next (s.raise e) :=
  if_neg fun h => hp (h.symm.trans (State.raise_phase s e))

/-! ### One record and then the rest of the phase -/

theorem whileIn_congr {p : Phase} {o : Host.Outcome State Fault Refusal} {k k' : State → Host.Outcome State Fault Refusal}
    (h : ∀ u, o = .next u → u.phase = p → k u = k' u) : whileIn p o k = whileIn p o k' := by
  cases o with
  | next u =>
    show (if u.phase = p then k u else .next u) = if u.phase = p then k' u else .next u
    split
    next hp => exact h u rfl hp
    next => rfl
  | fault r => rfl
  | refused r => rfl

theorem whileIn_congr_record {p : Phase} (hp : p ≠ .idle) {s : State} {i : Instr} (hat : s.nextFormat = some i.format)
    {k k' : State → Host.Outcome State Fault Refusal}
    (h : ∀ u, RecordStep s i.format u → (∀ e, u ≠ s.raise e) → k u = k' u) :
    whileIn p (exec i s) k = whileIn p (exec i s) k' := by
  obtain ⟨t, ht, hstep⟩ := exec_recordStep hat
  refine whileIn_congr fun u hu hphase => ?_
  obtain rfl := Host.Outcome.next.inj (ht.symm.trans hu)
  refine h _ hstep fun e he => ?_
  rw [he, State.raise_phase] at hphase
  exact hp hphase.symm

/-- A record whose bytes stand inside the file is the one the phase runs next. -/
theorem runRecord_of_decode {s : State} {f : Format} {i : Instr}
    (hfit : fits s.params.byteInCap (s.work.rdPtr.toNat + f.size) = true)
    (hdecode : decode f (s.byteIn.readList s.work.rdPtr.toNat f.size) = .ok (i, [])) :
    i.format = f ∧ s.runRecord f = exec i s := by
  obtain ⟨hfull, -⟩ | ⟨j, -, hj, hformat, hrun⟩ := runRecord_cases s f
  · cases hfull.symm.trans hfit
  · cases hj.symm.trans hdecode
    exact ⟨hformat, hrun⟩

/-- TD is the next record and then TD again (45_table_deserializer.md R185). -/
theorem coreStep_td_record {s : State} {f : Format} {i : Instr} (hphase : s.phase = .td) (hat : s.nextFormat = some f)
    (hin : s.work.rdPtr.toNat + f.size ≤ s.byteInLen.toNat) (hformat : i.format = f) (hrun : s.runRecord f = exec i s) :
    coreStep s = whileIn .td (exec i s) coreStep := by
  have hrecord : s.tdRecord f = exec i s := by
    refine (if_neg ?_).trans hrun
    rintro ⟨rfl, hshort⟩
    exact absurd hin (by simp only [Format.size]; omega)
  rw [coreStep_td hphase]
  subst hformat
  have hnext : ∀ u : State, u.phase = .td → u.work.rdPtr ≠ 0 → coreStep u = u.tdLoop u.work.entriesLeft := fun u hu hptr =>
    (coreStep_td hu).trans (coreTD_entries hptr)
  cases hf : i.format with
  | cmd => exact absurd (hf ▸ hat) nextFormat_ne_cmd
  | pay => exact absurd (hphase.symm.trans (nextFormat_pay.mp (hf ▸ hat)).1) nofun
  | hdr =>
    rw [hf] at hrecord
    rw [coreTD_header (nextFormat_hdr.mp (hf ▸ hat)).2, hrecord]
    refine whileIn_congr_record (p := .td) nofun hat fun u hu hne => ?_
    rw [hf] at hu
    cases hu with
    | error _ e => exact absurd rfl (hne e)
    | header m hcheck =>
      exact (hnext { s with work := tdHeader m s.work } hphase (show (2 : BitVec 35) ≠ 0 by decide)).symm
  | ent =>
    obtain ⟨-, hptr, hlt⟩ := nextFormat_ent.mp (hf ▸ hat)
    rw [BitVec.lt_def] at hlt
    have hleft : s.work.entriesLeft = s.work.tdM.toNat - (s.work.tdI.toNat + 1) + 1 := by
      rw [Work.entriesLeft]
      omega
    rw [hf] at hrecord hin
    rw [coreTD_entries hptr, hleft, tdLoop_some (hf ▸ hat), hrecord]
    refine whileIn_congr_record (p := .td) nofun hat fun u hu hne => ?_
    rw [hf] at hu
    cases hu with
    | error _ e => exact absurd rfl (hne e)
    | entry sym l p hcheck =>
      have hmove : (s.work.rdPtr + 9).toNat = s.work.rdPtr.toNat + 9 := by
        simp only [Format.size] at hin
        bv_omega
      have hcount : (s.work.tdI + 1).toNat = s.work.tdI.toNat + 1 := by bv_omega
      rw [hnext { s with work := tdEntry sym l p s.work } hphase
        (fun h0 => absurd (hmove.symm.trans (congrArg BitVec.toNat h0)) (by simp))]
      exact congrArg (State.tdLoop · _) (congrArg (s.work.tdM.toNat - ·) hcount.symm)

theorem payloadLeft_eq (w : Work) : w.payloadLeft =
    if w.bitsLeft.toNat = 0 then 0 else (w.bitPos.toNat + w.bitsLeft.toNat + 7) / 8 :=
  if_congr BitVec.toNat_inj.symm rfl rfl

/-- A payload byte read through leaves one byte fewer to read (46_decoder.md R200, R201). -/
theorem payloadLeft_deBits {cap : Option Nat} {byte : Byte} {x y : Emitter} (hne : x.1.bitsLeft ≠ 0)
    (hroom : x.1.rdPtr.toNat + 1 < 2 ^ 35) (h : deBits cap byte (bitsOfByte x.1) x = .ok y) :
    x.1.payloadLeft = y.1.payloadLeft + 1 := by
  have hn : bitsOfByte x.1 = min (8 - x.1.bitPos.toNat) x.1.bitsLeft.toNat := rfl
  have hpos : x.1.bitsLeft.toNat ≠ 0 := fun h0 => hne (BitVec.toNat_inj.mp h0)
  have hx := x.1.bitPos.isLt
  have hy := y.1.bitPos.isLt
  obtain ⟨hptr, hleft⟩ := deBits_reader h (hn ▸ Nat.min_le_right _ _) (by omega)
  rw [payloadLeft_eq, payloadLeft_eq, if_neg hpos]
  split <;> omega

/-- DE is the next record and then DE again (46_decoder.md R200). -/
theorem payloadRun_record {s : State} {i : Instr} (hat : s.nextFormat = some .pay)
    (hin : s.work.rdPtr.toNat + 1 ≤ s.byteInLen.toNat) (hformat : i.format = .pay) (hrun : s.runRecord .pay = exec i s) :
    s.payloadRun = whileIn .de (exec i s) State.payloadRun := by
  obtain ⟨hphase, hne⟩ := nextFormat_pay.mp hat
  obtain ⟨n, hn⟩ : ∃ n, s.work.payloadLeft = n + 1 := by
    have hpos : s.work.bitsLeft.toNat ≠ 0 := fun h0 => hne (BitVec.toNat_inj.mp h0)
    refine Nat.exists_eq_succ_of_ne_zero ?_
    rw [payloadLeft_eq, if_neg hpos]
    omega
  rw [State.payloadRun, hn, deLoop_some hat, hrun]
  refine whileIn_congr_record (p := .de) nofun (hformat ▸ hat) fun u hu hnoErr => ?_
  rw [hformat] at hu
  cases hu with
  | error _ e => exact absurd rfl (hnoErr e)
  | payload byte y hbits =>
    have hleft := payloadLeft_deBits (x := (s.work, s.symOut)) hne (hin.trans_lt s.byteInLen.isLt) hbits
    exact congrArg (State.deLoop · _) (Nat.succ.inj (hn.symm.trans hleft))

end Sys2Proof.Machine
end

