-- ==== Sys2Proof/Proofs/Records.lean ====
section
/-! The statements about the records HDR and ENT and the steps that run records (45_table_deserializer.md,
46_decoder.md R200). -/

namespace Sys2Proof
open Machine

/-- Settles O7: the record inside the file is the one the loop of the phase takes up, and what is left of the loop is the
phase begun again. -/
theorem stepRunsTheRecord : Obligations.StepRunsTheRecord := by
  refine ⟨fun s f i hat hin hfit hdecode => ?_, fun s w hphase hstart => ?_, fun s rest => ⟨rfl, rfl, fun hdone => ?_⟩⟩
  · obtain ⟨hformat, hrun⟩ := runRecord_of_decode hfit hdecode
    refine ⟨fun hphase => coreStep_td_record hphase hat hin hformat hrun, fun hphase => ?_⟩
    obtain rfl : f = .pay := by
      cases f with
      | pay => rfl
      | cmd => exact absurd hat nextFormat_ne_cmd
      | hdr => exact absurd (hphase.symm.trans (nextFormat_hdr.mp hat).1) nofun
      | ent => exact absurd (hphase.symm.trans (nextFormat_ent.mp hat).1) nofun
    exact payloadRun_record hat hin hformat hrun
  · obtain ⟨e, herr, -⟩ | ⟨w', hw', hrun⟩ := coreDE_cases s
    · cases herr.symm.trans hstart
    · obtain rfl := Except.ok.inj (hw'.symm.trans hstart)
      exact (coreStep_de hphase).trans hrun
  · rw [step_move]
    exact if_neg (by simp [hdone])

/-- Settles O45: the size passes both checks. -/
theorem hdrCompletes : Obligations.HdrCompletes := by
  intro m s hphase hptr hfile hroom
  refine exec_hdr_of_none (nextFormat_hdr.mpr ⟨hphase, hptr⟩) ?_
  rw [tdSizeCheck, if_neg (by omega), if_neg (by omega)]

/-- Settles O46: the file length is checked before N_MAX, and a file without a header is never read. -/
theorem tableSizeErrors : Obligations.TableSizeErrors := by
  refine ⟨fun m s hphase hptr => ?_, fun s hphase hptr hshort => ?_⟩
  · have hat := nextFormat_hdr.mpr ⟨hphase, hptr⟩
    exact ⟨fun hfile => exec_hdr_of_fault hat (if_pos hfile),
      fun hfile hroom => exec_hdr_of_fault hat ((if_neg (by omega)).trans (if_pos hroom))⟩
  · have hrecord : s.tdRecord .hdr = .next (s.raise .malformedTable) := if_pos ⟨rfl, hshort⟩
    rw [coreStep_td hphase, coreTD_header hptr, hrecord, whileIn_raise (p := .td) nofun]

/-- Settles O47: an entry without a fault is appended. -/
theorem entCompletes : Obligations.EntCompletes := by
  intro sym l p s hphase hptr hlt hpos hlen hpat hnew
  rw [BitVec.ofNat_toNat]
  refine exec_ent_of_not_fault (nextFormat_ent.mpr ⟨hphase, hptr, hlt⟩) ?_
  rintro (h | h | ⟨-, h⟩ | ⟨e, he, h⟩)
  · omega
  · omega
  · exact h (Nat.div_eq_of_lt hpat)
  · exact hnew e he h

/-- Settles O49: HDR and ENT have three effects between them. -/
theorem tableRecordFrame : Obligations.TableRecordFrame := by
  intro i s t hformat h
  have hi : i.format ≠ .cmd := by obtain hf | hf := hformat <;> simp [hf]
  have hstep := (recordStep_of_exec hi h).2
  generalize i.format = f at hformat hstep
  cases hstep with
  | error _ e => exact .inl ⟨e, rfl⟩
  | header m hcheck => exact .inr ⟨rfl, fun _ => ⟨rfl, rfl⟩, nofun⟩
  | entry sym l p hcheck => exact .inr ⟨rfl, nofun, fun _ => rfl⟩
  | payload byte y hbits => simp at hformat

end Sys2Proof
end

