-- ==== Sys2Proof/Proofs/RunEnd.lean ====
section
/-! SUPPORT. How long a run is and what the core is like at its end (00_scope.md R10, R11), and the errors each unit can
raise (60_exceptions.md R240). -/

namespace Sys2Proof.Machine

/-! ### The length of a run -/

/-- A run of a command has flags as the spec relates them, and where it is idle the command has ended. -/
structure InRun (s : State) : Prop where
  status : StatusInv s
  ended : s.phase = .idle → Ended s

theorem inRun_start (s : State) (op : Op) : InRun (s.start op) := by
  refine ⟨statusInv_start s op, fun hidle => ?_⟩
  obtain ⟨-, -, hstart⟩ | ⟨-, hstart⟩ := start_cases s op
  · rw [hstart] at hidle
    cases op <;> cases hidle
  · exact hstart ▸ ended_raise _ _

theorem inRun_coreStep (s t : State) (h : InRun s) (hstep : coreStep s = .next t) : InRun t := by
  refine ⟨coreStep_statusInv h.status hstep, fun hidle => ?_⟩
  obtain ⟨hsame, -, -, -, -, -, -, -, hend⟩ := phaseSuccessors s t hstep
  by_cases hp : s.phase = .idle
  · obtain rfl := hsame hp
    exact h.ended hp
  · obtain ⟨hdone, hbusy⟩ := hend hp hidle
    exact ⟨hidle, hdone, hbusy⟩

theorem InRun.phase_eq_idle_iff {s : State} (h : InRun s) : s.phase = .idle ↔ s.busy = false := by
  rw [← not_iff_not, ← ne_eq, ← h.status.busyPhase, Bool.not_eq_false]

theorem inRun_coreRun {op : Op} {k : Nat} {s t : State} (h : coreRun k (s.start op) = .next t) : InRun t :=
  coreRun_invariant inRun_coreStep (inRun_start s op) h

/-- The most steps a run has left where phase `p` is to be done next (10_state.md R45). -/
def Phase.stepsLeft : Phase → Nat
  | .idle => 0
  | .fa => 5
  | .tb => 4
  | .cg => 3
  | .ts => 2
  | .en => 1
  | .td => 2
  | .de => 1

theorem stepsLeft_eq_zero {p : Phase} (h : p.stepsLeft = 0) : p = .idle := by
  revert h
  cases p <;> decide

theorem coreStep_stepsLeft {s t : State} (h : coreStep s = .next t) : t.phase.stepsLeft ≤ s.phase.stepsLeft - 1 := by
  obtain ⟨hidle, hfa, htb, hcg, hts, hen, htd, hde, -⟩ := phaseSuccessors s t h
  have hle : ∀ {ps : List Phase} {n : Nat}, t.phase ∈ ps → (∀ p ∈ ps, p.stepsLeft ≤ n) → t.phase.stepsLeft ≤ n :=
    fun hmem hall => hall _ hmem
  cases hp : s.phase with
  | idle =>
    rw [hidle hp, hp]
    exact le_rfl
  | fa => exact hle (hfa hp).1 (by decide)
  | tb => exact (htb hp).symm ▸ le_rfl
  | cg => exact hle (hcg hp) (by decide)
  | ts => exact hle (hts hp) (by decide)
  | en => exact (hen hp).symm ▸ le_rfl
  | td => exact hle (htd hp) (by decide)
  | de => exact (hde hp).symm ▸ le_rfl

theorem coreRun_stepsLeft {k : Nat} {s t : State} (h : coreRun k s = .next t) :
    t.phase.stepsLeft ≤ s.phase.stepsLeft - k := by
  induction k generalizing s with
  | zero =>
    cases h
    exact le_rfl
  | succ k ih =>
    obtain ⟨u, hu⟩ := coreStep_total s
    rw [coreRun_succ hu] at h
    have hstep := coreStep_stepsLeft hu
    have hrest := ih h
    omega

/-- As many steps as its phases bring a command to its end (00_scope.md R11). -/
theorem coreRun_ends (op : Op) (s : State) : ∃ t, coreRun op.firstPhase.stepsLeft (s.start op) = .next t ∧ t.busy = false := by
  obtain ⟨t, ht⟩ := coreRun_total op.firstPhase.stepsLeft (s.start op)
  refine ⟨t, ht, (inRun_coreRun ht).phase_eq_idle_iff.mp (stepsLeft_eq_zero ?_)⟩
  have hfirst : (s.start op).phase.stepsLeft ≤ op.firstPhase.stepsLeft := by
    obtain ⟨-, -, hstart⟩ | ⟨-, hstart⟩ := start_cases s op
    · exact hstart ▸ le_rfl
    · rw [hstart, State.raise_phase]
      exact Nat.zero_le _
  have hleft := coreRun_stepsLeft ht
  omega

theorem exists_endOfRun (op : Op) {s : State} (hbusy : s.busy = false) : ∃ t, EndOfRun op s t := by
  obtain ⟨t, ht, hend⟩ := coreRun_ends op s
  exact ⟨t, hbusy, hend, _, ht⟩

theorem encode_ends {s : State} (hbusy : s.busy = false) : EndOfRun .encode s (s.encodeOutcome s.encodeRun) := by
  obtain ⟨t, ht⟩ := exists_endOfRun .encode hbusy
  exact encode_end ht ▸ ht

/-! ### Which errors a unit raises -/

/-- Every error of `r` is one of `P`. -/
def Raises {α : Type} (P : ErrKind → Prop) (r : Except ErrKind α) : Prop := ∀ e, r = .error e → P e

section Raises
variable {α β : Type} {P : ErrKind → Prop}

theorem raises_ok (a : α) : Raises P (.ok a : Except ErrKind α) := nofun

theorem raises_error {e : ErrKind} (h : P e) : Raises P (.error e : Except ErrKind α) := fun _ he => Except.error.inj he ▸ h

theorem Raises.bind {r : Except ErrKind α} {f : α → Except ErrKind β} (h : Raises P r)
    (hf : ∀ a, r = .ok a → Raises P (f a)) : Raises P (r >>= f) := by
  cases r with
  | error e => exact raises_error (h e rfl)
  | ok a => exact hf a rfl

end Raises

section Units
variable {P : ErrKind → Prop} (hio : P .ioError)
include hio

theorem memRead_raises {w : Nat} (cap : Option Nat) (m : Memory w) (a k : Nat) : Raises P (memRead cap m a k) := by
  unfold memRead
  split
  · exact raises_ok _
  · exact raises_error hio

theorem memReadOne_raises {w : Nat} (cap : Option Nat) (m : Memory w) (a : Nat) : Raises P (memReadOne cap m a) := by
  unfold memReadOne
  split
  · exact raises_ok _
  · exact raises_error hio

theorem memWrite_raises {w : Nat} (cap : Option Nat) (m : Memory w) (a : Nat) (vs : List (BitVec w)) :
    Raises P (memWrite cap m a vs) := by
  unfold memWrite
  split
  · exact raises_ok _
  · exact raises_error hio

theorem startCheck_raises (s : State) (op : Op) : Raises P (s.startCheck op) := by
  unfold State.startCheck
  split
  · exact raises_ok _
  · exact raises_error hio

/-! #### TS and EN -/

theorem putRecord_raises (cap : Option Nat) (i : Instr) (x : Writer) : Raises P (putRecord cap i x) := by
  rw [putRecord_eq]
  exact (memWrite_raises hio _ _ _ _).bind fun _ _ => raises_ok _

theorem tsEntries_raises (cap : Option Nat) (es : List FtEntry) (x : Writer) : Raises P (tsEntries cap es x) := by
  induction es generalizing x with
  | nil => exact raises_ok x
  | cons e es ih =>
    rw [tsEntries_cons]
    exact (putRecord_raises hio _ _ _).bind fun _ _ => ih _

theorem tsRun_raises (cap : Option Nat) (x : Writer) : Raises P (tsRun cap x) := by
  rw [tsRun_eq]
  exact (putRecord_raises hio _ _ _).bind fun _ _ => tsEntries_raises hio _ _ _

theorem pkPush_raises (cap : Option Nat) (b : Bool) (x : Writer) : Raises P (pkPush cap b x) := by
  by_cases hfull : x.1.pkCnt = 7
  · rw [pkPush_full cap hfull]
    exact (memWrite_raises hio _ _ _ _).bind fun _ _ => raises_ok _
  · rw [pkPush_notFull cap hfull]
    exact raises_ok _

theorem enShift_raises (cap : Option Nat) (p : BitVec 32) (l : Nat) (x : Writer) : Raises P (enShift cap p l x) := by
  induction l generalizing x with
  | zero => exact raises_ok x
  | succ l ih =>
    rw [enShift_succ]
    exact (pkPush_raises hio _ _ _).bind fun y _ => ih y

theorem pkFlush_raises (cap : Option Nat) (x : Writer) : Raises P (pkFlush cap x) := by
  by_cases hempty : x.1.pkCnt = 0
  · rw [pkFlush_empty cap hempty]
    exact raises_ok x
  · rw [pkFlush_held cap hempty]
    exact (memWrite_raises hio _ _ _ _).bind fun _ _ => raises_ok _

/-- A Symbol that FT has is looked up without error (43_encoder_packer.md R161). -/
theorem enSymbol_raises {cap : Option Nat} {sym : Sym} {x : Writer} (hknown : ∃ i, enLookup sym x.1.ft = .ok i) :
    Raises P (enSymbol cap sym x) := by
  obtain ⟨i, hi⟩ := hknown
  rw [enSymbol_eq, hi, except_ok_bind]
  exact enShift_raises hio _ _ _ _

theorem enLoop_raises {p : Params} {symIn : Memory 32} {inLen : BitVec 32} {n : Nat} {x : Writer}
    (hknown : ∀ a < inLen.toNat, ∃ i, enLookup (symIn.read a) x.1.ft = .ok i) :
    Raises P (enLoop p symIn inLen n x) := by
  induction n generalizing x with
  | zero => exact raises_ok x
  | succ n ih =>
    by_cases hlt : x.1.inIdx < inLen
    · rw [enLoop_succ hlt]
      refine (memReadOne_raises hio _ _ _).bind fun sym hsym => ?_
      have hread : symIn.read x.1.inIdx.toNat = sym := by
        rw [memReadOne] at hsym
        split at hsym
        next => exact Except.ok.inj hsym
        next => cases hsym
      refine (enSymbol_raises hio (hread ▸ hknown _ (BitVec.lt_def.mp hlt))).bind fun y hy => ih ?_
      rw [enSymbol_frame hy]
      exact hknown
    · rw [enLoop_end (n + 1) hlt]
      exact raises_ok x

theorem enRun_raises {p : Params} {symIn : Memory 32} {inLen : BitVec 32} {x : Writer}
    (hknown : ∀ a < inLen.toNat, ∃ i, enLookup (symIn.read a) x.1.ft = .ok i) : Raises P (enRun p symIn inLen x) := by
  rw [enRun_eq]
  exact (enLoop_raises (x := ({ x.1 with inIdx := 0 }, x.2)) hio hknown).bind fun _ _ => pkFlush_raises hio _ _

/-! #### TD and DE -/

theorem deMatch_raises (cap : Option Nat) (x : Emitter) : Raises P (deMatch cap x) := by
  obtain ⟨-, h⟩ | ⟨_, -, -, h⟩ | ⟨_, -, -, h⟩ := deMatch_cases cap x <;> rw [h]
  · exact raises_ok x
  · exact raises_error hio
  · exact raises_ok _

theorem deBits_raises (cap : Option Nat) (byte : Byte) (n : Nat) (x : Emitter) : Raises P (deBits cap byte n x) := by
  induction n generalizing x with
  | zero => exact raises_ok x
  | succ n ih =>
    rw [deBits_succ]
    exact (deMatch_raises hio _ _).bind fun y _ => ih y

theorem recordEffect_raises (hmalformed : P .malformedTable) (hlarge : P .tableTooLarge) (s : State) (x : Emitter)
    (i : Instr) : Raises P (s.recordEffect x i) := by
  cases i with
  | encode => exact raises_ok x
  | decode => exact raises_ok x
  | hdr m =>
    simp only [State.recordEffect, tdSizeCheck]
    split
    next e he =>
      refine raises_error ?_
      split at he
      next => exact Option.some.inj he ▸ hmalformed
      next =>
        split at he
        next => exact Option.some.inj he ▸ hlarge
        next => cases he
    next => exact raises_ok _
  | ent sym l p =>
    simp only [State.recordEffect]
    obtain ⟨-, h⟩ | ⟨-, h⟩ := tdCheck_cases x.1.dtab l p <;> rw [h]
    · exact raises_error hmalformed
    · exact raises_ok _
  | pay byte => exact deBits_raises hio _ _ _ _

theorem recordRun_raises (hmalformed : P .malformedTable) (hlarge : P .tableTooLarge) (s : State) (f : Format)
    (x : Emitter) : Raises P (s.recordRun f x) := by
  refine (memRead_raises hio _ _ _ _).bind fun bytes _ => ?_
  cases decode f bytes with
  | error _ => exact raises_ok x
  | ok r => exact recordEffect_raises hio hmalformed hlarge s x r.1

theorem tableRun_raises (hmalformed : P .malformedTable) (hlarge : P .tableTooLarge) (s : State) :
    Raises P s.tableRun := by
  have hentries : ∀ (n : Nat) (x : Emitter), Raises P (s.entriesRun n x) := by
    intro n
    induction n with
    | zero => exact raises_ok
    | succ n ih =>
      intro x
      rw [State.entriesRun]
      split
      · exact (recordRun_raises hio hmalformed hlarge s _ _).bind fun y _ => ih y
      · exact raises_ok x
  refine Raises.bind ?_ fun y _ => hentries _ y
  rw [State.headerRun]
  split
  · exact raises_error hmalformed
  · exact recordRun_raises hio hmalformed hlarge s _ _

theorem bytesRun_raises (hmalformed : P .malformedTable) (hlarge : P .tableTooLarge) (s : State) (n : Nat)
    (x : Emitter) : Raises P (s.bytesRun n x) := by
  induction n generalizing x with
  | zero => exact raises_ok x
  | succ n ih =>
    rw [State.bytesRun]
    split
    · exact raises_ok x
    · exact (recordRun_raises hio hmalformed hlarge s _ _).bind fun y _ => ih y

end Units

theorem exists_enLookup {x : Sym} {ft : List FtEntry} (h : x ∈ ft.map FtEntry.sym) : ∃ i, enLookup x ft = .ok i := by
  obtain ⟨e, he, hsym⟩ := List.mem_map.mp h
  rw [enLookup]
  split
  next i _ => exact ⟨i, rfl⟩
  next hnone => exact absurd (List.findIdx?_eq_none_iff.mp hnone e he) (by simp [hsym])

theorem DecodeOp.bytesRun {s : State} {n : Nat} {x y : Emitter} (hop : DecodeOp s x.1) (h : s.bytesRun n x = .ok y) :
    DecodeOp s y.1 := by
  induction n generalizing x with
  | zero =>
    cases h
    exact hop
  | succ n ih =>
    rw [State.bytesRun] at h
    split at h
    · cases h
      exact hop
    · obtain ⟨z, hz, hrest⟩ := except_bind_eq_ok_iff.mp h
      exact ih (hop.recordRun hz) hrest

theorem DecodeOp.deStart {s : State} {z : Emitter} {w : Work} (hop : DecodeOp s z.1)
    (h : (s.reading .de z).deStart = .ok w) : DecodeOp s w := by
  rw [deStart_frame h]
  exact ⟨hop.curOp, hop.lenEn⟩

/-- The first two phases of an ENCODE raise IOError, TableTooLarge and CodeTooLong, the others IOError only: every Symbol
of the input is a key of FT (43_encoder_packer.md R166). -/
theorem encodeRun_raises (s : State) :
    Raises (· ∈ [ErrKind.ioError, .tableTooLarge, .codeTooLong]) s.encodeRun := by
  refine (startCheck_raises (by decide) s .encode).bind fun _ hcheck => ?_
  have hfit := (startCheck_eq_ok_iff.mp hcheck).2
  refine Raises.bind (fun e he => ?_) fun w hw => ?_
  · obtain ⟨w, hw, -⟩ | ⟨herr, -⟩ := faRun_start_cases (p := s.params) (symIn := s.symIn) false hfit
    · cases hw.symm.trans he
    · cases herr.symm.trans he
      decide
  refine Raises.bind (fun e he => ?_) fun v hv => ?_
  · rw [buildCodes] at he
    split at he
    · cases he
    · cases cgRun_error he
      decide
  refine (tsRun_raises (by decide) _ _).bind fun z hz => enRun_raises (by decide) fun a ha => ?_
  have hft : z.1.ft = w.ft := by
    rw [tsRun_frame hz]
    exact (buildCodes_start hw hv).1
  have hread := Memory.readList_getElem? s.symIn 0 s.inLen.toNat a ha
  rw [Nat.zero_add] at hread
  rw [hft]
  exact exists_enLookup (((ftOf_faRun hw).keys _).mpr (List.mem_of_getElem? hread))

/-- AmbiguousTrailingBits is an error of length mode (46_decoder.md R205, R206). -/
theorem decodeRun_raises (s : State) :
    Raises (fun e => e ∈ [ErrKind.ioError, .malformedTable, .tableTooLarge] ∨ (e = .ambiguousTrailingBits ∧ s.cfg = 1))
      s.decodeRun := by
  refine (startCheck_raises (.inl (by decide)) s .decode).bind fun _ _ => ?_
  refine (tableRun_raises (.inl (by decide)) (.inl (by decide)) (.inl (by decide)) s).bind fun z hz => ?_
  have hop : DecodeOp s z.1 := (inTable_of_tableRun hz).op
  refine Raises.bind (fun e he => ?_) fun w hw => ?_
  · obtain ⟨hlen, -, herr⟩ | ⟨-, -, hok⟩ | ⟨-, hok⟩ := deStart_cases (s.reading .de z)
    · cases herr.symm.trans he
      exact .inr ⟨rfl, of_decide_eq_true (hop.lenEn.symm.trans hlen)⟩
    · cases hok.symm.trans he
    · cases hok.symm.trans he
  refine (bytesRun_raises (.inl (by decide)) (.inl (by decide)) (.inl (by decide)) s _ _).bind fun y hy => ?_
  rw [finishCheck]
  split
  next h =>
    have hend : DecodeOp s y.1 := DecodeOp.bytesRun (hop.deStart hw) hy
    exact raises_error (.inr ⟨rfl, of_decide_eq_true (hend.lenEn.symm.trans h.2)⟩)
  next => exact raises_ok y

end Sys2Proof.Machine
end

