-- ==== Sys2Proof/Proofs/RunStatements.lean ====
section
/-! The statements about whole runs: that they end, with which errors, and what they leave alone (00_scope.md section 5,
60_exceptions.md section 1, 92_eei_decisions.md D34). -/

namespace Sys2Proof
open Machine

/-- Settles O16: no step stops the core, and each takes the command to a later phase. -/
theorem everyRunEnds : Obligations.EveryRunEnds := by
  refine ⟨fun op s hbusy => exists_endOfRun op hbusy, fun op s t h => ?_,
    fun s _ => ⟨coreRun_ends .encode s, coreRun_ends .decode s⟩⟩
  obtain ⟨-, hbusy, k, hk⟩ := h
  have hrun := inRun_coreRun hk
  obtain ⟨hphase, hdone, -⟩ := hrun.ended (hrun.phase_eq_idle_iff.mpr hbusy)
  obtain ⟨hcode, hseven⟩ := hrun.status.errCode
  refine ⟨hdone, hphase, ?_⟩
  cases herr : t.err with
  | false => exact .inl ⟨rfl, hcode.mpr herr⟩
  | true =>
    have htrail : t.trail = false :=
      Bool.eq_false_iff.mpr fun h => absurd (herr.symm.trans (hrun.status.trailDone h).2) nofun
    exact .inr ⟨rfl, htrail, fun h0 => absurd (herr.symm.trans (hcode.mp h0)) nofun, hseven⟩

/-- Settles O17: the errors of a run are those of its units, and their codes. -/
theorem errorsOfEachCommand : Obligations.ErrorsOfEachCommand := by
  refine ⟨fun s t h => ?_, fun s t h => ?_⟩
  · obtain rfl := encode_end h
    cases hrun : s.encodeRun with
    | ok y => exact List.mem_cons_self
    | error e =>
      show (State.raise _ e).errCode ∈ _
      rw [State.raise_errCode]
      have he : e ∈ [ErrKind.ioError, .tableTooLarge, .codeTooLong] := encodeRun_raises s e hrun
      fin_cases he <;> decide
  · obtain rfl := decode_end h
    cases hrun : s.decodeRun with
    | ok y => exact ⟨List.mem_cons_self, nofun⟩
    | error e =>
      show (State.raise _ e).errCode ∈ _ ∧ ((State.raise _ e).errCode = 5 → _)
      rw [State.raise_errCode]
      obtain he | ⟨rfl, hcfg⟩ := decodeRun_raises s e hrun
      · fin_cases he <;> exact ⟨by decide, nofun⟩
      · exact ⟨by decide, fun _ => hcfg⟩

/-- Settles O18: the end of a run, with an error or without, differs from START's state in what the command owns. -/
theorem runLeavesTheOtherCommandAlone : Obligations.RunLeavesTheOtherCommandAlone := by
  refine ⟨fun s t h => ?_, fun s t h => ?_⟩
  · obtain rfl := encode_end h
    cases s.encodeRun <;> exact ⟨rfl, rfl, rfl, rfl⟩
  · obtain rfl := decode_end h
    cases s.decodeRun <;> exact ⟨rfl, rfl, rfl, rfl⟩

end Sys2Proof
end

