-- ==== Sys2Proof/Proofs/WriteRoom.lean ====
section
/-! SUPPORT. How far the units of an ENCODE write BYTE_OUT: each up to a known index if BYTE_OUT holds as many elements,
with IOError if it does not, and nothing at or above that index changes (20_memory.md R62, R66; 43_encoder_packer.md,
44_table_serializer.md). -/

namespace Sys2Proof.Machine

/-- Writing BYTE_OUT up to index `last`, from the writer `x` on. -/
inductive WritesTo (cap : Option Nat) (last : Nat) (x : Writer) : Except ErrKind Writer → Prop
  | done {y : Writer} (room : fits cap last = true) (pointer : y.1.wrPtr.toNat = last)
      (above : ∀ a, last ≤ a → y.2.read a = x.2.read a) : WritesTo cap last x (.ok y)
  | full (full : fits cap last = false) : WritesTo cap last x (.error .ioError)

section WritesTo
variable {cap : Option Nat} {last mid : Nat} {x x' : Writer} {r : Except ErrKind Writer}

theorem WritesTo.stay (h : fits cap x.1.wrPtr.toNat = true) : WritesTo cap x.1.wrPtr.toNat x (.ok x) :=
  .done h rfl fun _ _ => rfl

theorem WritesTo.bind {f : Writer → Except ErrKind Writer} (h : WritesTo cap mid x r) (hle : mid ≤ last)
    (hf : ∀ y, r = .ok y → fits cap y.1.wrPtr.toNat = true → y.1.wrPtr.toNat = mid → WritesTo cap last y (f y)) :
    WritesTo cap last x (r >>= f) := by
  cases h with
  | full hfull => exact .full (fits_eq_false_of_le hfull hle)
  | @done y hroom hptr habove =>
    rw [except_ok_bind]
    generalize hr : f y = r'
    cases hr ▸ hf y rfl (hptr.symm ▸ hroom) hptr with
    | full hfull => exact .full hfull
    | done hroom' hptr' habove' => exact .done hroom' hptr' fun a ha => (habove' a ha).trans (habove a (hle.trans ha))

theorem WritesTo.from_congr (h : WritesTo cap last x r) (hmem : x.2 = x'.2) : WritesTo cap last x' r := by
  cases h with
  | full hfull => exact .full hfull
  | done hroom hptr habove => exact .done hroom hptr fun a ha => (habove a ha).trans (hmem ▸ rfl)

theorem WritesTo.write {vs : List Byte} {v : Work} (hv : v.wrPtr.toNat = x.1.wrPtr.toNat + vs.length) :
    WritesTo cap (x.1.wrPtr.toNat + vs.length) x
      (memWrite cap x.2 x.1.wrPtr.toNat vs >>= fun m => .ok (v, m)) := by
  obtain ⟨hroom, hm⟩ | ⟨hfull, hm⟩ := memWrite_cases (cap := cap) (m := x.2) (a := x.1.wrPtr.toNat) (vs := vs) <;> rw [hm]
  · exact .done hroom hv fun a ha => Memory.read_writeList_outside _ _ _ (.inr ha)
  · exact .full hfull

theorem WritesTo.ok_of_fits (h : WritesTo cap last x r) (hroom : fits cap last = true) : ∃ y, r = .ok y := by
  cases h with
  | full hfull => cases hfull.symm.trans hroom
  | done => exact ⟨_, rfl⟩

theorem WritesTo.error_of_not_fits (h : WritesTo cap last x r) (hfull : fits cap last = false) : r = .error .ioError := by
  cases h with
  | full => rfl
  | done hroom => cases hfull.symm.trans hroom

theorem WritesTo.above {y : Writer} (h : WritesTo cap last x (.ok y)) : ∀ a, last ≤ a → y.2.read a = x.2.read a := by
  cases h with
  | done _ _ habove => exact habove

end WritesTo

/-! ### TS -/

theorem putRecord_writesTo {cap : Option Nat} {x : Writer} (i : Instr)
    (hptr : x.1.wrPtr.toNat + i.format.size < 2 ^ 35) :
    WritesTo cap (x.1.wrPtr.toNat + i.format.size) x (putRecord cap i x) := by
  rw [putRecord_eq, ← encode_length]
  refine WritesTo.write ?_
  rw [encode_length, BitVec.toNat_add, BitVec.toNat_ofNat, Nat.mod_eq_of_lt (by omega : i.format.size < 2 ^ 35),
    Nat.mod_eq_of_lt hptr]

theorem tsEntries_writesTo {cap : Option Nat} {es : List FtEntry} {x : Writer} (hroom : fits cap x.1.wrPtr.toNat = true)
    (hptr : x.1.wrPtr.toNat + 9 * es.length < 2 ^ 35) :
    WritesTo cap (x.1.wrPtr.toNat + 9 * es.length) x (tsEntries cap es x) := by
  induction es generalizing x with
  | nil => exact .stay hroom
  | cons e es ih =>
    rw [List.length_cons] at hptr ⊢
    rw [tsEntries_cons]
    refine (putRecord_writesTo _ ?_).bind ?_ fun y _ hfit hy => ?_
    · show _ + 9 < _
      omega
    · show _ + 9 ≤ _
      omega
    · replace hy : y.1.wrPtr.toNat = x.1.wrPtr.toNat + 9 := hy
      have hlast : x.1.wrPtr.toNat + 9 * (es.length + 1) = y.1.wrPtr.toNat + 9 * es.length := by omega
      rw [hlast] at hptr ⊢
      exact (ih (x := ({ y.1 with tsI := y.1.tsI + 1 }, y.2)) hfit hptr).from_congr rfl

/-- TS writes the header and nine bytes an entry (44_table_serializer.md R175). -/
theorem tsRun_writesTo {cap : Option Nat} {x : Writer} (hptr : x.1.wrPtr = 0) (hidx : x.1.tsI = 0)
    (hmax : x.1.ft.length ≤ 65535) : WritesTo cap (2 + 9 * x.1.ft.length) x (tsRun cap x) := by
  have hzero : x.1.wrPtr.toNat = 0 := congrArg BitVec.toNat hptr
  rw [tsRun_eq]
  have hheader : WritesTo cap (x.1.wrPtr.toNat + 2) x (tsHeader cap x) :=
    putRecord_writesTo (.hdr x.1.ftN) (by rw [hzero]; exact (by decide : 0 + 2 < 2 ^ 35))
  refine hheader.bind (by omega) fun y hy hfit hstart => ?_
  have hframe := putRecord_frame hy
  have hft : y.1.ft.drop y.1.tsI.toNat = x.1.ft := by rw [hframe, hidx]; rfl
  rw [hft, ← Nat.zero_add 2, ← hzero, ← hstart]
  exact tsEntries_writesTo hfit (by omega)

/-! ### EN -/

/-- The packer before its first bit (10_state.md R42). -/
theorem packed_start {x : Writer} (hcnt : x.1.pkCnt = 0) (hbyte : x.1.pkByte = 0) (htotal : x.1.bitTotal = 0) :
    Packed x.1.wrPtr.toNat [] x where
  count := congrArg BitVec.toNat hcnt
  total := congrArg BitVec.toNat htotal
  pointer := rfl
  written := nofun
  upper := by
    rw [hbyte]
    exact Nat.two_pow_pos _
  rest := by
    rw [hbyte, payloadByte_beyond (Nat.zero_le _)]
    exact BitVec.zero_shiftLeft _

section Packer
variable {cap : Option Nat} {base : Nat} {bits : List Bool} {x : Writer} (hx : Packed base bits x)
  (hroom : fits cap x.1.wrPtr.toNat = true)
include hx hroom

/-- A push writes the byte it fills (43_encoder_packer.md R163). -/
theorem pkPush_writesTo (b : Bool) (hptr : base + (bits.length + 1) / 8 < 2 ^ 35) :
    WritesTo cap (base + (bits.length + 1) / 8) x (pkPush cap b x) := by
  have hcount := hx.count
  have hpointer := hx.pointer
  by_cases hfull : x.1.pkCnt = 7
  · have hseven : bits.length % 8 = 7 := by rw [← hcount, hfull]; rfl
    have hlast : base + (bits.length + 1) / 8 = x.1.wrPtr.toNat + 1 := by omega
    rw [hlast] at hptr ⊢
    rw [pkPush_full cap hfull]
    exact WritesTo.write (vs := [_]) (by show (x.1.wrPtr + 1).toNat = _ + 1; bv_omega)
  · have hsmall : bits.length % 8 ≠ 7 := fun h => hfull (BitVec.toNat_inj.mp (hcount.trans h))
    have hlast : base + (bits.length + 1) / 8 = x.1.wrPtr.toNat := by omega
    rw [hlast, pkPush_notFull cap hfull]
    exact .done hroom rfl fun _ _ => rfl

theorem enShift_writesTo (p : BitVec 32) (l : Nat) (hbits : bits.length + l < 2 ^ 37)
    (hptr : base + (bits.length + l) / 8 < 2 ^ 35) :
    WritesTo cap (base + (bits.length + l) / 8) x (enShift cap p l x) := by
  induction l generalizing bits x with
  | zero =>
    rw [Nat.add_zero, ← hx.pointer]
    exact .stay hroom
  | succ l ih =>
    rw [enShift_succ]
    refine (pkPush_writesTo hx hroom _ (by omega)).bind (by omega) fun y hy hfit _ => ?_
    have hnext := packed_pkPush hx hy (by omega) (by omega)
    have hlen : (bits ++ [p.getLsbD l]).length + l = bits.length + (l + 1) := by
      rw [List.length_append, List.length_singleton]
      omega
    rw [← hlen]
    exact ih hnext hfit (by omega) (by omega)

/-- The flush writes a byte begun (43_encoder_packer.md R164). -/
theorem pkFlush_writesTo (hptr : base + ceil8 bits.length < 2 ^ 35) :
    WritesTo cap (base + ceil8 bits.length) x (pkFlush cap x) := by
  have hcount := hx.count
  have hpointer := hx.pointer
  rw [ceil8] at hptr ⊢
  by_cases hempty : x.1.pkCnt = 0
  · have hwhole : bits.length % 8 = 0 := by rw [← hcount, hempty]; rfl
    have hlast : base + (bits.length + 7) / 8 = x.1.wrPtr.toNat := by omega
    rw [hlast, pkFlush_empty cap hempty]
    exact .stay hroom
  · have hheld : bits.length % 8 ≠ 0 := fun h => hempty (BitVec.toNat_inj.mp (hcount.trans h))
    have hlast : base + (bits.length + 7) / 8 = x.1.wrPtr.toNat + 1 := by omega
    rw [hlast] at hptr ⊢
    rw [pkFlush_held cap hempty]
    exact WritesTo.write (vs := [_]) (by show (x.1.wrPtr + 1).toNat = _ + 1; bv_omega)

end Packer

theorem bitstream_cons (w : Work) (sym : Sym) (syms : List Sym) :
    w.bitstream (sym :: syms) = w.codeOf sym ++ w.bitstream syms := rfl

/-- A code has at most 32 bits (10_state.md R40). -/
theorem codeOf_length_le {w : Work} (hcodes : UsableCodes w) (sym : Sym) : (w.codeOf sym).length ≤ 32 := by
  rw [Work.codeOf]
  split
  next i hi =>
    obtain ⟨e, he, -⟩ := enLookup_eq_ok hi
    rw [Work.codeBits, bitString_length]
    exact (hcodes.legal i (List.getElem?_eq_some_iff.mp he).1).2.1
  next => exact Nat.zero_le _

theorem bitstream_length_le {w : Work} (hcodes : UsableCodes w) (syms : List Sym) :
    (w.bitstream syms).length ≤ 32 * syms.length := by
  induction syms with
  | nil => exact le_rfl
  | cons sym syms ih =>
    have hcode := codeOf_length_le hcodes sym
    rw [bitstream_cons, List.length_append, List.length_cons]
    omega

section Symbols
variable {w : Work} (hcodes : UsableCodes w) {p : Params} {symIn : Memory 32} {inLen : BitVec 32}
  (hfit : fits p.symInCap inLen.toNat = true)
  (hknown : ∀ a < inLen.toNat, ∃ i, enLookup (symIn.read a) w.ft = .ok i)
include hcodes hfit hknown

/-- EN writes the whole bytes of the bitstream (43_encoder_packer.md R160). -/
theorem enLoop_writesTo {base n : Nat} {bits : List Bool} {x : Writer} (hft : x.1.ft = w.ft) (hcode : x.1.code = w.code)
    (hx : Packed base bits x) (hroom : fits p.byteOutCap x.1.wrPtr.toNat = true)
    (hn : x.1.inIdx.toNat + n = inLen.toNat) (hbits : bits.length + 32 * n < 2 ^ 37)
    (hptr : base + (bits.length + 32 * n) / 8 < 2 ^ 35) :
    WritesTo p.byteOutCap (base + (bits.length + (w.bitstream (symIn.readList x.1.inIdx.toNat n)).length) / 8) x
      (enLoop p symIn inLen n x) := by
  induction n generalizing bits x with
  | zero =>
    show WritesTo _ (base + (bits.length + 0) / 8) x _
    rw [Nat.add_zero, ← hx.pointer]
    exact .stay hroom
  | succ n ih =>
    have hin : x.1.inIdx.toNat < inLen.toNat := by omega
    obtain ⟨i, hi⟩ := hknown _ hin
    rw [Memory.readList, bitstream_cons, List.length_append]
    generalize hsym : symIn.read x.1.inIdx.toNat = sym at hi ⊢
    have hcodeOf : w.codeOf sym = bitString (x.1.codeAt i).len.toNat (x.1.codeAt i).pat := by
      rw [codeOf_of_enLookup hi, Work.codeBits, Work.codeAt, Work.codeAt, hcode]
    have hlen : (x.1.codeAt i).len.toNat = (w.codeOf sym).length := by rw [hcodeOf, bitString_length]
    have hcode32 := codeOf_length_le hcodes sym
    have hsymbol : enSymbol p.byteOutCap sym x = enShift p.byteOutCap (x.1.codeAt i).pat (w.codeOf sym).length x := by
      rw [enSymbol_eq, hft, hi, except_ok_bind, hlen]
    rw [enLoop_succ (BitVec.lt_def.mpr hin), memReadOne_ok (fits_mono hfit hin), except_ok_bind, hsym, hsymbol]
    refine (enShift_writesTo hx hroom _ _ (by omega) (by omega)).bind (by omega) fun y hy hfit' _ => ?_
    have hframe := enShift_frame hy
    have hpacked : Packed base (bits ++ w.codeOf sym) y := by
      have := packed_enShift hx hy (by omega) (by omega)
      rwa [← hlen, ← hcodeOf] at this
    have hidx : (y.1.inIdx + 1).toNat = x.1.inIdx.toNat + 1 := by
      rw [hframe]
      show (x.1.inIdx + 1).toNat = _
      bv_omega
    have hlen' : (bits ++ w.codeOf sym).length = bits.length + (w.codeOf sym).length := List.length_append
    have hrest := ih (x := ({ y.1 with inIdx := y.1.inIdx + 1 }, y.2)) ((by rw [hframe] : y.1.ft = x.1.ft).trans hft)
      ((by rw [hframe] : y.1.code = x.1.code).trans hcode)
      ⟨hpacked.count, hpacked.total, hpacked.pointer, hpacked.written, hpacked.upper, hpacked.rest⟩ hfit'
      (hidx ▸ by omega) (by omega) (by omega)
    dsimp only at hrest
    rw [hidx, hlen', Nat.add_assoc] at hrest
    exact hrest.from_congr rfl

theorem enRun_writesTo {x : Writer} (hft : x.1.ft = w.ft) (hcode : x.1.code = w.code) (hcnt : x.1.pkCnt = 0)
    (hbyte : x.1.pkByte = 0) (htotal : x.1.bitTotal = 0) (hptr : x.1.wrPtr.toNat ≤ 2 + 9 * 65535)
    (hroom : fits p.byteOutCap x.1.wrPtr.toNat = true) :
    WritesTo p.byteOutCap (x.1.wrPtr.toNat + ceil8 (w.bitstream (symIn.readList 0 inLen.toNat)).length) x
      (enRun p symIn inLen x) := by
  have hlen : inLen.toNat < 2 ^ 32 := inLen.isLt
  have hstart : Packed x.1.wrPtr.toNat [] ({ x.1 with inIdx := 0 }, x.2) :=
    packed_start (x := ({ x.1 with inIdx := 0 }, x.2)) hcnt hbyte htotal
  have hstream := bitstream_length_le hcodes (symIn.readList 0 inLen.toNat)
  rw [Memory.readList_length] at hstream
  have hloop := enLoop_writesTo (x := ({ x.1 with inIdx := 0 }, x.2)) (n := inLen.toNat) hcodes hfit hknown hft hcode
    hstart hroom (Nat.zero_add _) (by rw [List.length_nil]; omega) (by rw [List.length_nil]; omega)
  rw [List.length_nil, Nat.zero_add] at hloop
  rw [enRun_eq]
  refine (hloop.from_congr (x' := x) rfl).bind ?_ fun z hz hfit' _ => ?_
  · rw [ceil8]
    exact Nat.add_le_add_left (Nat.div_le_div_right (Nat.le_add_right _ 7)) _
  · obtain ⟨-, -, hpacked⟩ := packed_enLoop (base := x.1.wrPtr.toNat) (x := ({ x.1 with inIdx := 0 }, x.2))
      (n := inLen.toNat) hcodes hft hcode hstart hz (Nat.zero_add _) (by rw [List.length_nil]; omega)
      (by rw [List.length_nil]; omega)
    rw [List.nil_append] at hpacked
    refine pkFlush_writesTo hpacked hfit' ?_
    show x.1.wrPtr.toNat + ceil8 (w.bitstream (symIn.readList 0 inLen.toNat)).length < _
    rw [ceil8]
    omega

end Symbols

end Sys2Proof.Machine
end

