-- ==== Sys2Proof/Proofs/EncodedFile.lean ====
section
/-! SUPPORT. The file of an ENCODE that has found its codes (47_commands.md R215, section 2), and the states its run passes
through. -/

namespace Sys2Proof.Machine

/-! ### The tables do not change from phase CG on -/

theorem codeOf_congr {w w' : Work} (hft : w'.ft = w.ft) (hcode : w'.code = w.code) : w'.codeOf = w.codeOf := by
  have hat : ∀ i, w'.codeAt i = w.codeAt i := fun i => by rw [Work.codeAt, Work.codeAt, hcode]
  funext x
  rw [Work.codeOf, Work.codeOf, hft]
  cases enLookup x w.ft with
  | error e => rfl
  | ok i => exact congrArg₂ bitString (congrArg _ (congrArg CodeEntry.len (hat i))) (congrArg CodeEntry.pat (hat i))

theorem bitstream_congr {w w' : Work} (hft : w'.ft = w.ft) (hcode : w'.code = w.code) (syms : List Sym) :
    w'.bitstream syms = w.bitstream syms := by
  rw [Work.bitstream, Work.bitstream, codeOf_congr hft hcode]

theorem fileBytes_congr {w w' : Work} (hft : w'.ft = w.ft) (hcode : w'.code = w.code) (syms : List Sym) :
    w'.fileBytes syms = w.fileBytes syms := by
  rw [Work.fileBytes, Work.fileBytes, tableBytes_congr hft hcode, bitstream_congr hft hcode]

theorem tsRun_fileBytes {cap : Option Nat} {x y : Writer} (h : tsRun cap x = .ok y) (syms : List Sym) :
    y.1.fileBytes syms = x.1.fileBytes syms :=
  fileBytes_congr (by rw [tsRun_frame h]) (by rw [tsRun_frame h]) syms

/-! ### Sizes (30_encoding.md R102) -/

theorem entriesBytes_length (w : Work) (i : Nat) (es : List FtEntry) : (w.entriesBytes i es).length = 9 * es.length := by
  induction es generalizing i with
  | nil => rfl
  | cons e es ih =>
    rw [Work.entriesBytes, List.length_append, ih, List.length_cons]
    show 9 + _ = _
    omega

theorem packBits_length (bits : List Bool) : (packBits bits).length = ceil8 bits.length := by
  rw [packBits, List.length_map, List.length_range]

theorem fileBytes_length (w : Work) (syms : List Sym) :
    (w.fileBytes syms).length = 2 + 9 * w.ft.length + ceil8 (w.bitstream syms).length := by
  rw [Work.fileBytes, Work.tableBytes, List.length_append, List.length_append, entriesBytes_length, packBits_length]
  rfl

/-! ### TS and EN with the codes found -/

section Found
variable {s : State} {w v : Work} (hparams : s.params.Legal)
  (hw : faRun s.params s.symIn s.inLen (Work.start .encode false) = .ok w) (hv : buildCodes w = .ok v)
include hw hv

/-- Every Symbol of the input has a code (43_encoder_packer.md R166). -/
theorem known_of_buildCodes : ∀ a < s.inLen.toNat, ∃ i, enLookup (s.symIn.read a) v.ft = .ok i := by
  intro a ha
  have hread := Memory.readList_getElem? s.symIn 0 s.inLen.toNat a ha
  rw [Nat.zero_add] at hread
  rw [(buildCodes_start hw hv).1]
  exact exists_enLookup (((ftOf_faRun hw).keys _).mpr (List.mem_of_getElem? hread))

include hparams

theorem ft_length_le_of_buildCodes : v.ft.length ≤ 65535 := by
  rw [(buildCodes_start hw hv).1]
  exact (faRun_ft_length_le hw (Nat.zero_le _)).trans hparams.2

/-- The file is written if it fits BYTE_OUT, else the end is IOError (47_commands.md R225). -/
theorem tables_writesTo (hfit : s.inputFits .encode = true) :
    WritesTo s.params.byteOutCap (v.fileBytes s.inputSymbols).length (v, s.byteOut)
      (tsRun s.params.byteOutCap (v, s.byteOut) >>= enRun s.params s.symIn s.inLen) := by
  obtain ⟨-, ⟨hidx, hptr, hcnt⟩, hbyte, htotal⟩ := buildCodes_start hw hv
  have hmax := ft_length_le_of_buildCodes hparams hw hv
  rw [fileBytes_length]
  refine (tsRun_writesTo (x := (v, s.byteOut)) hptr hidx hmax).bind (Nat.le_add_right _ _) fun z hz hroom hend => ?_
  have hframe := tsRun_frame hz
  replace hend : z.1.wrPtr.toNat = 2 + 9 * v.ft.length := hend
  rw [← hend]
  exact enRun_writesTo (prefixCodes_buildCodes hparams hw hv).usable hfit (known_of_buildCodes hw hv) (by rw [hframe])
    (by rw [hframe]) (by rw [hframe]; exact hcnt) (by rw [hframe]; exact hbyte) (by rw [hframe]; exact htotal) (by omega)
    hroom

theorem fileOf_of_units {z y : Writer} (hz : tsRun s.params.byteOutCap (v, s.byteOut) = .ok z)
    (hy : enRun s.params s.symIn s.inLen z = .ok y) : FileOf s v y := by
  obtain ⟨hroom, hptr, hft, -, htable⟩ := encode_writes_table hparams hw hv hz hy
  obtain ⟨-, ⟨-, -, hcnt⟩, hbyte, htotal⟩ := buildCodes_start hw hv
  have hcodes := prefixCodes_buildCodes hparams hw hv
  have hframe := tsRun_frame hz
  have hmax := ft_length_le_of_buildCodes hparams hw hv
  obtain ⟨hknown, hbits, hsize, hpayload⟩ := enRun_writes hcodes.usable (by rw [hframe]) (by rw [hframe])
    (by rw [hframe]; exact hcnt) (by rw [hframe]; exact hbyte) (by rw [hframe]; exact htotal) (by omega) hy
  rw [hptr] at hsize hpayload
  exact ⟨hcodes, hroom, by rw [Work.ftN, Work.ftN, hft], hknown, hbits, hsize, htable, hpayload⟩

end Found

theorem FileOf.outputFile {s : State} {v : Work} {y : Writer} (h : FileOf s v y) :
    (s.encodeDone y).outputFile = v.fileBytes s.inputSymbols := by
  show y.2.readList 0 y.1.wrPtr.toNat = _
  rw [h.size, Memory.readList_append, h.table, Nat.zero_add, h.payload]
  rfl

theorem FileOf.encTabN {s : State} {v : Work} {y : Writer} (h : FileOf s v y) (hmax : v.ft.length ≤ 65535) :
    (s.encodeDone y).encTabN.toNat = v.ft.length := by
  show y.1.ftN.toNat = _
  rw [h.count, Work.ftN, BitVec.toNat_ofNat]
  omega

/-- An ENCODE that has found its codes ends without error if its file fits BYTE_OUT, with IOError if not. -/
theorem encodeRun_of_codes {s : State} {w v : Work} (hparams : s.params.Legal) (hstart : s.startCheck .encode = .ok ())
    (hw : faRun s.params s.symIn s.inLen (Work.start .encode false) = .ok w) (hv : buildCodes w = .ok v) :
    (fits s.params.byteOutCap (v.fileBytes s.inputSymbols).length = true → ∃ y, s.encodeRun = .ok y ∧ FileOf s v y) ∧
    (fits s.params.byteOutCap (v.fileBytes s.inputSymbols).length = false → s.encodeRun = .error .ioError) := by
  have hrun : s.encodeRun = tsRun s.params.byteOutCap (v, s.byteOut) >>= enRun s.params s.symIn s.inLen := by
    rw [State.encodeRun, hstart, except_ok_bind, hw, except_ok_bind, hv, except_ok_bind]
  have hwrites := tables_writesTo hparams hw hv (startCheck_eq_ok_iff.mp hstart).2
  rw [hrun]
  refine ⟨fun hroom => ?_, hwrites.error_of_not_fits⟩
  obtain ⟨y, hy⟩ := hwrites.ok_of_fits hroom
  obtain ⟨z, hz, hend⟩ := except_bind_eq_ok_iff.mp hy
  exact ⟨y, hy, fileOf_of_units hparams hw hv hz hend⟩

/-! ### The states a run passes through -/

/-- The tables of an ENCODE, where its phase TS begins. -/
theorem encode_reaches_ts {s m : State} (h : Reaches .encode .ts s m) :
    s.startCheck .encode = .ok () ∧ ∃ w, faRun s.params s.symIn s.inLen (Work.start .encode false) = .ok w ∧
    ∃ v, buildCodes w = .ok v ∧ m = s.encoding .ts (v, s.byteOut) := by
  obtain ⟨-, hphase, k, hk⟩ := h
  cases coreRun_invariant (encodeAt_coreStep s) (encodeAt_start s) hk with
  | @ts w v hstart hw hv => exact ⟨hstart, w, hw, v, hv, rfl⟩
  | ended => cases (encodeOutcome_phase s _).symm.trans hphase
  | _ => cases hphase

theorem Reaches.next {op : Op} {p q : Phase} {s m u : State} (h : Reaches op p s m) (hstep : coreStep m = .next u)
    (hu : u.phase = q) : Reaches op q s u := by
  obtain ⟨hbusy, -, k, hk⟩ := h
  refine ⟨hbusy, hu, k + 1, ?_⟩
  rw [coreRun_add hk, coreRun_succ hstep]
  rfl

section Path
variable {s : State} {w v : Work} (hbusy : s.busy = false) (hstart : s.startCheck .encode = .ok ())
  (hw : faRun s.params s.symIn s.inLen (Work.start .encode false) = .ok w) (hv : buildCodes w = .ok v)
include hbusy hstart hw hv

theorem reaches_ts : Reaches .encode .ts s (s.encoding .ts (v, s.byteOut)) := by
  obtain ⟨hports, hfits⟩ := startCheck_eq_ok_iff.mp hstart
  have hfa : Reaches .encode .fa s (s.encoding .fa (Work.start .encode false, s.byteOut)) :=
    ⟨hbusy, rfl, 0, congrArg _ (start_ok hports hfits)⟩
  have hnext : coreStep (s.encoding .fa (Work.start .encode false, s.byteOut)) =
      .next (s.encoding (if w.ft.length = 0 then .ts else .tb) (w, s.byteOut)) := by
    rw [coreStep_fa rfl]
    obtain ⟨e, he, -⟩ | ⟨w', hw', hend⟩ := phaseFA_cases (s.encoding .fa (Work.start .encode false, s.byteOut))
    · cases he.symm.trans hw
    · cases hw'.symm.trans hw
      exact congrArg _ hend
  rw [buildCodes] at hv
  split at hv
  next hempty =>
    cases hv
    rw [if_pos hempty] at hnext
    exact hfa.next hnext rfl
  next hne =>
    rw [if_neg hne] at hnext
    have hcg : Reaches .encode .cg s (s.encoding .cg (tbRun w, s.byteOut)) :=
      (hfa.next hnext rfl).next (coreStep_tb rfl) rfl
    refine hcg.next ?_ rfl
    rw [coreStep_cg rfl]
    obtain ⟨e, he, -⟩ | ⟨v', hv', hend⟩ := phaseCG_cases (s.encoding .cg (tbRun w, s.byteOut))
    · cases he.symm.trans hv
    · cases hv'.symm.trans hv
      exact congrArg _ hend

theorem reaches_en {z : Writer} (hz : tsRun s.params.byteOutCap (v, s.byteOut) = .ok z) :
    Reaches .encode .en s (s.encoding .en z) :=
  (reaches_ts hbusy hstart hw hv).next (coreStep_encoding_ts hz) rfl

end Path

/-- An ENCODE without error: its units, the state with phase EN to be done next, and its file. -/
theorem encode_written {s t : State} (hparams : s.params.Legal) (h : EndOfRun .encode s t) (herr : t.err = false) :
    ∃ v z y, t = s.encodeDone y ∧ Reaches .encode .en s (s.encoding .en z) ∧ z.1.ft = v.ft ∧ z.1.code = v.code ∧
      FileOf s v y ∧ v.ft.length ≤ 65535 ∧ ∀ a, (v.fileBytes s.inputSymbols).length ≤ a → y.2.read a = s.byteOut.read a := by
  obtain ⟨y, hy, rfl⟩ := encode_ok h herr
  obtain ⟨hstart, w, hw, v, hv, z, hz, hend⟩ := encodeRun_eq_ok_iff.mp hy
  have hwrites := tables_writesTo hparams hw hv (startCheck_eq_ok_iff.mp hstart).2
  rw [hz, except_ok_bind, hend] at hwrites
  exact ⟨v, z, y, rfl, reaches_en h.1 hstart hw hv hz, by rw [tsRun_frame hz], by rw [tsRun_frame hz],
    fileOf_of_units hparams hw hv hz hend, ft_length_le_of_buildCodes hparams hw hv, hwrites.above⟩

end Sys2Proof.Machine
end

