-- ==== Sys2Proof/Proofs/Packing.lean ====
section
/-! The statements about the packer and about the file an ENCODE writes (43_encoder_packer.md, 47_commands.md
section 1). -/

namespace Sys2Proof
open Machine

/-- Settles O43: a push with fewer than seven bits held only shifts the byte in progress, the eighth bit and the flush write
it if BYTE_OUT has its place. -/
theorem pushAppendsOneBit : Obligations.PushAppendsOneBit := by
  refine ⟨fun cap base bits b x hx hnotFull hbits => ?held, fun cap base bits b x hx hfull hroom hbits hptr => ?eighth,
    fun cap b x hfull hroom => ?noRoom, fun cap x hheld hroom => ?flush⟩
  case held =>
    have hsmall : bits.length % 8 ≠ 7 := fun h => hnotFull (BitVec.toNat_inj.mp (hx.count.trans h))
    have hptr := hx.pointer
    have hlt := x.1.wrPtr.isLt
    have hpush := pkPush_notFull cap hnotFull b
    exact ⟨_, hpush, packed_pkPush hx hpush hbits (by omega), rfl⟩
  case eighth =>
    have hpush := pkPush_full cap hfull b
    rw [memWrite_ok (vs := [_]) hroom, except_ok_bind] at hpush
    refine ⟨_, hpush, packed_pkPush hx hpush hbits (by omega), fun a ha => ?_⟩
    exact Memory.read_write_other _ ha _
  case noRoom => rw [pkPush_full cap hfull, memWrite_full (vs := [_]) hroom, except_error_bind]
  case flush => rw [pkFlush_held cap hheld, memWrite_full (vs := [_]) hroom, except_error_bind]

/-- Settles O44: with BYTE_OUT unbounded every push finds its room. -/
theorem shiftAppendsTheCode : Obligations.ShiftAppendsTheCode := by
  intro base bits l p x hx _ hbits hptr
  obtain ⟨y, hy⟩ := (enShift_writesTo (cap := none) hx rfl p l hbits hptr).ok_of_fits rfl
  exact ⟨y, hy, packed_enShift hx hy hbits hptr⟩

/-- Settles O19: TS and EN write the table and the packed bitstream one behind the other, and nothing above them. -/
theorem encodeWritesTheFile : Obligations.EncodeWritesTheFile := by
  intro s t hparams ht herr
  obtain ⟨v, z, y, rfl, hm, hft, hcode, hfile, hmax, habove⟩ := encode_written hparams ht herr
  have hcount := hfile.encTabN hmax
  have hbits : (s.encodeDone y).encBits.toNat = (v.bitstream s.inputSymbols).length := hfile.bits
  have hsize : (s.encodeDone y).byteOutLen.toNat = (v.fileBytes s.inputSymbols).length :=
    hfile.size.trans (fileBytes_length _ _).symm
  refine ⟨_, hm, hcount.trans (congrArg List.length hft.symm), ?_, ?_, ?_, fun a ha => habove a (hsize ▸ ha)⟩
  · exact hbits.trans (congrArg List.length (bitstream_congr hft hcode _).symm)
  · rw [hcount, hbits]
    exact hfile.size
  · exact hfile.outputFile.trans (fileBytes_congr hft hcode _).symm

end Sys2Proof
end

