-- ==== Sys2Proof/Proofs/TreeGrowth.lean ====
section
/-! SUPPORT. The arena and the queue of unit TB from `TB.LOAD` through the merges to the finished tree
(41_tree_builder.md R134 to R140). -/

namespace Sys2Proof.Machine

/-! ### One merge -/

/-- `TB.MERGE` takes the smallest node and the smallest of the rest (41_tree_builder.md R135). -/
theorem exists_tbMerge_smallest {w : Work} (hlen : 2 ≤ w.pq.length) (hnodup : w.pq.Nodup) :
    ∃ a b, a ∈ w.pq ∧ b ∈ w.pq.erase a ∧
      (∀ j ∈ w.pq, j ≠ a → w.smaller a j = true) ∧ (∀ j ∈ w.pq, j ≠ a → j ≠ b → w.smaller b j = true) ∧
      pqPopMin w = some (a, { w with pq := w.pq.erase a }) ∧
      pqPopMin { w with pq := w.pq.erase a } = some (b, { w with pq := (w.pq.erase a).erase b }) ∧
      tbMerge w = { w with
        node := w.node ++ [mergedNode w a b], pq := (w.pq.erase a).erase b ++ [w.nodeN] } := by
  obtain ⟨a, ha, hpopa, hleasta⟩ := exists_pqPopMin_eq_some (List.ne_nil_of_length_pos (by omega : 0 < w.pq.length))
  have hrest : (w.pq.erase a).length + 1 = w.pq.length := List.length_erase_add_one ha
  obtain ⟨b, hb, hpopb, hleastb⟩ := exists_pqPopMin_eq_some (w := { w with pq := w.pq.erase a })
    (List.ne_nil_of_length_pos (by omega : 0 < (w.pq.erase a).length))
  exact ⟨a, b, ha, hb, hleasta, fun j hj hja hjb => hleastb j (hnodup.mem_erase_iff.mpr ⟨hja, hj⟩) hjb, hpopa, hpopb,
    tbMerge_of_popMin hpopa hpopb⟩

/-- A merge breaks no node that stands. -/
theorem nodeAt_append {w w' : Work} {more : List Node} (h : w'.node = w.node ++ more) {k : NodeIdx}
    (hk : k.toNat < w.node.length) : w'.nodeAt k = w.nodeAt k := by
  rw [Work.nodeAt, Work.nodeAt, h, List.getElem?_append_left hk]

theorem smaller_congr {w w' : Work} {a b : NodeIdx} (ha : w'.nodeAt a = w.nodeAt a) (hb : w'.nodeAt b = w.nodeAt b) :
    w'.smaller a b = w.smaller a b := by
  rw [Work.smaller, Work.smaller, ha, hb]

theorem tbLoop_invariant {P : Work → Prop} (hmerge : ∀ w, P w → 2 ≤ w.pq.length → P (tbMerge w)) {n : Nat} {w : Work}
    (hw : P w) : P (tbLoop n w) := by
  induction n generalizing w with
  | zero => exact hw
  | succ n ih =>
    rw [tbLoop]
    split
    next h => exact ih (hmerge w hw h)
    next => exact hw

/-- The loop of `TB.RUN` is one merge fewer than nodes are queued (41_tree_builder.md R136). -/
theorem tbLoop_eq_iterate {n : Nat} {w : Work} (hn : w.pq.length ≤ n + 1) :
    tbLoop n w = Nat.iterate tbMerge (w.pq.length - 1) w := by
  induction n generalizing w with
  | zero =>
    rw [Nat.sub_eq_zero_of_le hn]
    rfl
  | succ n ih =>
    rw [tbLoop]
    split
    next h =>
      have hlen := tbMerge_pq_length h
      obtain ⟨m, hm⟩ : ∃ m, w.pq.length = m + 2 := Nat.exists_eq_add_of_le' h
      rw [ih (by omega), hm, show (tbMerge w).pq.length - 1 = m by omega]
      rfl
    next h =>
      rw [Nat.sub_eq_zero_of_le (by omega)]
      rfl

theorem leafIndices_toNat {n : Nat} (h : n ≤ 65535) : (leafIndices n).map BitVec.toNat = List.range n := by
  rw [leafIndices, List.map_map]
  refine (List.map_congr_left fun i hi => ?_).trans (List.map_id _)
  exact leafIndex_toNat (List.mem_range.mp hi) h

/-! ### The growing tree -/

/-- Node `i` is a child of the internal node at index `k` (10_state.md R37). -/
def IsParent (w : Work) (k : Nat) (i : NodeIdx) : Prop :=
  ∃ nd, w.ft.length ≤ k ∧ w.node[k]? = some nd ∧ (nd.left = i ∨ nd.right = i)

/-- The arena and the queue while TB merges (41_tree_builder.md R134 to R136, R140). -/
structure Growing (w : Work) : Prop where
  leaves : w.ft.map leafOf <+: w.node
  size : w.node.length + w.pq.length = 2 * w.ft.length
  nodup : w.pq.Nodup
  queued : ∀ k ∈ w.pq, k.toNat < w.node.length
  newest : ∀ k, w.pq.getLast? = some k → k.toNat + 1 = w.node.length
  internal : ∀ k nd, w.ft.length ≤ k → w.node[k]? = some nd →
    nd.leaf = false ∧ nd.left.toNat < k ∧ nd.right.toNat < k ∧ nd.left ≠ nd.right
  roots : ∀ i ∈ w.pq, ∀ k, ¬ IsParent w k i
  parents : ∀ i : NodeIdx, i.toNat < w.node.length → i ∉ w.pq → ∃! k, IsParent w k i

theorem Growing.ft_length_le {w : Work} (h : Growing w) : w.ft.length ≤ w.node.length := by
  have hle := h.leaves.length_le
  rwa [List.length_map] at hle

theorem growing_tbLoad {w : Work} (hmax : w.ft.length ≤ 65535) : Growing (tbLoad w) := by
  have hpq := leafIndices_toNat hmax
  have hlen : (leafIndices w.ft.length).length = w.ft.length := by rw [leafIndices, List.length_map, List.length_range]
  have hmem : ∀ k : NodeIdx, k ∈ leafIndices w.ft.length ↔ k.toNat < w.ft.length := fun k => by
    rw [← List.mem_range, ← hpq, List.mem_map_of_injective fun _ _ => BitVec.eq_of_toNat_eq]
  have hnone : ∀ k nd, w.ft.length ≤ k → (w.ft.map leafOf)[k]? = some nd → False := fun k nd hk hnd => by
    obtain ⟨hlt, -⟩ := List.getElem?_eq_some_iff.mp hnd
    rw [List.length_map] at hlt
    omega
  constructor
  case leaves => exact List.prefix_rfl
  case size =>
    show (w.ft.map leafOf).length + (leafIndices w.ft.length).length = _
    rw [hlen, List.length_map, tbLoad_ft]
    omega
  case nodup => exact List.Nodup.of_map _ (hpq ▸ List.nodup_range)
  case queued =>
    intro k hk
    rw [tbLoad_node, List.length_map]
    exact (hmem k).mp hk
  case newest =>
    intro k hk
    have hlast : (List.range w.ft.length).getLast? = some k.toNat := by
      rw [← hpq, List.getLast?_map]
      exact congrArg (Option.map BitVec.toNat) hk
    rw [tbLoad_node, List.length_map]
    rw [List.getLast?_range] at hlast
    split at hlast
    next => cases hlast
    next =>
      have hlast := Option.some.inj hlast
      omega
  case internal => exact fun k nd hk hnd => (hnone k nd hk hnd).elim
  case roots => exact fun i _ k ⟨nd, hk, hnd, _⟩ => hnone k nd hk hnd
  case parents =>
    intro i hi hnot
    rw [tbLoad_node, List.length_map] at hi
    exact absurd ((hmem i).mpr hi) hnot

theorem Growing.nodeN_toNat {w : Work} (h : Growing w) (hmax : w.ft.length ≤ 65535) (hpos : 1 ≤ w.pq.length) :
    w.nodeN.toNat = w.node.length := by
  have hsize := h.size
  rw [Work.nodeN, BitVec.toNat_ofNat]
  exact Nat.mod_eq_of_lt (by omega)

/-- The parents of the arena with one node more. -/
theorem Growing.isParent_iff {w w' : Work} (h : Growing w) {a b : NodeIdx} (hft : w'.ft = w.ft)
    (hnode : w'.node = w.node ++ [mergedNode w a b]) (k : Nat) (i : NodeIdx) : IsParent w' k i ↔ IsParent w k i ∨ (k = w.node.length ∧ (a = i ∨ b = i)) := by
  have hle := h.ft_length_le
  rw [IsParent, IsParent, hft, hnode]
  constructor
  · rintro ⟨nd, hk, hnd, hchild⟩
    obtain hlt | rfl | hgt := Nat.lt_trichotomy k w.node.length
    · rw [List.getElem?_append_left hlt] at hnd
      exact .inl ⟨nd, hk, hnd, hchild⟩
    · rw [List.getElem?_concat_length] at hnd
      cases hnd
      exact .inr ⟨rfl, hchild⟩
    · rw [List.getElem?_eq_none (by rw [List.length_append, List.length_singleton]; omega)] at hnd
      cases hnd
  · rintro (⟨nd, hk, hnd, hchild⟩ | ⟨rfl, hchild⟩)
    · obtain ⟨hlt, -⟩ := List.getElem?_eq_some_iff.mp hnd
      exact ⟨nd, hk, (List.getElem?_append_left hlt).trans hnd, hchild⟩
    · exact ⟨mergedNode w a b, hle, List.getElem?_concat_length, hchild⟩

section Merge
variable {w : Work} (h : Growing w) (hmax : w.ft.length ≤ 65535) {a b : NodeIdx} (ha : a ∈ w.pq) (hb : b ∈ w.pq.erase a)
include h hmax ha hb

/-- A merge takes two roots and makes one new root, their parent. -/
theorem Growing.merge : Growing { w with
    node := w.node ++ [mergedNode w a b], pq := (w.pq.erase a).erase b ++ [w.nodeN] } := by
  have hnew := h.nodeN_toNat hmax (List.length_pos_of_mem ha)
  have hparent := fun k i => h.isParent_iff (w' := { w with
    node := w.node ++ [mergedNode w a b], pq := (w.pq.erase a).erase b ++ [w.nodeN] }) rfl rfl k i
  obtain ⟨hba, hbpq⟩ := h.nodup.mem_erase_iff.mp hb
  have halt := h.queued a ha
  have hblt := h.queued b hbpq
  have hkept : ∀ k, k ∈ (w.pq.erase a).erase b ↔ k ≠ b ∧ k ≠ a ∧ k ∈ w.pq := fun k => by
    rw [(h.nodup.erase a).mem_erase_iff, h.nodup.mem_erase_iff]
  have hchild : ∀ k i, IsParent w k i → i.toNat < w.node.length := by
    rintro k i ⟨nd, hk, hnd, hc⟩
    obtain ⟨-, hl, hr, -⟩ := h.internal k nd hk hnd
    obtain ⟨hlt, -⟩ := List.getElem?_eq_some_iff.mp hnd
    obtain rfl | rfl := hc <;> omega
  constructor
  case leaves => exact h.leaves.trans (List.prefix_append _ _)
  case size =>
    have hsize := h.size
    simp only [List.length_append, List.length_singleton]
    have h1 := List.length_erase_add_one ha
    have h2 := List.length_erase_add_one hb
    omega
  case nodup =>
    refine List.Nodup.append ((h.nodup.erase a).erase b) (List.nodup_singleton _) fun k hk hk' => ?_
    have hlt := h.queued k ((hkept k).mp hk).2.2
    rw [List.mem_singleton.mp hk', hnew] at hlt
    omega
  case queued =>
    intro k hk
    rw [List.length_append, List.length_singleton]
    obtain hk | hk := List.mem_append.mp hk
    · exact (h.queued k ((hkept k).mp hk).2.2).trans (Nat.lt_succ_self _)
    · rw [List.mem_singleton.mp hk, hnew]
      exact Nat.lt_succ_self _
  case newest =>
    intro k hk
    obtain rfl := Option.some.inj (List.getLast?_concat.symm.trans hk)
    rw [hnew, List.length_append, List.length_singleton]
  case internal =>
    intro k nd hk hnd
    obtain hlt | rfl | hgt := Nat.lt_trichotomy k w.node.length
    · rw [List.getElem?_append_left hlt] at hnd
      exact h.internal k nd hk hnd
    · rw [List.getElem?_concat_length] at hnd
      cases hnd
      exact ⟨rfl, halt, hblt, hba.symm⟩
    · rw [List.getElem?_eq_none (by rw [List.length_append, List.length_singleton]; omega)] at hnd
      cases hnd
  case roots =>
    intro i hi k hk
    obtain hk | ⟨-, hab⟩ := (hparent k i).mp hk
    · obtain hi | hi := List.mem_append.mp hi
      · exact h.roots i ((hkept i).mp hi).2.2 k hk
      · have hlt := hchild k i hk
        rw [List.mem_singleton.mp hi, hnew] at hlt
        omega
    · obtain hi | hi := List.mem_append.mp hi
      · obtain ⟨hnb, hna, -⟩ := (hkept i).mp hi
        obtain rfl | rfl := hab
        · exact hna rfl
        · exact hnb rfl
      · have heq : i.toNat = w.node.length := by rw [List.mem_singleton.mp hi, hnew]
        obtain rfl | rfl := hab <;> omega
  case parents =>
    intro i hi hnot
    rw [List.length_append, List.length_singleton] at hi
    rw [List.mem_append, not_or, List.mem_singleton, hkept] at hnot
    obtain ⟨hgone, hne⟩ := hnot
    have hlt : i.toNat < w.node.length := by
      have : i.toNat ≠ w.node.length := fun heq => hne (BitVec.eq_of_toNat_eq (heq.trans hnew.symm))
      omega
    by_cases htaken : a = i ∨ b = i
    · have hroot : i ∈ w.pq := by obtain rfl | rfl := htaken <;> assumption
      refine ⟨w.node.length, (hparent _ i).mpr (.inr ⟨rfl, htaken⟩), fun k hk => ?_⟩
      obtain hk | ⟨heq, -⟩ := (hparent k i).mp hk
      · exact absurd hk (h.roots i hroot k)
      · exact heq
    · have hold : i ∉ w.pq := fun hmem =>
        hgone ⟨fun heq => htaken (.inr heq.symm), fun heq => htaken (.inl heq.symm), hmem⟩
      obtain ⟨k, hk, hunique⟩ := h.parents i hlt hold
      refine ⟨k, (hparent k i).mpr (.inl hk), fun k' hk' => ?_⟩
      obtain hk' | ⟨-, hab⟩ := (hparent k' i).mp hk'
      · exact hunique k' hk'
      · exact absurd hab htaken

end Merge

theorem Growing.tbMerge {w : Work} (h : Growing w) (hmax : w.ft.length ≤ 65535) (hlen : 2 ≤ w.pq.length) :
    Growing (tbMerge w) := by
  obtain ⟨a, b, ha, hb, -, -, -, -, hmerge⟩ := exists_tbMerge_smallest hlen h.nodup
  exact hmerge ▸ h.merge hmax ha hb

/-! ### Frequencies -/

/-- The frequencies while TB merges: the queued nodes share the whole sum, and each internal node has its children's
(41_tree_builder.md R137, R140). -/
structure FrequenciesAdd (total : Nat) (w : Work) : Prop where
  queue : (w.pq.map fun k => (w.nodeAt k).freq.toNat).sum = total
  internal : ∀ k nd, w.ft.length ≤ k → w.node[k]? = some nd →
    nd.freq.toNat = (w.nodeAt nd.left).freq.toNat + (w.nodeAt nd.right).freq.toNat ∧
    w.smaller nd.left nd.right = true

theorem frequenciesAdd_tbLoad {w : Work} (hmax : w.ft.length ≤ 65535) :
    FrequenciesAdd (w.ft.map fun e => e.cnt.toNat).sum (tbLoad w) where
  queue := by
    have hread : ∀ i ∈ List.range w.ft.length,
        ((tbLoad w).nodeAt (BitVec.ofNat 17 i)).freq.toNat = ((w.ft.map fun e => e.cnt.toNat)[i]?).getD 0 := by
      intro i hi
      have hlt := List.mem_range.mp hi
      have hnode : (tbLoad w).node[(BitVec.ofNat 17 i).toNat]? = some (leafOf w.ft[i]) := by
        rw [leafIndex_toNat hlt hmax, tbLoad_node, List.getElem?_map, List.getElem?_eq_getElem hlt]
        rfl
      rw [Work.nodeAt_of_getElem? hnode, List.getElem?_map, List.getElem?_eq_getElem hlt]
      rfl
    rw [tbLoad_pq, leafIndices, List.map_map]
    refine congrArg List.sum ((List.map_congr_left hread).trans (List.ext_getElem? fun i => ?_))
    by_cases hi : i < w.ft.length
    · simp [hi]
    · simp [hi]
  internal k nd hk hnd := by
    obtain ⟨hlt, -⟩ := List.getElem?_eq_some_iff.mp hnd
    rw [tbLoad_node, List.length_map] at hlt
    rw [tbLoad_ft] at hk
    omega

theorem FrequenciesAdd.tbMerge {total : Nat} {w : Work} (h : FrequenciesAdd total w) (htotal : total < 2 ^ 32)
    (hw : Growing w) (hmax : w.ft.length ≤ 65535) (hlen : 2 ≤ w.pq.length) : FrequenciesAdd total (tbMerge w) := by
  obtain ⟨a, b, ha, hb, hleast, -, -, -, hmerge⟩ := exists_tbMerge_smallest hlen hw.nodup
  obtain ⟨hba, hbpq⟩ := hw.nodup.mem_erase_iff.mp hb
  have hnew := hw.nodeN_toNat hmax (by omega)
  have hperm : w.pq.Perm (a :: b :: (w.pq.erase a).erase b) :=
    (List.perm_cons_erase ha).trans ((List.perm_cons_erase hb).cons a)
  have hsum := ((hperm.map fun k => (w.nodeAt k).freq.toNat).sum_eq).symm.trans h.queue
  rw [List.map_cons, List.map_cons, List.sum_cons, List.sum_cons] at hsum
  have hadd : (mergedNode w a b).freq.toNat = (w.nodeAt a).freq.toNat + (w.nodeAt b).freq.toNat := by
    show ((w.nodeAt a).freq + (w.nodeAt b).freq).toNat = _
    rw [BitVec.toNat_add]
    exact Nat.mod_eq_of_lt (by omega)
  rw [hmerge]
  set w' : Work := { w with
    node := w.node ++ [mergedNode w a b], pq := (w.pq.erase a).erase b ++ [w.nodeN] }
  have hold : ∀ k : NodeIdx, k.toNat < w.node.length → w'.nodeAt k = w.nodeAt k := fun k => nodeAt_append rfl
  have hmerged : w'.nodeAt w.nodeN = mergedNode w a b := by
    refine Work.nodeAt_of_getElem? ?_
    rw [hnew]
    exact List.getElem?_concat_length
  constructor
  case queue =>
    show (((w.pq.erase a).erase b ++ [w.nodeN]).map fun k => (w'.nodeAt k).freq.toNat).sum = total
    have hkept : ((w.pq.erase a).erase b).map (fun k => (w'.nodeAt k).freq.toNat) =
        ((w.pq.erase a).erase b).map fun k => (w.nodeAt k).freq.toNat :=
      List.map_congr_left fun k hk => by
        rw [hold k (hw.queued k (List.mem_of_mem_erase (List.mem_of_mem_erase hk)))]
    rw [List.map_append, List.sum_append, hkept, List.map_singleton, List.sum_singleton, hmerged, hadd]
    omega
  case internal =>
    intro k nd hk hnd
    obtain hlt | rfl | hgt := Nat.lt_trichotomy k w.node.length
    · replace hnd : w.node[k]? = some nd := (List.getElem?_append_left hlt).symm.trans hnd
      obtain ⟨-, hl, hr, -⟩ := hw.internal k nd hk hnd
      have hleft := hold nd.left (hl.trans hlt)
      have hright := hold nd.right (hr.trans hlt)
      rw [hleft, hright, smaller_congr hleft hright]
      exact h.internal k nd hk hnd
    · obtain rfl := Option.some.inj (List.getElem?_concat_length.symm.trans hnd)
      have hleft := hold a (hw.queued a ha)
      have hright := hold b (hw.queued b hbpq)
      show (mergedNode w a b).freq.toNat = (w'.nodeAt a).freq.toNat + (w'.nodeAt b).freq.toNat ∧ w'.smaller a b = true
      rw [hleft, hright, smaller_congr hleft hright]
      exact ⟨hadd, hleast b hbpq hba⟩
    · rw [List.getElem?_eq_none (by rw [List.length_append, List.length_singleton]; omega)] at hnd
      cases hnd

/-! ### The finished tree -/

theorem tbRun_ft (w : Work) : (tbRun w).ft = w.ft := by rw [tbRun_frame]

theorem tbRun_frequenciesAdd {w : Work} (hmax : w.ft.length ≤ 65535)
    (hsum : (w.ft.map fun e => e.cnt.toNat).sum < 2 ^ 32) :
    FrequenciesAdd (w.ft.map fun e => e.cnt.toNat).sum (tbRun w) := by
  obtain ⟨⟨hqueue, hinternal⟩, -, -⟩ := tbLoop_invariant (n := (tbLoad w).pq.length) (w := tbLoad w)
    (P := fun u => FrequenciesAdd (w.ft.map fun e => e.cnt.toNat).sum u ∧ Growing u ∧ u.ft = w.ft)
    (fun u ⟨hfreq, hu, hft⟩ hlen => ⟨hfreq.tbMerge hsum hu (hft ▸ hmax) hlen, hu.tbMerge (hft ▸ hmax) hlen,
      (tbMerge_ft u).trans hft⟩)
    ⟨frequenciesAdd_tbLoad hmax, growing_tbLoad hmax, rfl⟩
  exact ⟨hqueue, hinternal⟩

section Finished
variable {w : Work} (hpos : 1 ≤ w.ft.length) (hmax : w.ft.length ≤ 65535)
include hpos hmax

/-- `TB.RUN` ends with one queued node, the root, and the invariants of the merges (41_tree_builder.md R136, R138). -/
theorem tbRun_finished : (tbRun w).pq = [(tbRun w).root] ∧ Growing (tbRun w) := by
  have hload : (tbLoad w).pq.length = w.ft.length := by simp [leafIndices]
  have hone : (tbLoop (tbLoad w).pq.length (tbLoad w)).pq.length = 1 := tbLoop_pq_length (by omega) (by omega)
  obtain ⟨root, hroot⟩ := List.length_eq_one_iff.mp hone
  have hgrown : Growing (tbLoop (tbLoad w).pq.length (tbLoad w)) :=
    (tbLoop_invariant (P := fun u => Growing u ∧ u.ft = w.ft)
      (fun u ⟨hu, hft⟩ hlen => ⟨hu.tbMerge (hft ▸ hmax) hlen, (tbMerge_ft u).trans hft⟩)
      ⟨growing_tbLoad hmax, rfl⟩).1
  refine ⟨?_, hgrown.leaves, hgrown.size, hgrown.nodup, hgrown.queued, hgrown.newest, hgrown.internal, hgrown.roots,
    hgrown.parents⟩
  simp only [tbRun, hroot, List.headD_cons]

/-- n leaves make 2n - 1 nodes, the root the last (41_tree_builder.md R138, R140). -/
theorem tbRun_size : (tbRun w).node.length = 2 * w.ft.length - 1 ∧ (tbRun w).root.toNat = 2 * w.ft.length - 2 := by
  obtain ⟨hpq, hgrown⟩ := tbRun_finished hpos hmax
  have hsize := hgrown.size
  have hlast := hgrown.newest (tbRun w).root (by rw [hpq]; rfl)
  rw [hpq, tbRun_ft w, List.length_singleton] at hsize
  omega

end Finished

end Sys2Proof.Machine
end

