-- ==== Sys2Proof/Proofs/Trees.lean ====
section
/-! The statements about the tree TB builds (41_tree_builder.md section 2, section 3). -/

namespace Sys2Proof
open Machine

/-- Settles O37: each merge takes two nodes from the queue and puts one back, with the largest index so far. -/
theorem treeShape : Obligations.TreeShape := by
  intro w hpos hmax
  obtain ⟨hpq, hgrown⟩ := tbRun_finished hpos hmax
  obtain ⟨hlen, hroot⟩ := tbRun_size hpos hmax
  have hft := tbRun_ft w
  refine ⟨hlen, hroot, hpq, fun i e he => ?_, fun k nd hk hnd => hgrown.internal k nd (hft ▸ hk) hnd⟩
  obtain ⟨hlt, -⟩ := List.getElem?_eq_some_iff.mp he
  obtain ⟨more, hnode⟩ := hgrown.leaves
  rw [← hnode, hft, List.getElem?_append_left (by simpa using hlt), List.getElem?_map, he]
  rfl

/-- Settles O38: a node leaves the queue when its parent is made, and only queued nodes are made children. -/
theorem everyNodeHasOneParent : Obligations.EveryNodeHasOneParent := by
  intro w hpos hmax i hi
  obtain ⟨hpq, hgrown⟩ := tbRun_finished hpos hmax
  obtain ⟨hlen, hroot⟩ := tbRun_size hpos hmax
  have hft := tbRun_ft w
  have hidx : (BitVec.ofNat 17 i).toNat = i := by
    rw [BitVec.toNat_ofNat]
    omega
  have hnot : BitVec.ofNat 17 i ∉ (tbRun w).pq := by
    rw [hpq, List.mem_singleton, ← BitVec.toNat_inj, hidx]
    omega
  have hchild : ∀ {nd : Node}, nd.left.toNat = i ∨ nd.right.toNat = i ↔
      nd.left = BitVec.ofNat 17 i ∨ nd.right = BitVec.ofNat 17 i := by
    intro nd
    rw [← BitVec.toNat_inj, ← BitVec.toNat_inj, hidx]
  obtain ⟨k, ⟨nd, hk, hnd, hc⟩, hunique⟩ := hgrown.parents _ (by rw [hidx]; omega) hnot
  rw [hft] at hk
  exact ⟨k, nd, hk, hnd, hchild.mpr hc, fun k' nd' hk' hnd' hc' =>
    hunique k' ⟨nd', hft ▸ hk', hnd', hchild.mp hc'⟩⟩

/-- Settles O39: a merge is two `PQ.POPMIN` and an insertion, and with the sum of all counts in 32 bits no sum wraps. -/
theorem treeFrequenciesAdd : Obligations.TreeFrequenciesAdd := by
  refine ⟨fun w hlen hnodup _ _ => ?merge, fun w hpos hmax => ?run, fun w hpos hmax hsum => ?sums⟩
  case merge =>
    obtain ⟨a, b, ha, hb, hleasta, hleastb, hpopa, hpopb, hmerge⟩ := exists_tbMerge_smallest hlen hnodup
    obtain ⟨hne, hmem⟩ := hnodup.mem_erase_iff.mp hb
    exact ⟨a, b, ha, hmem, hne.symm, hleasta, hleastb, hpopa, hpopb, hmerge⟩
  case run =>
    have hload : (tbLoad w).pq.length = w.ft.length := by simp [leafIndices]
    have hloop : tbLoop (tbLoad w).pq.length (tbLoad w) = Nat.iterate tbMerge (w.ft.length - 1) (tbLoad w) :=
      hload ▸ tbLoop_eq_iterate (Nat.le_succ _)
    exact ⟨rfl, leafIndices_toNat hmax, (congrArg Work.node hloop :),
      (congrArg Work.pq hloop :)⟩
  case sums =>
    obtain ⟨hpq, -⟩ := tbRun_finished hpos hmax
    obtain ⟨hqueue, hinternal⟩ := tbRun_frequenciesAdd hmax hsum
    rw [hpq, List.map_singleton, List.sum_singleton] at hqueue
    exact ⟨hqueue, fun k nd hk hnd => hinternal k nd (tbRun_ft w ▸ hk) hnd⟩

end Sys2Proof
end

