-- ==== Sys2Proof/Proofs/CodePaths.lean ====
section
/-! SUPPORT. The codes CG records are the paths from the root to the leaves, and a tree of at most 33 leaves is never
deeper than 32 (42_code_generator.md R150, R152, R154). -/

namespace Sys2Proof.Machine

/-! ### Paths -/

/-- The bit-string leads from the root to node `k`, through internal nodes (42_code_generator.md R152). -/
structure LeadsTo (w : Work) (bits : List Bool) (k : NodeIdx) : Prop where
  ends : w.descend w.root bits = k
  inner : ∀ j < bits.length, (w.nodeAt (w.descend w.root (bits.take j))).leaf = false

theorem leadsTo_root (w : Work) : LeadsTo w [] w.root := ⟨rfl, nofun⟩

/-- One bit further from an internal node. -/
theorem LeadsTo.child {w : Work} {bits : List Bool} {k : NodeIdx} (h : LeadsTo w bits k)
    (hinternal : (w.nodeAt k).leaf = false) (b : Bool) :
    LeadsTo w (bits ++ [b]) (if b then (w.nodeAt k).right else (w.nodeAt k).left) where
  ends := by rw [descend_append, h.ends, descend_cons, descend_nil]
  inner j hj := by
    rw [List.length_append, List.length_singleton] at hj
    obtain hlt | rfl := Nat.lt_succ_iff_lt_or_eq.mp hj
    · rw [List.take_append_of_le_length hlt.le]
      exact h.inner j hlt
    · rw [List.take_left, h.ends]
      exact hinternal

theorem descend_congr {w w' : Work} (h : w'.node = w.node) (k : NodeIdx) (bits : List Bool) :
    w'.descend k bits = w.descend k bits := by
  have hat : ∀ k, w'.nodeAt k = w.nodeAt k := fun k => by rw [Work.nodeAt, Work.nodeAt, h]
  induction bits generalizing k with
  | nil => rfl
  | cons b bits ih => rw [descend_cons, descend_cons, hat, ih]

theorem LeadsTo.congr {w w' : Work} {bits : List Bool} {k : NodeIdx} (h : LeadsTo w bits k) (hnode : w'.node = w.node)
    (hroot : w'.root = w.root) : LeadsTo w' bits k where
  ends := by rw [descend_congr hnode, hroot, h.ends]
  inner j hj := by
    rw [descend_congr hnode, hroot, Work.nodeAt, hnode]
    exact h.inner j hj

/-! ### The walk -/

/-- Every code pending or recorded in `w` leads to its node in the tree of `tree`. -/
structure WalksPaths (tree w : Work) : Prop where
  node : w.node = tree.node
  pending : ∀ e ∈ w.stack, e.len.toNat ≤ 32 ∧ LeadsTo tree (bitString e.len.toNat e.pat) e.node
  recorded : ∀ c ∈ w.code, ∃ k : NodeIdx, k.toNat = c.1 ∧ LeadsTo tree (bitString c.2.len.toNat c.2.pat) k

theorem bitString_childEntry {e : StackEntry} (h : e.len.toNat < 32) (k : NodeIdx) (b : Bool) :
    bitString (childEntry k e b).len.toNat (childEntry k e b).pat = bitString e.len.toNat e.pat ++ [b] := by
  rw [childEntry_len_toNat h]
  exact bitString_shiftLeft_or h e.pat b

theorem cgTurn_walksPaths {tree : Work} (w w' : Work) (h : WalksPaths tree w) (hturn : cgTurn w = .ok w') :
    WalksPaths tree w' := by
  obtain ⟨-, rfl⟩ | ⟨e, rest, hs, hcase⟩ := cgTurn_cases hturn
  · exact h
  obtain ⟨hlen, hpath⟩ := h.pending e (hs ▸ List.mem_cons_self)
  have hrest : ∀ e' ∈ rest, e'.len.toNat ≤ 32 ∧ LeadsTo tree (bitString e'.len.toNat e'.pat) e'.node :=
    fun e' he' => h.pending e' (hs ▸ List.mem_cons_of_mem _ he')
  obtain ⟨-, rfl⟩ | ⟨hinternal, hne, rfl⟩ := hcase
  · refine ⟨h.node, hrest, fun c hc => ?_⟩
    obtain rfl | hc := cellsSet_mem hc
    · exact ⟨e.node, rfl, hpath⟩
    · exact h.recorded c hc
  · have hat : w.nodeAt e.node = tree.nodeAt e.node := by rw [Work.nodeAt, Work.nodeAt, h.node]
    have hlt : e.len.toNat < 32 := lt_of_le_of_ne hlen fun heq => hne (BitVec.toNat_inj.mp heq)
    have hchild : ∀ (b : Bool) (k : NodeIdx), k = (if b then (tree.nodeAt e.node).right else (tree.nodeAt e.node).left) →
        (childEntry k e b).len.toNat ≤ 32 ∧
        LeadsTo tree (bitString (childEntry k e b).len.toNat (childEntry k e b).pat) (childEntry k e b).node := by
      rintro b k rfl
      rw [bitString_childEntry hlt, childEntry_len_toNat hlt]
      exact ⟨hlt, hpath.child (hat ▸ hinternal) b⟩
    refine ⟨h.node, ?_, h.recorded⟩
    rw [hat]
    exact List.forall_mem_cons.mpr ⟨hchild false _ rfl, List.forall_mem_cons.mpr ⟨hchild true _ rfl, hrest⟩⟩

/-- In the codes of a tree whose root is no leaf, entry `i` is the path to node `i`. -/
theorem cgRun_leadsTo {w w' : Work} (htree : CodeTree w) (hcode : w.code = []) (hmax : w.ft.length ≤ 65535)
    (hinternal : (w.nodeAt w.root).leaf = false) (h : cgRun w = .ok w') {i : Nat} (hi : i < w'.ft.length) :
    ∃ k : NodeIdx, k.toNat = i ∧ LeadsTo w' (w'.codeBits i) k := by
  have hframe := cgRun_frame h
  have hft : w'.ft = w.ft := by rw [hframe]
  obtain ⟨hleaf, -⟩ | ⟨-, hrun⟩ := cgRun_cases w
  · cases hinternal.symm.trans hleaf
  rw [hrun] at h
  have hstart : WalksPaths w { w with stack := [{ node := w.root, pat := 0, len := 0 }] } := by
    refine ⟨rfl, fun e he => ?_, fun c hc => ?_⟩
    · obtain rfl := List.mem_singleton.mp he
      exact ⟨Nat.zero_le _, leadsTo_root w⟩
    · replace hc : c ∈ w.code := hc
      rw [hcode] at hc
      cases hc
  have hwalk : CodeTree w' ∧ WalkInv w' := cgLoop_invariant cgTurn_walkInv h
    ⟨⟨htree.leaves, htree.covered⟩, walkInv_start htree hcode (by simp [hinternal])⟩
  have hnil : w'.stack = [] := cgLoop_stack_eq_nil (by simp) (turnsLeft_root_le w.root) h
  have hpaths := cgLoop_invariant cgTurn_walksPaths h hstart
  obtain ⟨k, hk, hpath⟩ := hpaths.recorded _ (hwalk.2.codeAt_mem hnil (hft ▸ hmax) hi)
  exact ⟨k, hk, hpath.congr hpaths.node (by rw [hframe])⟩

/-! ### The root -/

theorem tbRun_root_internal {w : Work} (hpos : 2 ≤ w.ft.length) (hmax : w.ft.length ≤ 65535) :
    ((tbRun w).nodeAt (tbRun w).root).leaf = false := by
  obtain ⟨-, hgrown⟩ := tbRun_finished (by omega) hmax
  obtain ⟨hlen, hroot⟩ := tbRun_size (by omega) hmax
  have hlt : (tbRun w).root.toNat < (tbRun w).node.length := by omega
  rw [Work.nodeAt_of_getElem? (List.getElem?_eq_getElem hlt)]
  refine (hgrown.internal _ _ ?_ (List.getElem?_eq_getElem hlt)).1
  rw [tbRun_ft]
  omega

/-- A single leaf is the root (42_code_generator.md R151). -/
theorem cgRun_single {w : Work} (hone : w.ft.length = 1) : cgRun (tbRun w) = .ok (cgSingle (tbRun w)) := by
  have hzero : (tbRun w).root.toNat = 0 := by
    rw [(tbRun_size (by omega) (by omega)).2, hone]
  refine if_pos ((codeTree_tbRun (by omega) (by omega)).nodeAt_leaf ?_)
  rw [hzero, tbRun_ft, hone]
  decide

/-! ### Depth -/

/-- While CG walks, an entry's depth and its node's index keep below the root's index: a child's index is smaller than its
parent's (41_tree_builder.md R140). -/
structure DepthBounded (w : Work) : Prop where
  tree : CodeTree w
  size : w.node.length = 2 * w.ft.length - 1
  internal : ∀ k nd, w.ft.length ≤ k → w.node[k]? = some nd →
    nd.leaf = false ∧ nd.left.toNat < k ∧ nd.right.toNat < k ∧ nd.left ≠ nd.right
  pending : ∀ e ∈ w.stack, e.len.toNat ≤ 32 ∧ e.node.toNat + e.len.toNat + 2 ≤ 2 * w.ft.length

/-- An internal node pending has an index past the leaves and children before it. -/
theorem DepthBounded.internal_pending {w : Work} (h : DepthBounded w) {e : StackEntry} (he : e ∈ w.stack)
    (hinternal : (w.nodeAt e.node).leaf = false) : w.ft.length ≤ e.node.toNat ∧
      (w.nodeAt e.node).left.toNat < e.node.toNat ∧ (w.nodeAt e.node).right.toNat < e.node.toNat := by
  have hpast : w.ft.length ≤ e.node.toNat := by
    by_contra hlt
    cases (h.tree.nodeAt_leaf (Nat.lt_of_not_le hlt)).symm.trans hinternal
  have hsize := h.size
  obtain ⟨-, hdepth⟩ := h.pending e he
  have hlt : e.node.toNat < w.node.length := by omega
  rw [Work.nodeAt_of_getElem? (List.getElem?_eq_getElem hlt)]
  obtain ⟨-, hleft, hright, -⟩ := h.internal _ _ hpast (List.getElem?_eq_getElem hlt)
  exact ⟨hpast, hleft, hright⟩

theorem cgTurn_depthBounded (w w' : Work) (h : DepthBounded w) (hturn : cgTurn w = .ok w') : DepthBounded w' := by
  obtain ⟨-, rfl⟩ | ⟨e, rest, hs, hcase⟩ := cgTurn_cases hturn
  · exact h
  have he : e ∈ w.stack := hs ▸ List.mem_cons_self
  have hrest : ∀ e' ∈ rest, e'.len.toNat ≤ 32 ∧ e'.node.toNat + e'.len.toNat + 2 ≤ 2 * w.ft.length :=
    fun e' he' => h.pending e' (hs ▸ List.mem_cons_of_mem _ he')
  obtain ⟨-, rfl⟩ | ⟨hinternal, hne, rfl⟩ := hcase
  · exact ⟨⟨h.tree.leaves, h.tree.covered⟩, h.size, h.internal, hrest⟩
  · obtain ⟨hlen, hdepth⟩ := h.pending e he
    obtain ⟨-, hleft, hright⟩ := h.internal_pending he hinternal
    have hlt : e.len.toNat < 32 := lt_of_le_of_ne hlen fun heq => hne (BitVec.toNat_inj.mp heq)
    have hchild : ∀ (k : NodeIdx) (b : Bool), k.toNat < e.node.toNat →
        (childEntry k e b).len.toNat ≤ 32 ∧
        (childEntry k e b).node.toNat + (childEntry k e b).len.toNat + 2 ≤ 2 * w.ft.length := by
      intro k b hk
      rw [childEntry_len_toNat hlt]
      show _ ∧ k.toNat + _ + 2 ≤ _
      omega
    exact ⟨⟨h.tree.leaves, h.tree.covered⟩, h.size, h.internal,
      List.forall_mem_cons.mpr ⟨hchild _ _ hleft, List.forall_mem_cons.mpr ⟨hchild _ _ hright, hrest⟩⟩⟩

/-- With at most 33 leaves no internal node is reached at depth 32 (42_code_generator.md R154). -/
theorem DepthBounded.cgTurn_ok {w : Work} (h : DepthBounded w) (hfew : w.ft.length ≤ 33) :
    ∃ w', cgTurn w = .ok w' := by
  unfold cgTurn
  split
  next => exact ⟨_, rfl⟩
  next e rest hs =>
    split
    next => exact ⟨_, rfl⟩
    next hinternal =>
      split
      next hlen =>
        have he : e ∈ w.stack := hs ▸ List.mem_cons_self
        obtain ⟨hpast, -, -⟩ := h.internal_pending he (Bool.eq_false_of_not_eq_true hinternal)
        obtain ⟨-, hdepth⟩ := h.pending e he
        rw [hlen] at hdepth
        simp only [BitVec.reduceToNat] at hdepth
        omega
      next => exact ⟨_, rfl⟩

theorem DepthBounded.cgLoop_ok {w : Work} {n : Nat} (h : DepthBounded w) (hfew : w.ft.length ≤ 33) :
    ∃ w', cgLoop n w = .ok w' := by
  induction n generalizing w with
  | zero => exact ⟨w, rfl⟩
  | succ n ih =>
    rw [cgLoop]
    split
    next => exact ⟨w, rfl⟩
    next =>
      obtain ⟨w', hw'⟩ := h.cgTurn_ok hfew
      rw [hw']
      have hft : w'.ft = w.ft := by rw [cgTurn_frame hw']
      exact ih (cgTurn_depthBounded w w' h hw') (hft ▸ hfew)

/-- TB and CG find the codes of at most 33 Symbols (47_commands.md section 2). -/
theorem buildCodes_ok {w : Work} (hfew : w.ft.length ≤ 33) : ∃ v, buildCodes w = .ok v := by
  rw [buildCodes]
  split
  next => exact ⟨w, rfl⟩
  next hne =>
    have hpos : 1 ≤ w.ft.length := Nat.one_le_iff_ne_zero.mpr hne
    obtain ⟨-, hrun⟩ | ⟨-, hrun⟩ := cgRun_cases (tbRun w)
    · exact ⟨_, hrun⟩
    · rw [hrun]
      have htree := codeTree_tbRun hpos (by omega)
      obtain ⟨-, hgrown⟩ := tbRun_finished hpos (by omega)
      obtain ⟨hlen, hroot⟩ := tbRun_size hpos (by omega)
      have hft := tbRun_ft w
      refine DepthBounded.cgLoop_ok ⟨⟨htree.leaves, htree.covered⟩, ?_, hgrown.internal, fun e he => ?_⟩ (hft ▸ hfew)
      · show (tbRun w).node.length = 2 * (tbRun w).ft.length - 1
        rw [hlen, hft]
      · obtain rfl := List.mem_singleton.mp he
        show 0 ≤ 32 ∧ (tbRun w).root.toNat + 0 + 2 ≤ 2 * (tbRun w).ft.length
        rw [hft]
        omega

/-- The codes of the Symbols an ENCODE has found. -/
theorem buildCodes_leadsTo {p : Params} {symIn : Memory 32} {inLen : BitVec 32} {w v : Work} (hparams : p.Legal)
    (hw : faRun p symIn inLen (Work.start .encode false) = .ok w) (hv : buildCodes w = .ok v)
    (htwo : 2 ≤ v.ft.length) {i : Nat} (hi : i < v.ft.length) :
    ∃ k : NodeIdx, k.toNat = i ∧ LeadsTo v (v.codeBits i) k := by
  have hft := (buildCodes_start hw hv).1
  have hmax : w.ft.length ≤ 65535 := (faRun_ft_length_le hw (Nat.zero_le _)).trans hparams.2
  rw [hft] at htwo
  rw [buildCodes, if_neg (by omega)] at hv
  have hcode : (tbRun w).code = [] := by rw [tbRun_frame w, faRun_start hw]; rfl
  exact cgRun_leadsTo (codeTree_tbRun (by omega) hmax) hcode ((tbRun_ft w).symm ▸ hmax) (tbRun_root_internal htwo hmax) hv hi

theorem buildCodes_single {w v : Work} (hv : buildCodes w = .ok v) (hone : w.ft.length = 1) :
    v.codeAt 0 = { len := 1, pat := 0 } := by
  rw [buildCodes, if_neg (by omega), cgRun_single hone] at hv
  cases hv
  rw [Work.codeAt, cgSingle_code, cellsFind_set_same]

/-! ### The file of a single Symbol (47_commands.md R223) -/

theorem packBits_replicate_false (k : Nat) :
    packBits (List.replicate k false) = List.replicate (ceil8 k) 0x00#8 := by
  have hbyte : ∀ q, payloadByte (List.replicate k false) q = 0 := fun q =>
    (payloadByte_congr (bits' := []) (q' := q) fun j _ => by simp).trans (payloadByte_beyond (Nat.zero_le _))
  rw [packBits, List.length_replicate, List.map_congr_left fun q _ => hbyte q, List.map_const', List.length_range]
  rfl

theorem tableBytes_single {v : Work} {e : FtEntry} (hft : v.ft = [e]) (hcode : v.codeAt 0 = { len := 1, pat := 0 }) :
    v.tableBytes = [0x01#8, 0x00#8] ++ bytesLe32 e.sym ++ [0x01#8, 0x00#8, 0x00#8, 0x00#8, 0x00#8] := by
  have hheader : bytesLe16 (BitVec.ofNat 16 [e].length) = [0x01#8, 0x00#8] := (by decide : bytesLe16 1 = _)
  have hpat : bytesLe32 0 = [0x00#8, 0x00#8, 0x00#8, 0x00#8] := by decide
  rw [Work.tableBytes, Work.ftN, hft, Work.entriesBytes, Work.entryBytes, hcode, Work.entriesBytes, List.append_nil,
    List.append_assoc, List.append_assoc, hheader, hpat]
  rfl

end Sys2Proof.Machine
end

