-- ==== Sys2Proof/Proofs/EncodeStatements.lean ====
section
/-! The statements about the codes of an ENCODE and its completion (42_code_generator.md, 47_commands.md section 2). -/

namespace Sys2Proof
open Machine

/-- Settles O42: CG records for each leaf the path it has walked, and halves a code at every node it passes. -/
theorem codesArePrefixFree : Obligations.CodesArePrefixFree := by
  intro s m hparams hm
  obtain ⟨-, w, hw, v, hv, rfl⟩ := encode_reaches_ts hm
  have hft := (buildCodes_start hw hv).1
  have hcodes := prefixCodes_buildCodes hparams hw hv
  refine ⟨fun htwo => ⟨fun i hi => ?_, fun i j hi hj hne hbegins => hne (hcodes.apart i j hi hj hbegins)⟩, fun hone => ?_⟩
  · obtain ⟨k, hk, hpath⟩ := buildCodes_leadsTo hparams hw hv htwo hi
    exact ⟨(congrArg BitVec.toNat hpath.ends).trans hk, hpath.inner, hcodes.usable.legal i hi⟩
  · have hcode : v.codeAt 0 = { len := 1, pat := 0 } := buildCodes_single hv (hft ▸ hone)
    refine ⟨hcode, ?_⟩
    show bitString (v.codeAt 0).len.toNat (v.codeAt 0).pat = _
    rw [hcode]
    rfl

/-- Settles O20: a tree of 33 leaves is no deeper than 32, and with the codes found only the room in BYTE_OUT is asked
for. -/
theorem encodeCompletes : Obligations.EncodeCompletes := by
  refine ⟨fun s hparams hbusy hport0 hport1 hfit hcap hfew hroom => ?_, fun s m hparams hm => ?_⟩
  · have hports : s.portsOk .encode = true := Bool.and_eq_true_iff.mpr ⟨hport0, hport1⟩
    have hstart := startCheck_eq_ok_iff.mpr ⟨hports, hfit⟩
    obtain ⟨w, hw, -⟩ | ⟨-, hmany⟩ := faRun_start_cases (p := s.params) (symIn := s.symIn) false hfit
    · have hcount : w.ft.length = s.inputSymbols.dedup.length := (ftOf_faRun hw).length_eq
      obtain ⟨v, hv⟩ := buildCodes_ok (hcount ▸ hfew)
      obtain ⟨y, hy, hfile⟩ := (encodeRun_of_codes hparams hstart hw hv).1 (hcap ▸ rfl)
      obtain ⟨-, w', hw', v', hv', z, hz, -⟩ := encodeRun_eq_ok_iff.mp hy
      obtain rfl := Except.ok.inj (hw.symm.trans hw')
      obtain rfl := Except.ok.inj (hv.symm.trans hv')
      have hend := encode_ends hbusy
      rw [hy] at hend
      refine ⟨_, _, congrArg _ (command_idle hbusy .encode), reaches_en hbusy hstart hw hv hz, hend, rfl, rfl, ?_, ?_⟩
      · exact (hfile.encTabN (ft_length_le_of_buildCodes hparams hw hv)).trans
          ((congrArg List.length (buildCodes_start hw hv).1).trans hcount)
      · exact hfile.outputFile.trans (tsRun_fileBytes hz _).symm
    · exact absurd hroom (Nat.not_le_of_lt hmany)
  · obtain ⟨hstart, w, hw, v, hv, rfl⟩ := encode_reaches_ts hm
    obtain ⟨hdone, hfull⟩ := encodeRun_of_codes hparams hstart hw hv
    refine ⟨_, encode_ends hm.1, fun hroom => ?_, fun hroom => ?_⟩
    · obtain ⟨y, hy, hfile⟩ := hdone hroom
      rw [hy]
      exact ⟨rfl, hfile.outputFile⟩
    · rw [hfull hroom]
      exact State.raise_errCode _ _

/-- Settles O23: FT has the one entry, whose code is "0". -/
theorem singleSymbolFile : Obligations.SingleSymbolFile := by
  intro s x hparams hbusy hport0 hport1 hfit hcap hpos hall
  have hports : s.portsOk .encode = true := Bool.and_eq_true_iff.mpr ⟨hport0, hport1⟩
  have hstart := startCheck_eq_ok_iff.mpr ⟨hports, hfit⟩
  have hsyms : s.inputSymbols = List.replicate s.inLen.toNat x :=
    List.eq_replicate_iff.mpr ⟨Memory.readList_length _ _ _, hall⟩
  have hdedup : s.inputSymbols.dedup = [x] := by
    rw [hsyms]
    exact List.replicate_dedup (by omega)
  obtain ⟨w, hw, -⟩ | ⟨-, hmany⟩ := faRun_start_cases (p := s.params) (symIn := s.symIn) false hfit
  case inr =>
    have hone : s.inputSymbols.dedup.length = 1 := congrArg List.length hdedup
    exact absurd hmany (Nat.not_lt_of_le (hone.trans_le hparams.1))
  obtain ⟨e, he, hsym⟩ : ∃ e, w.ft = [e] ∧ e.sym = x := by
    have hperm : (w.ft.map FtEntry.sym).Perm s.inputSymbols.dedup := (ftOf_faRun hw).keys_perm_dedup
    rw [hdedup, List.perm_singleton] at hperm
    obtain ⟨e, he, hsym⟩ := List.map_eq_singleton_iff.mp hperm
    exact ⟨e, he, hsym⟩
  have hone : w.ft.length = 1 := congrArg List.length he
  obtain ⟨v, hv⟩ := buildCodes_ok (w := w) (by omega)
  obtain ⟨y, hy, hfile⟩ := (encodeRun_of_codes hparams hstart hw hv).1 (hcap ▸ rfl)
  have hft : v.ft = [e] := (buildCodes_start hw hv).1.trans he
  have hcode : v.codeAt 0 = { len := 1, pat := 0 } := buildCodes_single hv hone
  have hcodeOf : v.codeOf x = [false] := by
    have hlookup : enLookup x v.ft = .ok 0 := by
      rw [enLookup, hft, List.findIdx?_cons, if_pos (decide_eq_true hsym)]
    rw [codeOf_of_enLookup hlookup, Work.codeBits, hcode]
    rfl
  have hstream : v.bitstream s.inputSymbols = List.replicate s.inLen.toNat false := by
    rw [hsyms, Work.bitstream, List.map_replicate, hcodeOf]
    simp
  have hend := encode_ends hbusy
  rw [hy] at hend
  refine ⟨_, hend, rfl, ?_, ?_, ?_, ?_⟩
  · exact BitVec.eq_of_toNat_eq ((hfile.encTabN (by rw [hft]; exact (by decide : 1 ≤ 65535))).trans (congrArg List.length hft))
  · exact hfile.bits.trans (by rw [hstream, List.length_replicate])
  · exact hfile.size.trans (by rw [hstream, List.length_replicate, hft]; rfl)
  · refine hfile.outputFile.trans ?_
    rw [Work.fileBytes, hstream, packBits_replicate_false, tableBytes_single hft hcode, hsym]

end Sys2Proof
end

