-- ==== Sys2Proof/Proofs/GreedyMatching.lean ====
section
/-! SUPPORT. Unit DE against greedy matching with a buffer of unlimited length: the 33 values of acc_len that count are
enough (46_decoder.md R200 to R203, R207). -/

namespace Sys2Proof.Machine

/-! ### Greedy matching -/

/-- The entry whose key is the bit-string `acc`. -/
def keyOf (dtab : List DtEntry) (acc : List Bool) : Option DtEntry :=
  dtab.find? (fun e => bitString e.len.toNat e.pat = acc)

theorem greedy_of_key {dtab : List DtEntry} {acc : List Bool} {b : Bool} {e : DtEntry}
    (h : keyOf dtab (acc ++ [b]) = some e) (bits : List Bool) :
    greedy dtab acc (b :: bits) = (e.sym :: (greedy dtab [] bits).1, (greedy dtab [] bits).2) := by
  rw [keyOf] at h
  rw [greedy, h]

theorem greedy_of_no_key {dtab : List DtEntry} {acc : List Bool} {b : Bool} (h : keyOf dtab (acc ++ [b]) = none)
    (bits : List Bool) : greedy dtab acc (b :: bits) = greedy dtab (acc ++ [b]) bits := by
  rw [keyOf] at h
  rw [greedy, h]

theorem greedy_append (dtab : List DtEntry) (acc bits more : List Bool) :
    greedy dtab acc (bits ++ more) = ((greedy dtab acc bits).1 ++ (greedy dtab (greedy dtab acc bits).2 more).1,
      (greedy dtab (greedy dtab acc bits).2 more).2) := by
  induction bits generalizing acc with
  | nil => rfl
  | cons b bits ih =>
    rw [List.cons_append]
    cases hkey : keyOf dtab (acc ++ [b]) with
    | some e => rw [greedy_of_key hkey, greedy_of_key hkey, ih, List.cons_append]
    | none => rw [greedy_of_no_key hkey, greedy_of_no_key hkey, ih]

/-- Each Symbol takes at least one bit (46_decoder.md R208). -/
theorem greedy_length_le (dtab : List DtEntry) (acc bits : List Bool) : (greedy dtab acc bits).1.length ≤ bits.length := by
  induction bits generalizing acc with
  | nil => exact le_rfl
  | cons b bits ih =>
    cases hkey : keyOf dtab (acc ++ [b]) with
    | some e =>
      rw [greedy_of_key hkey, List.length_cons, List.length_cons]
      exact Nat.succ_le_succ (ih [])
    | none =>
      rw [greedy_of_no_key hkey]
      exact (ih _).trans (Nat.le_succ _)

theorem keyOf_eq_none_of_long {dtab : List DtEntry} (hlegal : ∀ e ∈ dtab, LegalKey e.len e.pat) {acc : List Bool}
    (h : 32 < acc.length) : keyOf dtab acc = none := by
  refine List.find?_eq_none.mpr fun e he heq => ?_
  have hlen := congrArg List.length (of_decide_eq_true heq)
  rw [bitString_length] at hlen
  exact absurd (hlegal e he).2.1 (by omega)

/-- A string longer than every key never becomes one (46_decoder.md R207). -/
theorem greedy_of_long {dtab : List DtEntry} (hlegal : ∀ e ∈ dtab, LegalKey e.len e.pat) {acc : List Bool}
    (h : 32 < acc.length) (bits : List Bool) : greedy dtab acc bits = ([], acc ++ bits) := by
  induction bits generalizing acc with
  | nil => rw [greedy, List.append_nil]
  | cons b bits ih =>
    have hlen : 32 < (acc ++ [b]).length := by rw [List.length_append]; omega
    rw [greedy_of_no_key (keyOf_eq_none_of_long hlegal hlen), ih hlen, List.append_assoc, List.singleton_append]

/-! ### The accumulator -/

/-- The accumulator holds the string `acc`, or tells by 33 that it is longer than any key (10_state.md R43). -/
structure Holds (acc : List Bool) (w : Work) : Prop where
  length : w.accLen.toNat = min 33 acc.length
  string : acc.length ≤ 32 → bitString w.accLen.toNat w.accPat = acc
  pattern : acc.length ≤ 32 → w.accPat.toNat < 2 ^ w.accLen.toNat

theorem holds_nil {w : Work} (hlen : w.accLen = 0) (hpat : w.accPat = 0) : Holds [] w where
  length := congrArg BitVec.toNat hlen
  string _ := by rw [hlen]; rfl
  pattern _ := by rw [hpat]; exact Nat.two_pow_pos _

theorem holds_bitString {w : Work} (hlen : w.accLen.toNat ≤ 32) (hpat : w.accPat.toNat < 2 ^ w.accLen.toNat) :
    Holds (bitString w.accLen.toNat w.accPat) w where
  length := by
    rw [bitString_length]
    omega
  string _ := rfl
  pattern _ := hpat

theorem holds_saturated {w : Work} (hlen : w.accLen = 33) : Holds (List.replicate 33 false) w where
  length := congrArg BitVec.toNat hlen
  string h := absurd h (by decide)
  pattern h := absurd h (by decide)

theorem Holds.congr {acc : List Bool} {w w' : Work} (h : Holds acc w) (hlen : w'.accLen = w.accLen)
    (hpat : w'.accPat = w.accPat) : Holds acc w' := by
  constructor <;> rw [hlen]
  · exact h.length
  · rw [hpat]
    exact h.string
  · rw [hpat]
    exact h.pattern

/-- `DE.APPEND` (46_decoder.md R202). -/
theorem Holds.append {acc : List Bool} {w : Work} (h : Holds acc w) (b : Bool) : Holds (acc ++ [b]) (deAppend b w) := by
  have hlength := h.length
  have hlen : (acc ++ [b]).length = acc.length + 1 := by simp
  obtain hlt | hge := Nat.lt_or_ge acc.length 32
  · have hacc : w.accLen.toNat < 32 := by omega
    obtain ⟨hstring, hpattern⟩ := deAppend_string hacc (h.pattern hlt.le) b
    refine ⟨?_, fun _ => by rw [hstring, h.string hlt.le], fun _ => hpattern⟩
    rw [deAppend_accLen_toNat hacc, hlen]
    omega
  · rw [deAppend_of_le (by omega)]
    refine ⟨?_, fun hle => absurd hle (by omega), fun hle => absurd hle (by omega)⟩
    show 33 = _
    omega

/-- `DE.MATCH` finds the key that the string is, if it is one (46_decoder.md R203). -/
theorem Holds.deKey {acc : List Bool} {w : Work} (h : Holds acc w) (hlegal : ∀ e ∈ w.dtab, LegalKey e.len e.pat)
    (hne : acc ≠ []) : deKey w = keyOf w.dtab acc := by
  have hpos := List.length_pos_iff.mpr hne
  have hlength := h.length
  rw [Machine.deKey]
  obtain hle | hlong := Nat.lt_or_ge 32 acc.length |>.symm
  · have hcounts : 1 ≤ w.accLen ∧ w.accLen ≤ 32 := by
      constructor <;> rw [BitVec.le_def]
      · exact (by omega : 1 ≤ w.accLen.toNat)
      · exact (by omega : w.accLen.toNat ≤ 32)
    rw [if_pos hcounts, dmatch_eq_find?_bitString hlegal (h.pattern hle), h.string hle]
    rfl
  · have hcounts : ¬ (1 ≤ w.accLen ∧ w.accLen ≤ 32) := by
      rintro ⟨-, hle⟩
      rw [BitVec.le_def] at hle
      exact absurd (show w.accLen.toNat ≤ 32 from hle) (by omega)
    rw [if_neg hcounts, keyOf_eq_none_of_long hlegal hlong]

/-! ### What DE emits -/

theorem Memory.writeList_append {w : Nat} (m : Memory w) (a : Nat) (vs us : List (BitVec w)) :
    m.writeList a (vs ++ us) = (m.writeList a vs).writeList (a + vs.length) us := by
  induction vs generalizing m a with
  | nil => rfl
  | cons v vs ih =>
    rw [List.cons_append, Memory.writeList, ih, List.length_cons, Nat.add_assoc, Nat.add_comm 1]
    rfl

/-- From `x` to `y` DE has emitted the Symbols of `out` and is left with its bits. -/
structure Emitted (x y : Emitter) (out : List Sym × List Bool) : Prop where
  table : y.1.dtab = x.1.dtab
  outIdx : y.1.outIdx.toNat = x.1.outIdx.toNat + out.1.length
  output : y.2 = x.2.writeList x.1.outIdx.toNat out.1
  acc : Holds out.2 y.1

/-- DE emits what `out` says, or finds SYM_OUT full on the way. -/
inductive Emits (cap : Option Nat) (x : Emitter) (out : List Sym × List Bool) : Except ErrKind Emitter → Prop
  | done {y : Emitter} (emitted : Emitted x y out) : Emits cap x out (.ok y)
  | full (nonempty : out.1 ≠ []) (full : fits cap (x.1.outIdx.toNat + out.1.length) = false) :
      Emits cap x out (.error .ioError)

section Emits
variable {cap : Option Nat} {x : Emitter} {out out' : List Sym × List Bool} {r : Except ErrKind Emitter}

theorem Emits.bind {f : Emitter → Except ErrKind Emitter} (h : Emits cap x out r)
    (hf : ∀ y, r = .ok y → Emitted x y out → Emits cap y out' (f y)) :
    Emits cap x (out.1 ++ out'.1, out'.2) (r >>= f) := by
  have hlen : (out.1 ++ out'.1).length = out.1.length + out'.1.length := List.length_append
  cases h with
  | full hne hfull =>
    exact .full (fun hnil => hne (List.append_eq_nil_iff.mp hnil).1)
      (fits_eq_false_of_le hfull (by rw [hlen]; omega))
  | @done y hy =>
    rw [except_ok_bind]
    generalize hr : f y = r'
    cases hr ▸ hf y rfl hy with
    | full hne hfull =>
      refine .full (fun hnil => hne (List.append_eq_nil_iff.mp hnil).2) ?_
      rwa [hlen, ← Nat.add_assoc, ← hy.outIdx]
    | done hz =>
      refine .done ⟨hz.table.trans hy.table, ?_, ?_, hz.acc⟩
      · rw [hz.outIdx, hy.outIdx, hlen, Nat.add_assoc]
      · rw [hz.output, hy.outIdx, hy.output, Memory.writeList_append]

theorem Emits.ok_of_fits (h : Emits cap x out r)
    (hroom : out.1 = [] ∨ fits cap (x.1.outIdx.toNat + out.1.length) = true) : ∃ y, r = .ok y := by
  cases h with
  | done => exact ⟨_, rfl⟩
  | full hne hfull =>
    obtain hnil | hroom := hroom
    · exact absurd hnil hne
    · cases hfull.symm.trans hroom

theorem Emits.emitted {y : Emitter} (h : Emits cap x out (.ok y)) : Emitted x y out := by
  cases h with
  | done hy => exact hy

end Emits

section Bits
variable {cap : Option Nat} {dtab : List DtEntry} (hlegal : ∀ e ∈ dtab, LegalKey e.len e.pat) {acc : List Bool}
  {x : Emitter} (htab : x.1.dtab = dtab) (h : Holds acc x.1)
include hlegal htab h

/-- One turn of the loop of `DE.RUN` (46_decoder.md R200). -/
theorem deBit_emits (byte : Byte) (hroom : x.1.outIdx.toNat + 1 < 2 ^ 38) :
    Emits cap x (greedy dtab acc [payloadBit byte x.1]) (deBit cap byte x) := by
  generalize hb : payloadBit byte x.1 = b
  have hholds : Holds (acc ++ [b]) (deAppend b (deAdvance x.1)) :=
    (h.congr (deAdvance_accLen x.1) (deAdvance_accPat x.1)).append b
  have htable : (deAppend b (deAdvance x.1)).dtab = dtab := by rw [deAppend_dtab, deAdvance_dtab, htab]
  have hidx : (deAppend b (deAdvance x.1)).outIdx = x.1.outIdx := by rw [deAppend_outIdx, deAdvance_outIdx]
  have hkey := hholds.deKey (htable ▸ hlegal) (by simp)
  rw [htable] at hkey
  rw [deBit, hb]
  generalize deAppend b (deAdvance x.1) = v at hholds htable hidx hkey ⊢
  cases hfound : keyOf dtab (acc ++ [b]) with
  | none =>
    rw [greedy_of_no_key hfound, deMatch_of_none (x := (v, x.2)) (hkey.trans hfound)]
    exact .done ⟨htable.trans htab.symm, by rw [hidx]; rfl, rfl, hholds⟩
  | some e =>
    obtain ⟨hfull, hok⟩ := deMatch_of_some (cap := cap) (x := (v, x.2)) (hkey.trans hfound)
    dsimp only at hfull hok
    rw [hidx] at hfull hok
    rw [greedy_of_key hfound]
    cases hfits : fits cap (x.1.outIdx.toNat + 1) with
    | false =>
      rw [hfull hfits]
      exact .full (List.cons_ne_nil _ _) hfits
    | true =>
      rw [hok hfits]
      refine .done ⟨htable.trans htab.symm, ?_, rfl, holds_nil rfl rfl⟩
      show (x.1.outIdx + 1).toNat = x.1.outIdx.toNat + 1
      bv_omega

/-- The bits of the byte at the read pointer, one after another. -/
theorem deBits_emits {byte : Byte} {bits : List Bool} (hpos : x.1.bitPos.toNat + bits.length ≤ 8)
    (hbyte : ∀ j (hj : j < bits.length), byte.getLsbD (7 - (x.1.bitPos.toNat + j)) = bits[j])
    (hroom : x.1.outIdx.toNat + bits.length < 2 ^ 38) :
    Emits cap x (greedy dtab acc bits) (deBits cap byte bits.length x) := by
  induction bits generalizing acc x with
  | nil => exact .done ⟨rfl, rfl, rfl, h⟩
  | cons b bits ih =>
    rw [List.length_cons] at hpos hroom
    have hb : payloadBit byte x.1 = b := hbyte 0 (Nat.zero_lt_succ _)
    rw [List.length_cons, deBits_succ, ← List.singleton_append, greedy_append]
    have hbit := deBit_emits (cap := cap) hlegal htab h byte (by omega)
    rw [hb] at hbit
    refine hbit.bind fun z hz hemitted => ?_
    by_cases hnil : bits = []
    · subst hnil
      exact .done ⟨rfl, rfl, rfl, hemitted.acc⟩
    · have hmore := List.length_pos_iff.mpr hnil
      have hinside : x.1.bitPos ≠ 7 := by bv_omega
      have hstep : z.1.bitPos.toNat = x.1.bitPos.toNat + 1 := by
        rw [deMatch_frame hz, deAppend_bitPos, deAdvance, if_neg hinside]
        bv_omega
      have hcount := greedy_length_le dtab acc [b]
      rw [List.length_singleton] at hcount
      refine ih (hemitted.table.trans htab) hemitted.acc (by omega) (fun j hj => ?_) (by rw [hemitted.outIdx]; omega)
      rw [hstep, Nat.add_assoc, Nat.add_comm 1]
      exact hbyte (j + 1) (Nat.succ_lt_succ hj)

end Bits

theorem nextBits_length (byte : Byte) (w : Work) (n : Nat) : (nextBits byte w n).length = n := by
  rw [nextBits, List.length_map, List.length_range]

theorem nextBits_getElem {byte : Byte} {w : Work} {n j : Nat} (hj : j < (nextBits byte w n).length) :
    byte.getLsbD (7 - (w.bitPos.toNat + j)) = (nextBits byte w n)[j] := by
  simp only [nextBits, List.getElem_map, List.getElem_range]

/-- The bits PAY consumes are greedily matched (46_decoder.md R200 to R203). -/
theorem execPay_emits {byte : Byte} {s : State} {acc : List Bool} (h : Holds acc s.work)
    (hlegal : ∀ e ∈ s.work.dtab, LegalKey e.len e.pat) (hroom : s.work.outIdx.toNat + bitsOfByte s.work < 2 ^ 38) :
    Emits s.params.symOutCap (s.work, s.symOut) (greedy s.work.dtab acc (nextBits byte s.work (bitsOfByte s.work)))
      (deBits s.params.symOutCap byte (bitsOfByte s.work) (s.work, s.symOut)) := by
  have hn : bitsOfByte s.work = min (8 - s.work.bitPos.toNat) s.work.bitsLeft.toNat := rfl
  have hpos := s.work.bitPos.isLt
  have hlen := nextBits_length byte s.work (bitsOfByte s.work)
  have hemits := deBits_emits (x := (s.work, s.symOut)) (cap := s.params.symOutCap) (byte := byte) hlegal
    rfl h (bits := nextBits byte s.work (bitsOfByte s.work)) (by rw [hlen]; dsimp only; omega) (fun j hj => nextBits_getElem hj)
    (by rw [hlen]; exact hroom)
  rwa [hlen] at hemits

/-! ### What DE leaves alone -/

/-- However many Symbols DE emits, SYM_OUT changes from the old out_idx to the new only. -/
structure EmitsUpTo (n : Nat) (x y : Emitter) : Prop where
  le : x.1.outIdx.toNat ≤ y.1.outIdx.toNat
  bound : y.1.outIdx.toNat ≤ x.1.outIdx.toNat + n
  outside : ∀ a, a < x.1.outIdx.toNat ∨ y.1.outIdx.toNat ≤ a → y.2.read a = x.2.read a

theorem deMatch_emitsUpTo {cap : Option Nat} {x y : Emitter} (h : deMatch cap x = .ok y)
    (hroom : x.1.outIdx.toNat + 1 < 2 ^ 38) : EmitsUpTo 1 x y := by
  obtain ⟨-, hm⟩ | ⟨e, -, -, hm⟩ | ⟨e, -, -, hm⟩ := deMatch_cases cap x <;> cases hm.symm.trans h
  · exact ⟨le_rfl, Nat.le_succ _, fun _ _ => rfl⟩
  · have hnext : (x.1.outIdx + 1).toNat = x.1.outIdx.toNat + 1 := by bv_omega
    refine ⟨hnext.symm ▸ Nat.le_succ _, hnext.le, fun a ha => ?_⟩
    replace ha : a < x.1.outIdx.toNat ∨ (x.1.outIdx + 1).toNat ≤ a := ha
    exact Memory.read_write_other _ (by omega) _

theorem deBits_emitsUpTo {cap : Option Nat} {byte : Byte} {n : Nat} {x y : Emitter} (h : deBits cap byte n x = .ok y)
    (hroom : x.1.outIdx.toNat + n < 2 ^ 38) : EmitsUpTo n x y := by
  induction n generalizing x with
  | zero =>
    cases h
    exact ⟨le_rfl, le_rfl, fun _ _ => rfl⟩
  | succ n ih =>
    rw [deBits_succ] at h
    obtain ⟨z, hz, hrest⟩ := except_bind_eq_ok_iff.mp h
    have hidx : (deAppend (payloadBit byte x.1) (deAdvance x.1)).outIdx = x.1.outIdx := by
      rw [deAppend_outIdx, deAdvance_outIdx]
    obtain ⟨hle, hbound, houtside⟩ := deMatch_emitsUpTo hz (by dsimp only; rw [hidx]; omega)
    dsimp only at hle hbound houtside
    rw [hidx] at hle hbound houtside
    obtain ⟨hle', hbound', houtside'⟩ := ih hrest (by omega)
    refine ⟨by omega, by omega, fun a ha => (houtside' a ?_).trans (houtside a ?_)⟩ <;> omega

end Sys2Proof.Machine
end

