-- ==== Sys2Proof/Proofs/Payload.lean ====
section
/-! The statements about the record PAY (46_decoder.md R200 to R203). -/

namespace Sys2Proof
open Machine

/-- Settles O54: the accumulator stands for the bits greedy matching holds back, or for any 33 of them. -/
theorem payCompletes : Obligations.PayCompletes := by
  intro byte s hphase hleft hptr hidx hfit hlegal hlen hpat
  have hat : s.nextFormat = some .pay := nextFormat_pay.mpr ⟨hphase, fun h0 => absurd hleft (by simp [h0])⟩
  have hn : bitsOfByte s.work = min (8 - s.work.bitPos.toNat) s.work.bitsLeft.toNat := rfl
  have hpos := s.work.bitPos.isLt
  set n := bitsOfByte s.work
  set bits := nextBits byte s.work n
  have hroom : s.work.outIdx.toNat + n < 2 ^ 38 := by omega
  have hexec : ∀ y, deBits s.params.symOutCap byte n (s.work, s.symOut) = .ok y →
      exec (.pay byte) s = .next { s with work := y.1, symOut := y.2 } ∧
      y.1.bitsLeft.toNat = s.work.bitsLeft.toNat - n ∧
      8 * y.1.rdPtr.toNat + y.1.bitPos.toNat = 8 * s.work.rdPtr.toNat + s.work.bitPos.toNat + n := by
    intro y hy
    obtain ⟨hplace, hend⟩ := deBits_reader hy (by dsimp only; omega) (by dsimp only; omega)
    refine ⟨?_, hend, hplace⟩
    simp only [exec, execPay_at hat]
    rw [hy]
  obtain hle | hlong := Nat.lt_or_ge 32 s.work.accLen.toNat |>.symm
  · have hemits := execPay_emits (byte := byte) (holds_bitString hle (hpat hle)) hlegal hroom
    set out := greedy s.work.dtab (bitString s.work.accLen.toNat s.work.accPat) bits
    have hcount : out.1.length ≤ n := (greedy_length_le _ _ _).trans (nextBits_length _ _ _).le
    obtain ⟨y, hy⟩ := hemits.ok_of_fits (.inr (fits_mono (hfit hle) (Nat.add_le_add_left hcount _)))
    have hout := (hy ▸ hemits).emitted
    obtain ⟨hnext, hend, hplace⟩ := hexec y hy
    refine ⟨_, hnext, hphase, hend, hplace, fun _ => ⟨?_, hout.acc.length, fun hshort => hout.acc.string ?_⟩,
      fun hsat => absurd (hsat ▸ hle) (by decide)⟩
    · show y.2.readList s.work.outIdx.toNat (y.1.outIdx.toNat - s.work.outIdx.toNat) = out.1
      rw [hout.outIdx, Nat.add_sub_cancel_left, hout.output, Memory.readList_writeList]
    · have hlength := hout.acc.length
      replace hshort : y.1.accLen.toNat ≤ 32 := hshort
      omega
  · have hsat : s.work.accLen = 33 := BitVec.eq_of_toNat_eq (by show _ = 33; omega)
    have hemits := execPay_emits (byte := byte) (holds_saturated hsat) hlegal hroom
    rw [greedy_of_long hlegal (by decide)] at hemits
    obtain ⟨y, hy⟩ := hemits.ok_of_fits (.inl rfl)
    have hout := (hy ▸ hemits).emitted
    obtain ⟨hnext, hend, hplace⟩ := hexec y hy
    refine ⟨_, hnext, hphase, hend, hplace, fun hle => absurd hle (by omega), fun _ => ⟨?_, ?_, hout.output⟩⟩
    · refine BitVec.eq_of_toNat_eq (hout.acc.length.trans ?_)
      rw [List.length_append, List.length_replicate]
      exact Nat.min_eq_left (Nat.le_add_right _ _)
    · exact BitVec.eq_of_toNat_eq hout.outIdx

/-- Settles O55: PAY takes as many turns as it consumes bits, and each writes at out_idx or not at all. -/
theorem payFrame : Obligations.PayFrame := by
  intro byte s t hroom h
  have hstep := (recordStep_of_exec (i := .pay byte) nofun h).2
  cases hstep with
  | error _ e => exact .inl ⟨e, rfl⟩
  | payload byte' y hbits =>
    have hn : bitsOfByte s.work ≤ s.work.bitsLeft.toNat := Nat.min_le_right _ _
    obtain ⟨hle, hbound, houtside⟩ := deBits_emitsUpTo hbits (by dsimp only; omega)
    refine .inr ⟨?_, hle, hbound, houtside⟩
    exact congrArg (fun w => ({ s with work := w, symOut := y.2 } : State)) (deBits_frame hbits)

end Sys2Proof
end

