-- ==== Sys2Proof/Proofs/TableContents.lean ====
section
/-! SUPPORT. The table phase TD reads is the one in the file (45_table_deserializer.md R185 to R189). -/

namespace Sys2Proof.Machine

/-! ### The bytes of the file -/

theorem drop_inputFile (s : State) (a : Nat) :
    s.inputFile.drop a = s.byteIn.readList a (s.byteInLen.toNat - a) := by
  obtain hle | hlt := le_or_gt a s.byteInLen.toNat
  · obtain ⟨n, hn⟩ := Nat.exists_eq_add_of_le hle
    rw [State.inputFile, hn, Memory.readList_append, Nat.add_sub_cancel_left, Nat.zero_add,
      List.drop_left' (Memory.readList_length _ _ _)]
  · rw [List.drop_eq_nil_of_le (by rw [State.inputFile, Memory.readList_length]; exact hlt.le),
      Nat.sub_eq_zero_of_le hlt.le]
    rfl

theorem take_drop_inputFile {s : State} {a n : Nat} (h : a + n ≤ s.byteInLen.toNat) :
    (s.inputFile.drop a).take n = s.byteIn.readList a n := by
  rw [drop_inputFile, Memory.take_readList _ _ (by omega)]

theorem recordRun_of_decode {s : State} {f : Format} {x : Emitter} {i : Instr}
    (hfit : fits s.params.byteInCap (x.1.rdPtr.toNat + f.size) = true)
    (hin : x.1.rdPtr.toNat + f.size ≤ s.byteInLen.toNat)
    (h : decode f ((s.inputFile.drop x.1.rdPtr.toNat).take f.size) = .ok (i, [])) :
    s.recordRun f x = s.recordEffect x i := by
  rw [take_drop_inputFile hin] at h
  rw [State.recordRun, memRead_ok hfit, except_ok_bind]
  simp only [h]

/-- What a record read without error inside the file says. -/
theorem exists_decode_of_recordRun {s : State} {f : Format} {x y : Emitter}
    (hin : x.1.rdPtr.toNat + f.size ≤ s.byteInLen.toNat) (h : s.recordRun f x = .ok y) :
    ∃ i, decode f ((s.inputFile.drop x.1.rdPtr.toNat).take f.size) = .ok (i, []) ∧ i.format = f ∧
      s.recordEffect x i = .ok y := by
  cases hfit : fits s.params.byteInCap (x.1.rdPtr.toNat + f.size) with
  | false =>
    rw [State.recordRun, memRead_full hfit] at h
    cases h
  | true =>
    obtain ⟨i, hi, hf⟩ := decode_of_size (Memory.readList_length s.byteIn x.1.rdPtr.toNat f.size)
    rw [← take_drop_inputFile hin] at hi
    exact ⟨i, hi, hf, (recordRun_of_decode hfit hin hi).symm.trans h⟩

/-! ### The table -/

/-- Entry number `i` of the file's table is a legal one and is `e` (45_table_deserializer.md R188). -/
def State.FileEntry (s : State) (i : Nat) (e : DtEntry) : Prop :=
  ∃ sym l p, decode .ent ((s.inputFile.drop (2 + 9 * i)).take 9) = .ok (.ent sym l p, []) ∧
    (Instr.ent sym l p).wellFormed = true ∧ e = { len := l.setWidth 6, pat := p, sym := sym }

/-- Phase TD behind the header: td_m is the header, DTAB holds what the first entries of the file say. -/
structure ReadsTable (s : State) (x : Emitter) : Prop where
  place : InTable s x
  header : decode .hdr (s.inputFile.take 2) = .ok (.hdr x.1.tdM, [])
  entries : ∀ i e, x.1.dtab[i]? = some e → s.FileEntry i e
  table : LegalTable x.1.dtab

theorem readsTable_of_headerRun {s : State} {y : Emitter} (h : s.headerRun = .ok y) : ReadsTable s y := by
  have hplace := inTable_of_headerRun h
  rw [State.headerRun] at h
  split at h
  next => cases h
  next hlong =>
    obtain ⟨i, hi, hf, heffect⟩ := exists_decode_of_recordRun (f := .hdr) (Nat.le_of_not_lt hlong) h
    cases i with
    | hdr m =>
      rw [State.recordEffect] at heffect
      split at heffect
      next => cases heffect
      next =>
        cases heffect
        exact ⟨hplace, hi, nofun, ⟨nofun, .nil⟩⟩
    | _ => cases hf

theorem wellFormed_ent {sym : Sym} {l : BitVec 8} {p : BitVec 32} :
    (Instr.ent sym l p).wellFormed = true ↔ 1 ≤ l.toNat ∧ l.toNat ≤ 32 ∧ p.toNat < 2 ^ l.toNat := by
  simp only [Instr.wellFormed, lengthLegal, upperBitsZero, Bool.and_eq_true, decide_eq_true_eq, and_assoc]

section Entry
variable {s : State} {x : Emitter} (hx : ReadsTable s x) (hlt : x.1.tdI < x.1.tdM)
include hx hlt

theorem ReadsTable.entry_inside : x.1.rdPtr.toNat + 9 ≤ s.byteInLen.toNat := by
  have hpointer := hx.place.pointer
  have hfile := hx.place.file
  rw [BitVec.lt_def] at hlt
  omega

/-- An entry read without error is the next of DTAB. -/
theorem ReadsTable.recordRun {y : Emitter} (h : s.recordRun .ent x = .ok y) :
    ReadsTable s y ∧ y.1.tdM = x.1.tdM ∧ y.1.tdI.toNat = x.1.tdI.toNat + 1 := by
  have hplace := hx.place.recordRun hlt h
  obtain ⟨i, hi, hf, heffect⟩ := exists_decode_of_recordRun (f := .ent) (hx.entry_inside hlt) h
  cases i with
  | ent sym l p =>
    rw [State.recordEffect] at heffect
    split at heffect
    next => cases heffect
    next hcheck =>
      cases heffect
      obtain ⟨hlegal, htable⟩ := hx.table.concat sym hcheck
      have hidx : (x.1.tdI + 1).toNat = x.1.tdI.toNat + 1 := by bv_omega
      refine ⟨⟨hplace, hx.header, fun k e hk => ?_, htable⟩, rfl, hidx⟩
      replace hk : (x.1.dtab ++ [_])[k]? = some e := hk
      obtain hold | hnew := Nat.lt_or_ge k x.1.dtab.length
      · exact hx.entries k e (by rwa [List.getElem?_append_left hold] at hk)
      · rw [List.getElem?_append_right hnew, List.getElem?_singleton] at hk
        split at hk
        next hlast =>
          obtain rfl := Option.some.inj hk
          have hnumber : x.1.rdPtr.toNat = 2 + 9 * k := by
            rw [hx.place.pointer, ← hx.place.read]
            omega
          exact ⟨sym, l, p, hnumber ▸ hi, wellFormed_ent.mpr hlegal, rfl⟩
        next => cases hk
  | _ => cases hf

end Entry

/-- Phase TD reads on to the last entry (45_table_deserializer.md R185). -/
theorem ReadsTable.entriesRun {s : State} {n : Nat} {x y : Emitter} (hx : ReadsTable s x)
    (hn : x.1.tdM.toNat ≤ x.1.tdI.toNat + n) (h : s.entriesRun n x = .ok y) :
    ReadsTable s y ∧ y.1.tdM = x.1.tdM ∧ y.1.tdI = y.1.tdM := by
  induction n generalizing x with
  | zero =>
    cases h
    exact ⟨hx, rfl, BitVec.eq_of_toNat_eq (hx.place.left.antisymm hn)⟩
  | succ n ih =>
    rw [State.entriesRun] at h
    split at h
    next hlt =>
      obtain ⟨z, hz, hrest⟩ := except_bind_eq_ok_iff.mp h
      obtain ⟨hnext, hsize, hidx⟩ := hx.recordRun hlt hz
      obtain ⟨hend, hkept, hwhole⟩ := ih hnext (by rw [hsize, hidx]; omega) hrest
      exact ⟨hend, hkept.trans hsize, hwhole⟩
    next hge =>
      cases h
      exact ⟨hx, rfl, BitVec.eq_of_toNat_eq (hx.place.left.antisymm (Nat.le_of_not_lt hge))⟩

/-- Phase TD done: the whole table has been read. -/
structure TableOf (s : State) (z : Emitter) : Prop extends ReadsTable s z where
  whole : z.1.tdI = z.1.tdM

theorem tableOf_of_tableRun {s : State} {z : Emitter} (h : s.tableRun = .ok z) : TableOf s z := by
  obtain ⟨y, hy, hrest⟩ := except_bind_eq_ok_iff.mp h
  obtain ⟨hreads, -, hwhole⟩ := (readsTable_of_headerRun hy).entriesRun (by rw [Work.entriesLeft]; omega) hrest
  exact ⟨hreads, hwhole⟩

section TableOf
variable {s : State} {z : Emitter} (h : TableOf s z)
include h

theorem TableOf.length : z.1.dtab.length = z.1.tdM.toNat := h.place.read.trans (congrArg _ h.whole)

theorem TableOf.pointer : z.1.rdPtr.toNat = 2 + 9 * z.1.dtab.length := by rw [h.place.read, h.place.pointer]

theorem TableOf.dtabN : z.1.dtabN = z.1.tdM := by rw [Work.dtabN, h.length, BitVec.ofNat_toNat, BitVec.setWidth_eq]

end TableOf

/-! ### A file with a legal table -/

/-- The file begins with the table of `m` legal entries with different keys (45_table_deserializer.md R189). -/
structure GoodTable (s : State) (m : BitVec 16) : Prop where
  header : decode .hdr (s.inputFile.take 2) = .ok (.hdr m, [])
  inside : 2 + 9 * m.toNat ≤ s.byteInLen.toNat
  room : m.toNat ≤ s.params.nMax
  legal : ∀ i, i < m.toNat → ∃ sym l p,
    decode .ent ((s.inputFile.drop (2 + 9 * i)).take 9) = .ok (.ent sym l p, []) ∧
    (Instr.ent sym l p).wellFormed = true
  distinct : ∀ i j sym sym' l p, i < j → j < m.toNat →
    decode .ent ((s.inputFile.drop (2 + 9 * i)).take 9) = .ok (.ent sym l p, []) →
    decode .ent ((s.inputFile.drop (2 + 9 * j)).take 9) ≠ .ok (.ent sym' l p, [])

section Good
variable {s : State} {m : BitVec 16} (hgood : GoodTable s m) (hfit : fits s.params.byteInCap s.byteInLen.toNat = true)
include hgood hfit

theorem GoodTable.headerRun : ∃ y, s.headerRun = .ok y ∧ y.1.tdM = m := by
  have hinside := hgood.inside
  have hrecord : s.recordRun .hdr (Work.start .decode (s.cfg = 1), s.symOut) =
      s.recordEffect (Work.start .decode (s.cfg = 1), s.symOut) (.hdr m) :=
    recordRun_of_decode (fits_mono hfit ((Nat.le_add_right 2 _).trans hinside)) ((Nat.le_add_right 2 _).trans hinside)
      hgood.header
  have hcheck : tdSizeCheck s.params.nMax s.byteInLen m = none := by
    rw [tdSizeCheck, if_neg (Nat.not_lt_of_le hinside), if_neg (Nat.not_lt_of_le hgood.room)]
  refine ⟨(tdHeader m (Work.start .decode (s.cfg = 1)), s.symOut), ?_, rfl⟩
  rw [State.headerRun, if_neg (by omega), hrecord, State.recordEffect, hcheck]

theorem GoodTable.recordRun {x : Emitter} (hx : ReadsTable s x) (hsize : x.1.tdM = m) (hlt : x.1.tdI < x.1.tdM) :
    ∃ y, s.recordRun .ent x = .ok y := by
  have hin := hx.entry_inside hlt
  have hlt' : x.1.tdI.toNat < m.toNat := hsize ▸ BitVec.lt_def.mp hlt
  obtain ⟨sym, l, p, hentry, hwf⟩ := hgood.legal x.1.tdI.toNat hlt'
  obtain ⟨hone, hlen, hpat⟩ := wellFormed_ent.mp hwf
  have hok : ¬ EntryFault x.1.dtab l p := by
    rintro (hzero | hlong | ⟨-, hbits⟩ | ⟨e, he, helen, hepat⟩)
    · omega
    · omega
    · exact hbits (Nat.div_eq_of_lt hpat)
    · obtain ⟨k, hk⟩ := List.mem_iff_getElem?.mp he
      obtain ⟨sym', l', p', hentry', hwf', rfl⟩ := hx.entries k e hk
      obtain ⟨-, hlen', -⟩ := wellFormed_ent.mp hwf'
      obtain rfl : p' = p := hepat
      obtain rfl : l' = l := by
        refine BitVec.eq_of_toNat_eq (Eq.trans ?_ helen)
        rw [BitVec.toNat_setWidth]
        omega
      have hbefore : k < x.1.tdI.toNat := hx.place.read ▸ (List.getElem?_eq_some_iff.mp hk).1
      exact hgood.distinct k _ sym' sym l' p' hbefore hlt' hentry' hentry
  obtain ⟨hfault, -⟩ | ⟨-, hcheck⟩ := tdCheck_cases x.1.dtab l p
  · exact absurd hfault hok
  · refine ⟨(tdEntry sym l p x.1, x.2), ?_⟩
    rw [recordRun_of_decode (fits_mono hfit hin) hin (hx.place.pointer.symm ▸ hentry), State.recordEffect, hcheck]

theorem GoodTable.entriesRun {n : Nat} {x : Emitter} (hx : ReadsTable s x) (hsize : x.1.tdM = m) :
    ∃ y, s.entriesRun n x = .ok y := by
  induction n generalizing x with
  | zero => exact ⟨x, rfl⟩
  | succ n ih =>
    rw [State.entriesRun]
    split
    next hlt =>
      obtain ⟨y, hy⟩ := hgood.recordRun hfit hx hsize hlt
      obtain ⟨hnext, hkept, -⟩ := hx.recordRun hlt hy
      rw [hy, except_ok_bind]
      exact ih hnext (hkept.trans hsize)
    next => exact ⟨x, rfl⟩

theorem GoodTable.tableRun : ∃ z, s.tableRun = .ok z ∧ z.1.tdM = m := by
  obtain ⟨y, hy, hsize⟩ := hgood.headerRun hfit
  have hreads := readsTable_of_headerRun hy
  obtain ⟨z, hz⟩ := hgood.entriesRun hfit (n := y.1.entriesLeft) hreads hsize
  obtain ⟨-, hkept, -⟩ := hreads.entriesRun (by rw [Work.entriesLeft]; omega) hz
  refine ⟨z, ?_, hkept.trans hsize⟩
  rw [State.tableRun, hy, except_ok_bind, hz]

end Good

/-! ### The run of a DECODE -/

/-- A DECODE where its phase DE begins. -/
theorem decode_reaches_de {s m : State} (h : Reaches .decode .de s m) :
    s.startCheck .decode = .ok () ∧ ∃ z, s.tableRun = .ok z ∧ m = s.reading .de z := by
  obtain ⟨-, hphase, k, hk⟩ := h
  have hstep : ∀ u v, DecodeAt s u → coreStep u = .next v → DecodeAt s v := by
    intro u v hu hv
    obtain ⟨v', hv', hat, -⟩ := decodeAt_coreStep s u hu
    cases hv.symm.trans hv'
    exact hat
  cases coreRun_invariant hstep (decodeAt_start s) hk with
  | td => cases hphase
  | de hstart hz => exact ⟨hstart, _, hz, rfl⟩
  | ended => cases (decodeOutcome_phase s _).symm.trans hphase

theorem reaches_de {s : State} {z : Emitter} (hbusy : s.busy = false) (hstart : s.startCheck .decode = .ok ())
    (hz : s.tableRun = .ok z) : Reaches .decode .de s (s.reading .de z) := by
  obtain ⟨hports, hfits⟩ := startCheck_eq_ok_iff.mp hstart
  refine ⟨hbusy, rfl, 1, ?_⟩
  rw [start_ok hports hfits]
  refine coreRun_succ ((coreStep_reading_td s).trans ?_)
  rw [hz]
  rfl

/-- The units of a DECODE without error, one after another. -/
theorem decode_ok {s t : State} (h : EndOfRun .decode s t) (herr : t.err = false) :
    ∃ z y, fits s.params.byteInCap s.byteInLen.toNat = true ∧ TableOf s z ∧ Reaches .decode .de s (s.reading .de z) ∧
      s.payloadResult z = .ok y ∧ t = s.decodeDone y := by
  obtain rfl := decode_end h
  cases hrun : s.decodeRun with
  | error e =>
    rw [hrun] at herr
    cases (State.raise_err _ e).symm.trans herr
  | ok y =>
    obtain ⟨⟨⟩, hstart, hrest⟩ := except_bind_eq_ok_iff.mp hrun
    obtain ⟨z, hz, hy⟩ := except_bind_eq_ok_iff.mp hrest
    exact ⟨z, y, (startCheck_eq_ok_iff.mp hstart).2, tableOf_of_tableRun hz, reaches_de h.1 hstart hz, hy, rfl⟩

end Sys2Proof.Machine
end

