-- ==== Sys2Proof/Proofs/GreedyPayload.lean ====
section
/-! SUPPORT. Phase DE on the payload of the file against greedy matching (46_decoder.md R200, R204 to R208). -/

namespace Sys2Proof.Machine

/-! ### The bits of bytes -/

/-- The bits of a byte, most significant first (20_memory.md R68). -/
def byteBits (b : Byte) : List Bool := (List.range 8).map fun j => b.getLsbD (7 - j)

theorem unpackBits_cons (b : Byte) (bs : List Byte) : unpackBits (b :: bs) = byteBits b ++ unpackBits bs := rfl

@[simp] theorem byteBits_length (b : Byte) : (byteBits b).length = 8 := rfl

theorem byteBits_getElem {b : Byte} {j : Nat} (h : j < (byteBits b).length) : (byteBits b)[j] = b.getLsbD (7 - j) := by
  simp only [byteBits, List.getElem_map, List.getElem_range]

@[simp] theorem unpackBits_length (bytes : List Byte) : (unpackBits bytes).length = 8 * bytes.length := by
  induction bytes with
  | nil => rfl
  | cons b bs ih =>
    rw [unpackBits_cons, List.length_append, ih, byteBits_length, List.length_cons]
    omega

/-! ### Byte by byte -/

/-- Phase DE on the bits that the bytes from the read pointer on begin with. -/
theorem bytesRun_emits {s : State} {dtab : List DtEntry} (hlegal : ∀ e ∈ dtab, LegalKey e.len e.pat) {n k : Nat}
    {bits acc : List Bool} {x : Emitter} (htab : x.1.dtab = dtab) (h : Holds acc x.1) (hn : ceil8 bits.length ≤ n)
    (hpos : x.1.bitPos = 0) (hleft : x.1.bitsLeft.toNat = bits.length)
    (hbytes : bits <+: unpackBits (s.byteIn.readList x.1.rdPtr.toNat k)) (hroom : x.1.rdPtr.toNat + k < 2 ^ 35)
    (hfit : fits s.params.byteInCap (x.1.rdPtr.toNat + k) = true) (hout : x.1.outIdx.toNat + bits.length < 2 ^ 38) :
    Emits s.params.symOutCap x (greedy dtab acc bits) (s.bytesRun n x) := by
  induction n generalizing k bits acc x with
  | zero =>
    have hnil : bits = [] := List.length_eq_zero_iff.mp (by rw [ceil8] at hn; omega)
    exact hnil ▸ .done ⟨rfl, rfl, rfl, h⟩
  | succ n ih =>
    by_cases hnil : bits = []
    case pos =>
      rw [bytesRun_end s _ (BitVec.eq_of_toNat_eq (by rw [hleft, hnil]; rfl))]
      exact hnil ▸ .done ⟨rfl, rfl, rfl, h⟩
    case neg =>
      have hlen := List.length_pos_iff.mpr hnil
      have hceil := ceil8_drop hnil
      have hle := hbytes.length_le
      rw [unpackBits_length, Memory.readList_length] at hle
      obtain ⟨k, rfl⟩ : ∃ k', k = k' + 1 := Nat.exists_eq_succ_of_ne_zero (by omega)
      have hzero : x.1.bitPos.toNat = 0 := congrArg BitVec.toNat hpos
      have htake : (bits.take 8).length = min 8 bits.length := List.length_take
      have hcount : bitsOfByte x.1 = (bits.take 8).length := by rw [bitsOfByte, hzero, hleft, htake]
      rw [Memory.readList, unpackBits_cons] at hbytes
      have hfirst : bits.take 8 <+: byteBits (s.byteIn.read x.1.rdPtr.toNat) :=
        (hbytes.take 8).trans (by rw [List.take_left' (byteBits_length _)])
      have hmore : bits.drop 8 <+: unpackBits (s.byteIn.readList (x.1.rdPtr.toNat + 1) k) :=
        (hbytes.drop 8).trans (by rw [List.drop_left' (byteBits_length _)])
      have hne : x.1.bitsLeft ≠ 0 := by bv_omega
      have hbyte := deBits_emits (cap := s.params.symOutCap) (byte := s.byteIn.read x.1.rdPtr.toNat) hlegal htab h
        (bits := bits.take 8) (by omega)
        (fun j hj => by rw [hzero, Nat.zero_add, hfirst.getElem hj, byteBits_getElem]) (by omega)
      have hsplit := greedy_append dtab acc (bits.take 8) (bits.drop 8)
      rw [List.take_append_drop] at hsplit
      rw [State.bytesRun, if_neg hne, recordRun_pay (fits_mono hfit (by omega)) rfl, hcount, hsplit]
      refine hbyte.bind fun y hy hemitted => ?_
      obtain ⟨hplace, hleft'⟩ := deBits_reader hy (by omega) (by omega)
      rw [hleft, htake] at hleft'
      have hemittedLen := hemitted.outIdx
      have hsymbols := greedy_length_le dtab acc (bits.take 8)
      have hdrop : (bits.drop 8).length = bits.length - 8 := List.length_drop
      obtain hlast | hmore8 := le_or_gt bits.length 8
      · rw [bytesRun_end s n (BitVec.eq_of_toNat_eq (hleft'.trans (by show _ = 0; omega))), List.drop_eq_nil_of_le hlast]
        exact .done ⟨rfl, rfl, rfl, hemitted.acc⟩
      · have hptr : y.1.rdPtr.toNat = x.1.rdPtr.toNat + 1 := by bv_omega
        refine ih (hemitted.table.trans htab) hemitted.acc (by omega) (by bv_omega) (by omega) (hptr ▸ hmore)
          (by omega) ?_ (by omega)
        rwa [hptr, Nat.add_assoc, Nat.add_comm 1]

/-! ### The whole payload -/

/-- The payload bits behind a table of `n` entries: all of them, or the first DEC_BITS (46_decoder.md R205, R206). -/
def State.payloadBits (s : State) (n : Nat) : List Bool :=
  if s.cfg = 1 then (unpackBits (s.inputFile.drop (2 + 9 * n))).take s.decBits.toNat
  else unpackBits (s.inputFile.drop (2 + 9 * n))

theorem payloadBits_prefix (s : State) (n : Nat) : s.payloadBits n <+: unpackBits (s.inputFile.drop (2 + 9 * n)) := by
  rw [State.payloadBits]
  split
  · exact List.take_prefix _ _
  · exact List.prefix_rfl

theorem length_unpackBits_inputFile (s : State) (n : Nat) :
    (unpackBits (s.inputFile.drop (2 + 9 * n))).length = 8 * (s.byteInLen.toNat - (2 + 9 * n)) := by
  rw [unpackBits_length, drop_inputFile, Memory.readList_length]

section Payload
variable {s : State} {z : Emitter} (hz : TableOf s z)
include hz

theorem TableOf.avail : (s.reading .de z).avail = 8 * (s.byteInLen.toNat - (2 + 9 * z.1.dtab.length)) :=
  congrArg (fun n => 8 * (s.byteInLen.toNat - n)) hz.pointer

/-- DE counts the payload bits it is to take. -/
theorem TableOf.deStart {w : Work} (h : (s.reading .de z).deStart = .ok w) :
    w.bitsLeft.toNat = (s.payloadBits z.1.dtab.length).length ∧
    (s.cfg = 1 → (s.payloadBits z.1.dtab.length).length = s.decBits.toNat) := by
  have hlen := s.byteInLen.isLt
  have hall := length_unpackBits_inputFile s z.1.dtab.length
  have havail := hz.avail
  have hlenEn : z.1.lenEn = true ↔ s.cfg = 1 := by rw [hz.place.op.lenEn, decide_eq_true_eq]
  have hmode : (s.reading .de z).work.lenEn = z.1.lenEn := rfl
  rw [State.payloadBits]
  obtain ⟨-, -, hs⟩ | ⟨hon, hle, hs⟩ | ⟨hoff, hs⟩ := deStart_cases (s.reading .de z) <;> cases hs.symm.trans h
  · rw [if_pos (hlenEn.mp (hmode ▸ hon)), List.length_take, hall, ← havail]
    exact ⟨(Nat.min_eq_left hle).symm, fun _ => Nat.min_eq_left hle⟩
  · have hbare : ¬ s.cfg = 1 := fun h1 => Bool.false_ne_true (hoff.symm.trans (hlenEn.mpr h1))
    rw [if_neg hbare, hall, ← havail]
    exact ⟨(BitVec.toNat_ofNat ..).trans (Nat.mod_eq_of_lt (by rw [havail]; omega)), fun h1 => absurd h1 hbare⟩

/-- Phase DE up to its last check emits what greedy matching does. -/
theorem TableOf.bytesRun_emits {w : Work} (hfit : fits s.params.byteInCap s.byteInLen.toNat = true)
    (h : (s.reading .de z).deStart = .ok w) :
    Emits s.params.symOutCap (w, z.2) (greedy z.1.dtab [] (s.payloadBits z.1.dtab.length))
      (s.bytesRun w.payloadLeft (w, z.2)) := by
  obtain ⟨hleft, -⟩ := hz.deStart h
  have hframe : w = { z.1 with bitsLeft := w.bitsLeft } := deStart_frame h
  have hplace := hz.place.frame
  have hdtab : w.dtab = z.1.dtab := by rw [hframe]
  have hpos : w.bitPos = 0 := by rw [hframe, hplace]; rfl
  have hidx : w.outIdx.toNat = 0 := by rw [hframe, hplace]; rfl
  have hacc : w.accLen = 0 := by rw [hframe, hplace]; rfl
  have hpat : w.accPat = 0 := by rw [hframe, hplace]; rfl
  have hptr : w.rdPtr.toNat = 2 + 9 * z.1.dtab.length := by rw [hframe]; exact hz.pointer
  have hzero : w.bitPos.toNat = 0 := congrArg BitVec.toNat hpos
  have hprefix := payloadBits_prefix s z.1.dtab.length
  have hle := hprefix.length_le
  rw [length_unpackBits_inputFile] at hle
  have hfile := hz.place.file
  have hsize := hz.length
  have hlen := s.byteInLen.isLt
  have hend : w.rdPtr.toNat + (s.byteInLen.toNat - (2 + 9 * z.1.dtab.length)) = s.byteInLen.toNat := by omega
  refine Machine.bytesRun_emits (k := s.byteInLen.toNat - (2 + 9 * z.1.dtab.length)) hz.table.legal hdtab
    (holds_nil hacc hpat) ?_ hpos hleft ?_ (hend.trans_lt hlen) (hend.symm ▸ hfit) ?_
  · rw [payloadLeft_eq, ceil8, ← hleft]
    split <;> omega
  · rwa [hptr, ← drop_inputFile]
  · dsimp only
    omega

theorem TableOf.payloadResult_eq_ok {y : Emitter} (hfit : fits s.params.byteInCap s.byteInLen.toNat = true)
    (h : s.payloadResult z = .ok y) :
    (∃ w, (s.reading .de z).deStart = .ok w) ∧
    y.1.dtab = z.1.dtab ∧ Holds (greedy z.1.dtab [] (s.payloadBits z.1.dtab.length)).2 y.1 ∧
    y.1.outIdx.toNat = (greedy z.1.dtab [] (s.payloadBits z.1.dtab.length)).1.length ∧
    y.2.readList 0 y.1.outIdx.toNat = (greedy z.1.dtab [] (s.payloadBits z.1.dtab.length)).1 ∧
    (s.cfg = 1 → y.1.accLen = 0) := by
  obtain ⟨w, hw, hrest⟩ := except_bind_eq_ok_iff.mp h
  obtain ⟨y', hy', hfinish⟩ := except_bind_eq_ok_iff.mp hrest
  rw [finishCheck] at hfinish
  split at hfinish
  next => cases hfinish
  next hnone =>
    cases hfinish
    have hout := (hy' ▸ hz.bytesRun_emits hfit hw).emitted
    have hidx : w.outIdx.toNat = 0 := by rw [deStart_frame hw, State.reading, hz.place.frame]; rfl
    have hcount := hout.outIdx
    dsimp only at hcount
    rw [hidx, Nat.zero_add] at hcount
    refine ⟨⟨w, hw⟩, hout.table.trans (by rw [deStart_frame hw]; rfl), hout.acc, hcount, ?_, fun hmode => ?_⟩
    · rw [hcount, hout.output]
      dsimp only
      rw [hidx, Memory.readList_writeList]
    · by_contra hacc
      have hop := (hz.place.op.deStart hw).bytesRun (x := (w, z.2)) hy'
      exact hnone ⟨hacc, hop.lenEn.trans (decide_eq_true hmode)⟩

/-- In bare mode nothing but a full SYM_OUT ends phase DE with an error (46_decoder.md R205). -/
theorem TableOf.payloadResult_bare (hmode : s.cfg ≠ 1) (hfit : fits s.params.byteInCap s.byteInLen.toNat = true) :
    ∃ w : Work, Emits s.params.symOutCap (w, z.2) (greedy z.1.dtab [] (s.payloadBits z.1.dtab.length))
      (s.payloadResult z) := by
  have hoff : z.1.lenEn = false := hz.place.op.lenEn.trans (decide_eq_false hmode)
  obtain ⟨w, hw⟩ : ∃ w, (s.reading .de z).deStart = .ok w :=
    ⟨_, if_neg (fun hon : z.1.lenEn = true => Bool.false_ne_true (hoff.symm.trans hon))⟩
  have hemits := hz.bytesRun_emits hfit hw
  refine ⟨w, ?_⟩
  rw [State.payloadResult, hw, except_ok_bind]
  cases hy : s.bytesRun w.payloadLeft (w, z.2) with
  | error e =>
    rw [hy] at hemits
    exact hemits
  | ok y =>
    have hop := (hz.place.op.deStart hw).bytesRun (x := (w, z.2)) hy
    have hfinish : finishCheck y = .ok y := if_neg fun h => hmode (of_decide_eq_true (hop.lenEn.symm.trans h.2))
    rw [except_ok_bind, hfinish]
    exact hy ▸ hemits

end Payload

end Sys2Proof.Machine
end

