-- ==== Sys2Proof/Proofs/DecodeResults.lean ====
section
/-! The statements about a whole DECODE (45_table_deserializer.md, 46_decoder.md, 47_commands.md). -/

namespace Sys2Proof
open Machine

/-- Settles O50: DTAB holds the entries of the file as they have been read. -/
theorem decodeReadsTheTable : Obligations.DecodeReadsTheTable := by
  refine ⟨fun s m hm => ?_, fun s t ht herr => ?_⟩
  · obtain ⟨-, z, hz, rfl⟩ := decode_reaches_de hm
    have htable := tableOf_of_tableRun hz
    refine ⟨htable.header, htable.length, htable.length ▸ htable.pointer, fun i hi => ?_⟩
    obtain ⟨sym, l, p, hentry, hwf, he⟩ := htable.entries i _ (List.getElem?_eq_getElem hi)
    exact ⟨sym, l, p, hentry, hwf, (List.getElem?_eq_getElem hi).trans (congrArg some he)⟩
  · obtain ⟨z, y, hfit, htable, hreach, hy, rfl⟩ := decode_ok ht herr
    obtain ⟨-, hdtab, -⟩ := htable.payloadResult_eq_ok hfit hy
    refine ⟨_, hreach, ?_⟩
    show y.1.dtabN = z.1.tdM
    rw [← htable.dtabN, Work.dtabN, hdtab, Work.dtabN]

/-- Settles O56: DE holds back the bits greedy matching holds back, or knows that they are more than any key has. -/
theorem decodeIsGreedy : Obligations.DecodeIsGreedy := by
  intro s t ht herr
  obtain ⟨z, y, hfit, htable, hreach, hy, rfl⟩ := decode_ok ht herr
  obtain ⟨⟨w, hw⟩, -, hacc, hcount, hout, hmode⟩ := htable.payloadResult_eq_ok hfit hy
  refine ⟨_, hreach, fun bits hbits => ?_⟩
  obtain rfl : bits = s.payloadBits z.1.dtab.length := hbits
  have hresid : y.1.accLen = 0 ↔ (greedy z.1.dtab [] (s.payloadBits z.1.dtab.length)).2 = [] := by
    have hlength := hacc.length
    rw [← BitVec.toNat_inj, hlength, ← List.length_eq_zero_iff]
    show min 33 _ = 0 ↔ _
    omega
  refine ⟨(htable.deStart hw).2, hout, hcount.trans_le (greedy_length_le _ _ _), hacc.length, ?_, fun h => ⟨hmode h, ?_⟩⟩
  · exact decide_eq_true_iff.trans (not_congr hresid)
  · exact decide_eq_false (not_not.mpr (hmode h))

/-- Settles O21: no check of TD finds a fault in the table, and in bare mode with room DE has nothing to fail. -/
theorem decodeBareCompletes : Obligations.DecodeBareCompletes := by
  intro s m hbusy hmode hport2 hport3 hfit hroom hheader hinside hmax hlegal hdistinct
  have hgood : GoodTable s m := ⟨hheader, hinside, hmax, hlegal, hdistinct⟩
  obtain ⟨z, hz, hsize⟩ := hgood.tableRun hfit
  have htable := tableOf_of_tableRun hz
  have hstart : s.startCheck .decode = .ok () :=
    startCheck_eq_ok_iff.mpr ⟨Bool.and_eq_true_iff.mpr ⟨hport2, hport3⟩, hfit⟩
  obtain ⟨w, hemits⟩ := htable.payloadResult_bare (by rw [hmode]; decide) hfit
  obtain ⟨y, hresult⟩ := hemits.ok_of_fits (.inr (by rw [hroom]; rfl))
  have hrun : s.decodeRun = .ok y := by
    rw [State.decodeRun, hstart, hz]
    exact hresult
  refine ⟨_, congrArg _ (command_idle hbusy .decode), decode_ends hbusy, ?_⟩
  rw [hrun]
  obtain ⟨-, hdtab, -⟩ := htable.payloadResult_eq_ok hfit hresult
  refine ⟨rfl, rfl, ?_⟩
  show y.1.dtabN = m
  rw [← hsize, ← htable.dtabN, Work.dtabN, hdtab, Work.dtabN]

end Sys2Proof
end

