-- ==== Sys2Proof/Proofs/BareRoundTrip.lean ====
section
/-! SUPPORT. DECODE in bare mode of the file an ENCODE has written: the pad bits of the last byte are zeros
(47_commands.md R221). -/

namespace Sys2Proof.Machine

/-! ### The bits of packed bytes -/

theorem byteBits_payloadByte (bits : List Bool) :
    byteBits (payloadByte bits 0) = bits.take 8 ++ List.replicate (8 - bits.length) false := by
  refine List.ext_getElem (by simp; omega) fun j hj _ => ?_
  rw [byteBits_length] at hj
  rw [byteBits_getElem, getLsbD_payloadByte _ _ hj, Nat.mul_zero, Nat.zero_add, List.getD_eq_getElem?_getD,
    List.getElem_append]
  split
  next hin =>
    rw [List.length_take] at hin
    rw [List.getElem_take, List.getElem?_eq_getElem (by omega), Option.getD_some]
  next hout =>
    rw [List.length_take] at hout
    rw [List.getElem_replicate, List.getElem?_eq_none (by omega), Option.getD_none]

/-- Packed bits are the bits again, with at most 7 zeros behind (30_encoding.md R96). -/
theorem exists_unpackBits_packBits (bits : List Bool) :
    ∃ n ≤ 7, unpackBits (packBits bits) = bits ++ List.replicate n false := by
  by_cases hnil : bits = []
  case pos => exact ⟨0, by decide, hnil ▸ rfl⟩
  case neg =>
    have hpos := List.length_pos_iff.mpr hnil
    rw [packBits_cons hnil, unpackBits_cons, byteBits_payloadByte]
    obtain hlast | hmore := le_or_gt bits.length 8
    · refine ⟨8 - bits.length, by omega, ?_⟩
      rw [List.drop_eq_nil_of_le hlast, List.take_of_length_le hlast]
      exact List.append_nil _
    · obtain ⟨n, hn, hrest⟩ := exists_unpackBits_packBits (bits.drop 8)
      refine ⟨n, hn, ?_⟩
      rw [hrest, Nat.sub_eq_zero_of_le hmore.le, List.replicate_zero, List.append_nil, ← List.append_assoc,
        List.take_append_drop]
termination_by bits.length
decreasing_by rw [List.length_drop]; omega

/-! ### Greedy matching of keys and of zeros -/

theorem keyOf_eq_some {dtab : List DtEntry} {acc : List Bool} {e : DtEntry} (h : keyOf dtab acc = some e) :
    e ∈ dtab ∧ entryBits e = acc := by
  have hkey := List.find?_some h
  exact ⟨List.mem_of_find?_eq_some h, of_decide_eq_true hkey⟩

section Keys
variable {dtab : List DtEntry} (htable : PrefixTable dtab)
include htable

/-- The rest of a key of which the accumulator holds the beginning. -/
theorem greedy_rest_of_key {e : DtEntry} (he : e ∈ dtab) {acc rest : List Bool} (hne : rest ≠ [])
    (h : acc ++ rest = entryBits e) : greedy dtab acc rest = ([e.sym], []) := by
  induction rest generalizing acc with
  | nil => exact absurd rfl hne
  | cons b rest ih =>
    have hsplit : acc ++ [b] ++ rest = entryBits e := (List.append_assoc acc [b] rest).trans h
    have hsame : ∀ e', keyOf dtab (acc ++ [b]) = some e' → e' = e := by
      intro e' hkey
      obtain ⟨he', hbits⟩ := keyOf_eq_some hkey
      exact htable.apart e' he' e he (hbits ▸ hsplit ▸ List.prefix_append _ _)
    by_cases hlast : rest = []
    · subst hlast
      rw [List.append_nil] at hsplit
      have hfound : (keyOf dtab (acc ++ [b])).isSome :=
        List.find?_isSome.mpr ⟨e, he, decide_eq_true hsplit.symm⟩
      obtain ⟨e', hkey⟩ := Option.isSome_iff_exists.mp hfound
      obtain rfl := hsame e' hkey
      rw [greedy_of_key hkey]
      rfl
    · have hnone : keyOf dtab (acc ++ [b]) = none := by
        refine Option.eq_none_iff_forall_ne_some.mpr fun e' hkey => hlast ?_
        obtain rfl := hsame e' hkey
        exact List.append_right_eq_self.mp (hsplit.trans (keyOf_eq_some hkey).2)
      rw [greedy_of_no_key hnone]
      exact ih hlast hsplit

/-- Keys one after another are matched one by one. -/
theorem greedy_of_entries {es : List DtEntry} (hknown : ∀ e ∈ es, e ∈ dtab) :
    greedy dtab [] (es.map entryBits).flatten = (es.map DtEntry.sym, []) := by
  induction es with
  | nil => rfl
  | cons e es ih =>
    obtain ⟨he, hrest⟩ := List.forall_mem_cons.mp hknown
    have hne : entryBits e ≠ [] := List.length_pos_iff.mp ((entryBits_length e).symm ▸ (htable.legal e he).1)
    rw [List.map_cons, List.flatten_cons, greedy_append, greedy_rest_of_key htable he hne rfl, ih hrest]
    rfl

end Keys

/-- What zeros emit has a key of zeros only. -/
theorem greedy_zeros (dtab : List DtEntry) (m n : Nat) :
    ∀ x ∈ (greedy dtab (List.replicate m false) (List.replicate n false)).1,
      ∃ e ∈ dtab, e.sym = x ∧ ∃ k, entryBits e = List.replicate (k + 1) false := by
  induction n generalizing m with
  | zero => nofun
  | succ n ih =>
    have hnext : List.replicate m false ++ [false] = List.replicate (m + 1) false := List.replicate_succ'.symm
    rw [List.replicate_succ]
    cases hkey : keyOf dtab (List.replicate m false ++ [false]) with
    | none =>
      rw [greedy_of_no_key hkey, hnext]
      exact ih (m + 1)
    | some e =>
      obtain ⟨he, hbits⟩ := keyOf_eq_some hkey
      rw [greedy_of_key hkey]
      exact List.forall_mem_cons.mpr ⟨⟨e, he, rfl, m, hbits.trans hnext⟩, ih 0⟩

/-! ### The codes of the table -/

theorem FtSorted.nodup {ft : List FtEntry} (h : FtSorted ft) : (ft.map FtEntry.sym).Nodup :=
  List.pairwise_map.mpr (h.imp ne_of_slt)

/-- A sorted FT has one entry for a Symbol, so `EN.LOOKUP` finds it (43_encoder_packer.md R161). -/
theorem enLookup_of_getElem? {ft : List FtEntry} (hsorted : FtSorted ft) {i : Nat} {e : FtEntry} (he : ft[i]? = some e) :
    enLookup e.sym ft = .ok i := by
  obtain ⟨j, hj⟩ := exists_enLookup (List.mem_map_of_mem (f := FtEntry.sym) (List.mem_of_getElem? he))
  obtain ⟨e', he', hsym⟩ := enLookup_eq_ok hj
  have hlt : i < (ft.map FtEntry.sym).length := by
    rw [List.length_map]
    exact (List.getElem?_eq_some_iff.mp he).1
  obtain rfl : i = j := by
    refine (List.getElem?_inj hlt hsorted.nodup).mp ?_
    rw [List.getElem?_map, List.getElem?_map, he, he', Option.map_some, Option.map_some, hsym]
  exact hj

/-- The key of an entry of the table is the code of its Symbol (45_table_deserializer.md R192). -/
theorem entryBits_of_mem_dtEntries {w : Work} (hsorted : FtSorted w.ft) {e : DtEntry} (he : e ∈ w.dtEntries 0 w.ft) :
    (∃ x ∈ w.ft, x.sym = e.sym) ∧ w.codeOf e.sym = entryBits e := by
  obtain ⟨⟨x, i⟩, hp, rfl⟩ := List.mem_map.mp he
  have hx := List.mem_zipIdx_iff_getElem?.mp hp
  exact ⟨⟨x, List.mem_of_getElem? hx, rfl⟩, codeOf_of_enLookup (enLookup_of_getElem? hsorted hx)⟩

/-! ### The round trip -/

/-- A DECODE in bare mode, in `d`, of the file an ENCODE of `s` has written. -/
theorem decodeRun_of_file_bare {s d : State} {v : Work} {y : Writer} (hlegal : s.params.Legal) (hfile : FileOf s v y)
    (hparams : d.params = s.params) (hmode : d.cfg = 0) (hstart : d.startCheck .decode = .ok ())
    (hinput : d.inputFile = v.fileBytes s.inputSymbols) :
    d.decodeRun = .error .ioError ∨
    (∃ x n, d.decodeRun = .ok x ∧ n ≤ 7 ∧ x.2.readList 0 x.1.outIdx.toNat =
      s.inputSymbols ++ (greedy (v.dtEntries 0 v.ft) [] (List.replicate n false)).1) := by
  obtain ⟨hcodes, hroom, -, hknown, -, -, -, -⟩ := hfile
  obtain ⟨-, hfit⟩ := startCheck_eq_ok_iff.mp hstart
  have hmax := hlegal.2
  have htableLen : v.tableBytes.length = 2 + 9 * v.ft.length := by
    rw [Work.tableBytes, List.length_append, entriesBytes_length]
    rfl
  have hsize : d.byteInLen.toNat = 2 + 9 * v.ft.length + ceil8 (v.bitstream s.inputSymbols).length := by
    rw [← fileBytes_length, ← hinput, State.inputFile, Memory.readList_length]
  have hbytes : d.byteIn.readList 0 (2 + 9 * v.ft.length) = v.tableBytes := by
    rw [← Memory.take_readList d.byteIn (k := d.byteInLen.toNat) 0 (by omega)]
    exact (congrArg (List.take _) hinput).trans (List.take_left' htableLen)
  obtain ⟨z, hz, -, hdtab⟩ := tableRun_reads_table (w := v) (s := d) hfit (by omega) (hparams ▸ hroom)
    (by omega) hbytes (legalTable_of_usableCodes hcodes.usable)
  have htable := tableOf_of_tableRun hz
  have hbare : d.cfg ≠ 1 := by rw [hmode]; decide
  obtain ⟨n, hn, hunpack⟩ := exists_unpackBits_packBits (v.bitstream s.inputSymbols)
  have hbits : d.payloadBits z.1.dtab.length = v.bitstream s.inputSymbols ++ List.replicate n false := by
    rw [State.payloadBits, if_neg hbare, hinput, hdtab, Work.dtEntries_length, Work.fileBytes,
      List.drop_left' htableLen, hunpack]
  obtain ⟨es, hes, hsyms, hstream⟩ := exists_entries_of_bitstream hknown
  have hgreedy : (greedy z.1.dtab [] (d.payloadBits z.1.dtab.length)).1 =
      s.inputSymbols ++ (greedy (v.dtEntries 0 v.ft) [] (List.replicate n false)).1 := by
    rw [hbits, hdtab, greedy_append, ← hstream, greedy_of_entries hcodes.prefixTable hes, hsyms]
  have hresult : d.decodeRun = d.payloadResult z := by
    rw [State.decodeRun, hstart, hz]
    rfl
  rw [hresult]
  obtain ⟨w, hemits⟩ := htable.payloadResult_bare hbare hfit
  cases hx : d.payloadResult z with
  | error e =>
    rw [hx] at hemits
    cases hemits
    exact .inl rfl
  | ok x =>
    obtain ⟨-, -, -, -, hout, -⟩ := htable.payloadResult_eq_ok hfit hx
    exact .inr ⟨x, n, rfl, hn, hout.trans hgreedy⟩

/-- An ENCODE without error and the state where its phase EN begins: one FT, sorted, and one set of codes. -/
theorem encode_fileOf {s m t : State} (hparams : s.params.Legal) (hm : Reaches .encode .en s m)
    (ht : EndOfRun .encode s t) (herr : t.err = false) :
    ∃ v y, t = s.encodeDone y ∧ FileOf s v y ∧ FtSorted v.ft ∧ m.work.ft = v.ft ∧ m.work.code = v.code := by
  obtain ⟨y, hy, rfl⟩ := encode_ok ht herr
  obtain ⟨-, w, hw, v, hv, z, hz, hend⟩ := encodeRun_eq_ok_iff.mp hy
  obtain ⟨w', hw', v', hv', z', hz', rfl⟩ := encode_reaches_en hm
  obtain rfl := Except.ok.inj (hw.symm.trans hw')
  obtain rfl := Except.ok.inj (hv.symm.trans hv')
  obtain rfl := Except.ok.inj (hz.symm.trans hz')
  have hsorted : FtSorted v.ft := (buildCodes_start hw hv).1 ▸ (ftOf_faRun hw).sorted
  have hframe : (s.encoding .en z).work = _ := tsRun_frame hz
  exact ⟨v, y, rfl, fileOf_of_units hparams hw hv hz hend, hsorted, by rw [hframe], by rw [hframe]⟩

end Sys2Proof.Machine
end

