-- ==== Sys2Proof/Proofs/RoundTripBare.lean ====
section
/-! The statement about the round trip in bare mode (47_commands.md R221). -/

namespace Sys2Proof
open Machine

/-- Settles O26: greedy matching finds the codes EN has packed, and goes on in the pad bits, at most 7 zeros. -/
theorem roundTripBareMode : Obligations.RoundTripBareMode := by
  intro s m t u hlegal hm ht herr hu hcode
  obtain ⟨v, y, rfl, hfile, hsorted, hft, hcodes⟩ := encode_fileOf hlegal hm ht herr
  obtain rfl := decode_end hu
  set d : State := { (s.encodeDone y).feed with cfg := 0 }
  by_cases hcheck : d.portsOk .decode = true ∧ d.inputFits .decode = true
  case neg =>
    have hrun : d.decodeRun = .error .ioError := by rw [State.decodeRun, State.startCheck, if_neg hcheck]; rfl
    rw [hrun] at hcode
    exact absurd (State.raise_errCode _ _) hcode
  case pos =>
    have hinput : d.inputFile = v.fileBytes s.inputSymbols :=
      (feed_byteIn_readList (s := s.encodeDone y) hcheck.2 le_rfl).trans hfile.outputFile
    obtain hrun | ⟨x, n, hrun, hn, hout⟩ := decodeRun_of_file_bare (d := d) hlegal hfile rfl rfl
      (startCheck_eq_ok_iff.mpr hcheck) hinput
    · rw [hrun] at hcode
      exact absurd (State.raise_errCode _ _) hcode
    · rw [hrun]
      refine ⟨rfl, _, hout, ((greedy_length_le _ _ _).trans_eq List.length_replicate).trans hn, fun sym hsym => ?_⟩
      obtain ⟨e, he, rfl, k, hbits⟩ := greedy_zeros _ 0 n sym hsym
      obtain ⟨hkey, hcodeOf⟩ := entryBits_of_mem_dtEntries hsorted he
      rw [codeOf_congr hft hcodes, hcodeOf, hbits, hft]
      exact ⟨hkey, List.cons_ne_nil _ _, fun b hb => List.eq_of_mem_replicate hb⟩

end Sys2Proof
end
